-- ==== Sys2Proof/Word.lean ====
section
/-! DEFINITION. The word types of the SFH-4120: bytes, keys, counters, station numbers, buckets. -/

namespace Sys2Proof

/-- One byte, as the line, the flash and the host port carry it. -/
abbrev Byte := BitVec 8

/-- A record key (R1). -/
abbrev Key := BitVec 16

/-- A stamp counter, and the station clock (R4, R11). -/
abbrev Counter := BitVec 32

/-- A station number, 0 to 31 (R155). It wraps modulo 32, as the rotation base does (R89). -/
abbrev Station := BitVec 5

/-- A bucket number, 0 to 63: the low 6 bits of a key. -/
abbrev Bucket := BitVec 6

end Sys2Proof
end

