-- ==== Sys2Proof/Config.lean ====
section
/-! DEFINITION. The fixed quantities of the part (00_scope.md, Principal quantities, and the rules named). -/

namespace Sys2Proof.Config

/-- Directory capacity (R15). -/
abbrev directoryCapacity : Nat := 1024
/-- Want List capacity (R136). -/
abbrev wantCapacity : Nat := 128
/-- Transmit Queue capacity in frames (R95). -/
abbrev txCapacity : Nat := 16
/-- Receive Queue capacity in frames (R86). -/
abbrev rxCapacity : Nat := 4
/-- Event Queue capacity (R179). -/
abbrev eventCapacity : Nat := 32
/-- Reply Queue capacity in jobs (R147). -/
abbrev replyCapacity : Nat := 8
/-- Entries in one BUCKET_REPLY part (R151). -/
abbrev partEntries : Nat := 36
/-- Entries in one LIST_KEYS reply (R174). -/
abbrev listEntries : Nat := 32
/-- Sectors of the flash array (R54). -/
abbrev sectorCount : Nat := 64
/-- Bytes of one sector (R54). -/
abbrev sectorBytes : Nat := 4096
/-- Bytes of one granule (R54). -/
abbrev granuleBytes : Nat := 16
/-- Granules of a sector that can hold images (R54). -/
abbrev imageGranules : Nat := 255
/-- Suspensions one erase may meet (R64). -/
abbrev maxSuspensions : Nat := 8
/-- Collisions after which a frame is discarded (R93). -/
abbrev maxCollisions : Nat := 8
/-- Slots of a contention cycle (R88). -/
abbrev cycleSlots : Nat := 32
/-- Fetch attempts and profile attempts after which the part gives up (R105, R144). -/
abbrev maxAttempts : Nat := 3
/-- Bucket queries issued for one pair (R132). -/
abbrev maxPairAttempts : Nat := 2
/-- Largest record value (R4). -/
abbrev maxValue : Nat := 240
/-- Largest frame payload (R80). -/
abbrev maxPayload : Nat := 256
/-- Bytes of the configuration area below the lock marker (R160). -/
abbrev coveredBytes : Nat := 61
/-- The group bytes at the start of the area (R160). -/
abbrev groupCount : Nat := 36
/-- Bytes of the Profile Table (R166). -/
abbrev profileBytes : Nat := 92
/-- The exhausted clock (R12). -/
def clockExhausted : Counter := 0xFFFFFFFF
/-- The largest erase count (R184). -/
def maxEraseCount : BitVec 16 := 0xFFFE
/-- What adding 1 to the highest sequence number FFFFFFFFh gives (R62): the spec states no result, so the value is free
(DESIGN CHOICE, log 24). Nothing evaluates it; a sequence number taken so is the free value of its turn. -/
opaque freeSeq : Nat → BitVec 32
/-- The broadcast destination (R80). -/
def broadcast : Byte := 0x3F
/-- The start delimiter (R183). -/
def startDelimiter : Byte := 0xC5

end Sys2Proof.Config
end

