-- ==== Sys2Proof/Syntax.lean ====
section
/-! DEFINITION. The commands of the block: one constructor of Instr for each row of spec/opcode_table.json. -/

namespace Sys2Proof

/-- What a power-on or pin reset leaves of the work it cuts off (R79, R156). DEDUCED, log 5: the spec says
that the work is torn, not which bits it had reached, so the sender of the reset says it. -/
structure Cut where
  /-- Granules of the flash program in flight that had been programmed whole, in program order (R54: header granule first). -/
  whole : Nat
  /-- For the next granule, or for a marker or an erase count in flight: the bits each byte had NOT yet taken. -/
  notYet : List Byte
  /-- For an erase in flight: (offset in the sector, bits already set) of the sector's body (R55: body before header). -/
  erased : List (Nat × Byte)
  /-- For a programming of the configuration area in flight: the bits each named byte had NOT yet taken. -/
  config : List Byte
  deriving DecidableEq, Repr

/-- One command: a row of the table of operations and events. -/
inductive Instr where
  /-- STATUS (R177). -/
  | status
  /-- GET_REPLY (R171). -/
  | getReply
  /-- READ_EVENT (R180). -/
  | readEvent
  /-- READ_PROFILE with its starting offset (R168). -/
  | readProfile (offset : Byte)
  /-- SOFT_RESET (R178). The operand is no argument of the command: it is what an erase abandoned by the soft reset
  had reached, (offset in the sector, bits already set), which the spec leaves open (R79; log 5). -/
  | softReset (erased : List (Nat × Byte))
  /-- ACK_DIVERGED (R178). -/
  | ackDiverged
  /-- WRITE_RECORD with key and value; the length byte is the value's length (R172). -/
  | writeRecord (key : Key) (value : List Byte)
  /-- DELETE_RECORD with key (R172). -/
  | deleteRecord (key : Key)
  /-- READ_RECORD with key (R173). -/
  | readRecord (key : Key)
  /-- LIST_KEYS with start key (R174). -/
  | listKeys (start : Key)
  /-- READ_PEERS (R175). -/
  | readPeers
  /-- SYNC_NOW (R176). -/
  | syncNow
  /-- PROGRAM_CONFIG with offset and bytes; the count byte is the number of bytes (R161). -/
  | programConfig (offset : Byte) (bytes : List Byte)
  /-- LOCK_CONFIG (R162). -/
  | lockConfig
  /-- UNKNOWN_COMMAND: a command byte that names no command (R169). -/
  | unknownCommand (code : Byte)
  /-- TRANSACTION_END: SSN goes high after the host has clocked out this many bytes of the answer (R171, R180). -/
  | transactionEnd (clocked : Nat)
  /-- CONFIG_PROGRAM_DONE; the operand gives, byte by byte, the bits that did not take (none where it is short) (R161). -/
  | configProgramDone (failed : List Byte)
  /-- LOCK_CHECK_PROGRAMMED; bits of the two check bytes that did not take (R162). -/
  | lockCheckProgrammed (failed : List Byte)
  /-- LOCK_MARKER_PROGRAMMED; bits of the marker that did not take (R162). -/
  | lockMarkerProgrammed (failed : Byte)
  /-- POWER_ON_RESET: the supply falls out of range or first rises (R156). -/
  | powerOnReset (cut : Cut)
  /-- POWER_ON_RESET_END, with the straps as they stand (R155, R156). -/
  | powerOnResetEnd (straps : Station)
  /-- PIN_RESET: RESET driven low (R156). -/
  | pinReset (cut : Cut)
  /-- PIN_RESET_END: RESET released, with the straps as they stand (R155, R156). -/
  | pinResetEnd (straps : Station)
  /-- SOFT_RESET_WAIT_END, with the straps as they stand (R155, R157). -/
  | softResetWaitEnd (straps : Station)
  /-- START_UP_SCAN_END (R78). -/
  | startUpScanEnd
  /-- LISTENING_PERIOD_END (R163). -/
  | listeningPeriodEnd
  /-- SETTLING_END (R83). -/
  | settlingEnd
  /-- FRAME_START (R83). -/
  | frameStart
  /-- FRAME_END_GOOD, with the frame's bytes as heard, start delimiter to last CRC byte (R80, R85). -/
  | frameEndGood (bytes : List Byte)
  /-- FRAME_END_GARBLED (R84). -/
  | frameEndGarbled
  /-- GUARD_END (R87). -/
  | guardEnd
  /-- SLOT_START: the next slot of the running cycle starts (R88). -/
  | slotStart
  /-- CYCLE_END: all 32 slots have passed in quiet (R88, R92). -/
  | cycleEnd
  /-- COLLISION_DETECTED (R91). -/
  | collisionDetected
  /-- TRANSMIT_END (R94). -/
  | transmitEnd
  /-- WAITING_FRAME_PLACED (R95). -/
  | waitingFramePlaced
  /-- NEWS_TAKEN (R117). -/
  | newsTaken
  /-- SUPPLY_TAKEN (R140). -/
  | supplyTaken
  /-- SUMMARY_TAKEN (R123). -/
  | summaryTaken
  /-- PROFILE_TAKEN (R106). -/
  | profileTaken
  /-- BUCKET_REPLY_TAKEN (R129). -/
  | bucketReplyTaken
  /-- FETCH_TAKEN (R147). -/
  | fetchTaken
  /-- BUCKET_QUERY_TAKEN (R147). -/
  | bucketQueryTaken
  /-- PROFILE_QUERY_TAKEN (R147). -/
  | profileQueryTaken
  /-- SUMMARY_TIMER_EXPIRY (R119). -/
  | summaryTimerExpiry
  /-- PROFILE_REPLY_TIMEOUT (R105). -/
  | profileReplyTimeout
  /-- BUCKET_REPLY_TIMEOUT (R132). -/
  | bucketReplyTimeout
  /-- FETCH_REPLY_TIMEOUT of one fetch slot (R144). -/
  | fetchReplyTimeout (slot : Fin 4)
  /-- SILENCE_LIMIT of one peer (R108). -/
  | silenceLimit (peer : Station)
  /-- ABSENCE_LIMIT of one peer (R109). -/
  | absenceLimit (peer : Station)
  /-- DUPLICATE_MARK_EXPIRY of one peer (R110). -/
  | duplicateMarkExpiry (peer : Station)
  /-- READ_GRANT (R58, R59). -/
  | readGrant
  /-- APPEND_GRANT (R59, R61). -/
  | appendGrant
  /-- MARK_GRANT (R59). -/
  | markGrant
  /-- ERASE_GRANT (R59). -/
  | eraseGrant
  /-- ERASE_SUSPENDED (R64). -/
  | eraseSuspended
  /-- ERASE_RESUME (R64). -/
  | eraseResume
  /-- HOST_READ_DONE (R173). -/
  | hostReadDone
  /-- RESPONDER_READ_DONE (R149). -/
  | responderReadDone
  /-- COMPACTION_READ_DONE (R71). -/
  | compactionReadDone
  /-- UPDATE_PROGRAM_DONE; the bits, byte by byte in program order, that did not take (none where it is short) (R60). -/
  | updateProgramDone (failed : List Byte)
  /-- COPY_PROGRAM_DONE; the bits that did not take, as above (R60, R72). -/
  | copyProgramDone (failed : List Byte)
  /-- RECLAIM_MARK_DONE (R70). -/
  | reclaimMarkDone
  /-- ERASE_MARK_DONE (R73). -/
  | eraseMarkDone
  /-- ERASE_DONE; the bytes that do not read blank, (offset in the sector, bits the erase did set), none for an erase
  that succeeded; and the bits of the header's marker byte that a retired marker then did not take (R65, R66). -/
  | eraseDone (failed : List (Nat × Byte)) (markerFailed : Byte)
  /-- SETTLING_CARRIER (R83). -/
  | settlingCarrier
  /-- ERASE_COUNT_PROGRAMMED (R65). -/
  | eraseCountProgrammed
  deriving DecidableEq, Repr

end Sys2Proof
end

