-- ==== Sys2Proof/WellFormed.lean ====
section
/-! DEFINITION. Which commands can be sent at all: the bounds that the argument layouts and the flash geometry set. -/

namespace Sys2Proof

/-- The command bytes that name a command (R187). -/
def commandCodes : List Byte :=
  [0x01, 0x02, 0x03, 0x04, 0x05, 0x06, 0x10, 0x11, 0x12, 0x13, 0x14, 0x15, 0x16, 0x17]

/-- Offsets of a sector's body: an unfinished erase has not reached the header granule (R55). -/
def bodyOffsets (l : List (Nat × Byte)) : Bool :=
  l.all fun c => Config.granuleBytes ≤ c.1 && c.1 < Config.sectorBytes

/-- At most a header granule and an image of 16 are whole; one granule is torn. -/
def Cut.wellFormed (c : Cut) : Bool :=
  c.whole ≤ 17 && c.notYet.length ≤ Config.granuleBytes && bodyOffsets c.erased && c.config.length ≤ 255

/-- A command as its layout permits it: a count byte counts to 255 (R172, R161), an unknown command byte names no
command (R169), a frame has 9 to 265 bytes (R80), a failed program reaches at most a header granule and 16 granules. -/
def Instr.wellFormed : Instr → Bool
  | .writeRecord _ value => value.length ≤ 255
  | .programConfig _ bytes => bytes.length ≤ 255
  | .unknownCommand code => !commandCodes.contains code
  | .frameEndGood bytes => 9 ≤ bytes.length && bytes.length ≤ 265
  | .powerOnReset cut => cut.wellFormed
  | .pinReset cut => cut.wellFormed
  | .softReset erased => bodyOffsets erased
  | .configProgramDone failed => failed.length ≤ 255
  | .lockCheckProgrammed failed => failed.length ≤ 2
  | .updateProgramDone failed => failed.length ≤ 17 * Config.granuleBytes
  | .copyProgramDone failed => failed.length ≤ 17 * Config.granuleBytes
  | .eraseDone failed _ => failed.all fun c => c.1 < Config.sectorBytes
  | .status => true
  | .getReply => true
  | .readEvent => true
  | .readProfile _ => true
  | .ackDiverged => true
  | .deleteRecord _ => true
  | .readRecord _ => true
  | .listKeys _ => true
  | .readPeers => true
  | .syncNow => true
  | .lockConfig => true
  | .transactionEnd _ => true
  | .lockMarkerProgrammed _ => true
  | .powerOnResetEnd _ => true
  | .pinResetEnd _ => true
  | .softResetWaitEnd _ => true
  | .startUpScanEnd => true
  | .listeningPeriodEnd => true
  | .settlingEnd => true
  | .frameStart => true
  | .frameEndGarbled => true
  | .guardEnd => true
  | .slotStart => true
  | .cycleEnd => true
  | .collisionDetected => true
  | .transmitEnd => true
  | .waitingFramePlaced => true
  | .newsTaken => true
  | .supplyTaken => true
  | .summaryTaken => true
  | .profileTaken => true
  | .bucketReplyTaken => true
  | .fetchTaken => true
  | .bucketQueryTaken => true
  | .profileQueryTaken => true
  | .summaryTimerExpiry => true
  | .profileReplyTimeout => true
  | .bucketReplyTimeout => true
  | .fetchReplyTimeout _ => true
  | .silenceLimit _ => true
  | .absenceLimit _ => true
  | .duplicateMarkExpiry _ => true
  | .readGrant => true
  | .appendGrant => true
  | .markGrant => true
  | .eraseGrant => true
  | .eraseSuspended => true
  | .eraseResume => true
  | .hostReadDone => true
  | .responderReadDone => true
  | .compactionReadDone => true
  | .reclaimMarkDone => true
  | .eraseMarkDone => true
  | .settlingCarrier => true
  | .eraseCountProgrammed => true

end Sys2Proof
end

