-- ==== Sys2Proof/Decode.lean ====
section
/-! DEFINITION. The command a word spells by the bits of spec/opcode_table.json (the table gives no row any bits:
"n_rows_with_fixed" is 0 in spec/98_reader.md), and the bytes of the host commands on SPI with their reading (R169, R187). -/

namespace Sys2Proof

/-- No row of the table gives bits, so no word of any width spells a command. -/
def decodeTableWord (_nbits _w : Nat) : Option Instr := none

/-- The two bytes of a 16-bit word, high byte first (00_scope.md, Conventions). -/
def be16 (w : BitVec 16) : List Byte := [w.extractLsb' 8 8, w.extractLsb' 0 8]

/-- The 16-bit word of two bytes, high byte first. -/
def ofBe16 (hi lo : Byte) : BitVec 16 := hi ++ lo

/-- The bytes the host clocks in for a host command: code and arguments (R187). None for a step that is no host command. -/
def hostBytes : Instr → Option (List Byte)
  | .status => some [0x01]
  | .getReply => some [0x02]
  | .readEvent => some [0x03]
  | .readProfile offset => some [0x04, offset]
  | .softReset _ => some [0x05]
  | .ackDiverged => some [0x06]
  | .writeRecord key value => some (0x10 :: be16 key ++ BitVec.ofNat 8 value.length :: value)
  | .deleteRecord key => some (0x11 :: be16 key)
  | .readRecord key => some (0x12 :: be16 key)
  | .listKeys start => some (0x13 :: be16 start)
  | .readPeers => some [0x14]
  | .syncNow => some [0x15]
  | .programConfig offset bytes => some (0x16 :: offset :: BitVec.ofNat 8 bytes.length :: bytes)
  | .lockConfig => some [0x17]
  | .unknownCommand code => some [code]
  | .transactionEnd _ => none
  | .configProgramDone _ => none
  | .lockCheckProgrammed _ => none
  | .lockMarkerProgrammed _ => none
  | .powerOnReset _ => none
  | .powerOnResetEnd _ => none
  | .pinReset _ => none
  | .pinResetEnd _ => none
  | .softResetWaitEnd _ => none
  | .startUpScanEnd => none
  | .listeningPeriodEnd => none
  | .settlingEnd => none
  | .frameStart => none
  | .frameEndGood _ => none
  | .frameEndGarbled => none
  | .guardEnd => none
  | .slotStart => none
  | .cycleEnd => none
  | .collisionDetected => none
  | .transmitEnd => none
  | .waitingFramePlaced => none
  | .newsTaken => none
  | .supplyTaken => none
  | .summaryTaken => none
  | .profileTaken => none
  | .bucketReplyTaken => none
  | .fetchTaken => none
  | .bucketQueryTaken => none
  | .profileQueryTaken => none
  | .summaryTimerExpiry => none
  | .profileReplyTimeout => none
  | .bucketReplyTimeout => none
  | .fetchReplyTimeout _ => none
  | .silenceLimit _ => none
  | .absenceLimit _ => none
  | .duplicateMarkExpiry _ => none
  | .readGrant => none
  | .appendGrant => none
  | .markGrant => none
  | .eraseGrant => none
  | .eraseSuspended => none
  | .eraseResume => none
  | .hostReadDone => none
  | .responderReadDone => none
  | .compactionReadDone => none
  | .updateProgramDone _ => none
  | .copyProgramDone _ => none
  | .reclaimMarkDone => none
  | .eraseMarkDone => none
  | .eraseDone _ _ => none
  | .settlingCarrier => none
  | .eraseCountProgrammed => none

/-- The command of a transaction in which these bytes are clocked in; none while the command is not yet taken.
Bytes clocked in after the last argument byte are ignored (R169). A SOFT_RESET read here abandons no erase. -/
def takenCommand : List Byte → Option Instr
  | [] => none
  | code :: args =>
    if code = 0x01 then some .status
    else if code = 0x02 then some .getReply
    else if code = 0x03 then some .readEvent
    else if code = 0x04 then
      match args with
      | offset :: _ => some (.readProfile offset)
      | [] => none
    else if code = 0x05 then some (.softReset [])
    else if code = 0x06 then some .ackDiverged
    else if code = 0x10 then
      match args with
      | hi :: lo :: len :: rest =>
        if len.toNat ≤ rest.length then some (.writeRecord (ofBe16 hi lo) (rest.take len.toNat)) else none
      | _ => none
    else if code = 0x11 then
      match args with
      | hi :: lo :: _ => some (.deleteRecord (ofBe16 hi lo))
      | _ => none
    else if code = 0x12 then
      match args with
      | hi :: lo :: _ => some (.readRecord (ofBe16 hi lo))
      | _ => none
    else if code = 0x13 then
      match args with
      | hi :: lo :: _ => some (.listKeys (ofBe16 hi lo))
      | _ => none
    else if code = 0x14 then some .readPeers
    else if code = 0x15 then some .syncNow
    else if code = 0x16 then
      match args with
      | offset :: count :: rest =>
        if count.toNat ≤ rest.length then some (.programConfig offset (rest.take count.toNat)) else none
      | _ => none
    else if code = 0x17 then some .lockConfig
    else some (.unknownCommand code)

end Sys2Proof
end

