-- ==== Sys2Proof/Machine/State.lean ====
section
/-! DEFINITION. The state of one SFH-4120, block by block, as plain data; the two stop types; the state after reset. -/

namespace Sys2Proof.Machine

/-! ## Records (01_records_keys_and_stamps.md) -/

/-- The version mark of a record (R10). -/
structure Stamp where
  counter : Counter
  origin : Station
  deriving DecidableEq, Repr

/-- A record (R4). A tombstone has the empty value. -/
structure Record where
  key : Key
  stamp : Stamp
  tomb : Bool
  value : List Byte
  deriving DecidableEq, Repr

/-- The four class policies OPEN, OWNED, ONCE and LOCAL (R5 to R8). -/
inductive Policy where
  | openAll
  | owned
  | once
  | localOnly
  deriving DecidableEq, Repr

/-- One entry of the class table (R2). -/
structure ClassEntry where
  policy : Policy
  notify : Bool
  maxLen : Nat
  deriving DecidableEq, Repr

/-! ## Station Control and the Configuration Area (09) -/

/-- The station states of R154. -/
inductive StationState where
  | starting
  | unconfigured
  | listening
  | active
  | mute
  deriving DecidableEq, Repr

/-- What START-UP takes into force from a locked and valid area (R158). -/
structure Force where
  classes : Vector ClassEntry 16
  rate : Nat
  interval : Nat
  deriving DecidableEq, Repr

/-- Station Control, with the parts of the Profile Table that are held and not computed (R154, R155, R166). -/
structure Control where
  st : StationState
  own : Station
  /-- The supply is out of range: from POWER_ON_RESET to POWER_ON_RESET_END. -/
  power : Bool
  /-- RESET is held low: from PIN_RESET to PIN_RESET_END. -/
  pin : Bool
  /-- A soft reset waits for the work in flight (R157). -/
  softWait : Bool
  force : Option Force
  /-- When the listening period began (R163). -/
  listeningSince : Option Nat
  groupBytes : List Byte
  groupHash : BitVec 32
  uniqueId : BitVec 64
  revision : Byte
  deriving DecidableEq, Repr

/-- A programming of the configuration area in flight (R161, R162). -/
inductive ConfigProgram where
  | bytes (offset : Nat) (given : List Byte)
  | check (crc : BitVec 16)
  | marker
  deriving DecidableEq, Repr

/-- The 64 one-time programmable bytes (R160, R185). -/
structure ConfigArea where
  bytes : Vector Byte 64
  prog : Option ConfigProgram
  deriving DecidableEq, Repr

/-! ## The Record Directory (02) -/

/-- A place in flash: a sector and the granule where an image begins (R14). -/
structure Loc where
  sector : Nat
  granule : Nat
  deriving DecidableEq, Repr

/-- A directory entry (R14). The image length follows from the value length (`imageLen`). -/
structure Entry where
  key : Key
  stamp : Stamp
  tomb : Bool
  len : Nat
  loc : Loc
  deriving DecidableEq, Repr

/-- The Record Directory (R14 to R26). -/
structure Directory where
  /-- In ascending key order, one per key (R15). -/
  entries : List Entry
  checks : Vector (BitVec 16) 64
  clock : Counter
  entryCount : Nat
  sharedCount : Nat
  reservations : Nat
  deriving DecidableEq, Repr

/-! ## The Update Unit (03) -/

/-- The states of a busy update slot (R31); FREE is the absence of a slot. -/
inductive SlotPhase where
  | waitStore
  | programming (loc : Loc)
  | storeWait
  deriving DecidableEq, Repr

/-- The origin kind of a slot (R31): LOCAL with its ticket, or PEER. -/
inductive Origin where
  | host (ticket : Byte)
  | peer
  deriving DecidableEq, Repr

/-- A busy update slot (R31). -/
structure Slot where
  phase : SlotPhase
  origin : Origin
  record : Record
  reserved : Bool
  retry : Bool
  /-- The ready position: an order among the slots (R32). -/
  ready : Nat
  follower : Option Record
  deriving DecidableEq, Repr

/-- The states of a busy copy slot (R72). -/
inductive CopyPhase where
  | waitStore
  | programming (loc : Loc)
  | stalled
  deriving DecidableEq, Repr

/-- The busy copy slot: the record and the victim location it was read from (R72). -/
structure CopySlot where
  phase : CopyPhase
  record : Record
  source : Loc
  deriving DecidableEq, Repr

/-- The Update Unit (R31, R39, R52, R72). -/
structure UpdateUnit where
  slots : Vector (Option Slot) 4
  copy : Option CopySlot
  nextReady : Nat
  ticket : Byte
  divDirectory : Bool
  divStore : Bool
  deriving DecidableEq, Repr

/-! ## The Flash Store (04) -/

/-- Flash contents in canonical form: addresses strictly rising, no entry equal to the blank byte FFh, which is what an
unlisted address reads as (R54, R55, R184). -/
abbrev Memory := List Host.Cell

/-- The states of a sector (R57). -/
inductive SectorState where
  | erased
  | openForAppend
  | full
  | reclaiming
  | erasing
  | retired
  deriving DecidableEq, Repr

/-- One entry of the sector table (R56). -/
structure Sector where
  state : SectorState
  seq : Option (BitVec 32)
  eraseCount : BitVec 16
  used : Nat
  live : Nat
  reclaim : Bool
  deriving DecidableEq, Repr

/-- The block that placed a READ (R58); `discarded` when the block no longer wants its bytes (R111). -/
inductive Reader where
  | host
  | responder
  | compaction
  | discarded
  deriving DecidableEq, Repr

/-- A waiting READ (R58). An APPEND of an update slot was placed before it exactly when its ready position is below `after`
(R64). -/
structure ReadReq where
  owner : Reader
  loc : Loc
  after : Nat
  deriving DecidableEq, Repr

/-- What reading at an image boundary finds (R184): blank, an image whose check fails, or an image. -/
inductive ImageRead where
  | blank
  | bad
  | image (rec : Record)
  deriving DecidableEq, Repr

/-- The slot that placed an APPEND. -/
inductive Appender where
  | slot (i : Fin 4)
  | copy
  deriving DecidableEq, Repr

/-- The opening record an APPEND programs when it opens its sector (R62). -/
structure Opening where
  seq : BitVec 32
  eraseCount : BitVec 16
  clock : Counter
  deriving DecidableEq, Repr

/-- The two markers compaction programs (R55). -/
inductive MarkKind where
  | reclaimBegun
  | eraseBegun
  deriving DecidableEq, Repr

/-- The granted request being performed, an ERASE apart (R58). A READ's bytes are those of its grant. -/
inductive StoreOp where
  | read (owner : Reader) (found : ImageRead)
  | append (who : Appender) (loc : Loc) (opening : Option Opening) (image : List Byte)
  | mark (kind : MarkKind) (sector : Nat)
  deriving DecidableEq, Repr

/-- Where an ERASE stands (R64, R65). -/
inductive ErasePhase where
  | waiting
  | running
  | suspended
  | counting
  deriving DecidableEq, Repr

/-- An ERASE and its suspension count (R64). -/
structure EraseReq where
  sector : Nat
  suspensions : Nat
  phase : ErasePhase
  /-- Suspended, and the request that caused the suspension has not been granted yet (R64). -/
  owes : Bool := false
  deriving DecidableEq, Repr

/-- Compaction's phase, with its victim and cursor (R68). -/
inductive Compaction where
  | idle
  | marking (victim : Nat)
  | copying (victim cursor : Nat)
  | stalled (victim cursor : Nat)
  | closing (victim : Nat)
  | erasing (victim : Nat)
  deriving DecidableEq, Repr

/-- The Flash Store's RAM side (R56, R58, R64, R67, R68). -/
structure Store where
  /-- Empty, or 64 entries. -/
  sectors : List Sector
  highestSeq : BitVec 32
  reads : List ReadReq
  op : Option StoreOp
  mark : Option (MarkKind × Nat)
  erase : Option EraseReq
  comp : Compaction
  /-- Out of space when last tested (R67). -/
  low : Bool
  deriving DecidableEq, Repr

/-! ## The Line Controller (05) -/

/-- The eight frame kinds (R81). -/
inductive FrameKind where
  | summary
  | news
  | profileQuery
  | profile
  | bucketQuery
  | bucketReply
  | fetch
  | supply
  deriving DecidableEq, Repr

/-- A good frame (R80): kind code, flags, source, destination, sequence, payload. -/
structure Frame where
  code : BitVec 4
  flags : BitVec 4
  source : Station
  dest : Byte
  seq : Byte
  payload : List Byte
  deriving DecidableEq, Repr

/-- Who may wait for room in the Transmit Queue, and who is told of a transmission (R94, R95). -/
inductive Requester where
  | reply
  | profileQuery
  | bucketQuery
  | fetch (slot : Fin 4)
  deriving DecidableEq, Repr

/-- A frame in the Transmit Queue (R95). `placer` is the requester whose timer its transmission restarts (R98), none once
that requester has given the request up. A SUMMARY's payload is empty until its transmission begins (R90). -/
structure TxFrame where
  kind : FrameKind
  flags : BitVec 4
  dest : Byte
  seq : Byte
  payload : List Byte
  collisions : Nat
  placer : Option Requester
  deriving DecidableEq, Repr

/-- The four Transmit Queue classes, highest first (R95). -/
inductive TxClass where
  | replies
  | requests
  | news
  | summary
  deriving DecidableEq, Repr

/-- The transmission in progress: the class whose first frame is being sent, and the frame on TXD (R90). -/
structure Sending where
  cls : TxClass
  frame : Frame
  deriving DecidableEq, Repr

/-- The line phases (05, Hearing the line). -/
inductive LinePhase where
  | off
  | settling
  | busy
  | guardTime
  | cycle
  deriving DecidableEq, Repr

/-- The Line Controller (R83 to R97). -/
structure Line where
  phase : LinePhase
  base : Station
  seq : Byte
  txq : List TxFrame
  /-- Placers waiting for room, longest first (R95). -/
  waiting : List Requester
  rxq : List Frame
  /-- TXEN is asserted while present. -/
  sending : Option Sending
  deferral : Nat
  /-- The next slot of the running cycle to start. -/
  slot : Nat
  /-- When the present count of quiet began (SETTLING, GUARD). -/
  quietSince : Nat
  deriving DecidableEq, Repr

/-! ## The Membership Unit (06) -/

/-- The peer states (R102). -/
inductive PeerState where
  | absent
  | joining
  | present
  | silent
  | incompatible
  | duplicate
  deriving DecidableEq, Repr

/-- A peer entry (R101). -/
structure Peer where
  state : PeerState
  uniqueId : Option (BitVec 64)
  uniqueIdLow : Option (BitVec 32)
  lastClock : Option Counter
  isPartial : Bool
  lastHeard : Option Nat
  attempts : Nat
  dupMark : Option Nat
  deriving DecidableEq, Repr

/-- A request placed in the Transmit Queue: its sequence and when its reply timer last started (R98). -/
structure Placed where
  seq : Byte
  since : Nat
  deriving DecidableEq, Repr

/-- The outstanding profile query; `placed` is none while it waits for room (R105). -/
structure ProfileQuery where
  peer : Station
  placed : Option Placed
  deriving DecidableEq, Repr

/-- The Membership Unit. -/
structure Membership where
  peers : Vector Peer 32
  query : Option ProfileQuery
  deriving DecidableEq, Repr

/-! ## The Summary Unit and the Reconciler (07) -/

/-- The Summary Unit: the summary timer, stopped or started at its last expiry (R119). -/
structure SummaryUnit where
  timer : Option Nat
  deriving DecidableEq, Repr

/-- A pair of the Reconcile Queue (R126). -/
structure Pair where
  peer : Station
  bucket : Bucket
  attempts : Nat
  deriving DecidableEq, Repr

/-- The Reconciler's phases (R127). The current pair is the head of the queue. -/
inductive ReconPhase where
  | idle
  | waitingRoom
  | awaitingPart (placed : Placed) (expected : Nat)
  deriving DecidableEq, Repr

/-- The Reconciler. -/
structure Reconciler where
  queue : List Pair
  phase : ReconPhase
  deriving DecidableEq, Repr

/-! ## The Fetch Unit and the Responder (08) -/

/-- A Want entry (R136). WAITING entries stand in the list in the order of their waiting positions. -/
structure Want where
  key : Key
  stamp : Stamp
  source : Station
  attempts : Nat
  requested : Bool
  deriving DecidableEq, Repr

/-- A fetch slot (R138). -/
inductive FetchSlot where
  | free
  | waitingRoom (key : Key) (peer : Station) (stamp : Stamp)
  | awaiting (key : Key) (peer : Station) (placed : Placed)
  deriving DecidableEq, Repr

/-- The Fetch Unit. -/
structure FetchUnit where
  wants : List Want
  slots : Vector FetchSlot 4
  deriving DecidableEq, Repr

/-- What a job answers (R147). -/
inductive JobKind where
  | supply (key : Key)
  | bucketReply (bucket : Bucket) (part : Nat) (resume : Option Key)
  | profile
  deriving DecidableEq, Repr

/-- A job of the Reply Queue (R147). -/
structure Job where
  peer : Station
  echo : Byte
  kind : JobKind
  deriving DecidableEq, Repr

/-- How far the service of the head job has come (R148, R149): a store READ in flight for the entry looked up, a SUPPLY
built (with the record, or absent) that waits for room, or a PROFILE or part that waits for room. -/
inductive Service where
  | reading (looked : Entry)
  | built (answer : Option Record)
  | ready
  deriving DecidableEq, Repr

/-- The Responder. The job in service is the head of `jobs`. -/
structure Responder where
  jobs : List Job
  service : Option Service
  deriving DecidableEq, Repr

/-! ## The Host Port and the Event Queue (10) -/

/-- The result codes of R187. -/
inductive ResultCode where
  | done
  | admitted
  | found
  | notFound
  | notReady
  | empty
  | starting
  | notConfigured
  | muted
  | notActive
  | badKey
  | notOwner
  | alreadySet
  | notDeletable
  | tooLong
  | keyBusy
  | dirFull
  | busy
  | clockExhausted
  | storeFault
  | storeFull
  | configLocked
  | configInvalid
  | configFault
  | badRange
  deriving DecidableEq, Repr

/-- One entry of a LIST_KEYS reply (R174). -/
structure ListedKey where
  key : Key
  stamp : Stamp
  tomb : Bool
  deriving DecidableEq, Repr

/-- One entry of a READ_PEERS reply (R175). -/
structure ListedPeer where
  state : PeerState
  uniqueIdLow : BitVec 32
  lastClock : Counter
  isPartial : Bool
  deriving DecidableEq, Repr

/-- A reply for the Reply Buffer (R172 to R176, R187). -/
inductive Reply where
  | code (result : ResultCode)
  | admitted (ticket : Byte) (stamp : Stamp)
  | found (rec : Record)
  | storeFault (stamp : Stamp)
  | keys (listed : List ListedKey) (more : Bool)
  | peers (listed : List ListedPeer)
  deriving DecidableEq, Repr

/-- The Reply Buffer's contents (R171). -/
structure HeldReply where
  reply : Reply
  read : Bool
  deriving DecidableEq, Repr

/-- The host request in progress (R170). Only these three last beyond their acceptance. -/
inductive Request where
  | readRecord (looked : Entry)
  | programConfig
  | lockConfig
  deriving DecidableEq, Repr

/-- The result of a WRITE_DONE event (R179). -/
inductive WriteResult where
  | committed
  | storeFault
  | storeFull
  deriving DecidableEq, Repr

/-- The DIVERGED reasons (R52). -/
inductive DivReason where
  | directory
  | store
  deriving DecidableEq, Repr

/-- The STORE_ALERT kinds (R179). -/
inductive AlertKind where
  | spaceLow
  | sectorRetired
  deriving DecidableEq, Repr

/-- The events of the Event Queue (R179). -/
inductive Event where
  | writeDone (ticket : Byte) (key : Key) (result : WriteResult)
  | keyChanged (key : Key) (origin : Station)
  | peerState (station : Station) (state : PeerState)
  | stationState (state : StationState)
  | diverged (reason : DivReason)
  | storeAlert (kind : AlertKind)
  deriving DecidableEq, Repr

/-- What the end of a transaction decides (R171, R180). -/
inductive TxnKind where
  /-- Nothing depends on how much was read. -/
  | plain
  /-- A reply that, read in full, gets its read flag. -/
  | reply
  /-- An event that, cut short, is lost. -/
  | event
  /-- The Profile Table, which wraps. -/
  | profile
  deriving DecidableEq, Repr

/-- A transaction whose command has been taken, and the bytes of its answer (R169). -/
structure Transaction where
  kind : TxnKind
  out : List Byte
  deriving DecidableEq, Repr

/-- The Host Port (R169 to R182). -/
structure HostPort where
  txn : Option Transaction
  request : Option Request
  reply : Option HeldReply
  events : List Event
  lost : Byte
  deriving DecidableEq, Repr

/-! ## The whole part -/

/-- Nothing the spec describes stops the part, so the model has no fault (INVENTORY.md, Faults). -/
inductive Fault where
  deriving DecidableEq, Repr

/-- Why a step has no answer. -/
inductive Refusal where
  /-- Raised only by an arm of `exec` whose command has no meaning yet; no arm does. Safe: nothing is claimed of it. -/
  | notModelled (mnemonic : String)
  deriving DecidableEq, Repr

/-- The state of one SFH-4120, the time the model counts, and the commands that wait. -/
@[ext]
structure State where
  ctl : Control
  cfg : ConfigArea
  host : HostPort
  dir : Directory
  upd : UpdateUnit
  store : Store
  /-- The flash array's contents; they survive every reset. -/
  flash : Memory
  line : Line
  memb : Membership
  summ : SummaryUnit
  recon : Reconciler
  fetch : FetchUnit
  resp : Responder
  /-- The model's own count of idle steps, from which the times above are taken (DESIGN CHOICE, safe, log 2). -/
  now : Nat
  /-- The turn of the next free value (`Config.freeSeq`): the model's own count, no register of the part (log 24). -/
  free : Nat
  /-- The commands that wait, first in first out (DESIGN CHOICE, safe, log 1). -/
  pending : List Instr
  deriving DecidableEq, Repr

/-! ## What a reset leaves in each block -/

/-- R182: no request, EMPTY, no event, nothing lost. -/
def HostPort.cleared : HostPort where
  txn := none
  request := none
  reply := none
  events := []
  lost := 0

/-- R29: no entries, checks 0000h, counts 0, clock 0. -/
def Directory.cleared : Directory where
  entries := []
  checks := Vector.replicate 64 0
  clock := 0
  entryCount := 0
  sharedCount := 0
  reservations := 0

/-- R53: slots FREE, ticket 0, DIVERGED clear. -/
def UpdateUnit.cleared : UpdateUnit where
  slots := Vector.replicate 4 none
  copy := none
  nextReady := 0
  ticket := 0
  divDirectory := false
  divStore := false

/-- R56, R68: no sector, no request, IDLE. -/
def Store.cleared : Store where
  sectors := []
  highestSeq := 0
  reads := []
  op := none
  mark := none
  erase := none
  comp := .idle
  low := false

/-- R100: OFF, TXEN released, queues empty, base, sequence and deferral 0. -/
def Line.cleared : Line where
  phase := .off
  base := 0
  seq := 0
  txq := []
  waiting := []
  rxq := []
  sending := none
  deferral := 0
  slot := 0
  quietSince := 0

/-- R102: ABSENT with every other field cleared. -/
def Peer.cleared : Peer where
  state := .absent
  uniqueId := none
  uniqueIdLow := none
  lastClock := none
  isPartial := false
  lastHeard := none
  attempts := 0
  dupMark := none

/-- R115: every entry ABSENT, no query. -/
def Membership.cleared : Membership where
  peers := Vector.replicate 32 Peer.cleared
  query := none

/-- R135: the summary timer stopped. -/
def SummaryUnit.cleared : SummaryUnit where
  timer := none

/-- R135: no pair, IDLE. -/
def Reconciler.cleared : Reconciler where
  queue := []
  phase := .idle

/-- R146: no Want entry, slots FREE. -/
def FetchUnit.cleared : FetchUnit where
  wants := []
  slots := Vector.replicate 4 .free

/-- R153: no job, none in service. -/
def Responder.cleared : Responder where
  jobs := []
  service := none

/-- The state right after reset: a factory-fresh part at the end of its first power-on reset (DESIGN CHOICE, unsafe,
log 3: flash and configuration area blank; log 4: straps, unique ID and silicon revision 0). The area is not locked, so the
station has entered UNCONFIGURED and posted STATION_STATE (R154, R158). `reset_is_powerOnResetEnd` in
Laws/Reset.lean shows that it is what POWER_ON_RESET_END leaves. -/
def State.reset : State where
  ctl :=
    { st := .unconfigured
      own := 0
      power := false
      pin := false
      softWait := false
      force := none
      listeningSince := none
      groupBytes := List.replicate 36 0xFF
      -- The CRC-32 of 36 bytes FFh (R167).
      groupHash := 0x9A809998
      uniqueId := 0
      revision := 0 }
  cfg := { bytes := Vector.replicate 64 0xFF, prog := none }
  host := { HostPort.cleared with events := [.stationState .unconfigured] }
  dir := Directory.cleared
  upd := UpdateUnit.cleared
  store := Store.cleared
  flash := []
  line := Line.cleared
  memb := Membership.cleared
  summ := SummaryUnit.cleared
  recon := Reconciler.cleared
  fetch := FetchUnit.cleared
  resp := Responder.cleared
  now := 0
  free := 0
  pending := []

end Sys2Proof.Machine
end

