-- ==== Sys2Proof/Machine/Operands.lean ====
section
/-! DEFINITION. Every byte layout of the part (11_formats_and_procedures.md): the two CRCs, record headers, frames and
payloads, flash images and sector headers, the configuration area, the Profile Table, host replies and events. -/

namespace Sys2Proof.Machine

/-! ## Byte order and CRCs -/

/-- A 32-bit word, high byte first. -/
def be32 (w : BitVec 32) : List Byte :=
  [w.extractLsb' 24 8, w.extractLsb' 16 8, w.extractLsb' 8 8, w.extractLsb' 0 8]

/-- A 64-bit word, high byte first. -/
def be64 (w : BitVec 64) : List Byte := be32 (w.extractLsb' 32 32) ++ be32 (w.extractLsb' 0 32)

/-- The 32-bit word of four bytes, high byte first. -/
def ofBe32 (a b c d : Byte) : BitVec 32 := a ++ b ++ c ++ d

/-- A byte of a list, blank (FFh) beyond its end. -/
def byteAt (l : List Byte) (i : Nat) : Byte := l.getD i 0xFF

/-- The 16-bit word at an offset. -/
def wordAt (l : List Byte) (i : Nat) : BitVec 16 := ofBe16 (byteAt l i) (byteAt l (i + 1))

/-- The 32-bit word at an offset. -/
def longAt (l : List Byte) (i : Nat) : BitVec 32 :=
  ofBe32 (byteAt l i) (byteAt l (i + 1)) (byteAt l (i + 2)) (byteAt l (i + 3))

/-- One bit of the CRC-16, polynomial 1021h. -/
def crc16Bit (c : BitVec 16) : BitVec 16 := if c.msb then (c <<< 1) ^^^ 0x1021 else c <<< 1

/-- One byte of the CRC-16, high bit first. -/
def crc16Byte (c : BitVec 16) (b : Byte) : BitVec 16 :=
  (List.range 8).foldl (fun c _ => crc16Bit c) (c ^^^ (b ++ (0 : Byte)))

/-- The CRC-16 of the conventions: initial value FFFFh, no final inversion. -/
def crc16 (l : List Byte) : BitVec 16 := l.foldl crc16Byte 0xFFFF

/-- One bit of the CRC-32, polynomial 04C11DB7h. -/
def crc32Bit (c : BitVec 32) : BitVec 32 := if c.msb then (c <<< 1) ^^^ 0x04C11DB7 else c <<< 1

/-- One byte of the CRC-32, high bit first, not reflected. -/
def crc32Byte (c : BitVec 32) (b : Byte) : BitVec 32 :=
  (List.range 8).foldl (fun c _ => crc32Bit c) (c ^^^ (b ++ (0 : BitVec 24)))

/-- The CRC-32 of the conventions: initial value FFFFFFFFh, final inversion. -/
def crc32 (l : List Byte) : BitVec 32 := ~~~ (l.foldl crc32Byte 0xFFFFFFFF)

/-! ## Keys, stamps and record headers -/

/-- The class of a key: its top 4 bits. -/
def classNumber (k : Key) : BitVec 4 := k.extractLsb' 12 4

/-- The bucket of a key: its low 6 bits. -/
def bucketOf (k : Key) : Bucket := k.extractLsb' 0 6

/-- The owner of a key of an OWNED class: its low 5 bits (R6). -/
def ownerOf (k : Key) : Station := k.extractLsb' 0 5

/-- Keys 0000h and FFFFh are invalid (R1). -/
def validKey (k : Key) : Bool := k != 0 && k != 0xFFFF

/-- A station number as a byte. -/
def stationByte (s : Station) : Byte := s.setWidth 8

/-- A station number read from a byte; none above 31. -/
def stationOfByte (b : Byte) : Option Station := if b.toNat < 32 then some (b.setWidth 5) else none

/-- Counter and origin, 5 bytes. -/
def stampBytes (s : Stamp) : List Byte := be32 s.counter ++ [stationByte s.origin]

/-- Bit 0 of a flags byte. -/
def flagByte (b : Bool) : Byte := if b then 1 else 0

/-- The image length in granules of a value length (R14). -/
def imageLen (valueLen : Nat) : Nat := 1 + (valueLen + 15) / 16

/-- The image length of an entry (R14). -/
def Entry.imageLen (e : Entry) : Nat := Machine.imageLen e.len

/-- A record header and its value: the payload of a NEWS (R116, R183). -/
def recordBytes (r : Record) : List Byte :=
  be16 r.key ++ stampBytes r.stamp ++ [flagByte r.tomb, BitVec.ofNat 8 r.value.length] ++ r.value

/-- A record read from header and value: the length must agree and the origin be a station number (R118, R140). -/
def parseRecord (l : List Byte) : Option Record :=
  if l.length < 9 then none
  else if (byteAt l 8).toNat != l.length - 9 then none
  else
    match stationOfByte (byteAt l 6) with
    | none => none
    | some origin =>
      some
        { key := wordAt l 0
          stamp := { counter := longAt l 2, origin := origin }
          tomb := (byteAt l 7).getLsbD 0
          value := l.drop 9 }

/-- The entry fold of a key and a stamp (R23). -/
def entryFold (k : Key) (s : Stamp) : BitVec 16 := crc16 (be16 k ++ stampBytes s)

/-! ## Frames (R80, R183) -/

/-- The kind codes of R183. -/
def FrameKind.code : FrameKind → BitVec 4
  | .summary => 1
  | .news => 2
  | .profileQuery => 3
  | .profile => 4
  | .bucketQuery => 5
  | .bucketReply => 6
  | .fetch => 7
  | .supply => 8

/-- The kind a code names; none for an unknown kind (R81). -/
def kindOfCode (c : BitVec 4) : Option FrameKind :=
  if c = 1 then some .summary
  else if c = 2 then some .news
  else if c = 3 then some .profileQuery
  else if c = 4 then some .profile
  else if c = 5 then some .bucketQuery
  else if c = 6 then some .bucketReply
  else if c = 7 then some .fetch
  else if c = 8 then some .supply
  else none

/-- The kind of a frame. -/
def Frame.kind (f : Frame) : Option FrameKind := kindOfCode f.code

/-- LAST, flag bit 0 (R183). -/
def Frame.isLast (f : Frame) : Bool := f.flags.getLsbD 0

/-- ABSENT, flag bit 1 (R183). -/
def Frame.isAbsent (f : Frame) : Bool := f.flags.getLsbD 1

/-- The six header bytes (R183). -/
def Frame.header (f : Frame) : List Byte :=
  [f.code ++ f.flags, stationByte f.source, f.dest, f.seq] ++ be16 (BitVec.ofNat 16 f.payload.length)

/-- The frame on the line: delimiter, header, payload, CRC-16 over header and payload (R80, R183). -/
def Frame.lineBytes (f : Frame) : List Byte :=
  Config.startDelimiter :: (f.header ++ f.payload ++ be16 (crc16 (f.header ++ f.payload)))

/-- A good frame read from the bytes heard (R84): delimiter, declared length complete and at most 256, CRC right, source
0 to 31. None for a garbled frame. -/
def parseFrame (l : List Byte) : Option Frame :=
  match l with
  | delim :: rest =>
    let n := (wordAt rest 4).toNat
    if delim != Config.startDelimiter || rest.length < 8 || n > Config.maxPayload || rest.length != n + 8 then none
    else if crc16 (rest.take (n + 6)) != wordAt rest (n + 6) then none
    else
      match stationOfByte (byteAt rest 1) with
      | none => none
      | some source =>
        some
          { code := (byteAt rest 0).extractLsb' 4 4
            flags := (byteAt rest 0).extractLsb' 0 4
            source := source
            dest := byteAt rest 2
            seq := byteAt rest 3
            payload := (rest.drop 6).take n }
  | [] => none

/-- Broadcast kinds (R81). -/
def FrameKind.isBroadcast : FrameKind → Bool
  | .summary => true
  | .news => true
  | _ => false

/-- The Transmit Queue class of a kind (R81, R95). -/
def FrameKind.cls : FrameKind → TxClass
  | .profile => .replies
  | .bucketReply => .replies
  | .supply => .replies
  | .profileQuery => .requests
  | .bucketQuery => .requests
  | .fetch => .requests
  | .news => .news
  | .summary => .summary

/-- The permitted payload lengths of a kind (R183); SUPPLY's depend on ABSENT. -/
def permittedLength (k : FrameKind) (absent : Bool) (n : Nat) : Bool :=
  match k with
  | .summary => n == 140
  | .news => 9 ≤ n && n ≤ 249
  | .profileQuery => n == 0
  | .profile => n == 93
  | .bucketQuery => n == 1
  | .bucketReply => 4 ≤ n && n ≤ 256 && (n - 4) % 7 == 0
  | .fetch => n == 7
  | .supply => if absent then n == 3 else 10 ≤ n && n ≤ 250

/-- Whether the frame stays for the own station: well addressed, to it or broadcast, of a permitted length (R85 step 4). -/
def Frame.accepted (f : Frame) (own : Station) : Bool :=
  match f.kind with
  | none => false
  | some k =>
    (if k.isBroadcast then f.dest == Config.broadcast else f.dest == stationByte own) &&
      permittedLength k f.isAbsent f.payload.length

/-- The ID a frame carries: a broadcast SUMMARY's of the right length (R104). -/
def Frame.carriedId (f : Frame) : Option (BitVec 32) :=
  if f.kind == some .summary && f.dest == Config.broadcast && f.payload.length == 140 then some (longAt f.payload 4)
  else none

/-- A queued frame as it goes on the line. -/
def TxFrame.frame (own : Station) (t : TxFrame) : Frame :=
  { code := t.kind.code, flags := t.flags, source := own, dest := t.dest, seq := t.seq, payload := t.payload }

/-- The FETCH payload (R183). -/
def fetchPayload (k : Key) (s : Stamp) : List Byte := be16 k ++ stampBytes s

/-- The SUPPLY payload of a record, or of none, absent (R149, R183). -/
def supplyPayload (echo : Byte) (key : Key) : Option Record → List Byte
  | some r => echo :: recordBytes r
  | none => echo :: be16 key

/-- One listed entry of a BUCKET_REPLY part (R183). -/
def listedBytes (e : Entry) : List Byte := be16 e.key ++ stampBytes e.stamp

/-- A BUCKET_REPLY part's payload (R151, R183). -/
def partPayload (echo : Byte) (b : Bucket) (part : Nat) (listed : List Entry) : List Byte :=
  [echo, b.setWidth 8, BitVec.ofNat 8 part, BitVec.ofNat 8 listed.length] ++ listed.flatMap listedBytes

/-- An entry listed in a part, as heard: the origin is a byte still to be tested (R130). -/
structure HeardEntry where
  key : Key
  counter : Counter
  origin : Byte
  deriving DecidableEq, Repr

/-- The entries of a part's payload after its first four bytes. -/
def heardEntries : List Byte → List HeardEntry
  | a :: b :: c :: d :: e :: f :: g :: rest =>
    { key := ofBe16 a b, counter := ofBe32 c d e f, origin := g } :: heardEntries rest
  | _ => []

/-- A SUMMARY payload (R122, R183). -/
def summaryPayload (clock : Counter) (idLow : BitVec 32) (isPartial : Bool) (shared : Nat)
    (checks : List (BitVec 16)) : List Byte :=
  be32 clock ++ be32 idLow ++ [flagByte isPartial, 0] ++ be16 (BitVec.ofNat 16 shared) ++ checks.flatMap be16

/-- The bucket check of a bucket in a SUMMARY payload. -/
def heardCheck (payload : List Byte) (b : Nat) : BitVec 16 := wordAt payload (12 + 2 * b)

/-! ## Flash (R184) -/

/-- The byte address of a granule (R54). -/
def granuleAddr (l : Loc) : Nat := l.sector * Config.sectorBytes + l.granule * Config.granuleBytes

/-- The header granule's address of a sector. -/
def headerAddr (sector : Nat) : Nat := sector * Config.sectorBytes

/-- Bytes 0 to 13 of an image header. -/
def imageHead (r : Record) : List Byte :=
  [0x3C] ++ be16 r.key ++ stampBytes r.stamp ++
    [if r.tomb then 0xFF else 0xFE, BitVec.ofNat 8 r.value.length, 0xFF, 0xFF, 0xFF, 0xFF]

/-- A record's image: header with its check, value, blank padding to whole granules (R184). -/
def imageBytes (r : Record) : List Byte :=
  imageHead r ++ be16 (crc16 (imageHead r ++ r.value)) ++ r.value ++
    List.replicate (Config.granuleBytes * (imageLen r.value.length - 1) - r.value.length) 0xFF

/-- The record of 256 bytes read at an image boundary, of which `room` granules lie in the sector (R184). An image
that would cross the sector's end fails its check (DEDUCED, log 7: an image never crosses a sector boundary, R54). -/
def parseImage (l : List Byte) (room : Nat) : ImageRead :=
  let len := (byteAt l 9).toNat
  let value := (l.drop 16).take len
  if (l.take 16).all (· == 0xFF) then .blank
  else if byteAt l 0 != 0x3C || len > Config.maxValue || imageLen len > room then .bad
  else if crc16 (l.take 14 ++ value) != wordAt l 14 then .bad
  else
    match stationOfByte (byteAt l 7) with
    | none => .bad
    | some origin =>
      .image
        { key := wordAt l 1
          stamp := { counter := longAt l 3, origin := origin }
          tomb := (byteAt l 8).getLsbD 0
          value := value }

/-- The low byte of the CRC-16, as the sector header's checks hold it. -/
def check8 (l : List Byte) : Byte := (crc16 l).extractLsb' 0 8

/-- The erase count part, bytes 0 to 2 of a header (R184). -/
def eraseCountBytes (c : BitVec 16) : List Byte := be16 c ++ [check8 (be16 c)]

/-- Bytes 3 to 13 of a header. -/
def openingHead (o : Opening) : List Byte := [0xA5] ++ be32 o.seq ++ be16 o.eraseCount ++ be32 o.clock

/-- The header granule as an opening programs it: bytes 0 to 2 and 15 are given FFh, which programs nothing (R184). -/
def openingGranule (o : Opening) : List Byte :=
  [0xFF, 0xFF, 0xFF] ++ openingHead o ++ [check8 (openingHead o), 0xFF]

/-- How a part of a header reads (R55). -/
inductive PartRead (α : Type) where
  | blank
  | torn
  | present (value : α)
  deriving DecidableEq, Repr

/-- The erase count part of a header (R55, R184). -/
def readEraseCount (h : List Byte) : PartRead (BitVec 16) :=
  if (h.take 3).all (· == 0xFF) then .blank
  else if check8 (h.take 2) == byteAt h 2 then .present (wordAt h 0)
  else .torn

/-- The opening record of a header (R55, R184). -/
def readOpening (h : List Byte) : PartRead Opening :=
  if ((h.drop 3).take 12).all (· == 0xFF) then .blank
  else if check8 ((h.drop 3).take 11) == byteAt h 14 then
    .present { seq := longAt h 4, eraseCount := wordAt h 8, clock := longAt h 10 }
  else .torn

/-- The markers' byte as reclaim-begun, erase-begun and retired program it (R184). -/
def reclaimMark : Byte := 0x3F
def eraseMark : Byte := 0xCF
def retiredMark : Byte := 0xF3

/-- A marker reads as set when either of its two bits is clear (R55, R184). -/
def reclaimSet (h : List Byte) : Bool := !((byteAt h 15).getLsbD 7 && (byteAt h 15).getLsbD 6)
def eraseSet (h : List Byte) : Bool := !((byteAt h 15).getLsbD 5 && (byteAt h 15).getLsbD 4)
def retiredSet (h : List Byte) : Bool := !((byteAt h 15).getLsbD 3 && (byteAt h 15).getLsbD 2)

/-! ## The configuration area (R160, R185) -/

/-- The policy a code names (R185). -/
def policyOfCode (b : Byte) : Option Policy :=
  match (b.extractLsb' 0 3).toNat with
  | 0 => some .openAll
  | 1 => some .owned
  | 2 => some .once
  | 3 => some .localOnly
  | _ => none

/-- A class entry of the area; none where R160 finds it invalid. -/
def readClass (area : List Byte) (c : Nat) : Option ClassEntry :=
  let first := byteAt area (4 + 2 * c)
  let len := (byteAt area (5 + 2 * c)).toNat
  match policyOfCode first with
  | none => none
  | some p => if len ≤ Config.maxValue then some { policy := p, notify := first.getLsbD 7, maxLen := len } else none

/-- The whole class table; none when an entry is invalid. -/
def readClasses (area : List Byte) : Option (Vector ClassEntry 16) :=
  let l := (List.range 16).filterMap (readClass area)
  if h : l.length = 16 then some ⟨⟨l⟩, h⟩ else none

/-- The lock marker reads as set when any of its bits is clear (R158, R185). -/
def areaLocked (area : List Byte) : Bool := byteAt area 61 != 0xFF

/-- The CRC-16 of the 61 bytes before the lock marker (R160). -/
def areaCheck (area : List Byte) : BitVec 16 := crc16 (area.take Config.coveredBytes)

/-- Rate code, interval and class entries as LOCK_CONFIG tests them (R160, R162): the values they give, or none. -/
def areaValues (area : List Byte) : Option Force :=
  let rate := (byteAt area 2).toNat
  let interval := (byteAt area 3).toNat
  match readClasses area with
  | none => none
  | some classes =>
    if rate ≤ 3 && 1 ≤ interval && interval ≤ 40 then some { classes := classes, rate := rate, interval := interval }
    else none

/-- The values of a valid area (R160); none when it is not valid. -/
def areaForce (area : List Byte) : Option Force :=
  if wordAt area 62 == areaCheck area then areaValues area else none

/-! ## The Profile Table (R166, R186) -/

/-- Station state codes (R186). -/
def StationState.code : StationState → Byte
  | .starting => 0
  | .unconfigured => 1
  | .listening => 2
  | .active => 3
  | .mute => 4

/-- The header, the section headers and the geometry section, which are fixed. -/
def profileHeader : List Byte := [0x53, 0x46, 0x48, 0x50, 1, 0, 3, 0, 1, 1, 4, 20, 2, 1, 4, 36, 3, 1, 10, 52]
def profileGeometry : List Byte := [64, 16, 16] ++ be16 1024 ++ [128, 4, 4, 240, 64, 32, 0, 0, 0, 0, 0]

/-- The 92 bytes as they stand (R166, R186). -/
def profileTable (c : Control) : List Byte :=
  profileHeader ++ be64 c.uniqueId ++ be16 0x4120 ++ [c.revision, stationByte c.own, c.st.code, 0, 0, 0] ++
    profileGeometry ++ c.groupBytes ++ be32 c.groupHash

/-- Where a PROFILE's payload holds the unique ID and the group hash (DEDUCED, log 11: R186's fixed offsets, after the
echoed sequence). -/
def heardUniqueId (payload : List Byte) : BitVec 64 := longAt payload 21 ++ longAt payload 25
def heardGroupHash (payload : List Byte) : BitVec 32 := longAt payload 89

/-! ## The host port (R187) -/

/-- The result codes of R187. -/
def ResultCode.byte : ResultCode → Byte
  | .done => 0x00
  | .admitted => 0x01
  | .found => 0x02
  | .notFound => 0x03
  | .notReady => 0x04
  | .empty => 0x05
  | .starting => 0x10
  | .notConfigured => 0x11
  | .muted => 0x12
  | .notActive => 0x13
  | .badKey => 0x14
  | .notOwner => 0x15
  | .alreadySet => 0x16
  | .notDeletable => 0x17
  | .tooLong => 0x18
  | .keyBusy => 0x19
  | .dirFull => 0x1A
  | .busy => 0x1B
  | .clockExhausted => 0x1C
  | .storeFault => 0x20
  | .storeFull => 0x21
  | .configLocked => 0x22
  | .configInvalid => 0x23
  | .configFault => 0x24
  | .badRange => 0x25

/-- The acceptance codes (R187). -/
def acceptedCode : Byte := 0x80
def hostBusyCode : Byte := 0x81

/-- Peer state codes (R187). -/
def PeerState.code : PeerState → Byte
  | .absent => 0
  | .joining => 1
  | .present => 2
  | .silent => 3
  | .incompatible => 4
  | .duplicate => 5

/-- One LIST_KEYS entry; its flags byte has the tombstone flag in bit 0, and bits 7 to 1 clear (DESIGN CHOICE, unsafe,
log 33). -/
def ListedKey.bytes (k : ListedKey) : List Byte := be16 k.key ++ stampBytes k.stamp ++ [flagByte k.tomb]

/-- One READ_PEERS entry; its partial byte is 01h when set and 00h when clear (DESIGN CHOICE, unsafe, log 33). -/
def ListedPeer.bytes (p : ListedPeer) : List Byte :=
  [p.state.code] ++ be32 p.uniqueIdLow ++ be32 p.lastClock ++ [flagByte p.isPartial]

/-- The bytes GET_REPLY clocks out for a reply (R187). FOUND's flag bits 7 to 1 are clear (DESIGN CHOICE, unsafe, log 33). -/
def Reply.bytes : Reply → List Byte
  | .code r => [r.byte]
  | .admitted t s => [ResultCode.admitted.byte, t] ++ stampBytes s
  | .found r =>
    [ResultCode.found.byte] ++ be16 r.key ++ stampBytes r.stamp ++
      [flagByte r.tomb, BitVec.ofNat 8 r.value.length] ++ r.value
  | .storeFault s => [ResultCode.storeFault.byte] ++ stampBytes s
  | .keys l more =>
    [ResultCode.done.byte, BitVec.ofNat 8 l.length, flagByte more] ++ l.flatMap ListedKey.bytes
  | .peers l => [ResultCode.done.byte] ++ l.flatMap ListedPeer.bytes

/-- WRITE_DONE result codes (R187). -/
def WriteResult.byte : WriteResult → Byte
  | .committed => 0x00
  | .storeFault => 0x20
  | .storeFull => 0x21

/-- The six event bytes (R187). -/
def Event.bytes : Event → List Byte
  | .writeDone t k r => [1, t] ++ be16 k ++ [r.byte, 0]
  | .keyChanged k o => [2] ++ be16 k ++ [stationByte o, 0, 0]
  | .peerState s p => [3, stationByte s, p.code, 0, 0, 0]
  | .stationState s => [4, s.code, 0, 0, 0, 0]
  | .diverged .directory => [5, 1, 0, 0, 0, 0]
  | .diverged .store => [5, 2, 0, 0, 0, 0]
  | .storeAlert .spaceLow => [6, 1, 0, 0, 0, 0]
  | .storeAlert .sectorRetired => [6, 2, 0, 0, 0, 0]

/-- Kind NONE (R180, R187). -/
def noEventBytes : List Byte := [0, 0, 0, 0, 0, 0]

/-- The byte SDO carries at a place of the answer: the Profile Table wraps (R168), every other answer ends in fill,
which reads 00h (R169, R187). -/
def Transaction.sdo (t : Transaction) (i : Nat) : Byte :=
  match t.kind with
  | .profile => t.out.getD (i % Config.profileBytes) 0
  | .plain => t.out.getD i 0
  | .reply => t.out.getD i 0
  | .event => t.out.getD i 0

end Sys2Proof.Machine
end

