-- ==== Sys2Proof/Machine/Flags.lean ====
section
/-! DEFINITION. Conditions and pins that are computed from the state: station conditions, the winning order, capacity,
space, the arbiter's choice, HIRQ. None of them is stored. -/

namespace Sys2Proof.Machine

/-! ## Station conditions -/

/-- The part is held in reset: supply out of range, or RESET low (R156; both at once DEDUCED, log 14). -/
def inReset (s : State) : Bool := s.ctl.power || s.ctl.pin

/-- LISTENING, ACTIVE or MUTE: the receiver is enabled and the store serves requests (R154). -/
def isUp (s : State) : Bool :=
  !inReset s &&
    match s.ctl.st with
    | .starting => false
    | .unconfigured => false
    | .listening => true
    | .active => true
    | .mute => true

/-- ACTIVE. -/
def isActive (s : State) : Bool := !inReset s && s.ctl.st == .active

/-- LISTENING or ACTIVE: frames may be placed in the Transmit Queue (R96). -/
def mayPlace (s : State) : Bool := !inReset s && (s.ctl.st == .listening || s.ctl.st == .active)

/-- The start-up scan is running: STARTING with the area in force, no reset waiting (R158). -/
def isScanning (s : State) : Bool :=
  !inReset s && s.ctl.st == .starting && !s.ctl.softWait && s.ctl.force.isSome

/-! ## Classes and the winning order (R5 to R10) -/

/-- The class entry of a key. With no table in force nothing asks for it (R2); the model then answers LOCAL, silent,
length 0 (DESIGN CHOICE, safe, log 21). -/
def classOf (s : State) (k : Key) : ClassEntry :=
  match s.ctl.force with
  | some f => f.classes[(classNumber k).toNat]'(classNumber k).isLt
  | none => { policy := .localOnly, notify := false, maxLen := 0 }

/-- The policy of a key's class. -/
def policyOf (s : State) (k : Key) : Policy := (classOf s k).policy

/-- The key's class has the LOCAL policy. -/
def isLocal (s : State) (k : Key) : Bool := policyOf s k == .localOnly

/-- Stamp order: first by counter, then by origin (R10). -/
def newer (a b : Stamp) : Bool :=
  decide (b.counter.toNat < a.counter.toNat) || (a.counter == b.counter && decide (b.origin.toNat < a.origin.toNat))

/-- The relation beats under a policy (R10): newer, but older under ONCE. -/
def beatsUnder (p : Policy) (a b : Stamp) : Bool :=
  match p with
  | .openAll => newer a b
  | .owned => newer a b
  | .localOnly => newer a b
  | .once => newer b a

/-- Beats under the policy of a key's class. -/
def beats (s : State) (k : Key) (a b : Stamp) : Bool := beatsUnder (policyOf s k) a b

/-! ## Directory conditions -/

/-- A lookup (R18): the entry of a key, or none; always none for an invalid key. -/
def lookup (s : State) (k : Key) : Option Entry :=
  if validKey k then s.dir.entries.find? fun e => e.key == k else none

/-- The directory is full (R17). The sum never exceeds 1024 (R15); above it the model also says full (DESIGN CHOICE,
safe, log 17). -/
def dirFull (s : State) : Bool := Config.directoryCapacity ≤ s.dir.entryCount + s.dir.reservations

/-! ## Update slots -/

/-- The four slot numbers, lowest first. -/
def slotNumbers : List (Fin 4) := [0, 1, 2, 3]

/-- The lowest-numbered FREE update slot (R33). -/
def freeSlot (s : State) : Option (Fin 4) := slotNumbers.find? fun i => s.upd.slots[i].isNone

/-- A slot is busy with a key. -/
def holdsKey (s : State) (k : Key) (i : Fin 4) : Bool :=
  match s.upd.slots[i] with
  | some sl => sl.record.key == k
  | none => false

/-- The update slot busy with a key (R33: at most one). -/
def slotWithKey (s : State) (k : Key) : Option (Fin 4) := slotNumbers.find? (holdsKey s k)

/-- A slot is in STORE_WAIT. -/
def inStoreWait (s : State) (i : Fin 4) : Bool :=
  match s.upd.slots[i] with
  | some sl => sl.phase == .storeWait
  | none => false

/-- The ready position of a slot in WAIT_STORE. -/
def readyPosition (s : State) (i : Fin 4) : Option Nat :=
  match s.upd.slots[i] with
  | some sl => if sl.phase == .waitStore then some sl.ready else none
  | none => none

/-- The earlier of a best slot so far and another slot, by ready position. -/
def earlierReady (s : State) (best : Option (Fin 4 × Nat)) (i : Fin 4) : Option (Fin 4 × Nat) :=
  match readyPosition s i, best with
  | some r, some (j, q) => if r < q then some (i, r) else some (j, q)
  | some r, none => some (i, r)
  | none, b => b

/-- The slot in WAIT_STORE with the earliest ready position (R32). -/
def earliestReady (s : State) : Option (Fin 4) := (slotNumbers.foldl (earlierReady s) none).map (·.1)

/-! ## Sector conditions (R56 to R62) -/

/-- Sectors in a state. -/
def countState (s : State) (q : SectorState) : Nat := s.store.sectors.countP fun x => x.state == q

/-- The number of ERASED sectors (R57). -/
def erasedCount (s : State) : Nat := countState s .erased

/-- Free granules of a sector (R56). -/
def Sector.free (x : Sector) : Nat := Config.imageGranules - x.used

/-- Some FULL sector holds a dead granule (R56: exactly when its live count is below 255). -/
def fullWithDead (s : State) : Bool :=
  s.store.sectors.any fun x => x.state == .full && decide (x.live < Config.imageGranules)

/-- The OPEN sector, its number and entry. -/
def openSector (s : State) : Option (Nat × Sector) :=
  match s.store.sectors.findIdx? (fun x => x.state == .openForAppend) with
  | some i => (s.store.sectors[i]?).map fun x => (i, x)
  | none => none

/-- Free granules of the OPEN sector; 0 when there is none. -/
def openFree (s : State) : Nat :=
  match openSector s with
  | some (_, x) => x.free
  | none => 0

/-- The store is hopeless for an image of a length (R37). An image has at least 1 granule, so no OPEN sector is 0 free. -/
def hopeless (s : State) (len : Nat) : Bool :=
  decide (openFree s < len) && decide (erasedCount s ≤ 1) && !fullWithDead s

/-- Compaction is stalled. -/
def isStalled (s : State) : Bool :=
  match s.store.comp with
  | .stalled _ _ => true
  | _ => false

/-- The store is out of space (R67). -/
def outOfSpace (s : State) : Bool := slotNumbers.any (inStoreWait s) || isStalled s || hopeless s 16

/-- Compaction's trigger (R68). -/
def trigger (s : State) : Bool := decide (erasedCount s ≤ 2) && fullWithDead s

/-- Compaction is urgent (R59). -/
def isUrgent (s : State) : Bool := decide (erasedCount s ≤ 1)

/-- The live granules of a sector. -/
def liveOf (s : State) (i : Nat) : Nat :=
  match s.store.sectors[i]? with
  | some x => x.live
  | none => 0

/-! ## The arbiter (R59, R64) -/

/-- An ERASE is running, or its erase count is being programmed. -/
def eraseBusy (s : State) : Bool :=
  match s.store.erase with
  | some e => e.phase == .running || e.phase == .counting
  | none => false

/-- The store is free to grant: nothing performed, no ERASE running (a suspended one leaves it free, R64). -/
def storeFree (s : State) : Bool := s.store.op.isNone && !eraseBusy s

/-- The copy slot's APPEND waits. -/
def copyWaits (s : State) : Bool :=
  match s.upd.copy with
  | some c => c.phase == .waitStore
  | none => false

/-- A slot's APPEND was placed before every waiting READ. -/
def placedFirst (s : State) (i : Fin 4) : Bool :=
  match readyPosition s i, s.store.reads with
  | some ready, r :: _ => decide (ready < r.after)
  | some _, [] => true
  | none, _ => false

/-- The APPEND that caused the ERASE's suspension, while the grant it is owed is still to come (R64): no request waits when
an ERASE is granted (R59), so its cause is the request placed first. It is no copy: none is placed while an ERASE is in
flight (R73). -/
def causeSlot (s : State) : Option (Fin 4) :=
  match s.store.erase with
  | some e => if e.phase == .suspended && e.owes then (earliestReady s).filter (placedFirst s) else none
  | none => none

/-- The APPEND next in the order of R59: the copy slot's when urgent, else the earliest update slot's, else the copy's. -/
def nextAppend (s : State) : Option Appender :=
  if copyWaits s && isUrgent s then some .copy
  else
    match earliestReady s with
    | some i => some (.slot i)
    | none => if copyWaits s then some .copy else none

/-- A READ or an APPEND waits. -/
def readOrAppendWaits (s : State) : Bool := !s.store.reads.isEmpty || (nextAppend s).isSome

/-! ## Line conditions -/

/-- A newly offered request or reply is placed at once: a place is free, and no placer waits before it (R95; DEDUCED,
log 9). -/
def hasRoom (s : State) : Bool :=
  mayPlace s && s.line.waiting.isEmpty && decide (s.line.txq.length < Config.txCapacity)

/-- A place is left that is not owed to a waiting placer (R95; DEDUCED, log 9). -/
def placeLeft (s : State) : Bool :=
  mayPlace s && decide (s.line.txq.length + s.line.waiting.length < Config.txCapacity)

/-- The own slot of the running cycle (R88). -/
def ownSlot (s : State) : Nat := (s.ctl.own - s.line.base).toNat

/-- The four classes, highest first (R95). -/
def txClasses : List TxClass := [.replies, .requests, .news, .summary]

/-- The highest class that holds a frame (R95). -/
def highestClass (s : State) : Option TxClass := txClasses.find? fun c => s.line.txq.any fun t => t.kind.cls == c

/-- The first frame of a class. -/
def firstOfClass (s : State) (c : TxClass) : Option TxFrame := s.line.txq.find? fun t => t.kind.cls == c

/-- The deferral drawn at the nth collision: bits 2n-1 and 2n-2 of the unique ID (R92). -/
def deferralOf (uniqueId : BitVec 64) (n : Nat) : Nat := (uniqueId.extractLsb' (2 * n - 2) 2).toNat

/-- TXEN (R90, R100). -/
def txen (s : State) : Bool := !inReset s && s.line.sending.isSome

/-! ## Peers -/

/-- A station number is below 32. -/
theorem station_lt (p : Station) : p.toNat < 32 := p.isLt

/-- The peer entry of a station (R101). -/
def peerOf (s : State) (p : Station) : Peer := s.memb.peers[p.toNat]'(station_lt p)

/-- The station numbers, lowest first. -/
def stations : List Station := (List.range 32).map fun n => BitVec.ofNat 5 n

/-- The peer is PRESENT. -/
def isPresent (s : State) (p : Station) : Bool := (peerOf s p).state == .present

/-- PRESENT entries (R101, STATUS). -/
def presentCount (s : State) : Nat := s.memb.peers.toList.countP fun p => p.state == .present

/-! ## Host conditions -/

/-- A reply is ready (R171). -/
def replyReady (s : State) : Bool :=
  match s.host.reply with
  | some h => !h.read
  | none => false

/-- HIRQ (R181): events queued or a reply ready, never while in reset. -/
def hirq (s : State) : Bool := !inReset s && (!s.host.events.isEmpty || replyReady s)

/-- The configuration area is locked, as STATUS reports it (R177). -/
def isLocked (s : State) : Bool := areaLocked s.cfg.bytes.toList

end Sys2Proof.Machine
end

