-- ==== Sys2Proof/Machine/Ops.lean ====
section
/-! DEFINITION. Shared operations: flash memory, events, the directory, the Transmit Queue, the requesters that place
frames in it, the Want List. -/

namespace Sys2Proof.Machine

/-! ## Flash memory (R54, R55, R184) -/

/-- What an unlisted address reads as: a blank byte. -/
def blankByte : Byte := 0xFF

/-- The canonical form: addresses strictly rising, no blank byte listed. -/
abbrev Memory.wf (m : Memory) : Prop := m.Pairwise (fun c d => c.1 < d.1) ∧ ∀ c ∈ m, c.2 ≠ blankByte

/-- One byte. -/
def Memory.read : Memory → Nat → Byte
  | [], _ => blankByte
  | c :: m, a => if c.1 = a then c.2 else Memory.read m a

/-- A cell put in front, unless it is blank. -/
def Memory.putCell (a : Nat) (b : Byte) (m : Memory) : Memory := if b = blankByte then m else (a, b) :: m

/-- One byte written; writing a blank removes the entry. -/
def Memory.write : Memory → Nat → Byte → Memory
  | [], a, b => Memory.putCell a b []
  | c :: m, a, b =>
    if a < c.1 then Memory.putCell a b (c :: m)
    else if a = c.1 then Memory.putCell a b m
    else c :: Memory.write m a b

/-- Consecutive bytes. -/
def Memory.readBytes (m : Memory) (a n : Nat) : List Byte := (List.range n).map fun i => m.read (a + i)

/-- Programming consecutive bytes: a byte's bits are cleared where the given byte has a 0, but for the bits listed as not
taken (`rest` beyond the list) (R54, R79; log 5). -/
def Memory.program : Memory → Nat → List Byte → List Byte → Byte → Memory
  | m, _, [], _, _ => m
  | m, a, g :: gs, failed, rest =>
    Memory.program (m.write a (m.read a &&& (g ||| failed.headD rest))) (a + 1) gs failed.tail rest

/-- The sector at a base address with every byte blank. -/
def Memory.blankSector (m : Memory) (base : Nat) : Memory :=
  m.filter fun c => decide (c.1 < base) || decide (base + Config.sectorBytes ≤ c.1)

/-- An erase run to its end: blank, but for the listed bytes, of which only the listed bits were set (R65, R66). -/
def Memory.erase (m : Memory) (base : Nat) (failed : List (Nat × Byte)) : Memory :=
  failed.foldl
    (fun acc c =>
      if c.1 < Config.sectorBytes then acc.write (base + c.1) (m.read (base + c.1) ||| c.2) else acc)
    (m.blankSector base)

/-- An erase cut short: the listed bits of the sector's body set, the header untouched (R55, R79). -/
def Memory.eraseSome (m : Memory) (base : Nat) (erased : List (Nat × Byte)) : Memory :=
  erased.foldl
    (fun acc c =>
      if Config.granuleBytes ≤ c.1 ∧ c.1 < Config.sectorBytes then
        acc.write (base + c.1) (acc.read (base + c.1) ||| c.2)
      else acc) m

/-- The sector reads blank all through (R65). -/
def Memory.isBlankSector (m : Memory) (base : Nat) : Bool :=
  m.all fun c => decide (c.1 < base) || decide (base + Config.sectorBytes ≤ c.1)

/-- What reading at an image boundary finds (R184). No image boundary lies beyond granule 255 (log 7). -/
def readImage (m : Memory) (l : Loc) : ImageRead :=
  if l.granule = 0 ∨ Config.imageGranules < l.granule then .bad
  else parseImage (m.readBytes (granuleAddr l) 256) (Config.imageGranules + 1 - l.granule)

/-! ## Events (R179) -/

/-- One more lost event, saturating at 255. -/
def bumpLost (n : Byte) : Byte := if n = 255 then n else n + 1

/-- The queue has a KEY_CHANGED for a key. -/
def hasKeyChanged (l : List Event) (k : Key) : Bool :=
  l.any fun e =>
    match e with
    | .keyChanged k' _ => k' == k
    | _ => false

/-- The queued KEY_CHANGED of a key takes a new origin in its place. -/
def coalesce (k : Key) (o : Station) (e : Event) : Event :=
  match e with
  | .keyChanged k' o' => if k' = k then .keyChanged k' o else .keyChanged k' o'
  | .writeDone t k' r => .writeDone t k' r
  | .peerState p q => .peerState p q
  | .stationState q => .stationState q
  | .diverged r => .diverged r
  | .storeAlert a => .storeAlert a

/-- An event joins the tail, or is lost to a full queue. -/
def addEvent (h : HostPort) (e : Event) : HostPort :=
  if h.events.length < Config.eventCapacity then { h with events := h.events ++ [e] }
  else { h with lost := bumpLost h.lost }

/-- The three treatments of a posting (R179). -/
def HostPort.post (h : HostPort) (e : Event) : HostPort :=
  match e with
  | .keyChanged k o => if hasKeyChanged h.events k then { h with events := h.events.map (coalesce k o) } else addEvent h e
  | .writeDone _ _ _ => addEvent h e
  | .peerState _ _ => addEvent h e
  | .stationState _ => addEvent h e
  | .diverged _ => addEvent h e
  | .storeAlert _ => addEvent h e

/-- Post an event to the Event Queue. -/
def post (e : Event) (s : State) : State := { s with host := s.host.post e }

/-- A DIVERGED reason is set; the event is posted if it was clear (R52). -/
def setDiverged (r : DivReason) (s : State) : State :=
  match r with
  | .directory =>
    if s.upd.divDirectory then s
    else post (.diverged .directory) { s with upd := { s.upd with divDirectory := true } }
  | .store =>
    if s.upd.divStore then s else post (.diverged .store) { s with upd := { s.upd with divStore := true } }

/-! ## The sector table and the directory -/

/-- Change one sector table entry. -/
def modifySector (i : Nat) (f : Sector → Sector) (s : State) : State :=
  { s with store := { s.store with sectors := s.store.sectors.modify i f } }

/-- The live count of a sector rises. -/
def addLive (i n : Nat) (s : State) : State := modifySector i (fun x => { x with live := x.live + n }) s

/-- The live count of a sector falls. -/
def subLive (i n : Nat) (s : State) : State := modifySector i (fun x => { x with live := x.live - n }) s

/-- An entry put at its key's place, replacing one of the same key (R15, R20, R21). -/
def putEntry : List Entry → Entry → List Entry
  | [], e => [e]
  | d :: l, e =>
    if e.key.toNat < d.key.toNat then e :: d :: l
    else if e.key = d.key then e :: l
    else d :: putEntry l e

/-- A fold XORed into the check of a key's bucket (R24). -/
def xorCheck (checks : Vector (BitVec 16) 64) (k : Key) (f : BitVec 16) : Vector (BitVec 16) 64 :=
  checks.set (bucketOf k).toNat (checks[(bucketOf k).toNat]'(bucketOf k).isLt ^^^ f) (bucketOf k).isLt

/-- The directory's side of a commit that inserts (R20). -/
def Directory.insert (d : Directory) (e : Entry) (shared : Bool) : Directory :=
  { d with
    entries := putEntry d.entries e
    entryCount := d.entryCount + 1
    sharedCount := if shared then d.sharedCount + 1 else d.sharedCount
    checks := if shared then xorCheck d.checks e.key (entryFold e.key e.stamp) else d.checks }

/-- The directory's side of a commit that replaces an entry (R21): old fold out, new fold in (R24). -/
def Directory.replace (d : Directory) (old e : Entry) (shared : Bool) : Directory :=
  { d with
    entries := putEntry d.entries e
    checks :=
      if shared then
        xorCheck (xorCheck d.checks e.key (entryFold old.key old.stamp)) e.key (entryFold e.key e.stamp)
      else d.checks }

/-- The directory event of an update slot's commit (R20, R21): entry, counts, check and live counts together (R28). -/
def commitEntry (e : Entry) (s : State) : State :=
  match lookup s e.key with
  | none => addLive e.loc.sector e.imageLen { s with dir := s.dir.insert e (!isLocal s e.key) }
  | some old =>
    addLive e.loc.sector e.imageLen
      (subLive old.loc.sector old.imageLen { s with dir := s.dir.replace old e (!isLocal s e.key) })

/-- The directory event of the copy slot's commit (R22): the location moves if the entry still locates the victim image
with the same stamp; otherwise the copy is dead on arrival. -/
def commitCopy (c : CopySlot) (loc : Loc) (s : State) : State :=
  match lookup s c.record.key with
  | some e =>
    if e.loc = c.source ∧ e.stamp = c.record.stamp then
      addLive loc.sector e.imageLen
        (subLive c.source.sector e.imageLen
          { s with dir := { s.dir with entries := putEntry s.dir.entries { e with loc := loc } } })
    else s
  | none => s

/-- The station clock is raised, never lowered (R11). -/
def raiseClock (c : Counter) (s : State) : State :=
  if s.dir.clock.toNat < c.toNat then { s with dir := { s.dir with clock := c } } else s

/-! ## Placing frames (R95, R97) -/

/-- A frame takes the next place and the next sequence. -/
def placeFrame (kind : FrameKind) (flags : BitVec 4) (dest : Byte) (payload : List Byte) (placer : Option Requester)
    (s : State) : State :=
  { s with
    line :=
      { s.line with
        txq :=
          s.line.txq ++
            [{ kind := kind, flags := flags, dest := dest, seq := s.line.seq, payload := payload, collisions := 0,
               placer := placer }]
        seq := s.line.seq + 1 } }

/-- The request or reply of a requester is given up: it leaves the waiting placers, and a frame already placed stays in
the queue but no longer reports to it (R98, R111; log 22). -/
def dropRequest (r : Requester) (s : State) : State :=
  { s with
    line :=
      { s.line with
        waiting := s.line.waiting.filter fun q => q != r
        txq := s.line.txq.map fun t => if t.placer = some r then { t with placer := none } else t } }

/-- The outstanding PROFILE_QUERY is placed, and its reply timer starts (R98, R105). -/
def placeProfileQuery (s : State) : State :=
  match s.memb.query with
  | some q =>
    placeFrame .profileQuery 0 (stationByte q.peer) [] (some .profileQuery)
      { s with memb := { s.memb with query := some { q with placed := some { seq := s.line.seq, since := s.now } } } }
  | none => s

/-- The current pair's BUCKET_QUERY is placed (R128). -/
def placeBucketQuery (s : State) : State :=
  match s.recon.queue with
  | p :: _ =>
    placeFrame .bucketQuery 0 (stationByte p.peer) [p.bucket.setWidth 8] (some .bucketQuery)
      { s with recon := { s.recon with phase := .awaitingPart { seq := s.line.seq, since := s.now } 0 } }
  | [] => s

/-- Set a fetch slot. -/
def setFetchSlot (i : Fin 4) (f : FetchSlot) (s : State) : State :=
  { s with fetch := { s.fetch with slots := s.fetch.slots.set i f } }

/-- A fetch slot's FETCH is placed (R139). -/
def placeFetch (i : Fin 4) (s : State) : State :=
  match s.fetch.slots[i] with
  | .waitingRoom key peer stamp =>
    placeFrame .fetch 0 (stationByte peer) (fetchPayload key stamp) (some (.fetch i))
      (setFetchSlot i (.awaiting key peer { seq := s.line.seq, since := s.now }) s)
  | .free => s
  | .awaiting _ _ _ => s

/-- The bucket's shared entries above a resume key, in ascending key order (R151). -/
def bucketEntries (s : State) (b : Bucket) (resume : Option Key) : List Entry :=
  s.dir.entries.filter fun e =>
    bucketOf e.key == b && !isLocal s e.key &&
      match resume with
      | some k => decide (k.toNat < e.key.toNat)
      | none => true

/-- The key of the last entry of a list. -/
def lastKey (l : List Entry) : Option Key := l.getLast?.map (·.key)

/-- The reply of the job in service is placed (R148 to R151): a SUPPLY or PROFILE ends its job, and so does a part with
LAST; a part without sends its job to the tail. A part and a PROFILE are built here. -/
def placeReply (s : State) : State :=
  match s.resp.jobs, s.resp.service with
  | job :: rest, some (.built answer) =>
    match job.kind with
    | .supply key =>
      placeFrame .supply (if answer.isSome then 0 else 2) (stationByte job.peer) (supplyPayload job.echo key answer) none
        { s with resp := { jobs := rest, service := none } }
    | .bucketReply _ _ _ => s
    | .profile => s
  | job :: rest, some .ready =>
    match job.kind with
    | .profile =>
      placeFrame .profile 0 (stationByte job.peer) (job.echo :: profileTable s.ctl) none
        { s with resp := { jobs := rest, service := none } }
    | .bucketReply b part resume =>
      let found := bucketEntries s b resume
      let listed := found.take Config.partEntries
      let last := decide (found.length ≤ Config.partEntries)
      placeFrame .bucketReply (if last then 1 else 0) (stationByte job.peer) (partPayload job.echo b part listed) none
        { s with
          resp :=
            { jobs := if last then rest else rest ++ [{ job with kind := .bucketReply b (part + 1) (lastKey listed) }]
              service := none } }
    | .supply _ => s
  | _, _ => s

/-- Place what a requester holds ready. -/
def placeFor (r : Requester) (s : State) : State :=
  match r with
  | .reply => placeReply s
  | .profileQuery => placeProfileQuery s
  | .bucketQuery => placeBucketQuery s
  | .fetch i => placeFetch i s

/-- A requester begins to wait for room, behind those that wait (R95). -/
def waitForRoom (r : Requester) (s : State) : State :=
  { s with line := { s.line with waiting := s.line.waiting ++ [r] } }

/-- A request is offered: placed when there is room and no placer waits before it, kept by its requester otherwise (R95). -/
def offerRequest (r : Requester) (s : State) : State := if hasRoom s then placeFor r s else waitForRoom r s

/-! ## The Responder (R148, R149) -/

/-- The entry a SUPPLY job reads from flash: a valid key's, of a class not LOCAL (R149). -/
def supplyEntry (s : State) (k : Key) : Option Entry :=
  match lookup s k with
  | some e => if isLocal s k then none else some e
  | none => none

/-- A READ is placed behind those that wait (R58). -/
def placeRead (owner : Reader) (loc : Loc) (s : State) : State :=
  { s with
    store := { s.store with reads := s.store.reads ++ [{ owner := owner, loc := loc, after := s.upd.nextReady }] } }

/-- Set the service of the head job. -/
def setService (v : Option Service) (s : State) : State := { s with resp := { s.resp with service := v } }

/-- The Responder takes head jobs into service, and places what it can, until a job waits (R148). One round places a
frame or ends, so 17 rounds are enough for 16 places. -/
def serveJobs : Nat → State → State
  | 0, s => s
  | n + 1, s =>
    if s.resp.service.isSome || !mayPlace s then s
    else
      match s.resp.jobs with
      | [] => s
      | job :: _ =>
        match job.kind with
        | .supply key =>
          match supplyEntry s key with
          | some e => placeRead .responder e.loc (setService (some (.reading e)) s)
          | none =>
            let t := setService (some (.built none)) s
            if hasRoom t then serveJobs n (placeReply t) else waitForRoom .reply t
        | .bucketReply _ _ _ =>
          let t := setService (some .ready) s
          if hasRoom t then serveJobs n (placeReply t) else waitForRoom .reply t
        | .profile =>
          let t := setService (some .ready) s
          if hasRoom t then serveJobs n (placeReply t) else waitForRoom .reply t

/-- The Responder goes on. -/
def pumpResponder (s : State) : State := serveJobs (Config.txCapacity + 1) s

/-! ## Frames that do not wait: NEWS and SUMMARY (R49, R95, R121) -/

/-- The waiting placers take the free places, longest waiting first (R95). -/
def placeWaiting (s : State) : State :=
  s.line.waiting.foldl (fun t r => placeFor r t) { s with line := { s.line with waiting := [] } }

/-- Waiting placers take their places, and the Responder goes on (R95, R148). -/
def serveWaiting (s : State) : State := if s.line.waiting.isEmpty then s else pumpResponder (placeWaiting s)

/-- A frame that cannot wait is offered: while a place is left that no placer is owed, the waiting placers take theirs
and the frame comes after them; otherwise it is not placed (R95; DEDUCED, log 9). -/
def placeBehind (place : State → State) (s : State) : State :=
  if placeLeft s then
    let t := serveWaiting s
    if hasRoom t then place t else t
  else s

/-- A NEWS is offered: placed, or dropped when no place is left (R49, R116). -/
def offerNews (r : Record) (s : State) : State :=
  placeBehind (placeFrame .news 0 Config.broadcast (recordBytes r) none) s

/-- A SUMMARY is offered: absorbed by one already queued, refused when no place is left, else placed (R121). -/
def offerSummary (s : State) : State :=
  if s.line.txq.any (fun t => t.kind == .summary) then s
  else placeBehind (placeFrame .summary 0 Config.broadcast [] none) s

/-- The READs of the Responder are no longer wanted: they complete, and their bytes are not used (R111; log 26). -/
def discardReads (s : State) : State :=
  { s with
    store :=
      { s.store with
        reads := s.store.reads.map fun r => if r.owner = .responder then { r with owner := .discarded } else r
        op :=
          match s.store.op with
          | some (.read .responder found) => some (.read .discarded found)
          | o => o } }

/-- The service of the head job ends without a reply (R148). -/
def endService (s : State) : State := discardReads (dropRequest .reply (setService none s))

/-- The head job is a peer's and is in service. -/
def servesPeer (s : State) (p : Station) : Bool :=
  s.resp.service.isSome &&
    match s.resp.jobs with
    | job :: _ => job.peer == p
    | [] => false

/-- Every Reply Queue job of a peer is discarded (R109, R111). -/
def discardJobs (p : Station) (s : State) : State :=
  let t := if servesPeer s p then endService s else s
  { t with resp := { t.resp with jobs := t.resp.jobs.filter fun j => j.peer != p } }

/-! ## The Membership Unit (R105, R113) -/

/-- Set a peer entry. -/
def setPeer (p : Station) (e : Peer) (s : State) : State :=
  { s with memb := { s.memb with peers := s.memb.peers.set p.toNat e (station_lt p) } }

/-- A peer entry changes its state, and PEER_STATE is posted (R113). -/
def changePeer (p : Station) (e : Peer) (s : State) : State := post (.peerState p e.state) (setPeer p e s)

/-- A peer that may be queried: JOINING with attempts below 3 (R105). -/
def mayQuery (s : State) (p : Station) : Bool :=
  (peerOf s p).state == .joining && decide ((peerOf s p).attempts < Config.maxAttempts)

/-- The profile query is chosen and offered, when ACTIVE and none is outstanding (R105). -/
def pumpProfile (s : State) : State :=
  if isActive s && s.memb.query.isNone then
    match stations.find? (mayQuery s) with
    | some p =>
      let t := setPeer p { peerOf s p with attempts := (peerOf s p).attempts + 1 } s
      offerRequest .profileQuery { t with memb := { t.memb with query := some { peer := p, placed := none } } }
    | none => s
  else s

/-- The outstanding profile query ends, if it is the named peer's (R105, R106, R109). -/
def endQueryOf (p : Station) (s : State) : State :=
  match s.memb.query with
  | some q => if q.peer = p then dropRequest .profileQuery { s with memb := { s.memb with query := none } } else s
  | none => s

/-! ## The Reconciler (R128, R132) -/

/-- The Reconciler takes the head pair, when IDLE and ACTIVE: pairs of partial peers are removed, the next counts an
attempt and its BUCKET_QUERY is offered (R128). -/
def pumpReconciler (s : State) : State :=
  if isActive s && s.recon.phase == .idle then
    match s.recon.queue.dropWhile fun p => (peerOf s p.peer).isPartial with
    | [] => { s with recon := { s.recon with queue := [] } }
    | p :: rest =>
      offerRequest .bucketQuery
        { s with recon := { queue := { p with attempts := p.attempts + 1 } :: rest, phase := .waitingRoom } }
  else s

/-- The query ends: IDLE, and its request is given up; the pair is left to the caller. -/
def endBucketQuery (s : State) : State :=
  dropRequest .bucketQuery { s with recon := { s.recon with phase := .idle } }

/-- The query ends without its reply complete (R132): the pair stays for a retry at 1 attempt, and is removed at 2. -/
def failBucketQuery (s : State) : State :=
  let t := endBucketQuery s
  match t.recon.queue with
  | p :: rest =>
    if p.attempts < Config.maxPairAttempts then t else { t with recon := { t.recon with queue := rest } }
  | [] => t

/-! ## The Fetch Unit (R137 to R144) -/

/-- The key a busy fetch slot holds. -/
def FetchSlot.key : FetchSlot → Option Key
  | .free => none
  | .waitingRoom k _ _ => some k
  | .awaiting k _ _ => some k

/-- The peer a busy fetch slot's FETCH is addressed to. -/
def FetchSlot.peer : FetchSlot → Option Station
  | .free => none
  | .waitingRoom _ p _ => some p
  | .awaiting _ p _ => some p

/-- A fetch slot becomes FREE; its FETCH is given up unplaced, or its timer stops (R144). -/
def freeFetchSlot (i : Fin 4) (s : State) : State := dropRequest (.fetch i) (setFetchSlot i .free s)

/-- Every fetch slot that holds a key becomes FREE. -/
def freeSlotsOfKey (k : Key) (s : State) : State :=
  slotNumbers.foldl (fun t i => if t.fetch.slots[i].key = some k then freeFetchSlot i t else t) s

/-- Every fetch slot aimed at a peer becomes FREE (R111). -/
def freeSlotsOfPeer (p : Station) (s : State) : State :=
  slotNumbers.foldl (fun t i => if t.fetch.slots[i].peer = some p then freeFetchSlot i t else t) s

/-- The Want entry of a key. -/
def wantOf (s : State) (k : Key) : Option Want := s.fetch.wants.find? fun w => w.key == k

/-- Change the Want List. -/
def setWants (l : List Want) (s : State) : State := { s with fetch := { s.fetch with wants := l } }

/-- The list without the entry of a key. -/
def withoutKey (l : List Want) (k : Key) : List Want := l.filter fun w => w.key != k

/-- The Want entry of a key is removed. -/
def removeWant (k : Key) (s : State) : State := setWants (withoutKey s.fetch.wants k) s

/-- The Want entry of a key is marked as held by a fetch slot. -/
def markRequested (k : Key) (s : State) : State :=
  setWants (s.fetch.wants.map fun w => if w.key = k then { w with requested := true } else w) s

/-- One fetch slot takes the oldest WAITING entry, if it is FREE and the station ACTIVE (R139). -/
def takeWant (s : State) (i : Fin 4) : State :=
  if isActive s && s.fetch.slots[i] == .free then
    match s.fetch.wants.find? fun w => !w.requested with
    | some w =>
      offerRequest (.fetch i) (setFetchSlot i (.waitingRoom w.key w.source w.stamp) (markRequested w.key s))
    | none => s
  else s

/-- The FREE fetch slots take WAITING entries, lowest slot and oldest entry first (R139). -/
def pumpFetch (s : State) : State := slotNumbers.foldl takeWant s

/-- An add to the Want List (R137), dropped in MUTE (R145). -/
def wantAdd (k : Key) (stamp : Stamp) (source : Station) (s : State) : State :=
  if s.ctl.st = .mute then s
  else
    let fresh : Want := { key := k, stamp := stamp, source := source, attempts := 0, requested := false }
    match wantOf s k with
    | none =>
      if s.fetch.wants.length < Config.wantCapacity then setWants (s.fetch.wants ++ [fresh]) s else s
    | some w =>
      if beats s k stamp w.stamp then
        if w.requested then
          let t := freeSlotsOfKey k s
          setWants (withoutKey t.fetch.wants k ++ [fresh]) t
        else setWants (s.fetch.wants.map fun x => if x.key = k then fresh else x) s
      else s

/-- A commit prunes the Want entry of its key once it no longer beats the entry (R48). -/
def pruneWant (k : Key) (stamp : Stamp) (s : State) : State :=
  match wantOf s k with
  | some w => if beats s k w.stamp stamp then s else removeWant k (freeSlotsOfKey k s)
  | none => s

/-- The station's waiting work is offered, in the order of R95: a reply, the PROFILE_QUERY, the BUCKET_QUERY, FETCHes. -/
def pump (s : State) : State := pumpFetch (pumpReconciler (pumpProfile (pumpResponder s)))

/-- The query ends if the current pair is a peer's (R111). -/
def endPairOf (p : Station) (s : State) : State :=
  match s.recon.phase, s.recon.queue with
  | .idle, _ => s
  | _, q :: _ => if q.peer = p then endBucketQuery s else s
  | _, [] => s

/-- A peer's pairs leave the Reconcile Queue (R111). -/
def dropPairsOf (p : Station) (s : State) : State :=
  { s with recon := { s.recon with queue := s.recon.queue.filter fun q => q.peer != p } }

/-- A peer's Want entries leave the Want List (R111). -/
def dropWantsOf (p : Station) (s : State) : State := setWants (s.fetch.wants.filter fun w => w.source != p) s

/-- When a peer leaves PRESENT the station's work with it is withdrawn (R111). Offers that follow are the caller's pump. -/
def purgePeer (p : Station) (s : State) : State :=
  discardJobs p (dropPairsOf p (endPairOf p (freeSlotsOfPeer p (dropWantsOf p s))))

end Sys2Proof.Machine
end

