-- ==== Sys2Proof/Machine/UpdateOps.lean ====
section
/-! DEFINITION. The Update Unit's shared operations: claiming and releasing slots, local admission, arrivals, commits,
failures (03_the_update_unit.md). -/

namespace Sys2Proof.Machine

/-! ## Slots -/

/-- Set an update slot. -/
def setSlot (i : Fin 4) (x : Option Slot) (s : State) : State :=
  { s with upd := { s.upd with slots := s.upd.slots.set i x } }

/-- A slot enters WAIT_STORE behind every slot in it (R32). -/
def enterWaitStore (i : Fin 4) (x : Slot) (s : State) : State :=
  let t := setSlot i (some { x with phase := .waitStore, ready := s.upd.nextReady }) s
  { t with upd := { t.upd with nextReady := t.upd.nextReady + 1 } }

/-- A new-key reservation is taken (R16). -/
def takeReservation (held : Bool) (s : State) : State :=
  if held then { s with dir := { s.dir with reservations := s.dir.reservations + 1 } } else s

/-- A reservation, if held, is released (R16). -/
def dropReservation (held : Bool) (s : State) : State :=
  if held then { s with dir := { s.dir with reservations := s.dir.reservations - 1 } } else s

/-- A slot is claimed for a record, with a reservation when its key has no entry (R38, R43). -/
def claimSlot (i : Fin 4) (origin : Origin) (r : Record) (s : State) : State :=
  let fresh := (lookup s r.key).isNone
  enterWaitStore i
    { phase := .waitStore, origin := origin, record := r, reserved := fresh, retry := false, ready := 0, follower := none }
    (takeReservation fresh s)

/-- A slot whose update has ended takes up its follower as a PEER record, or becomes FREE (R50, R51). The follower takes
a reservation again if its key has no entry. -/
def releaseSlot (i : Fin 4) (x : Slot) (s : State) : State :=
  let t := dropReservation x.reserved s
  match x.follower with
  | some f => claimSlot i .peer f t
  | none => setSlot i none t

/-- The slot, if busy, is released. -/
def releaseAt (s : State) (i : Fin 4) : State :=
  match s.upd.slots[i] with
  | some x => releaseSlot i x s
  | none => s

/-! ## Failure (R46, R51, R52) -/

/-- WRITE_DONE for a LOCAL origin, nothing for a PEER origin. -/
def reportWrite (result : WriteResult) (s : State) (i : Fin 4) : State :=
  match s.upd.slots[i] with
  | some x =>
    match x.origin with
    | .host ticket => post (.writeDone ticket x.record.key result) s
    | .peer => s
  | none => s

/-- The slot is busy with a PEER update. -/
def isPeerSlot (s : State) (i : Fin 4) : Bool :=
  match s.upd.slots[i] with
  | some x => x.origin == .peer
  | none => false

/-- Updates end without a commit: their WRITE_DONEs by slot number, then DIVERGED if a PEER update is lost (R179's
order), then each slot is released, in slot order (DESIGN CHOICE, log 20). -/
def failSlots (result : WriteResult) (l : List (Fin 4)) (s : State) : State :=
  let a := l.foldl (reportWrite result) s
  let b := if l.any (isPeerSlot s) then setDiverged .store a else a
  l.foldl releaseAt b

/-- Every slot in STORE_WAIT fails with STORE_FULL (R63). -/
def failStoreWait (s : State) : State := failSlots .storeFull (slotNumbers.filter (inStoreWait s)) s

/-- A slot returns from STORE_WAIT to WAIT_STORE in its ready position. -/
def wakeSlot (x : Slot) : Slot := if x.phase = .storeWait then { x with phase := .waitStore } else x

/-- Every slot in STORE_WAIT returns to WAIT_STORE in its ready position (R63). -/
def wakeStoreWait (s : State) : State :=
  { s with upd := { s.upd with slots := s.upd.slots.map (Option.map wakeSlot) } }

/-! ## Local admission (R34 to R39) -/

/-- The nine checks in their order, each as a failure with its refusal; the state and policy checks take several lines. -/
def admissionChecks (s : State) (k : Key) (tomb : Bool) (len : Nat) : List (Bool × ResultCode) :=
  [ (s.ctl.st == .starting, .starting),
    (s.ctl.st == .unconfigured, .notConfigured),
    (s.ctl.st == .mute && !isLocal s k, .muted),
    (!validKey k, .badKey),
    (policyOf s k == .owned && s.ctl.own != ownerOf k, .notOwner),
    (policyOf s k == .once && tomb, .notDeletable),
    (policyOf s k == .once && !tomb && (lookup s k).isSome, .alreadySet),
    (!tomb && decide ((classOf s k).maxLen < len), .tooLong),
    ((slotWithKey s k).isSome, .keyBusy),
    ((lookup s k).isNone && dirFull s, .dirFull),
    ((freeSlot s).isNone, .busy),
    (s.dir.clock == Config.clockExhausted, .clockExhausted),
    (hopeless s (imageLen len), .storeFull) ]

/-- The first check that fails gives the refusal (R34). -/
def admissionRefusal (s : State) (k : Key) (tomb : Bool) (len : Nat) : Option ResultCode :=
  ((admissionChecks s k tomb len).find? (·.1)).map (·.2)

/-- The request in progress completes with a reply (R170, R171). -/
def complete (r : Reply) (s : State) : State :=
  { s with host := { s.host with request := none, reply := some { reply := r, read := false } } }

/-- The stamp a local update takes (R12). -/
def localStamp (s : State) : Stamp := { counter := s.dir.clock + 1, origin := s.ctl.own }

/-- Admission into a FREE slot (R38). -/
def admitLocal (i : Fin 4) (k : Key) (tomb : Bool) (value : List Byte) (s : State) : State :=
  let stamp := localStamp s
  let ticket := s.upd.ticket + 1
  let t :=
    { s with
      dir := { s.dir with clock := stamp.counter }
      upd := { s.upd with ticket := ticket } }
  complete (.admitted ticket stamp)
    (claimSlot i (.host ticket) { key := k, stamp := stamp, tomb := tomb, value := value } t)

/-- A write or delete is refused or admitted, as one event (R34). -/
def localAdmission (k : Key) (tomb : Bool) (value : List Byte) (s : State) : State :=
  match admissionRefusal s k tomb value.length with
  | some c => complete (.code c) s
  | none =>
    match freeSlot s with
    | some i => admitLocal i k tomb value s
    | none => complete (.code .busy) s

/-! ## Arrivals (R40 to R44) -/

/-- The first test (R40). -/
def isMalformed (s : State) (r : Record) : Bool :=
  !validKey r.key || isLocal s r.key || decide ((classOf s r.key).maxLen < r.value.length) ||
    (r.tomb && !r.value.isEmpty)

/-- The second test (R40). -/
def isForeign (s : State) (r : Record) : Bool := policyOf s r.key == .owned && r.stamp.origin != ownerOf r.key

/-- The third test: the arrival does not beat the entry (R41). -/
def isStale (s : State) (r : Record) : Bool :=
  match lookup s r.key with
  | some e => !beats s r.key r.stamp e.stamp
  | none => false

/-- The arrival meets the slot busy with its key (R42). -/
def meetSlot (i : Fin 4) (x : Slot) (r : Record) (s : State) : State :=
  if beats s r.key r.stamp x.record.stamp then
    match x.follower with
    | none => setSlot i (some { x with follower := some r }) s
    | some f => if beats s r.key r.stamp f.stamp then setSlot i (some { x with follower := some r }) s else s
  else s

/-- The arrival asks for a slot (R43, R44). -/
def seekSlot (r : Record) (source : Station) (s : State) : State :=
  if (lookup s r.key).isNone && dirFull s then setDiverged .directory s
  else
    match freeSlot s with
    | some i => claimSlot i .peer r s
    | none => wantAdd r.key r.stamp source s

/-- The tests that follow the clock's raise (R41 to R44). -/
def placeArrival (r : Record) (source : Station) (s : State) : State :=
  if isStale s r then s
  else
    match slotWithKey s r.key with
    | some i =>
      match s.upd.slots[i] with
      | some x => meetSlot i x r s
      | none => s
    | none => seekSlot r source s

/-- An arrival is taken, as one event (R40). Its source has been found PRESENT by the caller. -/
def arrive (r : Record) (source : Station) (s : State) : State :=
  if isMalformed s r || isForeign s r then s else placeArrival r source (raiseClock r.stamp.counter s)

/-! ## Commit (R47 to R50) -/

/-- The entry a slot's record and location make. -/
def entryOf (r : Record) (loc : Loc) : Entry :=
  { key := r.key, stamp := r.stamp, tomb := r.tomb, len := r.value.length, loc := loc }

/-- The event of a commit: WRITE_DONE for a LOCAL origin, KEY_CHANGED for a PEER origin in a notifying class (R49). -/
def reportCommit (x : Slot) (s : State) : State :=
  match x.origin with
  | .host ticket => post (.writeDone ticket x.record.key .committed) s
  | .peer =>
    if (classOf s x.record.key).notify then post (.keyChanged x.record.key x.record.stamp.origin) s else s

/-- The slot commits: entry, check, counts and live granules; the Want List's pruning; the event; the release, in which
the reservation becomes the entry (R47, R50). -/
def commitSlot (i : Fin 4) (x : Slot) (loc : Loc) (s : State) : State :=
  releaseSlot i x (reportCommit x (pruneWant x.record.key x.record.stamp (commitEntry (entryOf x.record loc) s)))

/-- The NEWS of a local commit of a shared class (R49, R116). -/
def offerCommitNews (x : Slot) (s : State) : State :=
  match x.origin with
  | .host _ => if isLocal s x.record.key then s else offerNews x.record s
  | .peer => s

end Sys2Proof.Machine
end

