-- ==== Sys2Proof/Machine/StoreOps.lean ====
section
/-! DEFINITION. The Flash Store's shared operations: choosing sectors, placing images, compaction's run, the space test, the
programs a completion carries out, the start-up scan (04_the_flash_store.md). -/

namespace Sys2Proof.Machine

/-! ## Choosing a sector -/

/-- The number with the least measure, the first of equals. -/
def argmin (m : Nat → Nat) (l : List Nat) : Option Nat :=
  l.foldl
    (fun best i =>
      match best with
      | some j => if m i < m j then some i else some j
      | none => some i)
    none

/-- The numbers of the sectors that satisfy a test, lowest first. -/
def sectorsWith (s : State) (ok : Sector → Bool) : List Nat :=
  (List.range s.store.sectors.length).filter fun i =>
    match s.store.sectors[i]? with
    | some x => ok x
    | none => false

/-- The erase count of a sector. -/
def eraseCountOf (s : State) (i : Nat) : BitVec 16 :=
  match s.store.sectors[i]? with
  | some x => x.eraseCount
  | none => 0

/-- Fewest live granules first, then lowest sequence number (R69); no sequence number counts as 0 (log 15). -/
def victimMeasure (s : State) (i : Nat) : Nat :=
  match s.store.sectors[i]? with
  | some x => x.live * 4294967296 + (x.seq.getD 0).toNat
  | none => 0

/-- The ERASED sector with the lowest erase count, lowest number among equals (R62). -/
def chooseErased (s : State) : Option Nat :=
  argmin (fun i => (eraseCountOf s i).toNat) (sectorsWith s fun x => x.state == .erased)

/-- FULL sectors with the reclaim mark, lowest number first (R69; log 15). -/
def markedFull (s : State) : List Nat := sectorsWith s fun x => x.state == .full && x.reclaim

/-- The victim among the FULL sectors without a mark (R69). -/
def chooseVictim (s : State) : Option Nat := argmin (victimMeasure s) (sectorsWith s fun x => x.state == .full)

/-! ## Placing an image (R61, R62) -/

/-- A place for an image: in the OPEN sector, or at granule 1 of a sector to be opened. -/
inductive Place where
  | inside (loc : Loc)
  | opening (sector : Nat)
  deriving DecidableEq, Repr

/-- Where an image of a length goes when a sector may be opened with so many ERASED ones: 2 for an update slot, 1 for
the copy slot (R61, R62). -/
def choosePlace (s : State) (len needed : Nat) : Option Place :=
  if len ≤ openFree s then (openSector s).map fun p => .inside { sector := p.1, granule := p.2.used + 1 }
  else if needed ≤ erasedCount s then (chooseErased s).map .opening
  else none

/-- A sector leaves OPEN for FULL (R56). -/
def closeSector (x : Sector) : Sector := { x with state := .full, used := Config.imageGranules }

/-- The OPEN sector, if any, becomes FULL. -/
def closeOpen (s : State) : State :=
  match openSector s with
  | some (i, _) => modifySector i closeSector s
  | none => s

/-- The next sequence number: the highest plus 1, and past FFFFFFFFh a free value (R62; log 24). -/
def nextSeq (s : State) : BitVec 32 :=
  if s.store.highestSeq = 0xFFFFFFFF then Config.freeSeq s.free else s.store.highestSeq + 1

/-- A sector becomes the OPEN one: sequence number, erase count and clock as its opening record will hold them (R62). -/
def openAt (i : Nat) (s : State) : State × Opening :=
  let o : Opening := { seq := nextSeq s, eraseCount := eraseCountOf s i, clock := s.dir.clock }
  let t := modifySector i (fun x => { x with state := .openForAppend, seq := some o.seq, used := 0 }) (closeOpen s)
  ({ t with store := { t.store with highestSeq := o.seq }, free := if s.store.highestSeq = 0xFFFFFFFF then s.free + 1 else s.free }, o)

/-- The image's granules count as used from the grant (R61). -/
def useGranules (i n : Nat) (s : State) : State := modifySector i (fun x => { x with used := x.used + n }) s

/-- The slot that placed the APPEND starts PROGRAMMING (R45, R72). -/
def startProgramming (who : Appender) (loc : Loc) (s : State) : State :=
  match who with
  | .slot i =>
    match s.upd.slots[i] with
    | some x => setSlot i (some { x with phase := .programming loc }) s
    | none => s
  | .copy =>
    { s with upd := { s.upd with copy := s.upd.copy.map fun c => { c with phase := .programming loc } } }

/-- The granted APPEND begins its program (R45, R61). -/
def beginProgram (who : Appender) (r : Record) (loc : Loc) (opening : Option Opening) (s : State) : State :=
  let t := startProgramming who loc (useGranules loc.sector (imageLen r.value.length) s)
  { t with store := { t.store with op := some (.append who loc opening (imageBytes r)) } }

/-- The image takes its place (R61). -/
def takePlace (who : Appender) (r : Record) (p : Place) (s : State) : State :=
  match p with
  | .inside loc => beginProgram who r loc none s
  | .opening i => beginProgram who r { sector := i, granule := 1 } (some (openAt i s).2) (openAt i s).1

/-! ## Space (R67) -/

/-- The out-of-space test; STORE_ALERT is posted when the store passes into the condition. -/
def spaceTest (s : State) : State :=
  let o := outOfSpace s
  let t := { s with store := { s.store with low := o } }
  if o && !s.store.low then post (.storeAlert .spaceLow) t else t

/-- Compaction's phase and victim, whatever its cursor. -/
def Compaction.phase : Compaction → Compaction
  | .copying v _ => .copying v 0
  | .stalled v _ => .stalled v 0
  | .idle => .idle
  | .marking v => .marking v
  | .closing v => .closing v
  | .erasing v => .erasing v

/-- What the space test watches: sector states, used and live counts, update-slot states, the compaction phase (R67). -/
def spaceView (s : State) : List (SectorState × Nat × Nat) × List (Option SlotPhase) × Compaction :=
  (s.store.sectors.map fun x => (x.state, x.used, x.live),
   slotNumbers.map fun i => s.upd.slots[i].map (·.phase),
   s.store.comp.phase)

/-- The space test is made at an event that changes what it watches (R67). -/
def spaceEvent (old s : State) : State := if spaceView old = spaceView s then s else spaceTest s

/-! ## Compaction (R68 to R75) -/

/-- Set compaction's phase. -/
def setComp (c : Compaction) (s : State) : State := { s with store := { s.store with comp := c } }

/-- A READ of the walk is waiting or running. -/
def walkReads (s : State) : Bool :=
  s.store.reads.any (fun r => r.owner == .compaction) ||
    match s.store.op with
    | some (.read owner _) => owner == .compaction
    | some (.append _ _ _ _) => false
    | some (.mark _ _) => false
    | none => false

/-- The walk ends: the erase-begun MARK is placed, CLOSING is entered (R73). -/
def endWalk (v : Nat) (s : State) : State :=
  { s with store := { s.store with comp := .closing v, mark := some (.eraseBegun, v) } }

/-- What a live count may have brought about: the walk or the stall ends at 0, and otherwise the walk places its next
READ once the copy slot is FREE (R71, R74). -/
def advanceWalk (s : State) : State :=
  match s.store.comp with
  | .copying v cursor =>
    if liveOf s v = 0 then endWalk v s
    else if s.upd.copy.isNone && !walkReads s then placeRead .compaction { sector := v, granule := cursor } s
    else s
  | .stalled v _ =>
    if liveOf s v = 0 then endWalk v { s with upd := { s.upd with copy := none } } else s
  | .idle => s
  | .marking _ => s
  | .closing _ => s
  | .erasing _ => s

/-- A victim is chosen and compaction begins (R69). -/
def beginCompaction (s : State) : State :=
  match markedFull s with
  | v :: _ => setComp (.copying v 1) (modifySector v (fun x => { x with state := .reclaiming }) s)
  | [] =>
    match chooseVictim s with
    | some v =>
      let t := modifySector v (fun x => { x with state := .reclaiming, reclaim := true }) s
      { t with store := { t.store with comp := .marking v, mark := some (.reclaimBegun, v) } }
    | none => s

/-- The trigger, tested while compaction is IDLE (R68). -/
def testTrigger (s : State) : State := if s.store.comp == .idle && trigger s then beginCompaction s else s

/-- What follows, within one event, from changed sector states and live counts: the trigger, the walk, the space test. -/
def settleStore (old s : State) : State := spaceEvent old (advanceWalk (testTrigger s))

/-- The victim becomes ERASING's, and its ERASE is placed (R68, R73). -/
def placeErase (v : Nat) (s : State) : State :=
  { s with
    store := { s.store with comp := .erasing v, erase := some { sector := v, suspensions := 0, phase := .waiting } } }

/-- A run has ended: the next sector left ERASING is taken up, or else the trigger is tested (R75). -/
def nextRun (s : State) : State :=
  match sectorsWith s fun x => x.state == .erasing with
  | v :: _ => placeErase v s
  | [] => testTrigger (setComp .idle s)

/-- Compaction stalls; the copy slot keeps its record, and every slot in STORE_WAIT fails (R74). -/
def stallCompaction (v cursor : Nat) (s : State) : State :=
  failStoreWait
    { s with
      store := { s.store with comp := .stalled v cursor }
      upd := { s.upd with copy := s.upd.copy.map fun c => { c with phase := .stalled } } }

/-- Compaction is running: it has a victim and is not stalled (R63). -/
def isCompacting (s : State) : Bool :=
  match s.store.comp with
  | .idle => false
  | .stalled _ _ => false
  | .marking _ => true
  | .copying _ _ => true
  | .closing _ => true
  | .erasing _ => true

/-! ## Programs (R55, R60, R184) -/

/-- The store is free again. -/
def clearOp (s : State) : State := { s with store := { s.store with op := none } }

/-- Programming at an address of the array, with the bits listed as not taken (log 5). -/
def programFlash (addr : Nat) (given failed : List Byte) (rest : Byte) (s : State) : State :=
  { s with flash := s.flash.program addr given failed rest }

/-- An APPEND's program: the opening record's granule, where it opens the sector, then the image (R54, R62). -/
def programAppend (loc : Loc) (opening : Option Opening) (image failed : List Byte) (rest : Byte) (s : State) : State :=
  match opening with
  | some o =>
    programFlash (granuleAddr loc) image (failed.drop Config.granuleBytes) rest
      (programFlash (headerAddr loc.sector) (openingGranule o) (failed.take Config.granuleBytes) rest s)
  | none => programFlash (granuleAddr loc) image failed rest s

/-- The opening record's bytes, 3 to 14 of the header. -/
def openingRecord (o : Opening) : List Byte := openingHead o ++ [check8 (openingHead o)]

/-- The verify: image and opening record read back as they were given (R60). -/
def verifies (m : Memory) (loc : Loc) (opening : Option Opening) (image : List Byte) : Bool :=
  m.readBytes (granuleAddr loc) image.length == image &&
    match opening with
    | some o => m.readBytes (headerAddr loc.sector + 3) 12 == openingRecord o
    | none => true

/-- The OPEN sector becomes FULL when a program has left it no free granule (R60). -/
def closeIfFull (i : Nat) (s : State) : State :=
  modifySector i (fun x => if x.state = .openForAppend ∧ Config.imageGranules ≤ x.used then closeSector x else x) s

/-- A failed verify closes the sector at once (R60). -/
def closeFailed (i : Nat) (s : State) : State := modifySector i closeSector s

/-- A marker's byte as it is programmed. -/
def MarkKind.byte : MarkKind → Byte
  | .reclaimBegun => reclaimMark
  | .eraseBegun => eraseMark

/-- A marker programmed into a sector's header (R184). -/
def programMark (sector : Nat) (given failed : Byte) (s : State) : State :=
  programFlash (headerAddr sector + 15) [given] [failed] 0 s

/-- The erase count after one more erase (R65, R184). -/
def nextEraseCount (c : BitVec 16) : BitVec 16 := if c.toNat < Config.maxEraseCount.toNat then c + 1 else Config.maxEraseCount

/-- A sector's new erase count programmed into its header (R65). -/
def programEraseCount (sector : Nat) (failed : List Byte) (rest : Byte) (s : State) : State :=
  programFlash (headerAddr sector) (eraseCountBytes (nextEraseCount (eraseCountOf s sector))) failed rest s

/-! ## The start-up scan (R76 to R78) -/

/-- The header granule of a sector. -/
def headerOf (m : Memory) (i : Nat) : List Byte := m.readBytes (headerAddr i) Config.granuleBytes

/-- The sector numbers. -/
def sectorNumbers : List Nat := List.range Config.sectorCount

/-- The erase count a header shows: its opening record's, else its erase count part's. -/
def shownCount (h : List Byte) : Option (BitVec 16) :=
  match readOpening h, readEraseCount h with
  | .present o, _ => some o.eraseCount
  | _, .present c => some c
  | _, _ => none

/-- The erase counts present in a header, in either part. -/
def countsIn (h : List Byte) : List (BitVec 16) :=
  (match readOpening h with
    | .present o => [o.eraseCount]
    | .blank => []
    | .torn => []) ++
  match readEraseCount h with
  | .present c => [c]
  | .blank => []
  | .torn => []

/-- The larger of two words. -/
def maxWord {n : Nat} (a b : BitVec n) : BitVec n := if a.toNat < b.toNat then b else a

/-- The largest of some words, 0 when there is none. -/
def largest {n : Nat} (l : List (BitVec n)) : BitVec n := l.foldl maxWord 0

/-- What a header makes of its sector (R76), with the highest erase count found; content is refined afterwards. Fields
that R76 does not give follow log 15; so does a header with no opening record, a blank erase count part and a byte 15 that
is neither blank nor a marker of R76's rows: ERASED, with the highest erase count (DESIGN CHOICE, unsafe). -/
def classify (highest : BitVec 16) (h : List Byte) : Sector :=
  let count := (shownCount h).getD highest
  let mark := reclaimSet h
  if retiredSet h then
    { state := .retired, seq := none, eraseCount := count, used := 0, live := 0, reclaim := mark }
  else
    match readOpening h with
    | .present o =>
      { state := if eraseSet h then .erasing else .full, seq := some o.seq, eraseCount := count,
        used := Config.imageGranules, live := 0, reclaim := mark }
    | .torn =>
      { state := if eraseSet h then .erasing else .full, seq := none, eraseCount := count,
        used := Config.imageGranules, live := 0, reclaim := mark }
    | .blank =>
      if eraseSet h then
        { state := .erasing, seq := none, eraseCount := count, used := Config.imageGranules, live := 0, reclaim := mark }
      else { state := .erased, seq := none, eraseCount := count, used := 0, live := 0, reclaim := mark }

/-- A sector with content: FULL by its header, with a sequence number (R76). -/
def hasContent (x : Sector) : Bool := x.state == .full && x.seq.isSome

/-- The images of one sector, its used granules, and whether a torn image ended them (R77). -/
structure SectorImages where
  images : List (Loc × Record)
  used : Nat
  torn : Bool
  deriving DecidableEq, Repr

/-- The images from a granule on (R77). An image takes at least one granule, so 255 rounds reach the sector's end. -/
def imagesFrom (m : Memory) (sector : Nat) : Nat → Nat → SectorImages
  | 0, g => { images := [], used := g - 1, torn := false }
  | n + 1, g =>
    if Config.imageGranules < g then { images := [], used := g - 1, torn := false }
    else
      match readImage m { sector := sector, granule := g } with
      | .blank => { images := [], used := g - 1, torn := false }
      | .bad => { images := [], used := g - 1, torn := true }
      | .image r =>
        let more := imagesFrom m sector n (g + imageLen r.value.length)
        { more with images := ({ sector := sector, granule := g }, r) :: more.images }

/-- The images of a sector. -/
def imagesOf (m : Memory) (sector : Nat) : SectorImages := imagesFrom m sector Config.imageGranules 1

/-- A sector number put in its place in the scan's order: rising sequence number, lower number first (R77). -/
def insertBySeq (seqOf : Nat → Nat) (i : Nat) : List Nat → List Nat
  | [] => [i]
  | j :: l => if seqOf i < seqOf j then i :: j :: l else j :: insertBySeq seqOf i l

/-- The sectors with content in the scan's order. -/
def scanOrder (table : List Sector) : List Nat :=
  let seqOf := fun i => match table[i]? with
    | some x => (x.seq.getD 0).toNat
    | none => 0
  ((List.range table.length).filter fun i =>
    match table[i]? with
    | some x => hasContent x
    | none => false).foldl (fun acc i => insertBySeq seqOf i acc) []

/-- A candidate replaces the one kept for its key when it beats it (R77). An image with an invalid key is none (log 18). -/
def keepCandidate (s : State) (kept : List Entry) (c : Loc × Record) : List Entry :=
  let e := entryOf c.2 c.1
  if validKey e.key then
    match kept.find? fun x => x.key == e.key with
    | none => putEntry kept e
    | some old => if beats s e.key e.stamp old.stamp then putEntry kept e else kept
  else kept

/-- The live granules of a sector: the image lengths of the entries located in it (R78). -/
def liveIn (entries : List Entry) (sector : Nat) : Nat :=
  entries.foldl (fun n e => if e.loc.sector = sector then n + e.imageLen else n) 0

/-- The bucket checks of a set of entries (R24, R29). -/
def checksOf (s : State) (entries : List Entry) : Vector (BitVec 16) 64 :=
  entries.foldl (fun v e => if isLocal s e.key then v else xorCheck v e.key (entryFold e.key e.stamp))
    (Vector.replicate 64 0)

/-- The images a sector holds from a granule on, wherever they stand: past a blank granule or an image whose check fails the
next granule is read (DESIGN CHOICE, unsafe, log 31). 255 rounds reach the sector's end. -/
def imagesThrough (m : Memory) (sector : Nat) : Nat → Nat → List (Loc × Record)
  | 0, _ => []
  | n + 1, g =>
    match readImage m { sector := sector, granule := g } with
    | .blank => imagesThrough m sector n (g + 1)
    | .bad => imagesThrough m sector n (g + 1)
    | .image r => ({ sector := sector, granule := g }, r) :: imagesThrough m sector n (g + imageLen r.value.length)

/-- The images of a sector that count for the clock (R13): those R77 reads in a sector with content, none in a FULL sector
whose opening record is torn (R76), and every image whose check passes in an ERASING, RETIRED or ERASED one (R77; log 31). -/
def clockImages (m : Memory) (i : Nat) (x : Sector) : List (Loc × Record) :=
  if hasContent x then (imagesOf m i).images
  else if x.state == .full then []
  else imagesThrough m i Config.imageGranules 1

/-- The clocks at opening, and the counters of the images whose check passes (R13, R77). -/
def scanCounters (m : Memory) (table : List Sector) : List Counter :=
  sectorNumbers.flatMap fun i =>
    (match readOpening (headerOf m i) with
      | .present o => [o.clock]
      | .blank => []
      | .torn => []) ++
    match table[i]? with
    | some x => (clockImages m i x).map fun c => c.2.stamp.counter
    | none => []

/-- The highest sequence number in an opening record (R76). -/
def scanSeqs (m : Memory) : List (BitVec 32) :=
  sectorNumbers.filterMap fun i =>
    match readOpening (headerOf m i) with
    | .present o => some o.seq
    | .blank => none
    | .torn => none

/-- The table after the headers alone (R76). Where no header holds an erase count, the highest one found is 0 (R158). -/
def headerTable (m : Memory) : List Sector :=
  let highest := largest (sectorNumbers.flatMap fun i => countsIn (headerOf m i))
  sectorNumbers.map fun i => classify highest (headerOf m i)

/-- The sector that may be OPEN after the scan: the last in its order, with free granules, no torn image, no mark (R78). Of
two that share the highest sequence number that is the higher-numbered one (DESIGN CHOICE, unsafe, log 15). -/
def scanOpen (m : Memory) (table : List Sector) : Option (Nat × Nat) :=
  match (scanOrder table).getLast? with
  | some i =>
    let found := imagesOf m i
    match table[i]? with
    | some x =>
      if found.used < Config.imageGranules ∧ found.torn = false ∧ x.reclaim = false then some (i, found.used) else none
    | none => none
  | none => none

/-- A sector's entry at the end of the scan: its live count, and OPEN with its used count if it is the one (R78). -/
def finishSector (entries : List Entry) (opened : Option (Nat × Nat)) (i : Nat) (x : Sector) : Sector :=
  let y := { x with live := liveIn entries i }
  match opened with
  | some (j, used) => if j = i then { y with state := .openForAppend, used := used } else y
  | none => y

/-- The scan's rebuild of sector table, directory and clock (R29, R76 to R78). -/
def scan (s : State) : State :=
  let table := headerTable s.flash
  let entries := ((scanOrder table).flatMap fun i => (imagesOf s.flash i).images).foldl (keepCandidate s) []
  let opened := scanOpen s.flash table
  { s with
    dir :=
      { entries := entries
        checks := checksOf s entries
        clock := largest (scanCounters s.flash table)
        entryCount := entries.length
        sharedCount := entries.countP fun e => !isLocal s e.key
        reservations := 0 }
    store :=
      { s.store with
        sectors := table.mapIdx (finishSector entries opened)
        highestSeq := largest (scanSeqs s.flash) } }

end Sys2Proof.Machine
end

