-- ==== Sys2Proof/Machine/ControlOps.lean ====
section
/-! DEFINITION. Station Control's shared operations: entering MUTE, starting a soft reset, what a reset cuts off, what it
clears, how a reset ends (09_start_up_configuration_and_the_profile_table.md). -/

namespace Sys2Proof.Machine

/-- Set the station state. -/
def setStation (q : StationState) (s : State) : State := { s with ctl := { s.ctl with st := q } }

/-- A station state is entered, and STATION_STATE is posted (R154). -/
def enterStation (q : StationState) (s : State) : State := post (.stationState q) (setStation q s)

/-- Entry to MUTE: each block closes down its work on the line (R96, R119, R133, R145, R153, R165). The outstanding profile
query's timer runs on (R114; log 13). -/
def enterMute (s : State) : State :=
  let t := discardReads s
  enterStation .mute
    { t with
      ctl := { t.ctl with listeningSince := none }
      line := { t.line with txq := [], waiting := [] }
      summ := SummaryUnit.cleared
      recon := Reconciler.cleared
      fetch := FetchUnit.cleared
      resp := Responder.cleared }

/-! ## The configuration area -/

/-- Programming bytes of the area: a byte's bits are cleared where the given byte has a 0, but for the bits listed as not
taken (`rest` beyond the list) (R161; log 5). -/
def programArea : Vector Byte 64 → Nat → List Byte → List Byte → Byte → Vector Byte 64
  | v, _, [], _, _ => v
  | v, i, g :: gs, failed, rest =>
    programArea (v.setIfInBounds i ((v[i]?).getD 0xFF &&& (g ||| failed.headD rest))) (i + 1) gs failed.tail rest

/-- The bytes a programming in flight gives, and where they go (R161, R162). -/
def ConfigProgram.given : ConfigProgram → Nat × List Byte
  | .bytes offset given => (offset, given)
  | .check crc => (62, be16 crc)
  | .marker => (61, [0x00])

/-- A programming in flight takes effect, but for the bits listed. -/
def programConfig (p : ConfigProgram) (failed : List Byte) (rest : Byte) (s : State) : State :=
  { s with cfg := { bytes := programArea s.cfg.bytes p.given.1 p.given.2 failed rest, prog := none } }

/-- The group bytes of the Profile Table and their hash follow the area (R161, R166, R167). -/
def copyGroup (s : State) : State :=
  let group := s.cfg.bytes.toList.take Config.groupCount
  { s with ctl := { s.ctl with groupBytes := group, groupHash := crc32 group } }

/-! ## The soft reset's start (R157, R178) -/

/-- An ERASE in flight is abandoned with the bits it had set; its erase-count program goes on; a waiting one is dropped. -/
def abandonErase (erased : List (Nat × Byte)) (s : State) : State :=
  match s.store.erase with
  | some e =>
    match e.phase with
    | .waiting => { s with store := { s.store with erase := none } }
    | .running =>
      { s with store := { s.store with erase := none }, flash := s.flash.eraseSome (headerAddr e.sector) erased }
    | .suspended =>
      { s with store := { s.store with erase := none }, flash := s.flash.eraseSome (headerAddr e.sector) erased }
    | .counting => s
  | none => s

/-- A READ in flight is abandoned (R79). -/
def abandonRead (s : State) : State :=
  match s.store.op with
  | some (.read _ _) => clearOp s
  | some (.append _ _ _ _) => s
  | some (.mark _ _) => s
  | none => s

/-- A soft reset starts: the station enters STARTING, the request ends with no reply, waiting requests are discarded, a READ
and an ERASE are abandoned (R79, R157, R178). One that is already waiting goes on. The line's phase and queue stay as they
are until the wait ends (DESIGN CHOICE, safe, log 32). -/
def softResetStart (erased : List (Nat × Byte)) (s : State) : State :=
  if s.ctl.softWait then s
  else
    let t := abandonRead (abandonErase erased s)
    { t with
      ctl := { t.ctl with st := .starting, softWait := true }
      host := { t.host with request := none }
      store := { t.store with reads := [], mark := none } }

/-! ## A power-on or pin reset's start (R79, R156) -/

/-- An APPEND's program, a MARK or a READ is stopped: the program is left torn (log 5). -/
def cutOp (cut : Cut) (s : State) : State :=
  match s.store.op with
  | some (.append _ loc opening image) =>
    clearOp (programAppend loc opening image (List.replicate (Config.granuleBytes * cut.whole) 0 ++ cut.notYet) 0xFF s)
  | some (.mark kind sector) => clearOp (programMark sector kind.byte (cut.notYet.headD 0xFF) s)
  | some (.read _ _) => clearOp s
  | none => s

/-- An ERASE is stopped: unfinished, or in its erase-count program. -/
def cutErase (cut : Cut) (s : State) : State :=
  match s.store.erase with
  | some e =>
    match e.phase with
    | .waiting => abandonErase cut.erased s
    | .running => abandonErase cut.erased s
    | .suspended => abandonErase cut.erased s
    | .counting =>
      let t := programEraseCount e.sector cut.notYet 0xFF s
      { t with store := { t.store with erase := none } }
  | none => s

/-- A programming of the configuration area is stopped, with some of its bits cleared and others not. -/
def cutConfig (cut : Cut) (s : State) : State :=
  match s.cfg.prog with
  | some p => programConfig p cut.config 0xFF s
  | none => s

/-- Every operation stops at once: flash, configuration area, frame, transaction; a soft reset is overtaken (R156, R182). -/
def stopAll (cut : Cut) (s : State) : State :=
  let t := cutConfig cut (cutErase cut (cutOp cut s))
  { t with
    ctl := { t.ctl with softWait := false }
    host := { t.host with txn := none }
    line := { t.line with sending := none } }

/-! ## The end of a reset (R155, R156, R158) -/

/-- The port after a reset: a transaction under way is ended, and fill is clocked out until SSN goes high (R178). After a
power-on or pin reset none is under way (R182). -/
def clearPort (h : HostPort) : HostPort := { HostPort.cleared with txn := h.txn.map fun _ => { kind := .plain, out := [] } }

/-- All RAM state is cleared (R156); flash, configuration area, unique ID and the model's own counts stay. -/
def clearRam (s : State) : State :=
  { s with
    ctl := { s.ctl with force := none, listeningSince := none, softWait := false }
    host := clearPort s.host
    dir := Directory.cleared
    upd := UpdateUnit.cleared
    store := Store.cleared
    line := Line.cleared
    memb := Membership.cleared
    summ := SummaryUnit.cleared
    recon := Reconciler.cleared
    fetch := FetchUnit.cleared
    resp := Responder.cleared }

/-- The area is read: into force and on to the scan, or UNCONFIGURED (R158). -/
def readArea (s : State) : State :=
  match (if isLocked s then areaForce s.cfg.bytes.toList else none) with
  | some f => { s with ctl := { s.ctl with force := some f } }
  | none => enterStation .unconfigured s

/-- A reset ends: RAM cleared, straps sampled, STARTING, Profile Table built, area read (R155, R156, R158). -/
def resetEnd (straps : Station) (s : State) : State :=
  let t := clearRam s
  readArea (copyGroup { t with ctl := { t.ctl with st := .starting, own := straps }, cfg := { t.cfg with prog := none } })

end Sys2Proof.Machine
end

