-- ==== Sys2Proof/Machine/Arbiter.lean ====
section
/-! DEFINITION. The meanings of the store arbiter's grants and of an erase's suspension (R58 to R64). -/

namespace Sys2Proof.Machine

/-- A READ or APPEND is granted: a suspended ERASE owes its cause nothing more (R64). -/
def settleCause (s : State) : State :=
  { s with store := { s.store with erase := s.store.erase.map fun e => { e with owes := false } } }

/-- READ_GRANT: the oldest READ, unless an APPEND that suspended the ERASE comes first; it reads the flash as it stands
(R58, R59, R64). -/
def execReadGrant (s : State) : Host.Outcome State Fault Refusal :=
  .next
    (if isUp s && storeFree s && (causeSlot s).isNone then
       match s.store.reads with
       | r :: rest =>
         let t := settleCause s
         { t with store := { t.store with op := some (.read r.owner (readImage s.flash r.loc)), reads := rest } }
       | [] => s
     else s)

/-- A slot whose APPEND finds no place goes to STORE_WAIT when compaction can free one, and fails otherwise (R46, R63). -/
def answerNoPlace (i : Fin 4) (x : Slot) (s : State) : State :=
  let t := testTrigger s
  if isCompacting t then setSlot i (some { x with phase := .storeWait }) t else failSlots .storeFull [i] t

/-- An update slot's APPEND is granted (R45, R61). -/
def grantSlot (i : Fin 4) (s : State) : State :=
  match s.upd.slots[i] with
  | some x =>
    match choosePlace s (imageLen x.record.value.length) 2 with
    | some p => takePlace (.slot i) x.record p s
    | none => answerNoPlace i x s
  | none => s

/-- A copy that finds no place stalls compaction in COPYING and is given up in CLOSING (R73, R74). -/
def answerCopy (s : State) : State :=
  match s.store.comp with
  | .copying v cursor => stallCompaction v cursor s
  | .closing _ => { s with upd := { s.upd with copy := none } }
  | .idle => s
  | .marking _ => s
  | .stalled _ _ => s
  | .erasing _ => s

/-- The copy slot's APPEND is granted (R61, R72). -/
def grantCopy (s : State) : State :=
  match s.upd.copy with
  | some c =>
    match choosePlace s (imageLen c.record.value.length) 1 with
    | some p => takePlace .copy c.record p s
    | none => answerCopy s
  | none => s

/-- The APPEND to grant: the one that suspended the ERASE; else, when no READ waits, the next in the order of R59
(R64). -/
def appendToGrant (s : State) : Option Appender :=
  match causeSlot s with
  | some i => some (.slot i)
  | none => if s.store.reads.isEmpty then nextAppend s else none

/-- APPEND_GRANT (R59, R61, R64). -/
def execAppendGrant (s : State) : Host.Outcome State Fault Refusal :=
  .next
    (if isUp s && storeFree s then
       match appendToGrant s with
       | some (.slot i) => settleStore s (grantSlot i (settleCause s))
       | some .copy => settleStore s (grantCopy (settleCause s))
       | none => s
     else s)

/-- MARK_GRANT: when no READ and no APPEND waits (R59). -/
def execMarkGrant (s : State) : Host.Outcome State Fault Refusal :=
  .next
    (if isUp s && storeFree s && !readOrAppendWaits s then
       match s.store.mark with
       | some (kind, sector) => { s with store := { s.store with op := some (.mark kind sector), mark := none } }
       | none => s
     else s)

/-- The ERASE runs. -/
def runErase (s : State) : State :=
  { s with store := { s.store with erase := s.store.erase.map fun e => { e with phase := .running } } }

/-- The ERASE is suspended once more, and owes its cause the first grant (R64). -/
def suspendErase (s : State) : State :=
  { s with
    store :=
      { s.store with
        erase := s.store.erase.map fun e =>
          { e with phase := .suspended, suspensions := e.suspensions + 1, owes := true } } }

/-- The ERASE stands in a phase. -/
def eraseIn (s : State) (phase : ErasePhase) : Bool :=
  match s.store.erase with
  | some e => e.phase == phase
  | none => false

/-- ERASE_GRANT: when nothing else waits (R59). -/
def execEraseGrant (s : State) : Host.Outcome State Fault Refusal :=
  .next
    (if isUp s && storeFree s && !readOrAppendWaits s && s.store.mark.isNone && eraseIn s .waiting then
       runErase s
     else s)

/-- The ERASE may be suspended once more (R64). -/
def suspensionsLeft (s : State) : Bool :=
  match s.store.erase with
  | some e => decide (e.suspensions < Config.maxSuspensions)
  | none => false

/-- ERASE_SUSPENDED: a READ or APPEND waits, and fewer than 8 suspensions have been met (R64). -/
def execEraseSuspended (s : State) : Host.Outcome State Fault Refusal :=
  .next
    (if isUp s && eraseIn s .running && suspensionsLeft s && readOrAppendWaits s then suspendErase s else s)

/-- ERASE_RESUME: the store is free and no READ, APPEND or MARK waits (R64). -/
def execEraseResume (s : State) : Host.Outcome State Fault Refusal :=
  .next
    (if isUp s && eraseIn s .suspended && storeFree s && !readOrAppendWaits s && s.store.mark.isNone then
       runErase s
     else s)

end Sys2Proof.Machine
end

