-- ==== Sys2Proof/Machine/Completions.lean ====
section
/-! DEFINITION. The meanings of the flash store's completions (R60, R65, R66, R70 to R75, R149, R173). Under a soft reset's
wait a completion changes flash and nothing else (R157). -/

namespace Sys2Proof.Machine

/-! ## READs -/

/-- The image read is the one looked up: its check passes, and key and stamp agree (R149, R173). -/
def readAs (found : ImageRead) (e : Entry) : Option Record :=
  match found with
  | .image r => if r.key = e.key ∧ r.stamp = e.stamp then some r else none
  | .blank => none
  | .bad => none

/-- READ_RECORD's answer (R173). -/
def answerRead (found : ImageRead) (s : State) : State :=
  match s.host.request with
  | some (.readRecord e) =>
    match readAs found e with
    | some r => complete (.found r) s
    | none => complete (.storeFault e.stamp) s
  | some .programConfig => s
  | some .lockConfig => s
  | none => s

/-- HOST_READ_DONE (R173). -/
def execHostReadDone (s : State) : Host.Outcome State Fault Refusal :=
  .next
    (match s.store.op with
     | some (.read .host found) => answerRead found (clearOp s)
     | some (.read .responder _) => s
     | some (.read .compaction _) => s
     | some (.read .discarded _) => s
     | some (.append _ _ _ _) => s
     | some (.mark _ _) => s
     | none => s)

/-- The SUPPLY is built, and placed or kept for room (R148, R149). -/
def buildSupply (found : ImageRead) (s : State) : State :=
  match s.resp.service with
  | some (.reading e) =>
    let t := setService (some (.built (readAs found e))) s
    if hasRoom t then pumpResponder (placeReply t) else waitForRoom .reply t
  | some (.built _) => s
  | some .ready => s
  | none => s

/-- RESPONDER_READ_DONE; the bytes of a READ whose job was purged are not used (R111, R149; log 26). -/
def execResponderReadDone (s : State) : Host.Outcome State Fault Refusal :=
  .next
    (match s.store.op with
     | some (.read .responder found) => buildSupply found (clearOp s)
     | some (.read .discarded _) => clearOp s
     | some (.read .host _) => s
     | some (.read .compaction _) => s
     | some (.append _ _ _ _) => s
     | some (.mark _ _) => s
     | none => s)

/-- The image at the cursor is live: the entry of its key locates it with its stamp (R71). -/
def isLiveImage (s : State) (r : Record) (loc : Loc) : Bool :=
  match lookup s r.key with
  | some e => e.loc == loc && e.stamp == r.stamp
  | none => false

/-- The walk's READ: a live image goes to the copy slot, a dead one is skipped, and one whose check fails stalls compaction;
a blank granule counts as one (R71, R74; log 7). -/
def walkOn (found : ImageRead) (s : State) : State :=
  match s.store.comp with
  | .copying v cursor =>
    match found with
    | .image r =>
      let t := setComp (.copying v (cursor + imageLen r.value.length)) s
      if isLiveImage s r { sector := v, granule := cursor } then
        { t with
          upd :=
            { t.upd with
              copy := some { phase := .waitStore, record := r, source := { sector := v, granule := cursor } } } }
      else t
    | .blank => stallCompaction v cursor s
    | .bad => stallCompaction v cursor s
  | .idle => s
  | .marking _ => s
  | .stalled _ _ => s
  | .closing _ => s
  | .erasing _ => s

/-- COMPACTION_READ_DONE (R71). -/
def execCompactionReadDone (s : State) : Host.Outcome State Fault Refusal :=
  .next
    (match s.store.op with
     | some (.read .compaction found) => settleStore s (walkOn found (clearOp s))
     | some (.read .host _) => s
     | some (.read .responder _) => s
     | some (.read .discarded _) => s
     | some (.append _ _ _ _) => s
     | some (.mark _ _) => s
     | none => s)

/-! ## APPENDs (R47, R50, R51, R60, R72) -/

/-- An update slot's verify has passed: the sector may be FULL, and the slot commits; a local commit offers its NEWS after
the FETCHes the commit may release (R47, R60, R95). -/
def passUpdate (i : Fin 4) (x : Slot) (loc : Loc) (old s : State) : State :=
  offerCommitNews x (pumpFetch (settleStore old (commitSlot i x loc (closeIfFull loc.sector s))))

/-- An update slot's verify has failed: the sector is closed, and the slot retries once or fails (R51, R60). -/
def failUpdate (i : Fin 4) (x : Slot) (loc : Loc) (old s : State) : State :=
  let t := closeFailed loc.sector s
  settleStore old
    (if x.retry then failSlots .storeFault [i] t else enterWaitStore i { x with retry := true } t)

/-- An update slot's program has ended: flash takes it, and it is verified (R60). -/
def endUpdate (i : Fin 4) (loc : Loc) (opening : Option Opening) (image failed : List Byte) (s : State) : State :=
  let t := clearOp (programAppend loc opening image failed 0 s)
  if s.ctl.softWait then t
  else
    match s.upd.slots[i] with
    | some x => if verifies t.flash loc opening image then passUpdate i x loc s t else failUpdate i x loc s t
    | none => t

/-- UPDATE_PROGRAM_DONE (R60). -/
def execUpdateProgramDone (failed : List Byte) (s : State) : Host.Outcome State Fault Refusal :=
  .next
    (match s.store.op with
     | some (.append (.slot i) loc opening image) => endUpdate i loc opening image failed s
     | some (.append .copy _ _ _) => s
     | some (.read _ _) => s
     | some (.mark _ _) => s
     | none => s)

/-- The copy slot's verify has passed: it commits and is FREE (R22, R72). -/
def passCopy (c : CopySlot) (loc : Loc) (s : State) : State :=
  let t := commitCopy c loc (closeIfFull loc.sector s)
  { t with upd := { t.upd with copy := none } }

/-- The copy slot's verify has failed: the sector is closed, and a fresh APPEND is placed (R72). -/
def failCopy (c : CopySlot) (loc : Loc) (s : State) : State :=
  let t := closeFailed loc.sector s
  { t with upd := { t.upd with copy := some { c with phase := .waitStore } } }

/-- The copy slot's program has ended (R60, R72). -/
def endCopy (loc : Loc) (opening : Option Opening) (image failed : List Byte) (s : State) : State :=
  let t := clearOp (programAppend loc opening image failed 0 s)
  if s.ctl.softWait then t
  else
    match s.upd.copy with
    | some c => settleStore s (if verifies t.flash loc opening image then passCopy c loc t else failCopy c loc t)
    | none => t

/-- COPY_PROGRAM_DONE (R72). -/
def execCopyProgramDone (failed : List Byte) (s : State) : Host.Outcome State Fault Refusal :=
  .next
    (match s.store.op with
     | some (.append .copy loc opening image) => endCopy loc opening image failed s
     | some (.append (.slot _) _ _ _) => s
     | some (.read _ _) => s
     | some (.mark _ _) => s
     | none => s)

/-! ## MARKs (R70, R73) -/

/-- RECLAIM_MARK_DONE: compaction enters COPYING at granule 1 (R70, R71). -/
def execReclaimMarkDone (s : State) : Host.Outcome State Fault Refusal :=
  .next
    (match s.store.op with
     | some (.mark .reclaimBegun v) =>
       let t := clearOp (programMark v reclaimMark 0 s)
       if s.ctl.softWait then t else settleStore s (setComp (.copying v 1) t)
     | some (.mark .eraseBegun _) => s
     | some (.append _ _ _ _) => s
     | some (.read _ _) => s
     | none => s)

/-- ERASE_MARK_DONE: the victim becomes ERASING and its ERASE is placed (R73). -/
def execEraseMarkDone (s : State) : Host.Outcome State Fault Refusal :=
  .next
    (match s.store.op with
     | some (.mark .eraseBegun v) =>
       let t := clearOp (programMark v eraseMark 0 s)
       if s.ctl.softWait then t
       else settleStore s (placeErase v (modifySector v (fun x => { x with state := .erasing }) t))
     | some (.mark .reclaimBegun _) => s
     | some (.append _ _ _ _) => s
     | some (.read _ _) => s
     | none => s)

/-! ## The ERASE (R65, R66, R75) -/

/-- The ERASE request is over. -/
def dropErase (s : State) : State := { s with store := { s.store with erase := none } }

/-- The erase has failed: the retired marker is programmed, the sector is RETIRED, the run ends; with no new run every slot
in STORE_WAIT fails, and STORE_ALERT is posted after their events (R66, R75, R179). Erase count, reclaim mark and both
granule counts stay as they were (DESIGN CHOICE, safe, log 29). -/
def retire (v : Nat) (markerFailed : Byte) (s : State) : State :=
  let t := nextRun (modifySector v (fun x => { x with state := .retired, seq := none })
    (dropErase (programMark v retiredMark markerFailed s)))
  post (.storeAlert .sectorRetired) (if t.store.comp = .idle then failStoreWait t else t)

/-- ERASE_DONE: a sector that reads blank goes on to its erase count, another is retired (R65, R66). -/
def execEraseDone (failed : List (Nat × Byte)) (markerFailed : Byte) (s : State) : Host.Outcome State Fault Refusal :=
  .next
    (match s.store.erase with
     | some e =>
       if e.phase = .running then
         let t := { s with flash := s.flash.erase (headerAddr e.sector) failed }
         if t.flash.isBlankSector (headerAddr e.sector) then
           { t with store := { t.store with erase := some { e with phase := .counting } } }
         else settleStore s (retire e.sector markerFailed t)
       else s
     | none => s)

/-- A sector's table entry once its erase count is programmed (R65). -/
def erasedSector (x : Sector) : Sector :=
  { state := .erased, seq := none, eraseCount := nextEraseCount x.eraseCount, used := 0, live := 0, reclaim := false }

/-- ERASE_COUNT_PROGRAMMED: the sector is ERASED, the slots in STORE_WAIT return, the run ends (R63, R65, R75). -/
def execEraseCountProgrammed (s : State) : Host.Outcome State Fault Refusal :=
  .next
    (match s.store.erase with
     | some e =>
       if e.phase = .counting then
         let t := dropErase (programEraseCount e.sector [] 0 s)
         if s.ctl.softWait then t
         else settleStore s (nextRun (wakeStoreWait (modifySector e.sector erasedSector t)))
       else s
     | none => s)

end Sys2Proof.Machine
end

