-- ==== Sys2Proof/Machine/HostCommands.lean ====
section
/-! DEFINITION. The meanings of the host's commands and of the end of a transaction (10_the_host_port_and_the_event_queue.md,
R161, R162, R168). -/

namespace Sys2Proof.Machine

/-! ## Transactions -/

/-- The Host Port takes a command: not in reset, and one command to a transaction (R169, R182). -/
def canTake (s : State) : Bool := !inReset s && s.host.txn.isNone

/-- The command's answer is clocked out from the next byte onward (R169). -/
def openTxn (kind : TxnKind) (out : List Byte) (s : State) : State :=
  { s with host := { s.host with txn := some { kind := kind, out := out } } }

/-- An immediate command: taken where the port takes one, without effect elsewhere (log 10). -/
def immediate (f : State → State) (s : State) : Host.Outcome State Fault Refusal :=
  .next (if canTake s then f s else s)

/-- A request command is accepted, the Reply Buffer emptied (R170). -/
def accept (s : State) : State :=
  openTxn .plain [acceptedCode] { s with host := { s.host with reply := none } }

/-- A request command: refused with HOST_BUSY while one is in progress, else accepted and handed on (R170). -/
def requestCommand (serve : State → State) (s : State) : Host.Outcome State Fault Refusal :=
  immediate (fun t => if t.host.request.isSome then openTxn .plain [hostBusyCode] t else serve (accept t)) s

/-! ## Immediate commands -/

/-- Bit n of a flags byte. -/
def flagBit (b : Bool) (n : Nat) : Byte := if b then 1 <<< n else 0

/-- The flags byte of STATUS (R187); bits 7 to 5 read 0 (DESIGN CHOICE, unsafe, log 33). -/
def statusFlags (s : State) : Byte :=
  flagBit (isLocked s) 0 ||| flagBit s.host.request.isSome 1 ||| flagBit (replyReady s) 2 |||
    flagBit s.upd.divDirectory 3 ||| flagBit s.upd.divStore 4

/-- The ten bytes of STATUS (R177, R187). -/
def statusBytes (s : State) : List Byte :=
  [s.ctl.st.code, statusFlags s, stationByte s.ctl.own] ++ be16 (BitVec.ofNat 16 s.dir.entryCount) ++
    [BitVec.ofNat 8 s.fetch.wants.length, BitVec.ofNat 8 (presentCount s), BitVec.ofNat 8 (erasedCount s),
     BitVec.ofNat 8 s.host.events.length, s.host.lost]

/-- STATUS (R177). -/
def execStatus (s : State) : Host.Outcome State Fault Refusal := immediate (fun t => openTxn .plain (statusBytes t) t) s

/-- What GET_REPLY returns, and whether reading it in full counts (R171). -/
def replyAnswer (s : State) : TxnKind × List Byte :=
  if s.host.request.isSome then (.plain, (Reply.code .notReady).bytes)
  else
    match s.host.reply with
    | some h => (.reply, h.reply.bytes)
    | none => (.plain, (Reply.code .empty).bytes)

/-- GET_REPLY (R171). -/
def execGetReply (s : State) : Host.Outcome State Fault Refusal :=
  immediate (fun t => openTxn (replyAnswer t).1 (replyAnswer t).2 t) s

/-- The oldest event leaves the queue, or kind NONE is reported; an empty queue clears the lost count (R180). -/
def takeEvent (s : State) : State :=
  match s.host.events with
  | [] => openTxn .plain (noEventBytes ++ [0, s.host.lost]) { s with host := { s.host with lost := 0 } }
  | e :: rest =>
    openTxn .event (e.bytes ++ [BitVec.ofNat 8 rest.length, s.host.lost])
      { s with host := { s.host with events := rest, lost := if rest.isEmpty then 0 else s.host.lost } }

/-- READ_EVENT (R180). -/
def execReadEvent (s : State) : Host.Outcome State Fault Refusal := immediate takeEvent s

/-- The Profile Table from an offset, wrapped once round (R168). -/
def profileFrom (c : Control) (offset : Byte) : List Byte :=
  let n := if offset.toNat < Config.profileBytes then offset.toNat else 0
  (profileTable c).drop n ++ (profileTable c).take n

/-- READ_PROFILE (R168). -/
def execReadProfile (offset : Byte) (s : State) : Host.Outcome State Fault Refusal :=
  immediate (fun t => openTxn .profile (profileFrom t.ctl offset) t) s

/-- SOFT_RESET, taken at the end of its transaction (R178). -/
def execSoftReset (erased : List (Nat × Byte)) (s : State) : Host.Outcome State Fault Refusal :=
  immediate (softResetStart erased) s

/-- ACK_DIVERGED clears both reasons and returns fill (R178). -/
def execAckDiverged (s : State) : Host.Outcome State Fault Refusal :=
  immediate (fun t => openTxn .plain [] { t with upd := { t.upd with divDirectory := false, divStore := false } }) s

/-- UNKNOWN_COMMAND: fill until SSN goes high (R169). -/
def execUnknownCommand (_code : Byte) (s : State) : Host.Outcome State Fault Refusal := immediate (openTxn .plain []) s

/-- The reply read in full gets its read flag (R171). -/
def markRead (h : HostPort) : HostPort := { h with reply := h.reply.map fun r => { r with read := true } }

/-- What the end of a transaction does to the port, after so many bytes of the answer (R171, R180). -/
def endTxn (t : Transaction) (clocked : Nat) (h : HostPort) : HostPort :=
  match t.kind with
  | .plain => { h with txn := none }
  | .profile => { h with txn := none }
  | .reply => if t.out.length ≤ clocked then { markRead h with txn := none } else { h with txn := none }
  | .event => if clocked < 6 then { h with txn := none, lost := bumpLost h.lost } else { h with txn := none }

/-- TRANSACTION_END (R169, R171, R180). -/
def execTransactionEnd (clocked : Nat) (s : State) : Host.Outcome State Fault Refusal :=
  .next
    (match s.host.txn with
     | some t => { s with host := endTxn t clocked s.host }
     | none => s)

/-! ## Requests for records -/

/-- WRITE_RECORD (R172). -/
def execWriteRecord (key : Key) (value : List Byte) (s : State) : Host.Outcome State Fault Refusal :=
  requestCommand (fun t => spaceEvent t (localAdmission key false value t)) s

/-- DELETE_RECORD (R172). -/
def execDeleteRecord (key : Key) (s : State) : Host.Outcome State Fault Refusal :=
  requestCommand (fun t => spaceEvent t (localAdmission key true [] t)) s

/-- The refusal of a station that is STARTING or UNCONFIGURED (R173 to R175). -/
def notServing (s : State) : Option ResultCode :=
  match s.ctl.st with
  | .starting => some .starting
  | .unconfigured => some .notConfigured
  | .listening => none
  | .active => none
  | .mute => none

/-- A READ_RECORD is answered, or its READ is placed (R173). -/
def serveRead (key : Key) (s : State) : State :=
  match notServing s with
  | some c => complete (.code c) s
  | none =>
    if validKey key then
      match lookup s key with
      | none => complete (.code .notFound) s
      | some e => placeRead .host e.loc { s with host := { s.host with request := some (.readRecord e) } }
    else complete (.code .badKey) s

/-- READ_RECORD (R173). -/
def execReadRecord (key : Key) (s : State) : Host.Outcome State Fault Refusal := requestCommand (serveRead key) s

/-- Entries from a start key on (R19). -/
def entriesFrom (s : State) (start : Key) : List Entry := s.dir.entries.filter fun e => decide (start.toNat ≤ e.key.toNat)

/-- An entry as LIST_KEYS gives it. -/
def listEntry (e : Entry) : ListedKey := { key := e.key, stamp := e.stamp, tomb := e.tomb }

/-- LIST_KEYS is answered by one walk (R174). -/
def serveList (start : Key) (s : State) : State :=
  match notServing s with
  | some c => complete (.code c) s
  | none =>
    complete
      (.keys (((entriesFrom s start).take Config.listEntries).map listEntry)
        (decide (Config.listEntries < (entriesFrom s start).length))) s

/-- LIST_KEYS (R174). -/
def execListKeys (start : Key) (s : State) : Host.Outcome State Fault Refusal := requestCommand (serveList start) s

/-- A peer entry as READ_PEERS gives it (R175). -/
def listPeer (p : Peer) : ListedPeer :=
  { state := p.state, uniqueIdLow := p.uniqueIdLow.getD 0, lastClock := p.lastClock.getD 0, isPartial := p.isPartial }

/-- READ_PEERS is answered with the whole table (R175). -/
def servePeers (s : State) : State :=
  match notServing s with
  | some c => complete (.code c) s
  | none => complete (.peers (s.memb.peers.toList.map listPeer)) s

/-- READ_PEERS (R175). -/
def execReadPeers (s : State) : Host.Outcome State Fault Refusal := requestCommand servePeers s

/-- The summary timer expires: a SUMMARY is offered, the next interval starts (R119, R120). -/
def expireSummary (s : State) : State := offerSummary { s with summ := { timer := some s.now } }

/-- SYNC_NOW's reply and effect by station state (R176). -/
def serveSync (s : State) : State :=
  match s.ctl.st with
  | .starting => complete (.code .starting) s
  | .unconfigured => complete (.code .notConfigured) s
  | .listening => complete (.code .notActive) s
  | .mute => complete (.code .muted) s
  | .active => expireSummary (complete (.code .done) s)

/-- SYNC_NOW (R176). -/
def execSyncNow (s : State) : Host.Outcome State Fault Refusal := requestCommand serveSync s

/-! ## Requests of the Configuration Area (R161, R162) -/

/-- The area takes no programming: STARTING, or not an unlocked UNCONFIGURED station (R154, R161, R162). -/
def configRefusal (s : State) : Option ResultCode :=
  if s.ctl.st = .starting then some .starting
  else if s.ctl.st = .unconfigured ∧ isLocked s = false then none
  else some .configLocked

/-- PROGRAM_CONFIG is refused, or its programming begins (R161). -/
def serveProgram (offset : Byte) (given : List Byte) (s : State) : State :=
  match configRefusal s with
  | some c => complete (.code c) s
  | none =>
    if given = [] ∨ Config.coveredBytes < offset.toNat + given.length then complete (.code .badRange) s
    else
      { s with
        host := { s.host with request := some .programConfig }
        cfg := { s.cfg with prog := some (.bytes offset.toNat given) } }

/-- PROGRAM_CONFIG (R161). -/
def execProgramConfig (offset : Byte) (bytes : List Byte) (s : State) : Host.Outcome State Fault Refusal :=
  requestCommand (serveProgram offset bytes) s

/-- LOCK_CONFIG is refused, or the check's programming begins (R162). -/
def serveLock (s : State) : State :=
  match configRefusal s with
  | some c => complete (.code c) s
  | none =>
    match areaValues s.cfg.bytes.toList with
    | none => complete (.code .configInvalid) s
    | some _ =>
      { s with
        host := { s.host with request := some .lockConfig }
        cfg := { s.cfg with prog := some (.check (areaCheck s.cfg.bytes.toList)) } }

/-- LOCK_CONFIG (R162). -/
def execLockConfig (s : State) : Host.Outcome State Fault Refusal := requestCommand serveLock s

end Sys2Proof.Machine
end

