-- ==== Sys2Proof/Machine/Control.lean ====
section
/-! DEFINITION. The meanings of the configuration area's completions, of the resets and of the changes of station state
(09_start_up_configuration_and_the_profile_table.md, R53, R79, R83, R100). -/

namespace Sys2Proof.Machine

/-! ## The configuration area (R161, R162) -/

/-- The bytes from an offset on read as their old values ANDed with the given ones (R161). -/
def programTook (old new : Vector Byte 64) (offset : Nat) (given : List Byte) : Bool := new == programArea old offset given [] 0

/-- PROGRAM_CONFIG completes: DONE or CONFIG_FAULT, and the group section follows the area; under a soft reset's wait
only the area changes (R157, R161). -/
def completeProgram (offset : Nat) (given failed : List Byte) (s : State) : State :=
  let t := programConfig (.bytes offset given) failed 0 s
  if s.ctl.softWait then t
  else
    copyGroup
      (complete (.code (if programTook s.cfg.bytes t.cfg.bytes offset given then .done else .configFault)) t)

/-- CONFIG_PROGRAM_DONE (R161). -/
def execConfigProgramDone (failed : List Byte) (s : State) : Host.Outcome State Fault Refusal :=
  .next
    (match s.cfg.prog with
     | some (.bytes offset given) => completeProgram offset given failed s
     | some (.check _) => s
     | some .marker => s
     | none => s)

/-- The check has been programmed: CONFIG_FAULT if it reads back different, else the lock marker's programming begins (R162). -/
def completeCheck (crc : BitVec 16) (failed : List Byte) (s : State) : State :=
  let t := programConfig (.check crc) failed 0 s
  if s.ctl.softWait then t
  else if wordAt t.cfg.bytes.toList 62 = crc then { t with cfg := { t.cfg with prog := some .marker } }
  else complete (.code .configFault) t

/-- LOCK_CHECK_PROGRAMMED (R162). -/
def execLockCheckProgrammed (failed : List Byte) (s : State) : Host.Outcome State Fault Refusal :=
  .next
    (match s.cfg.prog with
     | some (.check crc) => completeCheck crc failed s
     | some (.bytes _ _) => s
     | some .marker => s
     | none => s)

/-- The lock marker has been programmed: CONFIG_FAULT if it reads back blank, else the station restarts as by a soft reset
(R162). -/
def completeMarker (failed : Byte) (s : State) : State :=
  let t := programConfig .marker [failed] 0 s
  if s.ctl.softWait then t
  else if isLocked t then softResetStart [] t
  else complete (.code .configFault) t

/-- LOCK_MARKER_PROGRAMMED (R162). -/
def execLockMarkerProgrammed (failed : Byte) (s : State) : Host.Outcome State Fault Refusal :=
  .next
    (match s.cfg.prog with
     | some .marker => completeMarker failed s
     | some (.bytes _ _) => s
     | some (.check _) => s
     | none => s)

/-! ## Resets (R155 to R157) -/

/-- POWER_ON_RESET (R156). -/
def execPowerOnReset (cut : Cut) (s : State) : Host.Outcome State Fault Refusal :=
  let t := stopAll cut s
  .next { t with ctl := { t.ctl with power := true } }

/-- POWER_ON_RESET_END: the part runs from here unless RESET is still low (R156; log 14). -/
def execPowerOnResetEnd (straps : Station) (s : State) : Host.Outcome State Fault Refusal :=
  .next
    (if s.ctl.power then
       let t := { s with ctl := { s.ctl with power := false } }
       if t.ctl.pin then t else resetEnd straps t
     else s)

/-- PIN_RESET (R156). -/
def execPinReset (cut : Cut) (s : State) : Host.Outcome State Fault Refusal :=
  let t := stopAll cut s
  .next { t with ctl := { t.ctl with pin := true } }

/-- PIN_RESET_END: the part runs from here unless the supply is still out of range (R156; log 14). -/
def execPinResetEnd (straps : Station) (s : State) : Host.Outcome State Fault Refusal :=
  .next
    (if s.ctl.pin then
       let t := { s with ctl := { s.ctl with pin := false } }
       if t.ctl.power then t else resetEnd straps t
     else s)

/-- Work that a soft reset waits for is still in flight (R157). -/
def workInFlight (s : State) : Bool :=
  s.store.op.isSome || s.store.erase.isSome || s.line.sending.isSome || s.cfg.prog.isSome

/-- SOFT_RESET_WAIT_END: the last work in flight has ended (R157; log 25). -/
def execSoftResetWaitEnd (straps : Station) (s : State) : Host.Outcome State Fault Refusal :=
  .next (if !inReset s && s.ctl.softWait && !workInFlight s then resetEnd straps s else s)

/-! ## Station states (R154) -/

/-- Entry to LISTENING: the receiver is enabled and settles, the listening period starts (R83, R163). -/
def startListening (s : State) : State :=
  { s with
    ctl := { s.ctl with listeningSince := some s.now }
    line := { s.line with phase := .settling, quietSince := s.now }
    store := { s.store with low := false } }

/-- START_UP_SCAN_END: the rebuild, entry to LISTENING, and compaction's first run if there is one (R67, R68, R78; log 16). -/
def execStartUpScanEnd (s : State) : Host.Outcome State Fault Refusal :=
  .next
    (if isScanning s then advanceWalk (nextRun (enterStation .listening (startListening (scan s)))) else s)

/-- LISTENING_PERIOD_END: entry to ACTIVE (R163, R164). -/
def execListeningPeriodEnd (s : State) : Host.Outcome State Fault Refusal :=
  .next
    (if !inReset s && s.ctl.st == .listening then
       let t := setStation .active { s with ctl := { s.ctl with listeningSince := none } }
       post (.stationState .active) (pumpFetch (pumpReconciler (pumpProfile (expireSummary t))))
     else s)

end Sys2Proof.Machine
end

