-- ==== Sys2Proof/Machine/LineEvents.lean ====
section
/-! DEFINITION. The meanings of the events of the peer line, with the membership effect of a heard frame and the
composing of a SUMMARY (05_the_peer_line.md, R103, R104, R110, R122). -/

namespace Sys2Proof.Machine

/-! ## Phases -/

/-- The line phase changes, and its count of quiet starts anew. -/
def setPhase (p : LinePhase) (s : State) : State :=
  { s with line := { s.line with phase := p, quietSince := s.now } }

/-- A contention cycle starts at slot 0 (R88). -/
def startCycle (s : State) : State := { s with line := { s.line with phase := .cycle, slot := 0 } }

/-- Set the rotation base (R89). -/
def setBase (b : Station) (s : State) : State := { s with line := { s.line with base := b } }

/-- A cycle ends: one deferred cycle less (R92). -/
def countDeferral (s : State) : State := { s with line := { s.line with deferral := s.line.deferral - 1 } }

/-- SETTLING_CARRIER: the quiet is counted again (R83). -/
def execSettlingCarrier (s : State) : Host.Outcome State Fault Refusal :=
  .next (if isUp s && s.line.phase == .settling then setPhase .settling s else s)

/-- SETTLING_END (R83). -/
def execSettlingEnd (s : State) : Host.Outcome State Fault Refusal :=
  .next (if isUp s && s.line.phase == .settling then startCycle s else s)

/-- GUARD_END (R87, R88). -/
def execGuardEnd (s : State) : Host.Outcome State Fault Refusal :=
  .next (if isUp s && s.line.phase == .guardTime then startCycle s else s)

/-- FRAME_START from GUARD, or from CYCLE, which it ends (R83, R88, R92). -/
def execFrameStart (s : State) : Host.Outcome State Fault Refusal :=
  .next
    (if isUp s then
       match s.line.phase with
       | .guardTime => setPhase .busy s
       | .cycle => countDeferral (setPhase .busy s)
       | .off => s
       | .settling => s
       | .busy => s
     else s)

/-- CYCLE_END: after 32 quiet slots a new cycle starts (R88, R92). -/
def execCycleEnd (s : State) : Host.Outcome State Fault Refusal :=
  .next
    (if isUp s && s.line.phase == .cycle && s.line.slot == Config.cycleSlots then startCycle (countDeferral s) else s)

/-! ## Hearing a frame (R83 to R86) -/

/-- A frame of another transmitter is on the line. -/
def isHearing (s : State) : Bool := isUp s && s.line.phase == .busy && s.line.sending.isNone

/-- A garbled frame ends (R84, R89). -/
def endGarbled (s : State) : State := setBase 0 (setPhase .guardTime s)

/-- FRAME_END_GARBLED (R84). -/
def execFrameEndGarbled (s : State) : Host.Outcome State Fault Refusal := .next (if isHearing s then endGarbled s else s)

/-- An ID differs from the one recorded (R104). -/
def idDiffers (e : Peer) (id : BitVec 32) : Bool :=
  match e.uniqueId with
  | some u => u.setWidth 32 != id
  | none => e.uniqueIdLow != some id

/-- The frame carries an ID that differs. -/
def carriesOther (e : Peer) (id : Option (BitVec 32)) : Bool :=
  match id with
  | some i => idDiffers e i
  | none => false

/-- The entry as a peer to be profiled again under a new ID (R104). -/
def rejoin (e : Peer) (id : Option (BitVec 32)) : Peer :=
  { e with state := .joining, uniqueId := none, uniqueIdLow := id, attempts := 0 }

/-- The membership effect of a good frame from a station, which carries this ID or none (R103, R104, R110). -/
def hearPeer (p : Station) (id : Option (BitVec 32)) (s : State) : State :=
  let e := { peerOf s p with lastHeard := some s.now }
  match e.state with
  | .absent => changePeer p { Peer.cleared with state := .joining, lastHeard := e.lastHeard, uniqueIdLow := id } s
  | .joining =>
    setPeer p
      { e with
        attempts := if e.attempts < Config.maxAttempts then e.attempts else 0
        uniqueIdLow := if id.isSome then id else e.uniqueIdLow } s
  | .present =>
    if carriesOther e id then
      purgePeer p
        (changePeer p { e with state := .duplicate, uniqueIdLow := id, dupMark := some s.now, isPartial := false } s)
    else setPeer p e s
  | .silent => if carriesOther e id then changePeer p (rejoin e id) s else changePeer p { e with state := .present } s
  | .incompatible => if carriesOther e id then changePeer p (rejoin e id) s else setPeer p e s
  | .duplicate =>
    if id.isSome && id != e.uniqueIdLow then setPeer p { e with uniqueIdLow := id, dupMark := some s.now } s
    else setPeer p e s

/-- A frame that stays is placed in the Receive Queue, or dropped when it holds 4 (R85, R86). -/
def receive (f : Frame) (s : State) : State :=
  if f.accepted s.ctl.own && decide (s.line.rxq.length < Config.rxCapacity) then
    { s with line := { s.line with rxq := s.line.rxq ++ [f] } }
  else s

/-- A good frame ends, in the order of R85. -/
def endGood (f : Frame) (s : State) : State :=
  let t := setBase (f.source + 1) (setPhase .guardTime s)
  if f.source = s.ctl.own then if s.ctl.st = .mute then t else enterMute t
  else pump (receive f (hearPeer f.source f.carriedId t))

/-- FRAME_END_GOOD; bytes that are no good frame end as a garbled one (R84, R85; log 30). -/
def execFrameEndGood (bytes : List Byte) (s : State) : Host.Outcome State Fault Refusal :=
  .next
    (if isHearing s then
       match parseFrame bytes with
       | some f => endGood f s
       | none => endGarbled s
     else s)

/-! ## Sending (R88 to R95) -/

/-- The payload a SUMMARY has at the instant its transmission begins (R27, R122). -/
def composeSummary (s : State) : List Byte :=
  summaryPayload s.dir.clock (s.ctl.uniqueId.setWidth 32) (dirFull s || outOfSpace s) s.dir.sharedCount
    s.dir.checks.toList

/-- The frame a transmission sends (R90). -/
def composeFrame (t : TxFrame) (s : State) : Frame :=
  match t.kind with
  | .summary => { t.frame s.ctl.own with payload := composeSummary s }
  | .news => t.frame s.ctl.own
  | .profileQuery => t.frame s.ctl.own
  | .profile => t.frame s.ctl.own
  | .bucketQuery => t.frame s.ctl.own
  | .bucketReply => t.frame s.ctl.own
  | .fetch => t.frame s.ctl.own
  | .supply => t.frame s.ctl.own

/-- The station may begin a frame in the slot that starts (R88). -/
def maySend (s : State) : Bool := isActive s && s.line.deferral == 0 && s.line.slot == ownSlot s

/-- Sending begins with the first frame of the highest class (R90). -/
def beginSending (s : State) : State :=
  match highestClass s with
  | some c =>
    match firstOfClass s c with
    | some t =>
      { s with line := { s.line with phase := .busy, sending := some { cls := c, frame := composeFrame t s } } }
    | none => s
  | none => s

/-- The slot that starts is counted. -/
def countSlot (s : State) : State := { s with line := { s.line with slot := s.line.slot + 1 } }

/-- SLOT_START (R88, R90). -/
def execSlotStart (s : State) : Host.Outcome State Fault Refusal :=
  .next
    (if isUp s && s.line.phase == .cycle && decide (s.line.slot < Config.cycleSlots) then
       countSlot (if maySend s then beginSending s else s)
     else s)

/-- The first frame of a class is changed, or removed. -/
def editFirst (c : TxClass) (f : TxFrame → Option TxFrame) : List TxFrame → List TxFrame
  | [] => []
  | t :: l =>
    if t.kind.cls = c then
      match f t with
      | some u => u :: l
      | none => l
    else t :: editFirst c f l

/-- One more collision of a frame, which is discarded at the eighth (R91, R93). -/
def collide (t : TxFrame) : Option TxFrame :=
  if t.collisions + 1 < Config.maxCollisions then some { t with collisions := t.collisions + 1 } else none

/-- The transmission stops: TXEN is released. -/
def stopSending (s : State) : State := { s with line := { s.line with sending := none } }

/-- COLLISION_DETECTED: the frame counts it or is discarded, the base is 0, the station defers; under a soft reset's wait
the frame is abandoned (R91 to R93, R100). -/
def execCollisionDetected (s : State) : Host.Outcome State Fault Refusal :=
  .next
    (match s.line.sending with
     | none => s
     | some tx =>
       if s.ctl.softWait then stopSending s
       else
         match firstOfClass s tx.cls with
         | none => stopSending s
         | some t =>
           { s with
             line :=
               { s.line with
                 sending := none
                 base := 0
                 deferral := deferralOf s.ctl.uniqueId (t.collisions + 1)
                 txq := editFirst tx.cls collide s.line.txq } })

/-- The placer of a transmitted request starts its reply timer again (R94, R98). -/
def reportSent (r : Option Requester) (s : State) : State :=
  match r with
  | some .profileQuery =>
    match s.memb.query with
    | some q =>
      { s with
        memb := { s.memb with query := some { q with placed := q.placed.map fun p => { p with since := s.now } } } }
    | none => s
  | some .bucketQuery =>
    match s.recon.phase with
    | .awaitingPart p n => { s with recon := { s.recon with phase := .awaitingPart { p with since := s.now } n } }
    | .idle => s
    | .waitingRoom => s
  | some (.fetch i) =>
    match s.fetch.slots[i] with
    | .awaiting key peer p => setFetchSlot i (.awaiting key peer { p with since := s.now }) s
    | .free => s
    | .waitingRoom _ _ _ => s
  | some .reply => s
  | none => s

/-- TRANSMIT_END: the frame leaves the queue, the base becomes own + 1, its placer is told; under a soft reset's wait
the line's work has ended (R94, R100). -/
def execTransmitEnd (s : State) : Host.Outcome State Fault Refusal :=
  .next
    (match s.line.sending with
     | none => s
     | some tx =>
       if s.ctl.softWait then stopSending s
       else
         match firstOfClass s tx.cls with
         | none => stopSending s
         | some t =>
           let u := setBase (s.ctl.own + 1) (setPhase .guardTime (stopSending s))
           reportSent t.placer { u with line := { u.line with txq := editFirst tx.cls (fun _ => none) u.line.txq } })

/-- WAITING_FRAME_PLACED: the placer that has waited longest takes a freed place (R95; log 9). -/
def execWaitingFramePlaced (s : State) : Host.Outcome State Fault Refusal :=
  .next
    (match s.line.waiting with
     | r :: rest =>
       if mayPlace s && decide (s.line.txq.length < Config.txCapacity) then
         pumpResponder (placeFor r { s with line := { s.line with waiting := rest } })
       else s
     | [] => s)

end Sys2Proof.Machine
end

