-- ==== Sys2Proof/Machine/Takings.lean ====
section
/-! DEFINITION. The meanings of the blocks' takings from the Receive Queue (R86, R106, R112, R117, R123, R129, R140, R147). -/

namespace Sys2Proof.Machine

/-- A waiting frame is of a kind. -/
def isKind (k : FrameKind) (f : Frame) : Bool := f.kind == some k

/-- The kinds of the block that takes a kind: the Responder takes three, every other block one (R81). -/
def blockKinds (k : FrameKind) : List FrameKind :=
  match k with
  | .fetch => [.fetch, .bucketQuery, .profileQuery]
  | .bucketQuery => [.fetch, .bucketQuery, .profileQuery]
  | .profileQuery => [.fetch, .bucketQuery, .profileQuery]
  | .summary => [.summary]
  | .news => [.news]
  | .profile => [.profile]
  | .bucketReply => [.bucketReply]
  | .supply => [.supply]

/-- A waiting frame is of a kind that the block of a kind takes. -/
def isForBlock (k : FrameKind) (f : Frame) : Bool := (blockKinds k).any fun j => isKind j f

/-- A block takes the oldest frame of its kinds, if it is of the kind taken: it leaves the queue and is used (R86). -/
def takeFrame (k : FrameKind) (use : Frame → State → State) (s : State) : Host.Outcome State Fault Refusal :=
  .next
    (if isUp s then
       match s.line.rxq.find? (isForBlock k) with
       | some f =>
         if isKind k f then use f { s with line := { s.line with rxq := s.line.rxq.eraseP (isForBlock k) } } else s
       | none => s
     else s)

/-! ## Records (R117, R118, R140 to R143) -/

/-- An arrival with what its event may change: fetch slots and the space test (R44, R67, R139). -/
def offerArrival (r : Record) (source : Station) (s : State) : State := pumpFetch (arrive r source s)

/-- A NEWS is used when its sender is PRESENT and its header agrees (R117, R118). -/
def useNews (f : Frame) (s : State) : State :=
  if isPresent s f.source then
    match parseRecord f.payload with
    | some r => spaceEvent s (offerArrival r f.source s)
    | none => s
  else s

/-- NEWS_TAKEN (R117). -/
def execNewsTaken (s : State) : Host.Outcome State Fault Refusal := takeFrame .news useNews s

/-- What a SUPPLY carries: its key and the record, none when absent; none at all when it disagrees with itself (R140). -/
def readSupply (f : Frame) : Option (Key × Option Record) :=
  if f.isAbsent then if f.payload.length = 3 then some (wordAt f.payload 1, none) else none
  else (parseRecord (f.payload.drop 1)).map fun r => (r.key, some r)

/-- The fetch slot a SUPPLY answers (R140). -/
def answersSlot (s : State) (source : Station) (echo : Byte) (key : Key) (i : Fin 4) : Bool :=
  match s.fetch.slots[i] with
  | .awaiting k p placed => k == key && p == source && placed.seq == echo
  | .free => false
  | .waitingRoom _ _ _ => false

/-- A matched SUPPLY settles its fetch; a late one with a record is an arrival; a late absent one is discarded
(R141 to R143). -/
def settleSupply (source : Station) (echo : Byte) (key : Key) (r : Option Record) (s : State) : State :=
  match slotNumbers.find? (answersSlot s source echo key) with
  | some i =>
    match r with
    | some rec => offerArrival rec source (removeWant key (freeFetchSlot i s))
    | none => pumpFetch (removeWant key (freeFetchSlot i s))
  | none =>
    match r with
    | some rec => offerArrival rec source s
    | none => s

/-- A SUPPLY is used when its sender is PRESENT and it agrees with itself (R140). -/
def useSupply (f : Frame) (s : State) : State :=
  if isPresent s f.source then
    match readSupply f with
    | some (key, r) => spaceEvent s (settleSupply f.source (byteAt f.payload 0) key r s)
    | none => s
  else s

/-- SUPPLY_TAKEN (R140). -/
def execSupplyTaken (s : State) : Host.Outcome State Fault Refusal := takeFrame .supply useSupply s

/-! ## SUMMARY (R123 to R125) -/

/-- The buckets whose checks differ, in rising order, that the Reconcile Queue does not hold (R125). -/
def differingBuckets (s : State) (payload : List Byte) : List Bucket :=
  ((List.range 64).map fun n => BitVec.ofNat 6 n).filter fun b =>
    s.dir.checks[b.toNat]'b.isLt != heardCheck payload b.toNat && !s.recon.queue.any fun p => p.bucket == b

/-- The differing buckets are queued for the sender (R125). -/
def queuePairs (source : Station) (payload : List Byte) (s : State) : State :=
  { s with
    recon :=
      { s.recon with
        queue :=
          s.recon.queue ++
            (differingBuckets s payload).map fun b => { peer := source, bucket := b, attempts := 0 } } }

/-- A SUMMARY from a PRESENT sender raises the clock, is recorded, and queues buckets when ACTIVE (R123 to R125). -/
def useSummary (f : Frame) (s : State) : State :=
  let count := (wordAt f.payload 10).toNat
  let clock := longAt f.payload 0
  let flag := (byteAt f.payload 8).getLsbD 0
  if isPresent s f.source ∧ count ≤ Config.directoryCapacity then
    let t := setPeer f.source { peerOf s f.source with lastClock := some clock, isPartial := flag } (raiseClock clock s)
    if isActive s ∧ flag = false ∧ count ≠ 0 then pumpReconciler (queuePairs f.source f.payload t) else t
  else s

/-- SUMMARY_TAKEN (R123). -/
def execSummaryTaken (s : State) : Host.Outcome State Fault Refusal := takeFrame .summary useSummary s

/-! ## PROFILE (R106, R107) -/

/-- The entry a PROFILE decides (R107). An INCOMPATIBLE one keeps what R107 does not name, its last clock among it (log 12). -/
def profiled (e : Peer) (payload : List Byte) (ownHash : BitVec 32) : Peer :=
  { e with
    state := if heardGroupHash payload = ownHash then .present else .incompatible
    uniqueId := some (heardUniqueId payload)
    uniqueIdLow := some ((heardUniqueId payload).setWidth 32)
    attempts := 0
    lastClock := if heardGroupHash payload = ownHash then none else e.lastClock
    isPartial := if heardGroupHash payload = ownHash then false else e.isPartial }

/-- A PROFILE from a JOINING sender decides its compatibility (R106). -/
def useProfile (f : Frame) (s : State) : State :=
  if (peerOf s f.source).state = .joining then
    pump (changePeer f.source (profiled (peerOf s f.source) f.payload s.ctl.groupHash) (endQueryOf f.source s))
  else s

/-- PROFILE_TAKEN (R106). -/
def execProfileTaken (s : State) : Host.Outcome State Fault Refusal := takeFrame .profile useProfile s

/-! ## BUCKET_REPLY (R129 to R132) -/

/-- A listed entry is wanted: valid, of the bucket, shared, its owner's, and better than the directory's or new to a
directory with room (R130). -/
def wantedStamp (s : State) (b : Bucket) (h : HeardEntry) : Option Stamp :=
  match stationOfByte h.origin with
  | none => none
  | some origin =>
    let stamp : Stamp := { counter := h.counter, origin := origin }
    if !validKey h.key || bucketOf h.key != b || isLocal s h.key ||
        (policyOf s h.key == .owned && origin != ownerOf h.key) then none
    else
      match lookup s h.key with
      | some e => if beats s h.key stamp e.stamp then some stamp else none
      | none => if dirFull s then none else some stamp

/-- A listed entry is compared, and added to the Want List if wanted (R130). -/
def compareEntry (source : Station) (b : Bucket) (s : State) (h : HeardEntry) : State :=
  match wantedStamp s b h with
  | some stamp => wantAdd h.key stamp source s
  | none => s

/-- The query's last part has been taken: its pair is removed (R131). -/
def finishQuery (s : State) : State :=
  let t := endBucketQuery s
  { t with recon := { t.recon with queue := t.recon.queue.tail } }

/-- A part with the expected index is taken: compared, then the end or the wait for the next part (R130, R131). -/
def takePart (f : Frame) (p : Pair) (placed : Placed) (expected : Nat) (s : State) : State :=
  let t := (heardEntries (f.payload.drop 4)).foldl (compareEntry f.source p.bucket) s
  if f.isLast then pumpFetch (pumpReconciler (finishQuery t))
  else
    pumpFetch
      { t with recon := { t.recon with phase := .awaitingPart { placed with since := s.now } (expected + 1) } }

/-- A part matches the query, whatever its index (R129). -/
def matchesQuery (f : Frame) (p : Pair) (placed : Placed) : Bool :=
  p.peer == f.source && placed.seq == byteAt f.payload 0 && byteAt f.payload 1 == p.bucket.setWidth 8 &&
    f.payload.length == 4 + 7 * (byteAt f.payload 3).toNat

/-- A BUCKET_REPLY is matched to the query (R129). -/
def useBucketReply (f : Frame) (s : State) : State :=
  match s.recon.phase, s.recon.queue with
  | .awaitingPart placed expected, p :: _ =>
    let part := (byteAt f.payload 2).toNat
    if isPresent s f.source = false ∨ matchesQuery f p placed = false ∨ part < expected then s
    else if expected < part then pumpReconciler (failBucketQuery s)
    else takePart f p placed expected s
  | .awaitingPart _ _, [] => s
  | .idle, _ => s
  | .waitingRoom, _ => s

/-- BUCKET_REPLY_TAKEN (R129). -/
def execBucketReplyTaken (s : State) : Host.Outcome State Fault Refusal := takeFrame .bucketReply useBucketReply s

/-! ## Requests (R147, R153) -/

/-- Two jobs answer the same request: same kind, and same key or bucket (R147). -/
def sameRequest (a b : JobKind) : Bool :=
  match a with
  | .supply k =>
    match b with
    | .supply k' => k == k'
    | .bucketReply _ _ _ => false
    | .profile => false
  | .bucketReply u _ _ =>
    match b with
    | .supply _ => false
    | .bucketReply u' _ _ => u == u'
    | .profile => false
  | .profile =>
    match b with
    | .supply _ => false
    | .bucketReply _ _ _ => false
    | .profile => true

/-- A job repeats another. -/
def repeats (new old : Job) : Bool := new.peer == old.peer && sameRequest new.kind old.kind

/-- A request becomes a job, is taken into the job it repeats, or is ignored at 8 jobs; a repeat brings the new echo, and
starts a listing again (R147). -/
def addJob (new : Job) (s : State) : State :=
  if s.resp.jobs.any (repeats new) then
    { s with resp := { s.resp with jobs := s.resp.jobs.map fun old => if repeats new old then new else old } }
  else if s.resp.jobs.length < Config.replyCapacity then { s with resp := { s.resp with jobs := s.resp.jobs ++ [new] } }
  else s

/-- An accepted request: discarded in MUTE (R153), else a job (R147, R148). -/
def acceptRequest (f : Frame) (kind : JobKind) (s : State) : State :=
  if mayPlace s then pumpResponder (addJob { peer := f.source, echo := f.seq, kind := kind } s) else s

/-- A FETCH from a PRESENT sender, of the length of key, counter and origin (R147). -/
def useFetch (f : Frame) (s : State) : State :=
  if isPresent s f.source ∧ f.payload.length = 7 then acceptRequest f (.supply (wordAt f.payload 0)) s else s

/-- FETCH_TAKEN (R147). -/
def execFetchTaken (s : State) : Host.Outcome State Fault Refusal := takeFrame .fetch useFetch s

/-- A BUCKET_QUERY from a PRESENT sender, of one byte from 0 to 63 (R147). -/
def useBucketQuery (f : Frame) (s : State) : State :=
  if isPresent s f.source ∧ f.payload.length = 1 ∧ (byteAt f.payload 0).toNat < 64 then
    acceptRequest f (.bucketReply ((byteAt f.payload 0).setWidth 6) 0 none) s
  else s

/-- BUCKET_QUERY_TAKEN (R147). -/
def execBucketQueryTaken (s : State) : Host.Outcome State Fault Refusal := takeFrame .bucketQuery useBucketQuery s

/-- The states whose PROFILE_QUERY is answered (R112, R147). -/
def answersProfile : PeerState → Bool
  | .present => true
  | .joining => true
  | .incompatible => true
  | .duplicate => true
  | .absent => false
  | .silent => false

/-- A PROFILE_QUERY (R147). -/
def useProfileQuery (f : Frame) (s : State) : State :=
  if answersProfile (peerOf s f.source).state then acceptRequest f .profile s else s

/-- PROFILE_QUERY_TAKEN (R147). -/
def execProfileQueryTaken (s : State) : Host.Outcome State Fault Refusal := takeFrame .profileQuery useProfileQuery s

end Sys2Proof.Machine
end

