-- ==== Sys2Proof/Machine/Timers.lean ====
section
/-! DEFINITION. The meanings of the timers' expiries (R105, R108 to R110, R119, R132, R144). How long a timer runs is not
modelled: its expiry is a command (log 2). -/

namespace Sys2Proof.Machine

/-- SUMMARY_TIMER_EXPIRY, while the timer runs (R119). -/
def execSummaryTimerExpiry (s : State) : Host.Outcome State Fault Refusal :=
  .next (if isActive s && s.summ.timer.isSome then offerSummary { s with summ := { timer := some s.now } } else s)

/-- The reply timer of the outstanding profile query runs (R98, R105). -/
def queryTimerRuns (s : State) : Bool :=
  match s.memb.query with
  | some q => q.placed.isSome
  | none => false

/-- PROFILE_REPLY_TIMEOUT: the query ends, and the next is chosen (R105). -/
def execProfileReplyTimeout (s : State) : Host.Outcome State Fault Refusal :=
  .next
    (if isUp s && queryTimerRuns s then
       pumpProfile (dropRequest .profileQuery { s with memb := { s.memb with query := none } })
     else s)

/-- BUCKET_REPLY_TIMEOUT (R132). -/
def execBucketReplyTimeout (s : State) : Host.Outcome State Fault Refusal :=
  .next
    (if isUp s then
       match s.recon.phase with
       | .awaitingPart _ _ => pumpReconciler (failBucketQuery s)
       | .idle => s
       | .waitingRoom => s
     else s)

/-- The Want entry of a failed fetch: one more attempt, back to WAITING at the tail, or removed at 3 (R144). -/
def countAttempt (k : Key) (s : State) : State :=
  match wantOf s k with
  | some w =>
    if w.attempts + 1 < Config.maxAttempts then
      setWants (withoutKey s.fetch.wants k ++ [{ w with attempts := w.attempts + 1, requested := false }]) s
    else removeWant k s
  | none => s

/-- FETCH_REPLY_TIMEOUT (R144). -/
def execFetchReplyTimeout (slot : Fin 4) (s : State) : Host.Outcome State Fault Refusal :=
  .next
    (if isUp s then
       match s.fetch.slots[slot] with
       | .awaiting key _ _ => pumpFetch (countAttempt key (freeFetchSlot slot s))
       | .free => s
       | .waitingRoom _ _ _ => s
     else s)

/-- SILENCE_LIMIT of a PRESENT peer (R108, R111). -/
def execSilenceLimit (peer : Station) (s : State) : Host.Outcome State Fault Refusal :=
  .next
    (if isUp s && isPresent s peer then
       pump (purgePeer peer (changePeer peer { peerOf s peer with state := .silent, isPartial := false } s))
     else s)

/-- A peer whose absence limit may run out: not ABSENT, and not PRESENT, whose silence limit comes first (R109; log 27). -/
def mayVanish (s : State) (p : Station) : Bool :=
  match (peerOf s p).state with
  | .absent => false
  | .present => false
  | .joining => true
  | .silent => true
  | .incompatible => true
  | .duplicate => true

/-- ABSENCE_LIMIT (R109). -/
def execAbsenceLimit (peer : Station) (s : State) : Host.Outcome State Fault Refusal :=
  .next
    (if isUp s && mayVanish s peer then
       pump (changePeer peer Peer.cleared (endQueryOf peer (discardJobs peer s)))
     else s)

/-- DUPLICATE_MARK_EXPIRY (R110). -/
def execDuplicateMarkExpiry (peer : Station) (s : State) : Host.Outcome State Fault Refusal :=
  .next
    (if isUp s && (peerOf s peer).state == .duplicate then
       pumpProfile
         (changePeer peer
           { peerOf s peer with state := .joining, uniqueId := none, dupMark := none, attempts := 0 } s)
     else s)

end Sys2Proof.Machine
end

