-- ==== Sys2Proof/Machine/Dispatch.lean ====
section
/-! DEFINITION. The meaning of each command: one arm per row of spec/opcode_table.json. -/

namespace Sys2Proof.Machine

/-- A command's effect on everything but the queue. -/
def exec (i : Instr) (s : State) : Host.Outcome State Fault Refusal :=
  match i with
  | .status => Sys2Proof.Machine.execStatus s
  | .getReply => Sys2Proof.Machine.execGetReply s
  | .readEvent => Sys2Proof.Machine.execReadEvent s
  | .readProfile offset => Sys2Proof.Machine.execReadProfile offset s
  | .softReset erased => Sys2Proof.Machine.execSoftReset erased s
  | .ackDiverged => Sys2Proof.Machine.execAckDiverged s
  | .writeRecord key value => Sys2Proof.Machine.execWriteRecord key value s
  | .deleteRecord key => Sys2Proof.Machine.execDeleteRecord key s
  | .readRecord key => Sys2Proof.Machine.execReadRecord key s
  | .listKeys start => Sys2Proof.Machine.execListKeys start s
  | .readPeers => Sys2Proof.Machine.execReadPeers s
  | .syncNow => Sys2Proof.Machine.execSyncNow s
  | .programConfig offset bytes => Sys2Proof.Machine.execProgramConfig offset bytes s
  | .lockConfig => Sys2Proof.Machine.execLockConfig s
  | .unknownCommand code => Sys2Proof.Machine.execUnknownCommand code s
  | .transactionEnd clocked => Sys2Proof.Machine.execTransactionEnd clocked s
  | .configProgramDone failed => Sys2Proof.Machine.execConfigProgramDone failed s
  | .lockCheckProgrammed failed => Sys2Proof.Machine.execLockCheckProgrammed failed s
  | .lockMarkerProgrammed failed => Sys2Proof.Machine.execLockMarkerProgrammed failed s
  | .powerOnReset cut => Sys2Proof.Machine.execPowerOnReset cut s
  | .powerOnResetEnd straps => Sys2Proof.Machine.execPowerOnResetEnd straps s
  | .pinReset cut => Sys2Proof.Machine.execPinReset cut s
  | .pinResetEnd straps => Sys2Proof.Machine.execPinResetEnd straps s
  | .softResetWaitEnd straps => Sys2Proof.Machine.execSoftResetWaitEnd straps s
  | .startUpScanEnd => Sys2Proof.Machine.execStartUpScanEnd s
  | .listeningPeriodEnd => Sys2Proof.Machine.execListeningPeriodEnd s
  | .settlingEnd => Sys2Proof.Machine.execSettlingEnd s
  | .frameStart => Sys2Proof.Machine.execFrameStart s
  | .frameEndGood bytes => Sys2Proof.Machine.execFrameEndGood bytes s
  | .frameEndGarbled => Sys2Proof.Machine.execFrameEndGarbled s
  | .guardEnd => Sys2Proof.Machine.execGuardEnd s
  | .slotStart => Sys2Proof.Machine.execSlotStart s
  | .cycleEnd => Sys2Proof.Machine.execCycleEnd s
  | .collisionDetected => Sys2Proof.Machine.execCollisionDetected s
  | .transmitEnd => Sys2Proof.Machine.execTransmitEnd s
  | .waitingFramePlaced => Sys2Proof.Machine.execWaitingFramePlaced s
  | .newsTaken => Sys2Proof.Machine.execNewsTaken s
  | .supplyTaken => Sys2Proof.Machine.execSupplyTaken s
  | .summaryTaken => Sys2Proof.Machine.execSummaryTaken s
  | .profileTaken => Sys2Proof.Machine.execProfileTaken s
  | .bucketReplyTaken => Sys2Proof.Machine.execBucketReplyTaken s
  | .fetchTaken => Sys2Proof.Machine.execFetchTaken s
  | .bucketQueryTaken => Sys2Proof.Machine.execBucketQueryTaken s
  | .profileQueryTaken => Sys2Proof.Machine.execProfileQueryTaken s
  | .summaryTimerExpiry => Sys2Proof.Machine.execSummaryTimerExpiry s
  | .profileReplyTimeout => Sys2Proof.Machine.execProfileReplyTimeout s
  | .bucketReplyTimeout => Sys2Proof.Machine.execBucketReplyTimeout s
  | .fetchReplyTimeout slot => Sys2Proof.Machine.execFetchReplyTimeout slot s
  | .silenceLimit peer => Sys2Proof.Machine.execSilenceLimit peer s
  | .absenceLimit peer => Sys2Proof.Machine.execAbsenceLimit peer s
  | .duplicateMarkExpiry peer => Sys2Proof.Machine.execDuplicateMarkExpiry peer s
  | .readGrant => Sys2Proof.Machine.execReadGrant s
  | .appendGrant => Sys2Proof.Machine.execAppendGrant s
  | .markGrant => Sys2Proof.Machine.execMarkGrant s
  | .eraseGrant => Sys2Proof.Machine.execEraseGrant s
  | .eraseSuspended => Sys2Proof.Machine.execEraseSuspended s
  | .eraseResume => Sys2Proof.Machine.execEraseResume s
  | .hostReadDone => Sys2Proof.Machine.execHostReadDone s
  | .responderReadDone => Sys2Proof.Machine.execResponderReadDone s
  | .compactionReadDone => Sys2Proof.Machine.execCompactionReadDone s
  | .updateProgramDone failed => Sys2Proof.Machine.execUpdateProgramDone failed s
  | .copyProgramDone failed => Sys2Proof.Machine.execCopyProgramDone failed s
  | .reclaimMarkDone => Sys2Proof.Machine.execReclaimMarkDone s
  | .eraseMarkDone => Sys2Proof.Machine.execEraseMarkDone s
  | .eraseDone failed markerFailed => Sys2Proof.Machine.execEraseDone failed markerFailed s
  | .settlingCarrier => Sys2Proof.Machine.execSettlingCarrier s
  | .eraseCountProgrammed => Sys2Proof.Machine.execEraseCountProgrammed s

end Sys2Proof.Machine
end

