-- ==== Sys2Proof/Machine/Step.lean ====
section
/-! DEFINITION. One step of the block: the command at the front of the queue, or one idle unit of time. -/

namespace Sys2Proof.Machine

/-- One unit of time passes with no command (DESIGN CHOICE, safe, log 2). -/
def tick (s : State) : State := { s with now := s.now + 1 }

/-- The command at the front of the queue runs on the queue's rest; an empty queue lets time pass (log 1, log 2). -/
def step (s : State) : Host.Outcome State Fault Refusal :=
  match s.pending with
  | c :: rest => exec c { s with pending := rest }
  | [] => .next (tick s)

/-- The command a word of the table spells, put at the front of the queue; the table gives no row any bits. -/
def State.withFetchWord (s : State) (nbits w : Nat) : State :=
  match decodeTableWord nbits w with
  | some c => { s with pending := c :: s.pending }
  | none => s

end Sys2Proof.Machine
end

