-- ==== Sys2Proof/Safety.lean ====
section
/-! DEFINITION. What a sound state is, in the terms the statements use: when the port and the station work, and the laws that
the spec says always hold. -/

namespace Sys2Proof.Machine

/-! ## Working conditions -/

/-- Neither the supply nor RESET holds the part in reset (R156). -/
def Powered (s : State) : Prop := s.ctl.power = false ∧ s.ctl.pin = false

/-- The Host Port takes a command (R169, R182). -/
def PortOpen (s : State) : Prop := Powered s ∧ s.host.txn = none

/-- The station is LISTENING, ACTIVE or MUTE (R154). -/
def Up (s : State) : Prop := Powered s ∧ (s.ctl.st = .listening ∨ s.ctl.st = .active ∨ s.ctl.st = .mute)

/-- The station is ACTIVE (R154). -/
def Active (s : State) : Prop := Powered s ∧ s.ctl.st = .active

/-! ## Laws -/

/-- Flash contents are in canonical form. -/
def FlashLaw (s : State) : Prop := s.flash.wf

/-- The keys of the KEY_CHANGED events of a queue. -/
def changedKeys (l : List Event) : List Key :=
  l.filterMap fun e =>
    match e with
    | .keyChanged k _ => some k
    | _ => none

/-- No queue or table holds more than its capacity, nor two of what it holds once: Event Queue (R179), Receive Queue
(R86), Transmit Queue (R95), Reply Queue (R147), Want List (R136), Reconcile Queue (R126), suspensions (R64). -/
structure QueueLaw (s : State) : Prop where
  events : s.host.events.length ≤ 32
  changed : (changedKeys s.host.events).Nodup
  received : s.line.rxq.length ≤ 4
  queued : s.line.txq.length ≤ 16
  summaries : s.line.txq.countP (fun t => t.kind == .summary) ≤ 1
  jobs : s.resp.jobs.length ≤ 8
  wants : s.fetch.wants.length ≤ 128
  wanted : (s.fetch.wants.map (·.key)).Nodup
  pairs : (s.recon.queue.map (·.bucket)).Nodup
  suspensions : ∀ e, s.store.erase = some e → e.suspensions ≤ 8

/-- The XOR of the folds of a bucket's shared entries (R24). -/
def bucketFold (s : State) (b : Bucket) : BitVec 16 :=
  (s.dir.entries.filter fun e => bucketOf e.key == b && !isLocal s e.key).foldl
    (fun c e => c ^^^ entryFold e.key e.stamp) 0

/-- A slot's record and follower have valid keys. -/
def slotKeysValid (x : Slot) : Prop := validKey x.record.key = true ∧ ∀ f, x.follower = some f → validKey f.key = true

/-- The directory: entries in ascending key order with valid keys (R14, R15), counts (R26), bucket checks (R24), and only
valid keys on their way in. -/
structure DirectoryLaw (s : State) : Prop where
  ascending : s.dir.entries.Pairwise fun a b => a.key.toNat < b.key.toNat
  valid : ∀ e ∈ s.dir.entries, validKey e.key = true
  count : s.dir.entryCount = s.dir.entries.length
  shared : s.dir.sharedCount = s.dir.entries.countP fun e => !isLocal s e.key
  checks : ∀ b : Bucket, s.dir.checks[b.toNat]'b.isLt = bucketFold s b
  slots : ∀ (i : Fin 4) (x : Slot), s.upd.slots[i] = some x → slotKeysValid x

/-- No slot is busy while the scan runs (R26, R78). -/
def ScanLaw (s : State) : Prop := isScanning s = true → ∀ i : Fin 4, s.upd.slots[i] = none

/-- The station clock is never less than the counter of any directory entry, nor of a record or follower on its way (R11). -/
structure ClockLaw (s : State) : Prop where
  entries : ∀ e ∈ s.dir.entries, e.stamp.counter.toNat ≤ s.dir.clock.toNat
  records : ∀ (i : Fin 4) (x : Slot), s.upd.slots[i] = some x → x.record.stamp.counter.toNat ≤ s.dir.clock.toNat
  followers : ∀ (i : Fin 4) (x : Slot) (f : Record), s.upd.slots[i] = some x → x.follower = some f → f.stamp.counter.toNat ≤ s.dir.clock.toNat
  scan : ScanLaw s

/-- A slot holds a reservation. -/
def isReserved (s : State) (i : Fin 4) : Bool :=
  match s.upd.slots[i] with
  | some x => x.reserved
  | none => false

/-- The update slots: valid keys, no two the same (R33), a reservation exactly where the key has no entry (R16), the
reservation count (R26), a follower of the same key that beats its slot's record (R33). -/
structure SlotLaw (s : State) : Prop where
  valid : ∀ (i : Fin 4) (x : Slot), s.upd.slots[i] = some x → validKey x.record.key = true
  distinct : ∀ (i j : Fin 4) (x y : Slot), s.upd.slots[i] = some x → s.upd.slots[j] = some y → x.record.key = y.record.key → i = j
  reserved : ∀ (i : Fin 4) (x : Slot), s.upd.slots[i] = some x → x.reserved = (lookup s x.record.key).isNone
  count : s.dir.reservations = slotNumbers.countP (isReserved s)
  follower : ∀ (i : Fin 4) (x : Slot) (f : Record), s.upd.slots[i] = some x → x.follower = some f →
    f.key = x.record.key ∧ beats s f.key f.stamp x.record.stamp = true
  scan : ScanLaw s

/-- Entries and reservations together stay within the directory's capacity (R15). -/
def CapacityLaw (s : State) : Prop := s.dir.entryCount + s.dir.reservations ≤ 1024

/-- The Want entries that are REQUESTED are those the busy fetch slots hold, one each, with the same source (R136, R138);
an ACTIVE station leaves no WAITING entry beside a FREE slot (R139). -/
structure FetchLaw (s : State) : Prop where
  wanted : (s.fetch.wants.map (·.key)).Nodup
  held : ∀ (i : Fin 4) (k : Key), s.fetch.slots[i].key = some k →
    ∃ w ∈ s.fetch.wants, w.key = k ∧ w.requested = true ∧ s.fetch.slots[i].peer = some w.source
  requested : ∀ w ∈ s.fetch.wants, w.requested = true → ∃ i : Fin 4, s.fetch.slots[i].key = some w.key
  distinct : ∀ (i j : Fin 4) (k : Key), s.fetch.slots[i].key = some k → s.fetch.slots[j].key = some k → i = j
  settled : Active s → (∃ i : Fin 4, s.fetch.slots[i] = .free) → ∀ w ∈ s.fetch.wants, w.requested = true

/-- The station's work concerns PRESENT peers: Want entries (R136), pairs (R126); the profile query a JOINING one (R105);
the own number's entry stays ABSENT (R101). -/
structure PeerLaw (s : State) : Prop where
  wants : ∀ w ∈ s.fetch.wants, (peerOf s w.source).state = .present
  pairs : ∀ p ∈ s.recon.queue, (peerOf s p.peer).state = .present
  query : ∀ q, s.memb.query = some q → (peerOf s q.peer).state = .joining
  own : (peerOf s s.ctl.own).state = .absent

/-- The flash store: contents in canonical form, and at most one sector OPEN (R57). -/
structure StoreLaw (s : State) : Prop where
  canonical : FlashLaw s
  opened : countState s .openForAppend ≤ 1

/-- Station Control: the part drives the line only as an ACTIVE station, or to finish a frame before a soft reset
(R90, R100); a locked configuration area is not being programmed (R160); the Profile Table holds 36 group bytes (R166). -/
structure ControlLaw (s : State) : Prop where
  sending : s.line.sending ≠ none → Powered s ∧ (s.ctl.st = .active ∨ s.ctl.softWait = true)
  locked : isLocked s = true → s.cfg.prog = none
  group : s.ctl.groupBytes.length = 36

end Sys2Proof.Machine
end

