-- ==== Sys2Proof/Certificates/Slice0/Obligations.lean ====
section
/-! DEFINITION. The statements for the provers, one Prop each, and the words they are said in (namespace Sys2Proof.Stated).
A statement names the rules of spec/ it rests on; where a clause rests on the model's own choice, its docstring names the
log entry. -/

namespace Sys2Proof.Stated
open Sys2Proof.Machine

/-! ## Words of the host port -/

/-- A request command can be accepted: the port takes commands and no request is in progress (R170). -/
def FreePort (s : State) : Prop := PortOpen s ∧ s.host.request = none

/-- A request is accepted and goes on: ACCEPTED (80h) is clocked out, the Reply Buffer is emptied (R170, R187). -/
def accepted (r : Request) (s : State) : State :=
  { s with host := { s.host with txn := some { kind := .plain, out := [0x80] }, request := some r, reply := none } }

/-- A request is accepted and completes at once with a reply, its read flag clear (R170, R171). -/
def answered (r : Reply) (s : State) : State :=
  { s with
    host :=
      { s.host with
        txn := some { kind := .plain, out := [0x80] }, request := none, reply := some { reply := r, read := false } } }

/-- The eight request commands (10_the_host_port_and_the_event_queue.md). -/
def isRequest (c : Instr) : Prop :=
  (∃ key value, c = .writeRecord key value) ∨ (∃ key, c = .deleteRecord key) ∨ (∃ key, c = .readRecord key) ∨
  (∃ start, c = .listKeys start) ∨ c = .readPeers ∨ c = .syncNow ∨ (∃ offset bytes, c = .programConfig offset bytes) ∨
  c = .lockConfig

/-- The station serves reads: LISTENING, ACTIVE or MUTE (R154). -/
def Serving (s : State) : Prop := s.ctl.st = .listening ∨ s.ctl.st = .active ∨ s.ctl.st = .mute

/-- A key of an OWNED class is another station's (R6). -/
def foreignKey (s : State) (k : Key) : Prop := policyOf s k = .owned ∧ s.ctl.own ≠ k.extractLsb' 0 5

/-- The store is hopeless for an image of so many granules (R37). -/
def Hopeless (s : State) (granules : Nat) : Prop :=
  openFree s < granules ∧ erasedCount s ≤ 1 ∧ ∀ x ∈ s.store.sectors, x.state = .full → 255 ≤ x.live

/-- The checks of R34 in their order, each with its refusal (R34 to R37, R17; above 1024 the directory counts as full too,
DESIGN CHOICE, log 17). -/
def Refuses (s : State) (k : Key) (tomb : Bool) (len : Nat) : List (Prop × ResultCode) :=
  [ (s.ctl.st = .starting, .starting),
    (s.ctl.st = .unconfigured, .notConfigured),
    (s.ctl.st = .mute ∧ policyOf s k ≠ .localOnly, .muted),
    (k = 0x0000 ∨ k = 0xFFFF, .badKey),
    (foreignKey s k, .notOwner),
    (policyOf s k = .once ∧ tomb = true, .notDeletable),
    (policyOf s k = .once ∧ tomb = false ∧ lookup s k ≠ none, .alreadySet),
    (tomb = false ∧ (classOf s k).maxLen < len, .tooLong),
    (∃ (i : Fin 4) (x : Slot), s.upd.slots[i] = some x ∧ x.record.key = k, .keyBusy),
    (lookup s k = none ∧ 1024 ≤ s.dir.entryCount + s.dir.reservations, .dirFull),
    (∀ i : Fin 4, s.upd.slots[i] ≠ none, .busy),
    (s.dir.clock = 0xFFFFFFFF, .clockExhausted),
    (Hopeless s (1 + (len + 15) / 16), .storeFull) ]

/-- The lowest-numbered FREE update slot (R33). -/
def LowestFree (s : State) (i : Fin 4) : Prop := s.upd.slots[i] = none ∧ ∀ j : Fin 4, j < i → s.upd.slots[j] ≠ none

/-- The state an admitted update leaves, before the space test (R38, R39, R12). -/
def admitted (i : Fin 4) (k : Key) (tomb : Bool) (value : List Byte) (s : State) : State :=
  { answered (.admitted (s.upd.ticket + 1) { counter := s.dir.clock + 1, origin := s.ctl.own }) s with
    dir :=
      { s.dir with
        clock := s.dir.clock + 1
        reservations := if lookup s k = none then s.dir.reservations + 1 else s.dir.reservations }
    upd :=
      { s.upd with
        slots :=
          s.upd.slots.set i
            (some
              { phase := .waitStore
                origin := .host (s.upd.ticket + 1)
                record :=
                  { key := k, stamp := { counter := s.dir.clock + 1, origin := s.ctl.own }, tomb := tomb, value := value }
                reserved := (lookup s k).isNone
                retry := false
                ready := s.upd.nextReady
                follower := none })
        nextReady := s.upd.nextReady + 1
        ticket := s.upd.ticket + 1 } }

/-! ## Words of the configuration area and of resets -/

/-- The area after a programming from an offset: each named byte is ANDed with the given one, but for the bits that did not
take (R161; log 5). -/
def programmed (area : Vector Byte 64) (offset : Nat) (given failed : List Byte) : Vector Byte 64 :=
  Vector.ofFn fun i =>
    if offset ≤ i.val ∧ i.val < offset + given.length then
      area[i] &&& (given.getD (i.val - offset) 0xFF ||| failed.getD (i.val - offset) 0x00)
    else area[i]

/-- The group section follows the area (R161, R166, R167). -/
def grouped (s : State) : State :=
  { s with
    ctl :=
      { s.ctl with
        groupBytes := s.cfg.bytes.toList.take 36
        groupHash := crc32 (s.cfg.bytes.toList.take 36) } }

/-- A request in progress completes with a reply (R170, R171). -/
def completed (r : Reply) (s : State) : State :=
  { s with host := { s.host with request := none, reply := some { reply := r, read := false } } }

/-- The body of a sector that an ERASE in flight is erasing (R55). -/
def erasing (s : State) (a : Nat) : Prop :=
  ∃ e, s.store.erase = some e ∧ (e.phase = .running ∨ e.phase = .suspended) ∧
    e.sector * 4096 + 16 ≤ a ∧ a < e.sector * 4096 + 4096

/-- Flash with the bits an abandoned ERASE had set (R79; log 5). -/
def partlyErased (s : State) (erased : List (Nat × Byte)) : Memory :=
  match s.store.erase with
  | some e =>
    if e.phase = .running ∨ e.phase = .suspended then s.flash.eraseSome (e.sector * 4096) erased else s.flash
  | none => s.flash

/-- The state in which a soft reset waits: STARTING, the request over, waiting requests discarded, a READ and an ERASE
abandoned; programs, marks and frames in flight go on (R79, R157, R178; line phase and Transmit Queue, log 32). -/
def waiting (erased : List (Nat × Byte)) (s : State) : State :=
  { s with
    ctl := { s.ctl with st := .starting, softWait := true }
    host := { s.host with request := none }
    flash := partlyErased s erased
    store :=
      { s.store with
        reads := []
        mark := none
        op :=
          match s.store.op with
          | some (.read _ _) => none
          | o => o
        erase :=
          match s.store.erase with
          | some e => if e.phase = .counting then some e else none
          | none => none } }

/-- The addresses that work in flight is changing: an APPEND's image and opening record, a MARK's byte, an ERASE's sector
body, or its erase count (R54, R55, R184). -/
def inFlight (s : State) (a : Nat) : Prop :=
  (∃ who loc opening image, s.store.op = some (.append who loc opening image) ∧
    ((loc.sector * 4096 + loc.granule * 16 ≤ a ∧ a < loc.sector * 4096 + loc.granule * 16 + image.length) ∨
     (opening ≠ none ∧ loc.sector * 4096 + 3 ≤ a ∧ a < loc.sector * 4096 + 15))) ∨
  (∃ kind v, s.store.op = some (.mark kind v) ∧ a = v * 4096 + 15) ∨
  erasing s a ∨
  (∃ e, s.store.erase = some e ∧ e.phase = .counting ∧ e.sector * 4096 ≤ a ∧ a < e.sector * 4096 + 3)

/-- The bytes of the configuration area that a programming in flight names (R161, R162). -/
def configInFlight (s : State) (i : Nat) : Prop :=
  ∃ p, s.cfg.prog = some p ∧ p.given.1 ≤ i ∧ i < p.given.1 + p.given.2.length

/-- The area's values in force, none when it is not locked or not valid (R158, R160). -/
def inForce (s : State) : Option Force := if isLocked s then areaForce s.cfg.bytes.toList else none

/-- The state a reset leaves: every block cleared, straps sampled, Profile Table built, the area read; a transaction under
way goes on with fill (R29, R53, R56, R68, R100, R115, R135, R146, R153, R155, R156, R158, R178, R182). -/
def restarted (straps : Station) (s : State) : State :=
  { s with
    ctl :=
      { s.ctl with
        st := if inForce s = none then .unconfigured else .starting
        own := straps
        power := false
        pin := false
        softWait := false
        force := inForce s
        listeningSince := none
        groupBytes := s.cfg.bytes.toList.take 36
        groupHash := crc32 (s.cfg.bytes.toList.take 36) }
    cfg := { s.cfg with prog := none }
    host :=
      { txn := s.host.txn.map fun _ => { kind := .plain, out := [] }
        request := none, reply := none
        events := if inForce s = none then [.stationState .unconfigured] else []
        lost := 0 }
    dir :=
      { entries := [], checks := Vector.replicate 64 0, clock := 0, entryCount := 0, sharedCount := 0, reservations := 0 }
    upd :=
      { slots := Vector.replicate 4 none, copy := none, nextReady := 0, ticket := 0, divDirectory := false
        divStore := false }
    store :=
      { sectors := [], highestSeq := 0, reads := [], op := none, mark := none, erase := none, comp := .idle, low := false }
    line :=
      { phase := .off, base := 0, seq := 0, txq := [], waiting := [], rxq := [], sending := none, deferral := 0, slot := 0
        quietSince := 0 }
    memb := { peers := Vector.replicate 32 Peer.cleared, query := none }
    summ := { timer := none }
    recon := { queue := [], phase := .idle }
    fetch := { wants := [], slots := Vector.replicate 4 .free }
    resp := { jobs := [], service := none } }

/-! ## Words of the scan -/

/-- A sector with content: opening record present, neither retired nor marked for erasure (R76). -/
def Content (m : Memory) (i : Nat) (o : Opening) : Prop :=
  i < 64 ∧ retiredSet (headerOf m i) = false ∧ eraseSet (headerOf m i) = false ∧ readOpening (headerOf m i) = .present o

/-- A sector retired, marked for erasure, or without an opening record, so ERASED: read for the clock alone (R13, R76, R77). -/
def ForClockAlone (m : Memory) (i : Nat) : Prop :=
  i < 64 ∧
    (retiredSet (headerOf m i) = true ∨ eraseSet (headerOf m i) = true ∨ readOpening (headerOf m i) = .blank)

/-- The granules of a sector at which an image begins, or its images end: granule 1, and the one after each image whose
check passes (R77). -/
inductive Reached (m : Memory) (i : Nat) : Nat → Prop where
  | first : Reached m i 1
  | after (g : Nat) (r : Record) : Reached m i g → readImage m { sector := i, granule := g } = .image r →
      Reached m i (g + (1 + (r.value.length + 15) / 16))

/-- The granules read in a sector that is read for the clock alone: granule 1, the one after each image whose check passes,
and the one after each granule at which none begins (R13, R77; DESIGN CHOICE, log 31). -/
inductive ReadThrough (m : Memory) (i : Nat) : Nat → Prop where
  | first : ReadThrough m i 1
  | after (g : Nat) (r : Record) : ReadThrough m i g → readImage m { sector := i, granule := g } = .image r →
      ReadThrough m i (g + (1 + (r.value.length + 15) / 16))
  | past (g : Nat) : ReadThrough m i g → (∀ r, readImage m { sector := i, granule := g } ≠ .image r) →
      ReadThrough m i (g + 1)

/-- An image the scan reads, at its location (R77). -/
def ImageAt (m : Memory) (l : Loc) (r : Record) : Prop := Reached m l.sector l.granule ∧ readImage m l = .image r

/-- A candidate of the scan: an image in a sector with content, with a valid key (R77; log 18). -/
def Candidate (m : Memory) (l : Loc) (r : Record) : Prop :=
  r.key ≠ 0x0000 ∧ r.key ≠ 0xFFFF ∧ (∃ o, Content m l.sector o) ∧ ImageAt m l r

/-- The scan reads a sector with content before another: by sequence number, then by number (R77). -/
def SectorBefore (m : Memory) (i j : Nat) : Prop :=
  ∃ o o', Content m i o ∧ Content m j o' ∧ (o.seq.toNat < o'.seq.toNat ∨ (o.seq = o'.seq ∧ i < j))

/-- The scan finds an image before another (R77). -/
def FoundBefore (m : Memory) (l l' : Loc) : Prop :=
  SectorBefore m l.sector l'.sector ∨ (l.sector = l'.sector ∧ l.granule < l'.granule)

/-- The counters that the clock is rebuilt from: clocks at opening, images the scan reads in sectors with content, and every
image whose check passes in a sector read for the clock alone (R13, R77). -/
def ClockSource (m : Memory) (c : Counter) : Prop :=
  (∃ i o, i < 64 ∧ readOpening (headerOf m i) = .present o ∧ c = o.clock) ∨
  (∃ l r, (∃ o, Content m l.sector o) ∧ ImageAt m l r ∧ c = r.stamp.counter) ∨
  ∃ l r, ForClockAlone m l.sector ∧ ReadThrough m l.sector l.granule ∧ readImage m l = .image r ∧ c = r.stamp.counter

/-- The erase counts in the headers, in either part (R76). -/
def CountShown (m : Memory) (c : BitVec 16) : Prop :=
  ∃ i, i < 64 ∧
    ((∃ o, readOpening (headerOf m i) = .present o ∧ c = o.eraseCount) ∨ readEraseCount (headerOf m i) = .present c)

/-- The sequence numbers in the opening records (R76). -/
def SeqShown (m : Memory) (q : BitVec 32) : Prop :=
  ∃ i o, i < 64 ∧ readOpening (headerOf m i) = .present o ∧ q = o.seq

/-- A number is the largest of some, 0 when there is none. -/
def Largest {n : Nat} (p : BitVec n → Prop) (c : BitVec n) : Prop :=
  (∀ d, p d → d.toNat ≤ c.toNat) ∧ (p c ∨ (c = 0 ∧ ∀ d, ¬ p d))

/-- The sector the scan leaves OPEN, with its used granules: the last in the scan's order, if its images end at a blank
granule and it has no reclaim mark (R78; the higher-numbered of two that share the highest sequence number, DESIGN CHOICE,
log 15). -/
def ScanOpens (m : Memory) (i used : Nat) : Prop :=
  (∃ o, Content m i o) ∧ (∀ j o, Content m j o → j ≠ i → SectorBefore m j i) ∧ reclaimSet (headerOf m i) = false ∧
    Reached m i (used + 1) ∧ used < 255 ∧ readImage m { sector := i, granule := used + 1 } = .blank

/-- A sector's erase count after the scan: its opening record's, else its erase count part's, else the highest found (R76;
which part counts where R76 gives none, log 15). -/
def CountIs (m : Memory) (i : Nat) (highest count : BitVec 16) : Prop :=
  match readOpening (headerOf m i), readEraseCount (headerOf m i) with
  | .present o, _ => count = o.eraseCount
  | _, .present c => count = c
  | _, _ => count = highest

/-- What the scan makes of a sector, its live count apart (R76, R78; fields R76 does not give, and a header that fits no row
of its table, log 15). -/
def SectorIs (m : Memory) (i : Nat) (x : Sector) : Prop :=
  let h := headerOf m i
  x.reclaim = reclaimSet h ∧
  if retiredSet h = true then x.state = .retired ∧ x.seq = none ∧ x.used = 0
  else if eraseSet h = true then
    x.state = .erasing ∧ x.used = 255 ∧
      x.seq =
        match readOpening h with
        | .present o => some o.seq
        | _ => none
  else
    match readOpening h with
    | .present o =>
      x.seq = some o.seq ∧ (∀ used, ScanOpens m i used → x.state = .openForAppend ∧ x.used = used) ∧
        ((∀ used, ¬ ScanOpens m i used) → x.state = .full ∧ x.used = 255)
    | .torn => x.state = .full ∧ x.seq = none ∧ x.used = 255
    | .blank => x.state = .erased ∧ x.seq = none ∧ x.used = 0

/-- The granules of the directory's entries in a sector (R78). -/
def granulesIn (entries : List Entry) (i : Nat) : Nat :=
  ((entries.filter fun e => e.loc.sector == i).map fun e => 1 + (e.len + 15) / 16).sum

/-! ## Words of the line -/

/-- Another transmitter's frame is on the line (R83). -/
def Hearing (s : State) : Prop := Up s ∧ s.line.phase = .busy ∧ s.line.sending = none

/-- The ID a frame carries differs from the one recorded (R104). -/
def Differs (e : Peer) (id : Option (BitVec 32)) : Prop :=
  ∃ i, id = some i ∧
    match e.uniqueId with
    | some u => u.extractLsb' 0 32 ≠ i
    | none => e.uniqueIdLow ≠ some i

/-- What a good frame, carrying this ID or none, makes of its sender's entry (R103, R104, R105, R110). -/
def Heard (now : Nat) (id : Option (BitVec 32)) (old new : Peer) : Prop :=
  match old.state with
  | .absent => new = { Peer.cleared with state := .joining, lastHeard := some now, uniqueIdLow := id, attempts := 0 }
  | .joining =>
    new =
      { old with
        lastHeard := some now
        attempts := if old.attempts < 3 then old.attempts else 0
        uniqueIdLow := if id = none then old.uniqueIdLow else id }
  | .present =>
    (Differs old id →
      new = { old with state := .duplicate, lastHeard := some now, uniqueIdLow := id, dupMark := some now, isPartial := false }) ∧
    (¬ Differs old id → new = { old with lastHeard := some now })
  | .silent =>
    (Differs old id →
      new =
        { old with state := .joining, lastHeard := some now, uniqueId := none, uniqueIdLow := id, attempts := 0 }) ∧
    (¬ Differs old id → new = { old with state := .present, lastHeard := some now })
  | .incompatible =>
    (Differs old id →
      new =
        { old with state := .joining, lastHeard := some now, uniqueId := none, uniqueIdLow := id, attempts := 0 }) ∧
    (¬ Differs old id → new = { old with lastHeard := some now })
  | .duplicate =>
    (id ≠ none ∧ id ≠ old.uniqueIdLow → new = { old with lastHeard := some now, uniqueIdLow := id, dupMark := some now }) ∧
    (id = none ∨ id = old.uniqueIdLow → new = { old with lastHeard := some now })

/-- A peer entry but for its attempts, which a profile query may raise (R105). -/
def apart (e : Peer) : Peer := { e with attempts := 0 }

/-- The rank of a Transmit Queue class, the highest first (R95). -/
def rank : TxClass → Nat
  | .replies => 1
  | .requests => 2
  | .news => 3
  | .summary => 4

/-- The first frame of its class stands behind `pre`, in front of `post` (R95). -/
def FirstOf (s : State) (c : TxClass) (pre : List TxFrame) (t : TxFrame) (post : List TxFrame) : Prop :=
  s.line.txq = pre ++ t :: post ∧ t.kind.cls = c ∧ ∀ x ∈ pre, x.kind.cls ≠ c

/-- The PARTIAL condition at the composing of a SUMMARY (R27, R67; above 1024 the directory counts as full too, DESIGN
CHOICE, log 17). -/
def Partial (s : State) : Bool :=
  decide (1024 ≤ s.dir.entryCount + s.dir.reservations) || outOfSpace s

/-- The frame that goes on the line for a queued one: as placed, but a SUMMARY composed now (R90, R122). -/
def composed (s : State) (t : TxFrame) : Frame :=
  { code := t.kind.code, flags := t.flags, source := s.ctl.own, dest := t.dest, seq := t.seq
    payload :=
      if t.kind = .summary then
        be32 s.dir.clock ++ be32 (s.ctl.uniqueId.extractLsb' 0 32) ++ [if Partial s then 1 else 0, 0] ++
          be16 (BitVec.ofNat 16 s.dir.sharedCount) ++ s.dir.checks.toList.flatMap be16
      else t.payload }

/-- A frame placed at the tail with the next sequence (R95, R97). -/
def placed (kind : FrameKind) (flags : BitVec 4) (dest : Byte) (payload : List Byte) (placer : Option Requester)
    (l : Line) : Line :=
  { l with
    txq :=
      l.txq ++
        [{ kind := kind, flags := flags, dest := dest, seq := l.seq, payload := payload, collisions := 0
           placer := placer }]
    seq := l.seq + 1 }

/-- A requester's request is given up: it waits no more, and a frame of it already placed reports to nobody (R98;
DEDUCED, log 22). -/
def givenUp (r : Requester) (l : Line) : Line :=
  { l with
    waiting := l.waiting.filter fun q => q != r
    txq := l.txq.map fun t => if t.placer = some r then { t with placer := none } else t }

/-- Frames can be placed in the Transmit Queue: LISTENING or ACTIVE (R96). -/
def Placing (s : State) : Prop := Powered s ∧ (s.ctl.st = .listening ∨ s.ctl.st = .active)

/-- There is room for a frame newly offered: a free place, and no placer waiting before it (R95; DEDUCED, log 9). -/
def Room (s : State) (l : Line) : Prop := Placing s ∧ l.waiting = [] ∧ l.txq.length < 16

/-- The outstanding PROFILE_QUERY is placed on the line's side given, and its reply timer starts (R98, R105). -/
def queryPlaced (q : ProfileQuery) (l : Line) (s : State) : State :=
  { s with
    line := placed .profileQuery 0 (stationByte q.peer) [] (some .profileQuery) l
    memb := { s.memb with query := some { q with placed := some { seq := l.seq, since := s.now } } } }

/-- The current pair's BUCKET_QUERY is placed (R98, R128). -/
def pairPlaced (p : Pair) (l : Line) (s : State) : State :=
  { s with
    line := placed .bucketQuery 0 (stationByte p.peer) [p.bucket.setWidth 8] (some .bucketQuery) l
    recon := { s.recon with phase := .awaitingPart { seq := l.seq, since := s.now } 0 } }

/-- A fetch slot's FETCH is placed (R98, R139). -/
def fetchPlaced (i : Fin 4) (key : Key) (peer : Station) (stamp : Stamp) (l : Line) (s : State) : State :=
  { s with
    line := placed .fetch 0 (stationByte peer) (be16 key ++ stampBytes stamp) (some (.fetch i)) l
    fetch := { s.fetch with slots := s.fetch.slots.set i (.awaiting key peer { seq := l.seq, since := s.now }) } }

/-- A job's SUPPLY is placed: the record, or the key with the absent flag (R149). -/
def supplyPlaced (job : Job) (key : Key) (answer : Option Record) (l : Line) : Line :=
  placed .supply (if answer = none then 2 else 0) (stationByte job.peer)
    (match answer with
     | some r => job.echo :: recordBytes r
     | none => job.echo :: be16 key) none l

/-- The shared entries of a bucket above a resume key, in key order (R151). -/
def found (s : State) (b : Bucket) (resume : Option Key) : List Entry :=
  s.dir.entries.filter fun e =>
    e.key.extractLsb' 0 6 == b && !isLocal s e.key &&
      match resume with
      | some k => decide (k.toNat < e.key.toNat)
      | none => true

/-- A part of at most 36 of the entries found is placed, with LAST when it lists them all (R151). -/
def partPlaced (job : Job) (b : Bucket) (part : Nat) (entries : List Entry) (l : Line) : Line :=
  placed .bucketReply (if entries.length ≤ 36 then 1 else 0) (stationByte job.peer)
    ([job.echo, b.setWidth 8, BitVec.ofNat 8 part, BitVec.ofNat 8 (entries.take 36).length] ++
      (entries.take 36).flatMap fun e => be16 e.key ++ stampBytes e.stamp) none l

/-- The jobs after a part: with LAST its job is over; otherwise it goes to the tail, with the next part and the last key
listed (R148, R151). -/
def jobsAfterPart (job : Job) (b : Bucket) (part : Nat) (entries : List Entry) (others : List Job) : List Job :=
  if entries.length ≤ 36 then others
  else others ++ [{ job with kind := .bucketReply b (part + 1) ((entries.take 36).getLast?.map (·.key)) }]

/-- The blocks offer what they have waiting, in the order of R95: the Responder's reply, a PROFILE_QUERY, a BUCKET_QUERY,
FETCHes. What each offers is said in RequestsBecomeJobs and ListeningEndsInActive, how it is placed in WaitingFramesArePlaced. -/
def workOffered (s : State) : State := pumpFetch (pumpReconciler (pumpProfile (pumpResponder s)))

/-! ## Words of a peer's withdrawal (R111) -/

/-- READs of the Responder are no longer wanted: they complete unused (R111, R153; DEDUCED, log 26). -/
def unread (st : Store) : Store :=
  { st with
    reads := st.reads.map fun r => if r.owner = .responder then { r with owner := .discarded } else r
    op :=
      match st.op with
      | some (.read .responder found) => some (.read .discarded found)
      | o => o }

/-- The outstanding BUCKET_QUERY is addressed to a peer. -/
def queries (s : State) (p : Station) : Bool := s.recon.phase != .idle && s.recon.queue.head?.any fun q => q.peer == p

/-- The job in service is a peer's. -/
def serves (s : State) (p : Station) : Bool := s.resp.service.isSome && s.resp.jobs.head?.any fun j => j.peer == p

/-- The requesters whose frames for a peer are given up with its work. -/
def abandons (s : State) (p : Station) : Requester → Bool
  | .fetch i => s.fetch.slots[i].peer == some p
  | .bucketQuery => queries s p
  | .reply => serves s p
  | .profileQuery => false

/-- The station's work with a peer that leaves PRESENT is withdrawn: Want entries, fetch slots, pairs, the outstanding
BUCKET_QUERY, jobs; queued frames stay (R111; what they report to, DEDUCED, log 22). -/
def withdrawn (p : Station) (s : State) : State :=
  { s with
    fetch :=
      { wants := s.fetch.wants.filter fun w => w.source != p
        slots := s.fetch.slots.map fun x => if x.peer = some p then .free else x }
    recon :=
      { queue := s.recon.queue.filter fun q => q.peer != p
        phase := if queries s p then .idle else s.recon.phase }
    resp :=
      { jobs := s.resp.jobs.filter fun j => j.peer != p
        service := if serves s p then none else s.resp.service }
    store := if serves s p then unread s.store else s.store
    line :=
      { s.line with
        waiting := s.line.waiting.filter fun r => !abandons s p r
        txq := s.line.txq.map fun t => if t.placer.any (abandons s p) then { t with placer := none } else t } }

/-! ## Words of the takings -/

/-- The taking of each kind (R81). -/
def takingOf : FrameKind → Instr
  | .summary => .summaryTaken
  | .news => .newsTaken
  | .profileQuery => .profileQueryTaken
  | .profile => .profileTaken
  | .bucketQuery => .bucketQueryTaken
  | .bucketReply => .bucketReplyTaken
  | .fetch => .fetchTaken
  | .supply => .supplyTaken

/-- A frame is for the block that takes a kind: FETCH, BUCKET_QUERY and PROFILE_QUERY are all the Responder's, and every
other block takes one kind (R81). -/
def ForBlock (k : FrameKind) (f : Frame) : Prop :=
  f.kind = some k ∨
    (∃ j, f.kind = some j ∧ (j = .fetch ∨ j = .bucketQuery ∨ j = .profileQuery)) ∧
      (k = .fetch ∨ k = .bucketQuery ∨ k = .profileQuery)

/-- The oldest frame for a block is of the kind it takes, and stands behind `pre`, in front of `post`, in the Receive Queue
(R86). -/
def Waits (s : State) (k : FrameKind) (pre : List Frame) (f : Frame) (post : List Frame) : Prop :=
  Up s ∧ s.line.rxq = pre ++ f :: post ∧ f.kind = some k ∧ ∀ x ∈ pre, ¬ ForBlock k x

/-- The frame leaves the Receive Queue (R86). -/
def taken (pre post : List Frame) (s : State) : State := { s with line := { s.line with rxq := pre ++ post } }

/-- The states of a sender whose frame of a kind is used for nothing (R112). -/
def Unused : FrameKind → PeerState → Prop
  | .profile, q => q ≠ .joining
  | .profileQuery, q => q = .absent ∨ q = .silent
  | _, q => q ≠ .present

/-- The clock raised, never lowered (R11). -/
def raised (c : Counter) (s : State) : State :=
  { s with dir := { s.dir with clock := if s.dir.clock.toNat < c.toNat then c else s.dir.clock } }

/-- An arrival that fails the first test (R40). -/
def Malformed (s : State) (r : Record) : Prop :=
  r.key = 0x0000 ∨ r.key = 0xFFFF ∨ policyOf s r.key = .localOnly ∨ (classOf s r.key).maxLen < r.value.length ∨
    (r.tomb = true ∧ r.value ≠ [])

/-- An arrival that fails the second test (R6, R40). -/
def Foreign (s : State) (r : Record) : Prop :=
  policyOf s r.key = .owned ∧ r.stamp.origin ≠ r.key.extractLsb' 0 5

/-- An arrival that fails the third test (R41). -/
def Stale (s : State) (r : Record) : Prop := ∃ e, lookup s r.key = some e ∧ beats s r.key r.stamp e.stamp = false

/-- A NEWS of a PRESENT sender whose header agrees is at the front for the Update Unit (R117, R118). -/
def NewsOf (s : State) (pre : List Frame) (f : Frame) (post : List Frame) (r : Record) : Prop :=
  Waits s .news pre f post ∧ (peerOf s f.source).state = .present ∧ parseRecord f.payload = some r ∧ FetchLaw s

/-- A slot that carries a peer's record, as claimed (R43, R50, R51). -/
def peerSlot (r : Record) (reserved : Bool) (ready : Nat) : Slot :=
  { phase := .waitStore, origin := .peer, record := r, reserved := reserved, retry := false, ready := ready
    follower := none }

/-! ## Words of the store -/

/-- The update slot in WAIT_STORE with the earliest ready position (R32). -/
def Earliest (s : State) (i : Fin 4) (x : Slot) : Prop :=
  s.upd.slots[i] = some x ∧ x.phase = .waitStore ∧
    ∀ (j : Fin 4) (y : Slot), s.upd.slots[j] = some y → y.phase = .waitStore → x.ready < y.ready ∨ (x.ready = y.ready ∧ i ≤ j)

/-- The copy slot's APPEND waits. -/
def CopyWaits (s : State) (c : CopySlot) : Prop := s.upd.copy = some c ∧ c.phase = .waitStore

/-- An update slot's APPEND caused the suspension of the ERASE and has not been granted yet: of all that waits it was placed
first (R64). -/
def Caused (s : State) (i : Fin 4) (x : Slot) : Prop :=
  (∃ e, s.store.erase = some e ∧ e.phase = .suspended ∧ e.owes = true) ∧ Earliest s i x ∧
    ∀ r rest, s.store.reads = r :: rest → x.ready < r.after

/-- The APPEND whose turn it is, its record, and how many ERASED sectors its opening of one asks for: the cause of a
suspension first; else, when no READ waits, the next in the order of R59 (R59, R62, R64). -/
def Turn (s : State) (who : Appender) (r : Record) (needed : Nat) : Prop :=
  (∃ i x, who = .slot i ∧ Caused s i x ∧ r = x.record ∧ needed = 2) ∨
  ((∀ i x, ¬ Caused s i x) ∧ s.store.reads = [] ∧
    ((∃ i x, who = .slot i ∧ Earliest s i x ∧ r = x.record ∧ needed = 2 ∧ ∀ c, CopyWaits s c → 1 < erasedCount s) ∨
     (∃ c, who = .copy ∧ CopyWaits s c ∧ r = c.record ∧ needed = 1 ∧
       (erasedCount s ≤ 1 ∨ ∀ (i : Fin 4) (x : Slot), s.upd.slots[i] = some x → x.phase ≠ .waitStore))))

/-- The ERASE request once a READ or APPEND has been granted: it owes no cause its grant (R64). -/
def settled (e : Option EraseReq) : Option EraseReq := e.map fun x => { x with owes := false }

/-- The store is free: nothing performed, no ERASE running or counting (R58, R64). -/
def StoreFree (s : State) : Prop :=
  s.store.op = none ∧ ∀ e, s.store.erase = some e → e.phase = .waiting ∨ e.phase = .suspended

/-- No APPEND waits. -/
def NoAppend (s : State) : Prop :=
  (∀ (i : Fin 4) (x : Slot), s.upd.slots[i] = some x → x.phase ≠ .waitStore) ∧ ∀ c, ¬ CopyWaits s c

/-- The slot that placed an APPEND is PROGRAMMING at its place (R45, R72). -/
def programming (who : Appender) (loc : Loc) (u : UpdateUnit) : UpdateUnit :=
  match who with
  | .slot i => { u with slots := u.slots.set i (u.slots[i].map fun x => { x with phase := .programming loc }) }
  | .copy => { u with copy := u.copy.map fun c => { c with phase := .programming loc } }

/-- A single update slot's failure: WRITE_DONE or the STORE reason, the reservation given back, then its follower or FREE
(R46, R51, R52). -/
def failed (result : WriteResult) (i : Fin 4) (x : Slot) (s : State) : State :=
  let left := if x.reserved then s.dir.reservations - 1 else s.dir.reservations
  { s with
    host :=
      match x.origin with
      | .host ticket => s.host.post (.writeDone ticket x.record.key result)
      | .peer => if s.upd.divStore then s.host else s.host.post (.diverged .store)
    dir :=
      { s.dir with
        reservations :=
          match x.follower with
          | some f => if lookup s f.key = none then left + 1 else left
          | none => left }
    upd :=
      { s.upd with
        divStore := if x.origin = .peer then true else s.upd.divStore
        slots :=
          s.upd.slots.set i
            (match x.follower with
             | some f => some (peerSlot f (lookup s f.key).isNone s.upd.nextReady)
             | none => none)
        nextReady := if x.follower = none then s.upd.nextReady else s.upd.nextReady + 1 } }

/-- A slot's follower, or FREE, after its commit: the key has its entry, so nothing is reserved (R50). -/
def afterCommit (x : Slot) (ready : Nat) : Option Slot := x.follower.map fun f => peerSlot f false ready

/-- One sector's entry is changed (R56). -/
def withSector (i : Nat) (f : Sector → Sector) (s : State) : State :=
  { s with store := { s.store with sectors := s.store.sectors.modify i f } }

/-- The OPEN sector and its number (R57). -/
def OpenAt (s : State) (n : Nat) (x : Sector) : Prop := s.store.sectors[n]? = some x ∧ x.state = .openForAppend

/-- Some FULL sector holds a dead granule (R56, R68). -/
def DeadGranule (s : State) : Prop := ∃ x ∈ s.store.sectors, x.state = .full ∧ x.live < 255

/-- The verify of a program: image and opening record read back as given (R60). -/
def ReadsBack (m : Memory) (loc : Loc) (opening : Option Opening) (image : List Byte) : Prop :=
  (∀ i, i < image.length → m.read (loc.sector * 4096 + loc.granule * 16 + i) = image.getD i 0) ∧
  ∀ o, opening = some o → ∀ i, 3 ≤ i → i < 15 → m.read (loc.sector * 4096 + i) = (openingGranule o).getD i 0

/-- Flash after an APPEND's program, of which the listed bits did not take (R54, R60, R62; log 5). -/
def flashAfter (loc : Loc) (opening : Option Opening) (image bits : List Byte) (s : State) : Memory :=
  match opening with
  | some o =>
    (s.flash.program (loc.sector * 4096) (openingGranule o) (bits.take 16) 0).program
      (loc.sector * 4096 + loc.granule * 16) image (bits.drop 16) 0
  | none => s.flash.program (loc.sector * 4096 + loc.granule * 16) image bits 0

/-- The request performed is over, and flash is as its program left it. -/
def endOp (m : Memory) (s : State) : State := { s with flash := m, store := { s.store with op := none } }

/-- The sector of a passed program is FULL when it has no free granule left (R60). -/
def fullIfUsed (x : Sector) : Sector :=
  if x.state = .openForAppend ∧ 255 ≤ x.used then { x with state := .full, used := 255 } else x

/-- The sector of a failed program is FULL (R60). -/
def closed (x : Sector) : Sector := { x with state := .full, used := 255 }

/-- What a Want entry asks, whatever its state. -/
def asked (w : Want) : Key × Stamp × Station := (w.key, w.stamp, w.source)

/-- A queued frame, whoever placed it. -/
def unplaced (t : TxFrame) : TxFrame := { t with placer := none }

/-- The lowest sector left ERASING, another than the one whose run ends (R68, R75). -/
def NextErasing (s : State) (done v : Nat) : Prop :=
  v ≠ done ∧ (∃ x, s.store.sectors[v]? = some x ∧ x.state = .erasing) ∧
    ∀ n x, n < v → n ≠ done → s.store.sectors[n]? = some x → x.state ≠ .erasing

/-- No other sector is ERASING. -/
def NoneErasing (s : State) (done : Nat) : Prop :=
  ∀ n x, n ≠ done → s.store.sectors[n]? = some x → x.state ≠ .erasing

/-- What the space test watches has not changed: sector states, used and live counts, update-slot states, and compaction's
phase and victim (R67). -/
def Unchanged (old s : State) : Prop :=
  old.store.sectors.map (fun x => (x.state, x.used, x.live)) = s.store.sectors.map (fun x => (x.state, x.used, x.live)) ∧
  (∀ i : Fin 4, old.upd.slots[i].map (·.phase) = s.upd.slots[i].map (·.phase)) ∧
  ((∃ v c c', old.store.comp = .copying v c ∧ s.store.comp = .copying v c') ∨
   (∃ v c c', old.store.comp = .stalled v c ∧ s.store.comp = .stalled v c') ∨
   (old.store.comp = s.store.comp))

/-- A READ of the walk waits or is being performed (R71). -/
def WalkReads (s : State) : Prop :=
  (∃ r ∈ s.store.reads, r.owner = .compaction) ∨ ∃ found, s.store.op = some (.read .compaction found)

/-- A slot in STORE_WAIT returns to WAIT_STORE in its ready position (R63). -/
def woken (x : Slot) : Slot := if x.phase = .storeWait then { x with phase := .waitStore } else x

end Sys2Proof.Stated
section StatedObligations
open Sys2Proof Sys2Proof.Machine Sys2Proof.Stated

/-! ## The machine -/

/-- A command at the front of the queue is executed on the state with the queue's rest; an empty queue lets one unit of
time pass (DESIGN CHOICE, logs 1 and 2). -/
def Obligations.StepRunsTheFrontCommand : Prop :=
  (∀ (c : Instr) (rest : List Instr) (s : State), step { s with pending := c :: rest } = exec c { s with pending := rest }) ∧
  ∀ s : State, s.pending = [] → step s = .next { s with now := s.now + 1 }

/-- Every command has a next state; none touches the queue, the model's time, the unique ID or the silicon revision, and
only the end of a reset changes the own station number (R155, R156). That a command without its occasion has a next state
too, and that the queue and the time are the step's alone, is the model's choice (DESIGN CHOICE, logs 1 and 2). -/
def Obligations.EveryCommandAnswers : Prop :=
  ∀ (c : Instr) (s : State), ∃ t, exec c s = .next t ∧ t.pending = s.pending ∧ t.now = s.now ∧
    t.ctl.uniqueId = s.ctl.uniqueId ∧ t.ctl.revision = s.ctl.revision ∧
    ((∀ p, c ≠ .powerOnResetEnd p ∧ c ≠ .pinResetEnd p ∧ c ≠ .softResetWaitEnd p) → t.ctl.own = s.ctl.own)

/-! ## Stamps -/

/-- Beats is a strict total order on stamps within each policy: by counter, then by origin; reversed under ONCE (R10). -/
def Obligations.BeatsIsAStrictOrder : Prop :=
  ∀ (p : Policy) (a b c : Stamp),
    beatsUnder p a a = false ∧
    (beatsUnder p a b = true → beatsUnder p b a = false) ∧
    (beatsUnder p a b = true → beatsUnder p b c = true → beatsUnder p a c = true) ∧
    (a ≠ b → beatsUnder p a b = true ∨ beatsUnder p b a = true) ∧
    (p ≠ .once → (beatsUnder p a b = true ↔
      b.counter.toNat < a.counter.toNat ∨ (a.counter = b.counter ∧ b.origin.toNat < a.origin.toNat))) ∧
    (beatsUnder .once a b = true ↔
      a.counter.toNat < b.counter.toNat ∨ (a.counter = b.counter ∧ a.origin.toNat < b.origin.toNat))

/-! ## Formats -/

/-- A frame with a payload of at most 256 bytes, put on the line, is heard as itself (R80, R84, R183). -/
def Obligations.FramesAreHeardAsSent : Prop :=
  ∀ f : Frame, f.payload.length ≤ 256 → f.lineBytes.length = 9 + f.payload.length ∧ parseFrame f.lineBytes = some f

/-- The bytes of a host command, with any bytes after them, are taken as that command; short of its last argument byte no
command is taken (R169, R187). -/
def Obligations.HostCommandsAreTaken : Prop :=
  ∀ (c : Instr) (bytes : List Byte), c.wellFormed = true → hostBytes c = some bytes → (∀ e, c = .softReset e → e = []) →
    (∀ extra, takenCommand (bytes ++ extra) = some c) ∧ ∀ n, n < bytes.length → takenCommand (bytes.take n) = none

/-- A record's image programmed into blank granules of a sector reads back as the record (R54, R184). -/
def Obligations.ImagesReadBack : Prop :=
  ∀ (m : Memory) (l : Loc) (r : Record), m.wf → r.value.length ≤ 240 → 1 ≤ l.granule →
    l.granule + (1 + (r.value.length + 15) / 16) ≤ 256 →
    (∀ i, i < 16 * (1 + (r.value.length + 15) / 16) → m.read (l.sector * 4096 + l.granule * 16 + i) = 0xFF) →
    (imageBytes r).length = 16 * (1 + (r.value.length + 15) / 16) ∧
    readImage (m.program (l.sector * 4096 + l.granule * 16) (imageBytes r) [] 0) l = .image r

/-! ## The host port -/

/-- STATUS clocks out the ten bytes of R187 as they stand and changes nothing else (R177). That bits 7 to 5 of its flags
byte read 0 is a DESIGN CHOICE (log 33). -/
def Obligations.StatusReadsTheStation : Prop :=
  ∀ s : State, PortOpen s →
    exec .status s =
      .next
        { s with
          host :=
            { s.host with
              txn :=
                some
                  { kind := .plain
                    out :=
                      [s.ctl.st.code,
                       flagBit (isLocked s) 0 ||| flagBit s.host.request.isSome 1 ||| flagBit (replyReady s) 2 |||
                         flagBit s.upd.divDirectory 3 ||| flagBit s.upd.divStore 4,
                       stationByte s.ctl.own,
                       BitVec.ofNat 8 (s.dir.entryCount / 256),
                       BitVec.ofNat 8 s.dir.entryCount,
                       BitVec.ofNat 8 s.fetch.wants.length,
                       BitVec.ofNat 8 (s.memb.peers.toList.countP fun p => p.state == .present),
                       BitVec.ofNat 8 (s.store.sectors.countP fun x => x.state == .erased),
                       BitVec.ofNat 8 s.host.events.length,
                       s.host.lost] } } }

/-- GET_REPLY returns NOT_READY, EMPTY or the reply; only a transaction that has clocked out the whole reply sets its read
flag, and the reply stays (R171). Where R187 leaves a flag bit or the partial byte of a reply open, its bytes are a DESIGN
CHOICE (log 33). -/
def Obligations.GetReplyReturnsTheBuffer : Prop :=
  (∀ s : State, PortOpen s →
    (s.host.request ≠ none →
      exec .getReply s = .next { s with host := { s.host with txn := some { kind := .plain, out := [0x04] } } }) ∧
    (s.host.request = none → s.host.reply = none →
      exec .getReply s = .next { s with host := { s.host with txn := some { kind := .plain, out := [0x05] } } }) ∧
    ∀ h, s.host.request = none → s.host.reply = some h →
      exec .getReply s = .next { s with host := { s.host with txn := some { kind := .reply, out := h.reply.bytes } } }) ∧
  ∀ (s : State) (out : List Byte) (h : HeldReply) (clocked : Nat),
    s.host.txn = some { kind := .reply, out := out } → s.host.reply = some h →
    exec (.transactionEnd clocked) s =
      .next
        { s with
          host :=
            { s.host with
              txn := none
              reply := some { h with read := if out.length ≤ clocked then true else h.read } } }

/-- READ_EVENT removes the oldest event and clocks it out with the number left and the lost count, which it clears when it
leaves the queue empty; a transaction that ends before the six event bytes loses the event (R180). A KEY_CHANGED coalesces
into one queued for its key, another event joins the tail, or is lost to a full queue (R179). HIRQ is asserted while an event
is queued or a reply is ready, never in reset (R171, R181). -/
def Obligations.ReadEventTakesTheOldest : Prop :=
  (∀ s : State, PortOpen s → s.host.events = [] →
    exec .readEvent s =
      .next
        { s with
          host := { s.host with txn := some { kind := .plain, out := [0, 0, 0, 0, 0, 0, 0, s.host.lost] }, lost := 0 } }) ∧
  (∀ (s : State) (e : Event) (rest : List Event), PortOpen s → s.host.events = e :: rest →
    e.bytes.length = 6 ∧
    exec .readEvent s =
      .next
        { s with
          host :=
            { s.host with
              txn := some { kind := .event, out := e.bytes ++ [BitVec.ofNat 8 rest.length, s.host.lost] }
              events := rest
              lost := if rest = [] then 0 else s.host.lost } }) ∧
  (∀ (s : State) (out : List Byte) (clocked : Nat), s.host.txn = some { kind := .event, out := out } →
    exec (.transactionEnd clocked) s =
      .next
        { s with
          host :=
            { s.host with
              txn := none
              lost := if clocked < 6 ∧ s.host.lost ≠ 255 then s.host.lost + 1 else s.host.lost } }) ∧
  (∀ (s : State) (out : List Byte) (clocked : Nat), s.host.txn = some { kind := .plain, out := out } →
    exec (.transactionEnd clocked) s = .next { s with host := { s.host with txn := none } }) ∧
  (∀ (h : HostPort) (k : Key) (o o' : Station) (before after : List Event),
    h.events = before ++ .keyChanged k o' :: after → (∀ x ∈ before ++ after, ∀ q, x ≠ .keyChanged k q) →
    h.post (.keyChanged k o) = { h with events := before ++ .keyChanged k o :: after }) ∧
  (∀ (h : HostPort) (e : Event), (∀ k o, e = .keyChanged k o → ∀ x ∈ h.events, ∀ q, x ≠ .keyChanged k q) →
    (h.events.length < 32 → h.post e = { h with events := h.events ++ [e] }) ∧
    (32 ≤ h.events.length → h.post e = { h with lost := if h.lost = 255 then 255 else h.lost + 1 })) ∧
  ∀ s : State, hirq s = true ↔ Powered s ∧ (s.host.events ≠ [] ∨ ∃ h, s.host.reply = some h ∧ h.read = false)

/-- READ_PROFILE clocks out the Profile Table of its event from its offset, 92 or above counting as 0, and wraps after
offset 91; nothing else changes (R168). -/
def Obligations.ReadProfileWraps : Prop :=
  ∀ (s : State) (offset : Byte), PortOpen s → ControlLaw s →
    ∃ txn : Transaction,
      exec (.readProfile offset) s = .next { s with host := { s.host with txn := some txn } } ∧
      (∀ i : Nat,
        txn.sdo i = (profileTable s.ctl).getD (((if offset.toNat < 92 then offset.toNat else 0) + i) % 92) 0) ∧
      ∀ clocked : Nat,
        exec (.transactionEnd clocked) { s with host := { s.host with txn := some txn } } =
          .next { s with host := { s.host with txn := none } }

/-- ACK_DIVERGED clears both reasons; an unknown command has no effect but fill; SOFT_RESET starts the wait of R157, and
has no further effect during it (R52, R157, R169, R178). What an abandoned ERASE had set is an operand (DEDUCED, log 5);
that line phase and Transmit Queue stay as they are until the wait ends is a DESIGN CHOICE (log 32). -/
def Obligations.ImmediateCommandsAct : Prop :=
  ∀ s : State, PortOpen s →
    exec .ackDiverged s =
      .next
        { s with
          host := { s.host with txn := some { kind := .plain, out := [] } }
          upd := { s.upd with divDirectory := false, divStore := false } } ∧
    (∀ code, exec (.unknownCommand code) s =
      .next { s with host := { s.host with txn := some { kind := .plain, out := [] } } }) ∧
    (∀ erased, s.ctl.softWait = false → exec (.softReset erased) s = .next (waiting erased s)) ∧
    (∀ erased, s.ctl.softWait = true → exec (.softReset erased) s = .next s) ∧
    ∀ (erased : List (Nat × Byte)) (a : Nat), FlashLaw s → ¬ erasing s a →
      (partlyErased s erased).read a = s.flash.read a

/-- While a request is in progress every request command is refused with HOST_BUSY (81h) and changes nothing else (R170). -/
def Obligations.HostBusyChangesNothing : Prop :=
  ∀ (s : State) (c : Instr), PortOpen s → s.host.request ≠ none → isRequest c →
    exec c s = .next { s with host := { s.host with txn := some { kind := .plain, out := [0x81] } } }

/-- The first check of R34 that fails refuses a write or delete; a refused request changes the port alone (R34 to R37). That
a directory above its capacity is full too is a DESIGN CHOICE (log 17). -/
def Obligations.LocalAdmissionRefuses : Prop :=
  ∀ (s : State) (k : Key) (value : List Byte), FreePort s →
    (∀ (before after : List (Prop × ResultCode)) (failed : Prop) (code : ResultCode),
      Refuses s k false value.length = before ++ (failed, code) :: after → (∀ c ∈ before, ¬ c.1) → failed →
      exec (.writeRecord k value) s = .next (answered (.code code) s)) ∧
    ∀ (before after : List (Prop × ResultCode)) (failed : Prop) (code : ResultCode),
      Refuses s k true 0 = before ++ (failed, code) :: after → (∀ c ∈ before, ¬ c.1) → failed →
      exec (.deleteRecord k) s = .next (answered (.code code) s)

/-- A write or delete that fails no check is admitted: stamp, ticket, lowest FREE slot, reservation, ADMITTED; the space
test of R67 is made of the claimed slot (R12, R16, R38, R39). That a directory above its capacity is full too is a DESIGN CHOICE
(log 17). -/
def Obligations.LocalAdmissionAdmits : Prop :=
  ∀ (s : State) (k : Key) (value : List Byte) (i : Fin 4), FreePort s → LowestFree s i →
    ((∀ c ∈ Refuses s k false value.length, ¬ c.1) →
      exec (.writeRecord k value) s = .next (spaceTest (admitted i k false value s))) ∧
    ((∀ c ∈ Refuses s k true 0, ¬ c.1) →
      exec (.deleteRecord k) s = .next (spaceTest (admitted i k true [] s)))

/-- READ_RECORD is refused, answered BAD_KEY or NOT_FOUND, or places a READ of the entry it looked up (R173). -/
def Obligations.ReadRecordLooksUp : Prop :=
  ∀ (s : State) (k : Key), FreePort s →
    (s.ctl.st = .starting → exec (.readRecord k) s = .next (answered (.code .starting) s)) ∧
    (s.ctl.st = .unconfigured → exec (.readRecord k) s = .next (answered (.code .notConfigured) s)) ∧
    (Serving s → (k = 0x0000 ∨ k = 0xFFFF) → exec (.readRecord k) s = .next (answered (.code .badKey) s)) ∧
    (Serving s → k ≠ 0x0000 → k ≠ 0xFFFF → lookup s k = none →
      exec (.readRecord k) s = .next (answered (.code .notFound) s)) ∧
    ∀ e, Serving s → lookup s k = some e →
      exec (.readRecord k) s =
        .next
          { accepted (.readRecord e) s with
            store := { s.store with reads := s.store.reads ++ [{ owner := .host, loc := e.loc, after := s.upd.nextReady }] } }

/-- LIST_KEYS lists up to 32 entries from its start key, READ_PEERS the whole table, SYNC_NOW makes the summary timer
expire when ACTIVE; each completes at its acceptance (R19, R120, R121, R174, R175, R176). The SUMMARY is refused when the
free places are all owed to waiting placers, and is placed behind those that wait (DEDUCED, log 9). -/
def Obligations.ReportsCompleteAtOnce : Prop :=
  ∀ s : State, FreePort s →
    (∀ c, c = .readPeers ∨ c = .syncNow ∨ (∃ k, c = .listKeys k) →
      (s.ctl.st = .starting → exec c s = .next (answered (.code .starting) s)) ∧
      (s.ctl.st = .unconfigured → exec c s = .next (answered (.code .notConfigured) s))) ∧
    (∀ k, Serving s →
      exec (.listKeys k) s =
        .next
          (answered
            (.keys
              (((s.dir.entries.filter fun e => decide (k.toNat ≤ e.key.toNat)).take 32).map fun e =>
                { key := e.key, stamp := e.stamp, tomb := e.tomb })
              (decide (32 < (s.dir.entries.filter fun e => decide (k.toNat ≤ e.key.toNat)).length))) s)) ∧
    (Serving s →
      exec .readPeers s =
        .next
          (answered
            (.peers
              (s.memb.peers.toList.map fun p =>
                { state := p.state, uniqueIdLow := p.uniqueIdLow.getD 0, lastClock := p.lastClock.getD 0
                  isPartial := p.isPartial })) s)) ∧
    (s.ctl.st = .listening → exec .syncNow s = .next (answered (.code .notActive) s)) ∧
    (s.ctl.st = .mute → exec .syncNow s = .next (answered (.code .muted) s)) ∧
    (s.ctl.st = .active →
      (((∃ t ∈ s.line.txq, t.kind = .summary) ∨ 16 ≤ s.line.txq.length + s.line.waiting.length) →
        exec .syncNow s = .next { answered (.code .done) s with summ := { timer := some s.now } }) ∧
      exec .syncNow s = .next (offerSummary { answered (.code .done) s with summ := { timer := some s.now } }) ∧
      ((∀ t ∈ s.line.txq, t.kind ≠ .summary) → s.line.waiting = [] → s.line.txq.length < 16 →
        exec .syncNow s =
          .next
            { answered (.code .done) s with
              summ := { timer := some s.now }
              line :=
                { s.line with
                  txq :=
                    s.line.txq ++
                      [{ kind := .summary, flags := 0, dest := 0x3F, seq := s.line.seq, payload := [], collisions := 0
                         placer := none }]
                  seq := s.line.seq + 1 } }))

/-- PROGRAM_CONFIG and LOCK_CONFIG are refused with their codes, or begin their programming (R161, R162). In LISTENING,
ACTIVE and MUTE they are refused CONFIG_LOCKED whatever the area holds (R154). -/
def Obligations.ConfigurationRequestsBegin : Prop :=
  ∀ s : State, FreePort s →
    (∀ c, c = .lockConfig ∨ (∃ o l, c = .programConfig o l) →
      (s.ctl.st = .starting → exec c s = .next (answered (.code .starting) s)) ∧
      ((Serving s ∨ (s.ctl.st = .unconfigured ∧ isLocked s = true)) →
        exec c s = .next (answered (.code .configLocked) s))) ∧
    (s.ctl.st = .unconfigured → isLocked s = false →
      (∀ offset bytes, (bytes = [] ∨ 61 < offset.toNat + bytes.length) →
        exec (.programConfig offset bytes) s = .next (answered (.code .badRange) s)) ∧
      (∀ offset bytes, bytes ≠ [] → offset.toNat + bytes.length ≤ 61 →
        exec (.programConfig offset bytes) s =
          .next { accepted .programConfig s with cfg := { s.cfg with prog := some (.bytes offset.toNat bytes) } }) ∧
      (areaValues s.cfg.bytes.toList = none → exec .lockConfig s = .next (answered (.code .configInvalid) s)) ∧
      (areaValues s.cfg.bytes.toList ≠ none →
        exec .lockConfig s =
          .next
            { accepted .lockConfig s with
              cfg := { s.cfg with prog := some (.check (crc16 (s.cfg.bytes.toList.take 61))) } }))

/-- The area's programming ends: bits are only cleared, the reply says whether all took, the group section follows; the
check leads to the marker, the marker to a restart; under a soft reset's wait the area alone changes (R157, R161, R162).
Which bits did not take is an operand (DEDUCED, log 5). That line phase and Transmit Queue stay as they are until the wait ends is a DESIGN CHOICE (log 32). -/
def Obligations.ConfigurationProgramsEnd : Prop :=
  (∀ (s : State) (offset : Nat) (given failed : List Byte), s.cfg.prog = some (.bytes offset given) →
    let area := programmed s.cfg.bytes offset given failed
    (s.ctl.softWait = true →
      exec (.configProgramDone failed) s = .next { s with cfg := { bytes := area, prog := none } }) ∧
    (s.ctl.softWait = false →
      exec (.configProgramDone failed) s =
        .next
          (grouped
            (completed
              (.code (if area = programmed s.cfg.bytes offset given [] then .done else .configFault))
              { s with cfg := { bytes := area, prog := none } })))) ∧
  (∀ (s : State) (crc : BitVec 16) (failed : List Byte), s.cfg.prog = some (.check crc) →
    let area := programmed s.cfg.bytes 62 (be16 crc) failed
    (s.ctl.softWait = true →
      exec (.lockCheckProgrammed failed) s = .next { s with cfg := { bytes := area, prog := none } }) ∧
    (s.ctl.softWait = false → area[62] ++ area[63] = crc →
      exec (.lockCheckProgrammed failed) s = .next { s with cfg := { bytes := area, prog := some .marker } }) ∧
    (s.ctl.softWait = false → area[62] ++ area[63] ≠ crc →
      exec (.lockCheckProgrammed failed) s =
        .next (completed (.code .configFault) { s with cfg := { bytes := area, prog := none } }))) ∧
  ∀ (s : State) (failed : Byte), s.cfg.prog = some .marker →
    let area := programmed s.cfg.bytes 61 [0x00] [failed]
    (s.ctl.softWait = true →
      exec (.lockMarkerProgrammed failed) s = .next { s with cfg := { bytes := area, prog := none } }) ∧
    (s.ctl.softWait = false → area[61] ≠ 0xFF →
      exec (.lockMarkerProgrammed failed) s = .next (waiting [] { s with cfg := { bytes := area, prog := none } })) ∧
    (s.ctl.softWait = false → area[61] = 0xFF →
      exec (.lockMarkerProgrammed failed) s =
        .next (completed (.code .configFault) { s with cfg := { bytes := area, prog := none } }))

/-! ## Resets and station states -/

/-- A power-on or pin reset stops every operation: transaction, frame, flash and configuration programs; flash and area
change only where work was in flight, the area by clearing bits alone (R79, R156, R182). Which bits is an operand (log 5). -/
def Obligations.ResetsStopAllWork : Prop :=
  ∀ (s : State) (cut : Cut), FlashLaw s →
    ∃ (m : Memory) (area : Vector Byte 64),
      (∀ c, c = .powerOnReset cut ∨ c = .pinReset cut →
        exec c s =
          .next
            { s with
              ctl :=
                { s.ctl with
                  power := if c = .powerOnReset cut then true else s.ctl.power
                  pin := if c = .pinReset cut then true else s.ctl.pin
                  softWait := false }
              cfg := { bytes := area, prog := none }
              host := { s.host with txn := none }
              store := { s.store with op := none, erase := none }
              flash := m
              line := { s.line with sending := none } }) ∧
      m.wf ∧
      (∀ a, ¬ inFlight s a → m.read a = s.flash.read a) ∧
      (∀ a, ¬ erasing s a → m.read a &&& s.flash.read a = m.read a) ∧
      (s.store.op = none → ∀ a, erasing s a → m.read a ||| s.flash.read a = m.read a) ∧
      (∀ i : Fin 64, area[i] &&& s.cfg.bytes[i] = area[i]) ∧
      ∀ i : Fin 64, ¬ configInFlight s i.val → area[i] = s.cfg.bytes[i]

/-- The end of each reset clears all RAM, samples the straps, builds the Profile Table and reads the area: STARTING with it
in force, or UNCONFIGURED with its event; flash and area stay; a transaction under way at a soft reset's end takes no command
and goes on with fill until its own end (R155, R156, R158, R178, R182). A reset whose other cause still
holds goes on (DEDUCED, log 14); a soft reset ends once no work is in flight (R157; log 25). -/
def Obligations.ResetsEndInStarting : Prop :=
  ∀ (s : State) (straps : Station),
    (s.ctl.power = true → s.ctl.pin = false → exec (.powerOnResetEnd straps) s = .next (restarted straps s)) ∧
    (s.ctl.pin = true → s.ctl.power = false → exec (.pinResetEnd straps) s = .next (restarted straps s)) ∧
    (s.ctl.power = true → s.ctl.pin = true →
      exec (.powerOnResetEnd straps) s = .next { s with ctl := { s.ctl with power := false } } ∧
      exec (.pinResetEnd straps) s = .next { s with ctl := { s.ctl with pin := false } }) ∧
    (Powered s → s.ctl.softWait = true → s.store.op = none → s.store.erase = none → s.line.sending = none →
      s.cfg.prog = none → exec (.softResetWaitEnd straps) s = .next (restarted straps s))

/-- The start-up scan ends in LISTENING, with everything rebuilt from flash: one entry for each key with a candidate, the
first found of those no other beats; counts, checks and live counts; the clock, the highest sequence number and every
sector's entry as the headers and images give them; then compaction's first run. On a blank store 64 ERASED sectors are left
(R13, R24, R29, R67, R68, R76, R77, R78, R158, R163; fields and orders R76 to R78 leave open, log 15; invalid keys, log 18;
how ERASING, RETIRED and ERASED sectors are read for the clock, log 31). That no space test is made then, and that the
out-of-space flag starts clear, is DEDUCED (log 16). -/
def Obligations.ScanRebuildsTheStation : Prop :=
  (∀ s : State, Powered s → s.ctl.st = .starting → s.ctl.softWait = false → s.ctl.force ≠ none →
    ∃ (dir : Directory) (sectors : List Sector) (highestSeq : BitVec 32) (highest : BitVec 16),
      exec .startUpScanEnd s =
        .next
          (advanceWalk
            (nextRun
              { s with
                ctl := { s.ctl with st := .listening, listeningSince := some s.now }
                host := s.host.post (.stationState .listening)
                dir := dir
                store := { s.store with sectors := sectors, highestSeq := highestSeq, low := false }
                line := { s.line with phase := .settling, quietSince := s.now } })) ∧
      (dir.entries.Pairwise fun a b => a.key.toNat < b.key.toNat) ∧
      (∀ e ∈ dir.entries, ∃ l r, Candidate s.flash l r ∧ e = entryOf r l ∧
        ∀ l' r', Candidate s.flash l' r' → r'.key = r.key →
          beats s r.key r'.stamp r.stamp = false ∧ (r'.stamp = r.stamp → l' = l ∨ FoundBefore s.flash l l')) ∧
      (∀ l r, Candidate s.flash l r → ∃ e ∈ dir.entries, e.key = r.key) ∧
      dir.entryCount = dir.entries.length ∧
      dir.sharedCount = (dir.entries.countP fun e => !isLocal s e.key) ∧
      dir.reservations = 0 ∧
      (∀ b : Bucket, dir.checks[b.toNat]'b.isLt = bucketFold { s with dir := dir } b) ∧
      Largest (ClockSource s.flash) dir.clock ∧
      Largest (SeqShown s.flash) highestSeq ∧
      Largest (CountShown s.flash) highest ∧
      sectors.length = 64 ∧
      ∀ i x, sectors[i]? = some x →
        SectorIs s.flash i x ∧ CountIs s.flash i highest x.eraseCount ∧ x.live = granulesIn dir.entries i) ∧
  (∀ u : State,
    (∀ v x, u.store.sectors[v]? = some x → x.state = .erasing →
      (∀ n y, n < v → u.store.sectors[n]? = some y → y.state ≠ .erasing) →
      nextRun u =
        { u with
          store := { u.store with comp := .erasing v, erase := some { sector := v, suspensions := 0, phase := .waiting } } }) ∧
    ((∀ x ∈ u.store.sectors, x.state ≠ .erasing) →
      nextRun u = testTrigger { u with store := { u.store with comp := .idle } })) ∧
  ∀ s : State, Powered s → s.ctl.st = .starting → s.ctl.softWait = false → s.ctl.force ≠ none → s.flash = [] →
    exec .startUpScanEnd s =
      .next
        { s with
          ctl := { s.ctl with st := .listening, listeningSince := some s.now }
          host := s.host.post (.stationState .listening)
          dir :=
            { entries := [], checks := Vector.replicate 64 0, clock := 0, entryCount := 0, sharedCount := 0
              reservations := 0 }
          store :=
            { s.store with
              sectors :=
                List.replicate 64 { state := .erased, seq := none, eraseCount := 0, used := 0, live := 0, reclaim := false }
              highestSeq := 0
              comp := .idle
              low := false }
          line := { s.line with phase := .settling, quietSince := s.now } }

/-- The listening period ends in ACTIVE: the summary timer expires, and what the blocks have waiting is offered. The
Membership Unit queries the lowest JOINING peer with fewer than 3 attempts, the Reconciler takes the head pair of a peer
without PARTIAL, FREE fetch slots take WAITING entries, the oldest first; outside ACTIVE nobody offers (R105, R119, R121,
R128, R139, R163, R164; which places are free for the SUMMARY, DEDUCED, log 9). -/
def Obligations.ListeningEndsInActive : Prop :=
  (∀ s : State, Powered s → s.ctl.st = .listening →
    let active :=
      { s with ctl := { s.ctl with st := .active, listeningSince := none }, summ := { timer := some s.now } }
    let entered := fun t : State => Host.Outcome.next { t with host := s.host.post (.stationState .active) }
    exec .listeningPeriodEnd s = entered (pumpFetch (pumpReconciler (pumpProfile (offerSummary active)))) ∧
    ((∀ t ∈ s.line.txq, t.kind ≠ .summary) → s.line.waiting = [] → s.line.txq.length < 16 →
      exec .listeningPeriodEnd s =
        entered (pumpFetch (pumpReconciler (pumpProfile { active with line := placed .summary 0 0x3F [] none s.line })))) ∧
    (((∃ t ∈ s.line.txq, t.kind = .summary) ∨ 16 ≤ s.line.txq.length + s.line.waiting.length) →
      exec .listeningPeriodEnd s = entered (pumpFetch (pumpReconciler (pumpProfile active)))) ∧
    ((∀ p, (peerOf s p).state ≠ .joining) → s.recon.queue = [] → s.recon.phase = .idle → s.fetch.wants = [] →
      (∀ t ∈ s.line.txq, t.kind ≠ .summary) → s.line.waiting = [] → s.line.txq.length < 16 →
      exec .listeningPeriodEnd s = entered { active with line := placed .summary 0 0x3F [] none s.line })) ∧
  (∀ s : State, ¬ Active s → pumpProfile s = s ∧ pumpReconciler s = s ∧ pumpFetch s = s) ∧
  ∀ s : State, Active s →
    ((s.memb.query ≠ none ∨ ∀ p, (peerOf s p).state = .joining → 3 ≤ (peerOf s p).attempts) → pumpProfile s = s) ∧
    (∀ p, s.memb.query = none → (peerOf s p).state = .joining → (peerOf s p).attempts < 3 →
      (∀ p', p'.toNat < p.toNat → (peerOf s p').state = .joining → 3 ≤ (peerOf s p').attempts) →
      pumpProfile s =
        offerRequest .profileQuery
          { s with
            memb :=
              { peers := s.memb.peers.set p.toNat { peerOf s p with attempts := (peerOf s p).attempts + 1 } p.isLt
                query := some { peer := p, placed := none } } }) ∧
    (s.recon.phase ≠ .idle → pumpReconciler s = s) ∧
    (s.recon.phase = .idle → (∀ q ∈ s.recon.queue, (peerOf s q.peer).isPartial = true) →
      pumpReconciler s = { s with recon := { queue := [], phase := .idle } }) ∧
    (∀ skipped q others, s.recon.phase = .idle → s.recon.queue = skipped ++ q :: others →
      (∀ x ∈ skipped, (peerOf s x.peer).isPartial = true) → (peerOf s q.peer).isPartial = false →
      pumpReconciler s =
        offerRequest .bucketQuery
          { s with recon := { queue := { q with attempts := q.attempts + 1 } :: others, phase := .waitingRoom } }) ∧
    (((∀ i : Fin 4, s.fetch.slots[i] ≠ .free) ∨ ∀ w ∈ s.fetch.wants, w.requested = true) → pumpFetch s = s) ∧
    ∀ (i : Fin 4) before w after, s.fetch.slots[i] = .free → (∀ j : Fin 4, j < i → s.fetch.slots[j] ≠ .free) →
      s.fetch.wants = before ++ w :: after → (∀ x ∈ before, x.requested = true) → w.requested = false →
      (s.fetch.wants.map (·.key)).Nodup →
      pumpFetch s =
        pumpFetch
          (offerRequest (.fetch i)
            { s with
              fetch :=
                { wants := before ++ { w with requested := true } :: after
                  slots := s.fetch.slots.set i (.waitingRoom w.key w.source w.stamp) } })

/-! ## The line -/

/-- The line phases follow carrier, quiet, guard and slots; a garbled frame, or bytes that are no good frame, leads to GUARD
with base 0 and refreshes nobody (R83, R84, R87, R88, R89, R92; bytes heard as good that are not, DEDUCED, log 30). -/
def Obligations.LinePhasesFollowTheLine : Prop :=
  ∀ s : State, Up s →
    (s.line.phase = .settling →
      exec .settlingCarrier s = .next { s with line := { s.line with quietSince := s.now } } ∧
      exec .settlingEnd s = .next { s with line := { s.line with phase := .cycle, slot := 0 } }) ∧
    (s.line.phase = .guardTime →
      exec .guardEnd s = .next { s with line := { s.line with phase := .cycle, slot := 0 } } ∧
      exec .frameStart s = .next { s with line := { s.line with phase := .busy, quietSince := s.now } }) ∧
    (s.line.phase = .cycle →
      exec .frameStart s =
        .next { s with line := { s.line with phase := .busy, quietSince := s.now, deferral := s.line.deferral - 1 } }) ∧
    (s.line.phase = .cycle → s.line.slot = 32 →
      exec .cycleEnd s = .next { s with line := { s.line with slot := 0, deferral := s.line.deferral - 1 } }) ∧
    (s.line.phase = .busy → s.line.sending = none →
      exec .frameEndGarbled s =
        .next { s with line := { s.line with phase := .guardTime, quietSince := s.now, base := 0 } } ∧
      ∀ bytes, parseFrame bytes = none →
        exec (.frameEndGood bytes) s =
          .next { s with line := { s.line with phase := .guardTime, quietSince := s.now, base := 0 } })

/-- A good frame with the own number, heard and not sent, makes the station MUTE: its work on the line is closed down and
STATION_STATE is posted; heard in MUTE it only sets the base (R85, R96, R99, R119, R133, R145, R153, R165). READs of the
Responder complete unused (R153; DEDUCED, log 26). A PROFILE_QUERY that waited for room stays outstanding, unsent (DEDUCED,
log 13). -/
def Obligations.OwnNumberMutes : Prop :=
  ∀ (s : State) (bytes : List Byte) (f : Frame), Hearing s → parseFrame bytes = some f → f.source = s.ctl.own →
    (s.ctl.st = .mute →
      exec (.frameEndGood bytes) s =
        .next { s with line := { s.line with phase := .guardTime, quietSince := s.now, base := s.ctl.own + 1 } }) ∧
    (s.ctl.st ≠ .mute →
      exec (.frameEndGood bytes) s =
        .next
          { s with
            ctl := { s.ctl with st := .mute, listeningSince := none }
            host := s.host.post (.stationState .mute)
            store := unread s.store
            line :=
              { s.line with
                phase := .guardTime, quietSince := s.now, base := s.ctl.own + 1, txq := [], waiting := [] }
            summ := { timer := none }
            recon := { queue := [], phase := .idle }
            fetch := { wants := [], slots := Vector.replicate 4 .free }
            resp := { jobs := [], service := none } })

/-- A good frame from another station sets the base, has its membership effect, posts a change of state, withdraws the work
with a peer that becomes DUPLICATE, and is placed in the Receive Queue if it is for this station and the queue holds fewer
than 4; then the blocks offer what they have waiting, and nothing else changes (R85, R86, R89, R103, R104, R105, R110, R111,
R113). That DUPLICATE and JOINING keep the last clock is DEDUCED (log 12), and so is what a withdrawn request reports to
(log 22) and the end of a discarded job's READ (log 26). -/
def Obligations.GoodFramesAreHeard : Prop :=
  ∀ (s : State) (bytes : List Byte) (f : Frame), Hearing s → parseFrame bytes = some f → f.source ≠ s.ctl.own →
    let old := peerOf s f.source
    ∃ new : Peer, Heard s.now f.carriedId old new ∧
      let known :=
        { s with
          memb := { s.memb with peers := s.memb.peers.set f.source.toNat new f.source.isLt }
          host := if new.state = old.state then s.host else s.host.post (.peerState f.source new.state) }
      let left := if old.state = .present ∧ new.state ≠ .present then withdrawn f.source known else known
      exec (.frameEndGood bytes) s =
        .next
          (workOffered
            { left with
              line :=
                { left.line with
                  base := f.source + 1
                  phase := .guardTime
                  quietSince := s.now
                  rxq :=
                    if f.accepted s.ctl.own = true ∧ s.line.rxq.length < 4 then s.line.rxq ++ [f] else s.line.rxq } })

/-- A slot that starts is counted; in its own slot an ACTIVE, non-deferring station sends the first frame of the highest
class, a SUMMARY composed at that instant, every other frame as it was placed (R27, R88, R90, R95, R122). That
a directory above its capacity is full too, in the SUMMARY's PARTIAL flag, is a DESIGN CHOICE (log 17). -/
def Obligations.SlotsStartTransmissions : Prop :=
  ∀ s : State, Up s → s.line.phase = .cycle → s.line.slot < 32 →
    ((s.ctl.st ≠ .active ∨ s.line.deferral ≠ 0 ∨ s.line.slot ≠ (s.ctl.own - s.line.base).toNat ∨ s.line.txq = []) →
      exec .slotStart s = .next { s with line := { s.line with slot := s.line.slot + 1 } }) ∧
    ∀ pre t post, s.ctl.st = .active → s.line.deferral = 0 → s.line.slot = (s.ctl.own - s.line.base).toNat →
      FirstOf s t.kind.cls pre t post → (∀ x ∈ s.line.txq, rank t.kind.cls ≤ rank x.kind.cls) →
      exec .slotStart s =
        .next
          { s with
            line :=
              { s.line with
                phase := .busy
                slot := s.line.slot + 1
                sending := some { cls := t.kind.cls, frame := composed s t } } }

/-- A collision releases TXEN, counts against its frame and discards it at the eighth, sets base 0, and defers by the
unique ID's field of its number; under a soft reset's wait the frame is only abandoned (R91, R92, R93, R100). -/
def Obligations.CollisionsDefer : Prop :=
  ∀ (s : State) (tx : Sending), s.line.sending = some tx →
    (s.ctl.softWait = true → exec .collisionDetected s = .next { s with line := { s.line with sending := none } }) ∧
    ∀ pre t post, s.ctl.softWait = false → FirstOf s tx.cls pre t post →
      exec .collisionDetected s =
        .next
          { s with
            line :=
              { s.line with
                sending := none
                base := 0
                deferral := (s.ctl.uniqueId.extractLsb' (2 * t.collisions) 2).toNat
                txq :=
                  if t.collisions + 1 < 8 then pre ++ { t with collisions := t.collisions + 1 } :: post
                  else pre ++ post } }

/-- A transmission's end removes the frame, sets base own + 1, starts the guard, and starts the placer's reply timer again;
under a soft reset's wait only the transmission ends (R94, R98, R100). -/
def Obligations.TransmissionsEnd : Prop :=
  ∀ (s : State) (tx : Sending), s.line.sending = some tx →
    (s.ctl.softWait = true → exec .transmitEnd s = .next { s with line := { s.line with sending := none } }) ∧
    ∀ pre t post, s.ctl.softWait = false → FirstOf s tx.cls pre t post →
      let line :=
        { s.line with
          sending := none, phase := .guardTime, quietSince := s.now, base := s.ctl.own + 1, txq := pre ++ post }
      (t.placer = none → exec .transmitEnd s = .next { s with line := line }) ∧
      (∀ q p, t.placer = some .profileQuery → s.memb.query = some q → q.placed = some p →
        exec .transmitEnd s =
          .next
            { s with
              line := line
              memb := { s.memb with query := some { q with placed := some { p with since := s.now } } } }) ∧
      (∀ p n, t.placer = some .bucketQuery → s.recon.phase = .awaitingPart p n →
        exec .transmitEnd s =
          .next { s with line := line, recon := { s.recon with phase := .awaitingPart { p with since := s.now } n } }) ∧
      (∀ (i : Fin 4) key peer p, t.placer = some (.fetch i) → s.fetch.slots[i] = .awaiting key peer p →
        exec .transmitEnd s =
          .next
            { s with
              line := line
              fetch :=
                { s.fetch with slots := s.fetch.slots.set i (.awaiting key peer { p with since := s.now }) } })

/-- The placer that has waited longest takes a freed place and the next sequence: a query or FETCH, whose reply timer then
starts; a SUPPLY or PROFILE, which ends its job; a BUCKET_REPLY part of up to 36 entries, built here, which sends its job to
the tail while entries are left; then the next job is served. A request newly offered is placed likewise, or waits behind
those that wait. A NEWS or SUMMARY cannot wait: it is refused where no place is left, and comes after those that wait (R95,
R97, R98, R121, R148, R150, R151; that placing is a step of its own, and whose the free places are, DEDUCED, log 9). -/
def Obligations.WaitingFramesArePlaced : Prop :=
  (∀ (s : State) (r : Requester) (rest : List Requester), Placing s → s.line.waiting = r :: rest →
    s.line.txq.length < 16 →
    let line := { s.line with waiting := rest }
    exec .waitingFramePlaced s = .next (pumpResponder (placeFor r { s with line := line })) ∧
    (∀ (i : Fin 4) key peer stamp, r = .fetch i → s.fetch.slots[i] = .waitingRoom key peer stamp →
      (s.resp.service ≠ none ∨ s.resp.jobs = []) →
      exec .waitingFramePlaced s = .next (fetchPlaced i key peer stamp line s)) ∧
    (∀ q, r = .profileQuery → s.memb.query = some q → (s.resp.service ≠ none ∨ s.resp.jobs = []) →
      exec .waitingFramePlaced s = .next (queryPlaced q line s)) ∧
    (∀ p pairs, r = .bucketQuery → s.recon.queue = p :: pairs → (s.resp.service ≠ none ∨ s.resp.jobs = []) →
      exec .waitingFramePlaced s = .next (pairPlaced p line s)) ∧
    (∀ job others key answer, r = .reply → s.resp.jobs = job :: others → job.kind = .supply key →
      s.resp.service = some (.built answer) →
      let t := { s with line := supplyPlaced job key answer line, resp := { jobs := others, service := none } }
      exec .waitingFramePlaced s = .next (pumpResponder t) ∧
      (others = [] → exec .waitingFramePlaced s = .next t)) ∧
    (∀ job others, r = .reply → s.resp.jobs = job :: others → job.kind = .profile → s.resp.service = some .ready →
      let t :=
        { s with
          line := placed .profile 0 (stationByte job.peer) (job.echo :: profileTable s.ctl) none line
          resp := { jobs := others, service := none } }
      exec .waitingFramePlaced s = .next (pumpResponder t) ∧
      (others = [] → exec .waitingFramePlaced s = .next t)) ∧
    ∀ job others b part resume, r = .reply → s.resp.jobs = job :: others → job.kind = .bucketReply b part resume →
      s.resp.service = some .ready →
      let t :=
        { s with
          line := partPlaced job b part (found s b resume) line
          resp := { jobs := jobsAfterPart job b part (found s b resume) others, service := none } }
      exec .waitingFramePlaced s = .next (pumpResponder t) ∧
      ((found s b resume).length ≤ 36 → others = [] → exec .waitingFramePlaced s = .next t)) ∧
  (∀ s : State,
    (∀ r, ¬ Room s s.line → offerRequest r s = { s with line := { s.line with waiting := s.line.waiting ++ [r] } }) ∧
    (∀ q, Room s s.line → s.memb.query = some q → offerRequest .profileQuery s = queryPlaced q s.line s) ∧
    (∀ p pairs, Room s s.line → s.recon.queue = p :: pairs → offerRequest .bucketQuery s = pairPlaced p s.line s) ∧
    ∀ (i : Fin 4) key peer stamp, Room s s.line → s.fetch.slots[i] = .waitingRoom key peer stamp →
      offerRequest (.fetch i) s = fetchPlaced i key peer stamp s.line s) ∧
  ∀ (s : State) (news : Record),
    let after :=
      pumpResponder (s.line.waiting.foldl (fun t r => placeFor r t) { s with line := { s.line with waiting := [] } })
    ((¬ Placing s ∨ 16 ≤ s.line.txq.length + s.line.waiting.length) → offerNews news s = s ∧ offerSummary s = s) ∧
    ((∃ t ∈ s.line.txq, t.kind = .summary) → offerSummary s = s) ∧
    (Room s s.line → offerNews news s = { s with line := placed .news 0 0x3F (recordBytes news) none s.line }) ∧
    (Room s s.line → (∀ t ∈ s.line.txq, t.kind ≠ .summary) →
      offerSummary s = { s with line := placed .summary 0 0x3F [] none s.line }) ∧
    (Placing s → s.line.waiting ≠ [] → s.line.txq.length + s.line.waiting.length < 16 →
      offerNews news s = offerNews news after ∧
      ((∀ t ∈ s.line.txq, t.kind ≠ .summary) → offerSummary s = offerSummary after))

/-! ## The takings -/

/-- A taken frame leaves the Receive Queue; from a sender in a state that R112 gives it no use, it has no other effect. A
block takes the frames of its kinds in the order they were placed: with another kind of its own in front, or none in the
queue, a taking has no effect (R81, R86, R112; log 1). -/
def Obligations.UnusedFramesAreDiscarded : Prop :=
  (∀ (s : State) (k : FrameKind) (pre : List Frame) (f : Frame) (post : List Frame), Waits s k pre f post →
    Unused k (peerOf s f.source).state → exec (takingOf k) s = .next (taken pre post s)) ∧
  ∀ (s : State) (k : FrameKind),
    ((∀ x ∈ s.line.rxq, ¬ ForBlock k x) → exec (takingOf k) s = .next s) ∧
    ∀ pre f post, s.line.rxq = pre ++ f :: post → (∀ x ∈ pre, ¬ ForBlock k x) → ForBlock k f → f.kind ≠ some k →
      exec (takingOf k) s = .next s

/-- A NEWS whose header disagrees, a MALFORMED and a FOREIGN record are dropped and raise no clock; a STALE one raises the
clock alone (R11, R40, R41, R118). -/
def Obligations.ArrivalsAreDropped : Prop :=
  (∀ (s : State) (pre : List Frame) (f : Frame) (post : List Frame), Waits s .news pre f post →
    parseRecord f.payload = none → exec .newsTaken s = .next (taken pre post s)) ∧
  ∀ (s : State) (pre : List Frame) (f : Frame) (post : List Frame) (r : Record), NewsOf s pre f post r →
    (Malformed s r → exec .newsTaken s = .next (taken pre post s)) ∧
    (Foreign s r → exec .newsTaken s = .next (taken pre post s)) ∧
    (¬ Malformed s r → ¬ Foreign s r → Stale s r →
      exec .newsTaken s = .next (raised r.stamp.counter (taken pre post s)))

/-- A winning arrival meets the slot of its key, as follower or dropped; else it claims the lowest FREE slot, with a
reservation when its key is new, and the space test is made (R11, R16, R42, R43, R67). That a directory above its capacity is full
too is a DESIGN CHOICE (log 17). -/
def Obligations.ArrivalsAreAdmitted : Prop :=
  ∀ (s : State) (pre : List Frame) (f : Frame) (post : List Frame) (r : Record), NewsOf s pre f post r →
    ¬ Malformed s r → ¬ Foreign s r → ¬ Stale s r →
    let t := raised r.stamp.counter (taken pre post s)
    (∀ (i : Fin 4) (x : Slot), s.upd.slots[i] = some x → x.record.key = r.key →
      (∀ (j : Fin 4) (y : Slot), j < i → s.upd.slots[j] = some y → y.record.key ≠ r.key) →
      (beats s r.key r.stamp x.record.stamp = true → (∀ g, x.follower = some g → beats s r.key r.stamp g.stamp = true) →
        exec .newsTaken s =
          .next { t with upd := { s.upd with slots := s.upd.slots.set i (some { x with follower := some r }) } }) ∧
      ((beats s r.key r.stamp x.record.stamp = false ∨
          ∃ g, x.follower = some g ∧ beats s r.key r.stamp g.stamp = false) →
        exec .newsTaken s = .next t)) ∧
    ∀ i : Fin 4, (∀ (j : Fin 4) (y : Slot), s.upd.slots[j] = some y → y.record.key ≠ r.key) → LowestFree s i →
      (lookup s r.key = none → s.dir.entryCount + s.dir.reservations < 1024) →
      exec .newsTaken s =
        .next
          (spaceTest
            { t with
              dir :=
                { t.dir with
                  reservations := if lookup s r.key = none then s.dir.reservations + 1 else s.dir.reservations }
              upd :=
                { s.upd with
                  slots := s.upd.slots.set i (some (peerSlot r (lookup s r.key).isNone s.upd.nextReady))
                  nextReady := s.upd.nextReady + 1 } })

/-- A winning arrival of a new key meets a full directory, which sets DIVERGED DIRECTORY, posted if it was clear; one that
finds no FREE slot becomes a Want entry, added by R137, and a FETCH may follow (R43, R44, R52, R139). That a directory above its capacity is full
too is a DESIGN CHOICE (log 17). -/
def Obligations.ArrivalsWithoutASlot : Prop :=
  ∀ (s : State) (pre : List Frame) (f : Frame) (post : List Frame) (r : Record), NewsOf s pre f post r →
    ¬ Malformed s r → ¬ Foreign s r → ¬ Stale s r →
    (∀ (j : Fin 4) (y : Slot), s.upd.slots[j] = some y → y.record.key ≠ r.key) →
    let t := raised r.stamp.counter (taken pre post s)
    (lookup s r.key = none → 1024 ≤ s.dir.entryCount + s.dir.reservations →
      exec .newsTaken s =
        .next
          (if s.upd.divDirectory then t
           else { t with upd := { s.upd with divDirectory := true }, host := s.host.post (.diverged .directory) })) ∧
    ((lookup s r.key = none → s.dir.entryCount + s.dir.reservations < 1024) → (∀ i : Fin 4, s.upd.slots[i] ≠ none) →
      exec .newsTaken s = .next (pumpFetch (wantAdd r.key r.stamp f.source t)))

/-- An add makes a new WAITING entry at the tail, is dropped by a full list or in MUTE, or replaces a beaten stamp: a WAITING
entry in its place, a REQUESTED one at the tail with its fetch slot freed (R137, R144, R145); a FETCH of it already placed
reports to nobody (DEDUCED, log 22). -/
def Obligations.WantListAdds : Prop :=
  ∀ (s : State) (k : Key) (stamp : Stamp) (source : Station),
    let fresh : Want := { key := k, stamp := stamp, source := source, attempts := 0, requested := false }
    (s.ctl.st = .mute → wantAdd k stamp source s = s) ∧
    (s.ctl.st ≠ .mute → (∀ w ∈ s.fetch.wants, w.key ≠ k) →
      (s.fetch.wants.length < 128 →
        wantAdd k stamp source s = { s with fetch := { s.fetch with wants := s.fetch.wants ++ [fresh] } }) ∧
      (128 ≤ s.fetch.wants.length → wantAdd k stamp source s = s)) ∧
    ∀ before w after, s.ctl.st ≠ .mute → FetchLaw s → s.fetch.wants = before ++ w :: after → w.key = k →
      (beats s k stamp w.stamp = false → wantAdd k stamp source s = s) ∧
      (beats s k stamp w.stamp = true → w.requested = false →
        wantAdd k stamp source s = { s with fetch := { s.fetch with wants := before ++ fresh :: after } }) ∧
      ∀ i : Fin 4, beats s k stamp w.stamp = true → w.requested = true → s.fetch.slots[i].key = some k →
        wantAdd k stamp source s =
          { s with
            fetch := { wants := before ++ after ++ [fresh], slots := s.fetch.slots.set i .free }
            line := givenUp (.fetch i) s.line }

/-- A SUPPLY that disagrees with itself is discarded; a matched one frees its fetch slot and removes its Want entry, and a
record in it is an arrival; a late one is an arrival too, or discarded when absent (R140, R141, R142, R143). Of the record
header's flags only bit 0 is read (R183). A request given up reports to nobody (DEDUCED, log 22). -/
def Obligations.SuppliesSettleFetches : Prop :=
  ∀ (s : State) (pre : List Frame) (f : Frame) (post : List Frame), Waits s .supply pre f post →
    (peerOf s f.source).state = .present →
    let t := taken pre post s
    ((f.isAbsent = true ∧ f.payload.length ≠ 3 ∨ f.isAbsent = false ∧ parseRecord (f.payload.drop 1) = none) →
      exec .supplyTaken s = .next t) ∧
    ∀ echo key answer,
      (f.isAbsent = true ∧ f.payload = echo :: be16 key ∧ answer = none ∨
       f.isAbsent = false ∧
         ∃ r flags, answer = some r ∧ r.key = key ∧ r.value.length ≤ 240 ∧ flags.getLsbD 0 = r.tomb ∧
           f.payload =
             echo :: (be16 r.key ++ stampBytes r.stamp ++ [flags, BitVec.ofNat 8 r.value.length] ++ r.value)) →
      (∀ (i : Fin 4) p, s.fetch.slots[i] = .awaiting key f.source p → p.seq = echo →
        (∀ (j : Fin 4) q, j < i → s.fetch.slots[j] = .awaiting key f.source q → q.seq ≠ echo) →
        let u :=
          { t with
            fetch := { wants := s.fetch.wants.filter fun w => w.key != key, slots := s.fetch.slots.set i .free }
            line := givenUp (.fetch i) t.line }
        (answer = none → exec .supplyTaken s = .next (pumpFetch u)) ∧
        ∀ r, answer = some r → exec .supplyTaken s = .next (spaceEvent t (pumpFetch (arrive r f.source u)))) ∧
      ((∀ (i : Fin 4) p, s.fetch.slots[i] = .awaiting key f.source p → p.seq ≠ echo) →
        (answer = none → exec .supplyTaken s = .next t) ∧
        ∀ r, answer = some r → exec .supplyTaken s = .next (spaceEvent t (pumpFetch (arrive r f.source t))))

/-- A SUMMARY of a PRESENT sender with a count of at most 1024 raises the clock and is recorded; in ACTIVE, without PARTIAL
and with a count above 0, it queues the differing buckets not yet queued, in rising order (R123, R124, R125). -/
def Obligations.SummariesAreCompared : Prop :=
  ∀ (s : State) (pre : List Frame) (f : Frame) (post : List Frame), Waits s .summary pre f post →
    let clock := longAt f.payload 0
    let isPartial := (byteAt f.payload 8).getLsbD 0
    let count := (wordAt f.payload 10).toNat
    let e := peerOf s f.source
    let recorded :=
      { raised clock (taken pre post s) with
        memb :=
          { s.memb with
            peers :=
              s.memb.peers.set f.source.toNat { e with lastClock := some clock, isPartial := isPartial }
                f.source.isLt } }
    let pairs :=
      ((List.range 64).filter fun b =>
          s.dir.checks.toList.getD b 0 != wordAt f.payload (12 + 2 * b) &&
            s.recon.queue.all fun p => p.bucket.toNat != b).map
        fun b => { peer := f.source, bucket := BitVec.ofNat 6 b, attempts := 0 }
    ((e.state ≠ .present ∨ 1024 < count) → exec .summaryTaken s = .next (taken pre post s)) ∧
    (e.state = .present → count ≤ 1024 → (s.ctl.st ≠ .active ∨ isPartial = true ∨ count = 0) →
      exec .summaryTaken s = .next recorded) ∧
    (e.state = .present → count ≤ 1024 → s.ctl.st = .active → isPartial = false → count ≠ 0 →
      exec .summaryTaken s =
        .next
          (pumpReconciler { recorded with recon := { s.recon with queue := s.recon.queue ++ pairs } }) ∧
      (s.recon.phase ≠ .idle →
        exec .summaryTaken s = .next { recorded with recon := { s.recon with queue := s.recon.queue ++ pairs } }))

/-- A PROFILE of a JOINING sender makes it PRESENT, with last clock and partial flag emptied, or INCOMPATIBLE, with both
kept (DEDUCED, log 12), by the group hash, records its unique ID, posts PEER_STATE, and ends a query outstanding to it, which
then reports to nobody (DEDUCED, log 22); clock, directory, wants and pairs stay, and the blocks offer what they have waiting
(R105, R106, R107, R113; where the payload holds hash and ID, DEDUCED, log 11). -/
def Obligations.ProfilesDecideCompatibility : Prop :=
  ∀ (s : State) (pre : List Frame) (f : Frame) (post : List Frame), Waits s .profile pre f post →
    (peerOf s f.source).state = .joining →
    let id := longAt f.payload 21 ++ longAt f.payload 25
    let same := longAt f.payload 89 = s.ctl.groupHash
    let state : PeerState := if same then .present else .incompatible
    let new :=
      { peerOf s f.source with
        state := state, uniqueId := some id, uniqueIdLow := some (id.extractLsb' 0 32)
        lastClock := if same then none else (peerOf s f.source).lastClock
        isPartial := if same then false else (peerOf s f.source).isPartial
        attempts := 0 }
    let ended := ∃ q, s.memb.query = some q ∧ q.peer = f.source
    let decided := fun (query : Option ProfileQuery) (line : Line) =>
      { s with
        host := s.host.post (.peerState f.source state)
        memb := { peers := s.memb.peers.set f.source.toNat new f.source.isLt, query := query }
        line := line }
    (ended →
      exec .profileTaken s =
        .next (workOffered (decided none (givenUp .profileQuery { s.line with rxq := pre ++ post })))) ∧
    (¬ ended →
      exec .profileTaken s = .next (workOffered (decided s.memb.query { s.line with rxq := pre ++ post })))

/-- A part that matches nothing is discarded; an expected one is compared, listed entry by listed entry, and waits for the
next or, with LAST, ends the query; one above the expected index ends it as its timer would (R129, R130, R131, R132). That a
placed query that has ended reports to nobody is DEDUCED (log 22); that a directory above its capacity is full too is a
DESIGN CHOICE (log 17). -/
def Obligations.BucketPartsAreCompared : Prop :=
  (∀ (s : State) (source : Station) (b : Bucket) (h : HeardEntry),
    let skipped :=
      h.key = 0x0000 ∨ h.key = 0xFFFF ∨ h.key.extractLsb' 0 6 ≠ b ∨ policyOf s h.key = .localOnly ∨
      (policyOf s h.key = .owned ∧ h.origin ≠ (h.key.extractLsb' 0 5).setWidth 8) ∨ 31 < h.origin.toNat
    let stamp : Stamp := { counter := h.counter, origin := h.origin.setWidth 5 }
    (skipped → compareEntry source b s h = s) ∧
    (¬ skipped →
      (∀ e, lookup s h.key = some e →
        compareEntry source b s h =
          if beats s h.key stamp e.stamp then wantAdd h.key stamp source s else s) ∧
      (lookup s h.key = none →
        compareEntry source b s h =
          if s.dir.entryCount + s.dir.reservations < 1024 then wantAdd h.key stamp source s else s))) ∧
  ∀ (s : State) (pre : List Frame) (f : Frame) (post : List Frame), Waits s .bucketReply pre f post →
    let t := taken pre post s
    (s.recon.phase = .idle ∨ s.recon.phase = .waitingRoom → exec .bucketReplyTaken s = .next t) ∧
    ∀ query expected p rest, s.recon.phase = .awaitingPart query expected → s.recon.queue = p :: rest →
      let part := (byteAt f.payload 2).toNat
      let matching :=
        (peerOf s f.source).state = .present ∧ f.source = p.peer ∧ byteAt f.payload 0 = query.seq ∧
        byteAt f.payload 1 = p.bucket.setWidth 8 ∧ f.payload.length = 4 + 7 * (byteAt f.payload 3).toNat
      let u := (heardEntries (f.payload.drop 4)).foldl (compareEntry f.source p.bucket) t
      ((¬ matching ∨ part < expected) → exec .bucketReplyTaken s = .next t) ∧
      (matching → expected < part →
        exec .bucketReplyTaken s =
          .next
            (pumpReconciler
              { t with
                line := givenUp .bucketQuery t.line
                recon := { queue := if p.attempts < 2 then p :: rest else rest, phase := .idle } })) ∧
      (matching → part = expected → f.isLast = false →
        exec .bucketReplyTaken s =
          .next
            (pumpFetch
              { u with
                recon := { s.recon with phase := .awaitingPart { query with since := s.now } (expected + 1) } })) ∧
      (matching → part = expected → f.isLast = true →
        exec .bucketReplyTaken s =
          .next
            (pumpFetch
              (pumpReconciler
                { u with line := givenUp .bucketQuery u.line, recon := { queue := rest, phase := .idle } })))

/-- An accepted FETCH, BUCKET_QUERY or PROFILE_QUERY becomes a job, is taken into the job it repeats, or is ignored at 8
jobs; one with a payload it does not permit is only taken. The idle Responder serves its head job: a READ, an absent SUPPLY,
a PROFILE or a part of up to 36 entries, placed at once, or kept where there is no room; and then the next (R147 to R151,
R153; whose the free places are, DEDUCED, log 9). -/
def Obligations.RequestsBecomeJobs : Prop :=
  (∀ (s : State) (k : FrameKind) (pre : List Frame) (f : Frame) (post : List Frame), Waits s k pre f post →
    (k = .fetch ∧ f.payload.length ≠ 7 ∨
     k = .bucketQuery ∧ (f.payload.length ≠ 1 ∨ 64 ≤ (byteAt f.payload 0).toNat)) →
    exec (takingOf k) s = .next (taken pre post s)) ∧
  (∀ (s : State) (k : FrameKind) (pre : List Frame) (f : Frame) (post : List Frame) (kind : JobKind),
    Waits s k pre f post → ¬ Unused k (peerOf s f.source).state →
    (k = .fetch ∧ f.payload.length = 7 ∧ kind = .supply (wordAt f.payload 0) ∨
     k = .bucketQuery ∧ f.payload.length = 1 ∧ (byteAt f.payload 0).toNat < 64 ∧
       kind = .bucketReply ((byteAt f.payload 0).setWidth 6) 0 none ∨
     k = .profileQuery ∧ kind = .profile) →
    let t := taken pre post s
    let job : Job := { peer := f.source, echo := f.seq, kind := kind }
    let same := fun old : Job =>
      old.peer = f.source ∧
      match kind with
      | .supply key => old.kind = .supply key
      | .bucketReply b _ _ => ∃ part resume, old.kind = .bucketReply b part resume
      | .profile => old.kind = .profile
    let queued := fun jobs : List Job => Host.Outcome.next (pumpResponder { t with resp := { s.resp with jobs := jobs } })
    (s.ctl.st = .mute → exec (takingOf k) s = .next t) ∧
    (s.ctl.st ≠ .mute →
      (∀ before old after, s.resp.jobs = before ++ old :: after → same old → (∀ x ∈ before ++ after, ¬ same x) →
        exec (takingOf k) s = queued (before ++ job :: after)) ∧
      ((∀ x ∈ s.resp.jobs, ¬ same x) → s.resp.jobs.length < 8 →
        exec (takingOf k) s = queued (s.resp.jobs ++ [job])) ∧
      ((∀ x ∈ s.resp.jobs, ¬ same x) → 8 ≤ s.resp.jobs.length → exec (takingOf k) s = queued s.resp.jobs))) ∧
  (∀ s : State, (¬ Placing s ∨ s.resp.service ≠ none ∨ s.resp.jobs = []) → pumpResponder s = s) ∧
  ∀ (s : State) (job : Job) (others : List Job), Placing s → s.resp.service = none → s.resp.jobs = job :: others →
    let kept := fun service : Service =>
      { s with
        resp := { s.resp with service := some service }
        line := { s.line with waiting := s.line.waiting ++ [.reply] } }
    (∀ key e, job.kind = .supply key → policyOf s key ≠ .localOnly → lookup s key = some e →
      pumpResponder s =
        { s with
          resp := { s.resp with service := some (.reading e) }
          store :=
            { s.store with
              reads := s.store.reads ++ [{ owner := .responder, loc := e.loc, after := s.upd.nextReady }] } }) ∧
    (∀ key, job.kind = .supply key → (policyOf s key = .localOnly ∨ lookup s key = none) →
      (Room s s.line →
        pumpResponder s =
          pumpResponder
            { s with line := supplyPlaced job key none s.line, resp := { jobs := others, service := none } }) ∧
      (¬ Room s s.line → pumpResponder s = kept (.built none))) ∧
    (job.kind = .profile →
      (Room s s.line →
        pumpResponder s =
          pumpResponder
            { s with
              line := placed .profile 0 (stationByte job.peer) (job.echo :: profileTable s.ctl) none s.line
              resp := { jobs := others, service := none } }) ∧
      (¬ Room s s.line → pumpResponder s = kept .ready)) ∧
    ∀ b part resume, job.kind = .bucketReply b part resume →
      (Room s s.line →
        pumpResponder s =
          pumpResponder
            { s with
              line := partPlaced job b part (found s b resume) s.line
              resp := { jobs := jobsAfterPart job b part (found s b resume) others, service := none } }) ∧
      (¬ Room s s.line → pumpResponder s = kept .ready)

/-! ## The timers -/

/-- The timers' expiries: a SUMMARY is offered, or absorbed or refused; a query ends and the next is issued; a failed bucket
query is retried once; a failed fetch counts an attempt and goes to the tail, or is removed at the third, and FREE slots take
WAITING entries (R105, R119, R121, R128, R132, R139, R144). What the blocks then offer is said in ListeningEndsInActive, and
that it waits where there is no room in WaitingFramesArePlaced. The requests given up report to nobody (DEDUCED, log 22); which
free places are owed to waiting placers is DEDUCED (log 9). -/
def Obligations.TimersRunOut : Prop :=
  (∀ s : State, Active s → s.summ.timer ≠ none →
    exec .summaryTimerExpiry s = .next (offerSummary { s with summ := { timer := some s.now } }) ∧
    (((∃ t ∈ s.line.txq, t.kind = .summary) ∨ 16 ≤ s.line.txq.length + s.line.waiting.length) →
      exec .summaryTimerExpiry s = .next { s with summ := { timer := some s.now } }) ∧
    ((∀ t ∈ s.line.txq, t.kind ≠ .summary) → Room s s.line →
      exec .summaryTimerExpiry s =
        .next { s with summ := { timer := some s.now }, line := placed .summary 0 0x3F [] none s.line })) ∧
  (∀ (s : State) (q : ProfileQuery), Up s → s.memb.query = some q → q.placed ≠ none →
    let line := givenUp .profileQuery s.line
    exec .profileReplyTimeout s = .next (pumpProfile { s with line := line, memb := { s.memb with query := none } }) ∧
    ((s.ctl.st ≠ .active ∨ ∀ p, (peerOf s p).state = .joining → 3 ≤ (peerOf s p).attempts) →
      exec .profileReplyTimeout s = .next { s with line := line, memb := { s.memb with query := none } }) ∧
    ∀ p, s.ctl.st = .active → (peerOf s p).state = .joining → (peerOf s p).attempts < 3 →
      (∀ p', p'.toNat < p.toNat → (peerOf s p').state = .joining → 3 ≤ (peerOf s p').attempts) → Room s line →
      exec .profileReplyTimeout s =
        .next
          { s with
            line := placed .profileQuery 0 (stationByte p) [] (some .profileQuery) line
            memb :=
              { peers :=
                  s.memb.peers.set p.toNat { peerOf s p with attempts := (peerOf s p).attempts + 1 } p.isLt
                query := some { peer := p, placed := some { seq := s.line.seq, since := s.now } } } }) ∧
  (∀ (s : State) (query : Placed) (expected : Nat) (p : Pair) (rest : List Pair), Up s →
    s.recon.phase = .awaitingPart query expected → s.recon.queue = p :: rest →
    let line := givenUp .bucketQuery s.line
    let left := if p.attempts < 2 then p :: rest else rest
    exec .bucketReplyTimeout s =
      .next (pumpReconciler { s with line := line, recon := { queue := left, phase := .idle } }) ∧
    (s.ctl.st ≠ .active →
      exec .bucketReplyTimeout s = .next { s with line := line, recon := { queue := left, phase := .idle } }) ∧
    (s.ctl.st = .active → (∀ q ∈ left, (peerOf s q.peer).isPartial = true) →
      exec .bucketReplyTimeout s = .next { s with line := line, recon := { queue := [], phase := .idle } }) ∧
    ∀ skipped q others, s.ctl.st = .active → left = skipped ++ q :: others →
      (∀ x ∈ skipped, (peerOf s x.peer).isPartial = true) → (peerOf s q.peer).isPartial = false → Room s line →
      exec .bucketReplyTimeout s =
        .next
          { s with
            line := placed .bucketQuery 0 (stationByte q.peer) [q.bucket.setWidth 8] (some .bucketQuery) line
            recon :=
              { queue := { q with attempts := q.attempts + 1 } :: others
                phase := .awaitingPart { seq := s.line.seq, since := s.now } 0 } }) ∧
  ∀ (s : State) (i : Fin 4) (key : Key) (peer : Station) (query : Placed) (before : List Want) (w : Want)
    (after : List Want), Up s → FetchLaw s → s.fetch.slots[i] = .awaiting key peer query →
    s.fetch.wants = before ++ w :: after → w.key = key →
    let line := givenUp (.fetch i) s.line
    let left :=
      if w.attempts + 1 < 3 then before ++ after ++ [{ w with attempts := w.attempts + 1, requested := false }]
      else before ++ after
    exec (.fetchReplyTimeout i) s =
      .next (pumpFetch { s with line := line, fetch := { wants := left, slots := s.fetch.slots.set i .free } }) ∧
    ((s.ctl.st ≠ .active ∨ ∀ x ∈ left, x.requested = true) →
      exec (.fetchReplyTimeout i) s =
        .next { s with line := line, fetch := { wants := left, slots := s.fetch.slots.set i .free } }) ∧
    ∀ ahead x behind, s.ctl.st = .active → (∀ j : Fin 4, j ≠ i → s.fetch.slots[j] ≠ .free) →
      left = ahead ++ x :: behind → (∀ y ∈ ahead, y.requested = true) → x.requested = false → Room s line →
      exec (.fetchReplyTimeout i) s =
        .next
          { s with
            line :=
              placed .fetch 0 (stationByte x.source) (be16 x.key ++ stampBytes x.stamp) (some (.fetch i)) line
            fetch :=
              { wants := ahead ++ { x with requested := true } :: behind
                slots :=
                  s.fetch.slots.set i (.awaiting x.key x.source { seq := s.line.seq, since := s.now }) } }

/-- The silence limit makes a PRESENT peer SILENT and withdraws the work with it, leaving update slots and queued frames;
the absence limit clears an entry, its query and its jobs; the duplicate mark's expiry makes a peer JOINING again, with the
last clock it had (DEDUCED, log 12; R108, R109, R110, R111, R113). What a request given up reports to is DEDUCED (log 22), and
so is the end of a discarded job's READ (log 26). -/
def Obligations.PeerLimitsExpire : Prop :=
  (∀ (s : State) (p : Station), Up s → (peerOf s p).state = .present →
    ∃ t, exec (.silenceLimit p) s = .next t ∧
      t =
        workOffered
          (withdrawn p
            { s with
              memb :=
                { s.memb with
                  peers := s.memb.peers.set p.toNat { peerOf s p with state := .silent, isPartial := false } p.isLt }
              host := s.host.post (.peerState p .silent) }) ∧
      apart (peerOf t p) = apart { peerOf s p with state := .silent, isPartial := false } ∧
      (∀ q, q ≠ p → apart (peerOf t q) = apart (peerOf s q)) ∧
      t.host = s.host.post (.peerState p .silent) ∧
      t.fetch.wants.map asked = (s.fetch.wants.filter fun w => w.source != p).map asked ∧
      (∀ i : Fin 4, t.fetch.slots[i].peer ≠ some p) ∧
      (∀ x ∈ t.recon.queue, x.peer ≠ p) ∧
      (∀ j ∈ t.resp.jobs, j.peer ≠ p) ∧
      s.line.txq.map unplaced <+: t.line.txq.map unplaced ∧ t.line.rxq = s.line.rxq ∧
      t.ctl = s.ctl ∧ t.cfg = s.cfg ∧ t.dir = s.dir ∧ t.upd = s.upd ∧ t.flash = s.flash ∧ t.summ = s.summ) ∧
  (∀ (s : State) (p : Station), Up s → (peerOf s p).state ≠ .absent → (peerOf s p).state ≠ .present →
    ∃ t, exec (.absenceLimit p) s = .next t ∧
      peerOf t p = Peer.cleared ∧
      (∀ q, q ≠ p → apart (peerOf t q) = apart (peerOf s q)) ∧
      t.host = s.host.post (.peerState p .absent) ∧
      (∀ q, t.memb.query = some q → q.peer ≠ p) ∧
      (∀ j ∈ t.resp.jobs, j.peer ≠ p) ∧
      t.fetch.wants.map asked = s.fetch.wants.map asked ∧ t.line.rxq = s.line.rxq ∧
      s.line.txq.map unplaced <+: t.line.txq.map unplaced ∧
      t.ctl = s.ctl ∧ t.cfg = s.cfg ∧ t.dir = s.dir ∧ t.upd = s.upd ∧ t.flash = s.flash ∧ t.summ = s.summ) ∧
  ∀ (s : State) (p : Station), Up s → (peerOf s p).state = .duplicate →
    ∃ t, exec (.duplicateMarkExpiry p) s = .next t ∧
      apart (peerOf t p) =
        apart { peerOf s p with state := .joining, uniqueId := none, dupMark := none } ∧
      (peerOf t p).attempts ≤ 1 ∧
      (∀ q, q ≠ p → apart (peerOf t q) = apart (peerOf s q)) ∧
      t.host = s.host.post (.peerState p .joining) ∧
      t.ctl = s.ctl ∧ t.cfg = s.cfg ∧ t.dir = s.dir ∧ t.upd = s.upd ∧ t.store = s.store ∧ t.flash = s.flash ∧
      t.summ = s.summ ∧ t.recon = s.recon ∧ t.fetch = s.fetch ∧ t.resp = s.resp ∧ t.line.rxq = s.line.rxq

/-! ## The store -/

/-- The arbiter's order: READs, oldest first, each taking the flash as it stands, but after the APPEND that caused a
suspension; APPENDs; a MARK; an ERASE. While one waits nothing after it in the order is granted, and no suspended ERASE
resumes. A running ERASE is suspended at most 8 times for a READ or APPEND, and resumes when nothing waits (R58, R59, R64). A
grant out of its turn is none (DESIGN CHOICE, log 1; that grants are commands, DEDUCED, log 8). -/
def Obligations.TheArbiterGrantsInOrder : Prop :=
  (∀ s : State, Up s → StoreFree s →
    (∀ r rest, s.store.reads = r :: rest → (∀ i x, ¬ Caused s i x) →
      exec .readGrant s =
        .next
          { s with
            store :=
              { s.store with
                reads := rest, op := some (.read r.owner (readImage s.flash r.loc)), erase := settled s.store.erase } } ∧
      exec .appendGrant s = .next s) ∧
    (∀ i x, Caused s i x → exec .readGrant s = .next s) ∧
    ((s.store.reads ≠ [] ∨ ¬ NoAppend s) →
      exec .markGrant s = .next s ∧ exec .eraseGrant s = .next s ∧ exec .eraseResume s = .next s) ∧
    (∀ kind v, s.store.reads = [] → NoAppend s → s.store.mark = some (kind, v) →
      exec .markGrant s = .next { s with store := { s.store with mark := none, op := some (.mark kind v) } } ∧
      exec .eraseGrant s = .next s ∧ exec .eraseResume s = .next s) ∧
    ∀ e, s.store.reads = [] → NoAppend s → s.store.mark = none → s.store.erase = some e →
      (e.phase = .waiting →
        exec .eraseGrant s = .next { s with store := { s.store with erase := some { e with phase := .running } } }) ∧
      (e.phase = .suspended →
        exec .eraseResume s = .next { s with store := { s.store with erase := some { e with phase := .running } } })) ∧
  (∀ s : State, ¬ StoreFree s → ∀ c, c = .readGrant ∨ c = .appendGrant ∨ c = .markGrant ∨ c = .eraseGrant ∨ c = .eraseResume →
    exec c s = .next s) ∧
  ∀ (s : State) (e : EraseReq), Up s → s.store.erase = some e → e.phase = .running →
    ((s.store.reads ≠ [] ∨ ¬ NoAppend s) → e.suspensions < 8 →
      exec .eraseSuspended s =
        .next
          { s with
            store :=
              { s.store with
                erase := some { e with phase := .suspended, suspensions := e.suspensions + 1, owes := true } } }) ∧
    ((8 ≤ e.suspensions ∨ (s.store.reads = [] ∧ NoAppend s)) → exec .eraseSuspended s = .next s)

/-- The APPEND whose turn it is takes the OPEN sector's next free granule if its image fits there; else it opens the ERASED
sector with the lowest erase count, if enough are ERASED, with the next sequence number and the clock (R45, R59, R61, R62, R64).
Past FFFFFFFFh the sequence number is a free value (DESIGN CHOICE, log 24). -/
def Obligations.AppendsArePlaced : Prop :=
  ∀ (s : State) (who : Appender) (r : Record) (needed : Nat), Up s → StoreFree s → Turn s who r needed → StoreLaw s →
    let len := 1 + (r.value.length + 15) / 16
    (∀ n x, OpenAt s n x → len ≤ 255 - x.used →
      exec .appendGrant s =
        .next
          (settleStore s
            { s with
              upd := programming who { sector := n, granule := x.used + 1 } s.upd
              store :=
                { s.store with
                  sectors := s.store.sectors.set n { x with used := x.used + len }
                  erase := settled s.store.erase
                  op := some (.append who { sector := n, granule := x.used + 1 } none (imageBytes r)) } })) ∧
    ∀ n x, (∀ k y, OpenAt s k y → 255 - y.used < len) → needed ≤ erasedCount s →
      s.store.sectors[n]? = some x → x.state = .erased →
      (∀ k y, s.store.sectors[k]? = some y → y.state = .erased →
        x.eraseCount.toNat < y.eraseCount.toNat ∨ (x.eraseCount = y.eraseCount ∧ n ≤ k)) →
      ∃ seq free,
        (s.store.highestSeq ≠ 0xFFFFFFFF → seq = s.store.highestSeq + 1 ∧ free = s.free) ∧
        exec .appendGrant s =
          .next
            (settleStore s
              { s with
                upd := programming who { sector := n, granule := 1 } s.upd
                store :=
                  { s.store with
                    sectors :=
                      (s.store.sectors.map fun y =>
                          if y.state = .openForAppend then { y with state := .full, used := 255 } else y).set n
                        { x with state := .openForAppend, seq := some seq, used := len }
                    highestSeq := seq
                    erase := settled s.store.erase
                    op :=
                      some
                        (.append who { sector := n, granule := 1 }
                          (some { seq := seq, eraseCount := x.eraseCount, clock := s.dir.clock }) (imageBytes r)) }
                free := free })

/-- An APPEND without a place: an update slot goes to STORE_WAIT when compaction runs or begins, and fails with STORE_FULL
when it is stalled or has nothing to free; a copy stalls compaction in COPYING, where every slot in STORE_WAIT fails, and is
given up in CLOSING (R46, R51, R52, R63, R64, R68, R73, R74). The order in which several slots fail at one event is a DESIGN
CHOICE (log 20). -/
def Obligations.AppendsWithoutAPlace : Prop :=
  ∀ (s : State) (who : Appender) (r : Record) (needed : Nat), Up s → StoreFree s → Turn s who r needed → StoreLaw s →
    (∀ k y, OpenAt s k y → 255 - y.used < 1 + (r.value.length + 15) / 16) → erasedCount s < needed →
    let granted := { s with store := { s.store with erase := settled s.store.erase } }
    (∀ (i : Fin 4) (x : Slot), who = .slot i → s.upd.slots[i] = some x →
      (isCompacting s = true →
        exec .appendGrant s =
          .next
            (settleStore s
              { granted with upd := { s.upd with slots := s.upd.slots.set i (some { x with phase := .storeWait }) } })) ∧
      (s.store.comp = .idle → DeadGranule s →
        exec .appendGrant s =
          .next
            (settleStore s
              { testTrigger granted with
                upd := { s.upd with slots := s.upd.slots.set i (some { x with phase := .storeWait }) } })) ∧
      ((isStalled s = true ∨ (s.store.comp = .idle ∧ ¬ DeadGranule s)) →
        exec .appendGrant s = .next (settleStore s (failed .storeFull i x granted)))) ∧
    ∀ c, who = .copy → CopyWaits s c →
      (∀ v cursor, s.store.comp = .copying v cursor →
        exec .appendGrant s =
          .next
            (settleStore s
              (failStoreWait
                { granted with
                  store := { granted.store with comp := .stalled v cursor }
                  upd := { s.upd with copy := some { c with phase := .stalled } } })) ∧
        ∀ (i : Fin 4) (x : Slot), s.upd.slots[i] = some x → x.phase = .storeWait →
          (∀ (j : Fin 4) (y : Slot), s.upd.slots[j] = some y → y.phase = .storeWait → j = i) →
          failStoreWait s = failed .storeFull i x s) ∧
      ∀ v, s.store.comp = .closing v →
        exec .appendGrant s = .next (settleStore s { granted with upd := { s.upd with copy := none } })

/-- Out of space, the alert at entering it, compaction's trigger and choice of victim, the walk's next READ and its end at a
live count of 0; the trigger and the walk are settled, and the space test made, at an event that changes what they watch (R67,
R68, R69, R71, R73, R74). The lowest-numbered of several marked sectors, and a missing sequence number taken as 0, are DESIGN
CHOICES (log 15). -/
def Obligations.CompactionFollowsTheStore : Prop :=
  (∀ old s : State,
    settleStore old s = spaceEvent old (advanceWalk (testTrigger s)) ∧
    (Unchanged old s → spaceEvent old s = s) ∧ (¬ Unchanged old s → spaceEvent old s = spaceTest s)) ∧
  (∀ s : State,
    outOfSpace s = true ↔
      (∃ (i : Fin 4) (x : Slot), s.upd.slots[i] = some x ∧ x.phase = .storeWait) ∨
      (∃ v cursor, s.store.comp = .stalled v cursor) ∨ Hopeless s 16) ∧
  (∀ s : State,
    (outOfSpace s = true → s.store.low = false →
      spaceTest s =
        { s with store := { s.store with low := true }, host := s.host.post (.storeAlert .spaceLow) }) ∧
    ((outOfSpace s = false ∨ s.store.low = true) →
      spaceTest s = { s with store := { s.store with low := outOfSpace s } })) ∧
  (∀ s : State,
    ((s.store.comp ≠ .idle ∨ 2 < erasedCount s ∨ ¬ DeadGranule s) → testTrigger s = s) ∧
    (s.store.comp = .idle → erasedCount s ≤ 2 → DeadGranule s →
      (∀ v x, s.store.sectors[v]? = some x → x.state = .full → x.reclaim = true →
        (∀ n y, n < v → s.store.sectors[n]? = some y → y.state = .full → y.reclaim = false) →
        testTrigger s =
          { s with
            store :=
              { s.store with
                sectors := s.store.sectors.set v { x with state := .reclaiming }
                comp := .copying v 1 } }) ∧
      ∀ v x, (∀ y ∈ s.store.sectors, y.state = .full → y.reclaim = false) →
        s.store.sectors[v]? = some x → x.state = .full →
        (∀ n y, n ≠ v → s.store.sectors[n]? = some y → y.state = .full →
          x.live < y.live ∨ (x.live = y.live ∧ (x.seq.getD 0).toNat < (y.seq.getD 0).toNat)) →
        testTrigger s =
          { s with
            store :=
              { s.store with
                sectors := s.store.sectors.set v { x with state := .reclaiming, reclaim := true }
                comp := .marking v
                mark := some (.reclaimBegun, v) } })) ∧
  (∀ (s : State) (v cursor : Nat), liveOf s v ≠ 0 →
    (s.store.comp = .copying v cursor →
      (s.upd.copy = none → ¬ WalkReads s →
        advanceWalk s =
          { s with
            store :=
              { s.store with
                reads :=
                  s.store.reads ++
                    [{ owner := .compaction, loc := { sector := v, granule := cursor }, after := s.upd.nextReady }] } }) ∧
      ((s.upd.copy ≠ none ∨ WalkReads s) → advanceWalk s = s)) ∧
    (s.store.comp = .stalled v cursor → advanceWalk s = s)) ∧
  (∀ s : State, (∀ v cursor, s.store.comp ≠ .copying v cursor ∧ s.store.comp ≠ .stalled v cursor) → advanceWalk s = s) ∧
  ∀ (s : State) (v cursor : Nat), liveOf s v = 0 →
    (s.store.comp = .copying v cursor →
      advanceWalk s = { s with store := { s.store with comp := .closing v, mark := some (.eraseBegun, v) } }) ∧
    (s.store.comp = .stalled v cursor →
      advanceWalk s =
        { s with
          store := { s.store with comp := .closing v, mark := some (.eraseBegun, v) }
          upd := { s.upd with copy := none } })

/-- A READ's end: READ_RECORD is answered FOUND with the image, or STORE_FAULT with the looked-up stamp; the Responder's
SUPPLY is built and placed, or waits for room, and the next job is served; an unwanted READ only frees the store (R111, R148,
R149, R173). Whose the free places are is DEDUCED (log 9), and so is the end of an unwanted READ (log 26). -/
def Obligations.ReadsAreAnswered : Prop :=
  (∀ (s : State) (found : ImageRead) (e : Entry), s.store.op = some (.read .host found) →
    s.host.request = some (.readRecord e) →
    (∀ r, found = .image r → r.key = e.key → r.stamp = e.stamp →
      exec .hostReadDone s = .next (completed (.found r) (endOp s.flash s))) ∧
    ((∀ r, found = .image r → r.key ≠ e.key ∨ r.stamp ≠ e.stamp) →
      exec .hostReadDone s = .next (completed (.storeFault e.stamp) (endOp s.flash s)))) ∧
  (∀ s : State, ∀ found, s.store.op = some (.read .discarded found) →
    exec .responderReadDone s = .next (endOp s.flash s)) ∧
  ∀ (s : State) (found : ImageRead) (e : Entry) (job : Job) (key : Key) (answer : Option Record),
    s.store.op = some (.read .responder found) → s.resp.service = some (.reading e) → job.kind = .supply key →
    ((∃ r, found = .image r ∧ r.key = e.key ∧ r.stamp = e.stamp ∧ answer = some r) ∨
      ((∀ r, found = .image r → r.key ≠ e.key ∨ r.stamp ≠ e.stamp) ∧ answer = none)) →
    (∀ others, s.resp.jobs = job :: others → Room s s.line →
      let t :=
        { endOp s.flash s with
          line := supplyPlaced job key answer s.line
          resp := { jobs := others, service := none } }
      exec .responderReadDone s = .next (pumpResponder t) ∧ (others = [] → exec .responderReadDone s = .next t)) ∧
    (¬ Room s s.line →
      exec .responderReadDone s =
        .next
          { endOp s.flash s with
            line := { s.line with waiting := s.line.waiting ++ [.reply] }
            resp := { s.resp with service := some (.built answer) } })

/-- The walk's READ: a live image goes to the copy slot, a dead one is passed and the next READ placed, one whose check fails
or a blank granule stalls compaction (R71, R74; a blank granule, DEDUCED, log 7; the order in which several slots then fail,
DESIGN CHOICE, log 20); in CLOSING it is not used. -/
def Obligations.TheWalkReadsTheVictim : Prop :=
  ∀ (s : State) (found : ImageRead), s.store.op = some (.read .compaction found) →
    (∀ v, s.store.comp = .closing v → exec .compactionReadDone s = .next (endOp s.flash s)) ∧
    ∀ v cursor, s.store.comp = .copying v cursor → liveOf s v ≠ 0 → s.upd.copy = none →
      (∀ r ∈ s.store.reads, r.owner ≠ .compaction) →
      (∀ r, found = .image r →
        ((∃ e, lookup s r.key = some e ∧ e.loc = { sector := v, granule := cursor } ∧ e.stamp = r.stamp) →
          exec .compactionReadDone s =
            .next
              { s with
                store := { s.store with op := none, comp := .copying v (cursor + (1 + (r.value.length + 15) / 16)) }
                upd :=
                  { s.upd with
                    copy :=
                      some { phase := .waitStore, record := r, source := { sector := v, granule := cursor } } } }) ∧
        ((∀ e, lookup s r.key = some e → e.loc = { sector := v, granule := cursor } → e.stamp ≠ r.stamp) →
          exec .compactionReadDone s =
            .next
              { s with
                store :=
                  { s.store with
                    op := none
                    comp := .copying v (cursor + (1 + (r.value.length + 15) / 16))
                    reads :=
                      s.store.reads ++
                        [{ owner := .compaction
                           loc := { sector := v, granule := cursor + (1 + (r.value.length + 15) / 16) }
                           after := s.upd.nextReady }] } })) ∧
      ((found = .blank ∨ found = .bad) →
        exec .compactionReadDone s =
          .next
            (spaceTest
              (failStoreWait { s with store := { s.store with op := none, comp := .stalled v cursor } })))

/-- A program that reads back as given commits its slot: entry, counts, check, live granules, reservation, Want entry, event,
follower, all at once; then FREE fetch slots take WAITING entries, and a local commit of a shared class offers its NEWS, which
is placed or dropped as WaitingFramesArePlaced says. Under a soft reset's wait only flash changes (R9, R20, R21, R24, R47,
R48, R49, R50, R60, R95, R139, R157; a pruned FETCH reports to nobody, DEDUCED, log 22; which bits did
not take is an operand, DEDUCED, log 5). -/
def Obligations.UpdatesCommit : Prop :=
  ∀ (s : State) (i : Fin 4) (x : Slot) (loc : Loc) (opening : Option Opening) (image bits : List Byte),
    s.store.op = some (.append (.slot i) loc opening image) → s.upd.slots[i] = some x →
    let m := flashAfter loc opening image bits s
    (s.ctl.softWait = true → exec (.updateProgramDone bits) s = .next (endOp m s)) ∧
    (s.ctl.softWait = false → ReadsBack m loc opening image → DirectoryLaw s → FetchLaw s →
      loc.sector < s.store.sectors.length → (∀ f, x.follower = some f → f.key = x.record.key) →
      let k := x.record.key
      let new := entryOf x.record loc
      let beaten := fun w : Want => w.key = k ∧ beats s k w.stamp x.record.stamp = false
      ∃ t,
        ((x.origin = .peer ∨ isLocal s k = true) → exec (.updateProgramDone bits) s = .next (pumpFetch t)) ∧
        (∀ ticket, x.origin = .host ticket → isLocal s k = false →
          exec (.updateProgramDone bits) s = .next (offerNews x.record (pumpFetch t))) ∧
        t.flash = m ∧ t.store.op = none ∧
        (∀ k', lookup t k' = if k' = k then some new else lookup s k') ∧
        t.dir.clock = s.dir.clock ∧
        t.dir.entryCount = (if lookup s k = none then s.dir.entryCount + 1 else s.dir.entryCount) ∧
        t.dir.sharedCount =
          (if lookup s k = none ∧ isLocal s k = false then s.dir.sharedCount + 1 else s.dir.sharedCount) ∧
        t.dir.reservations = (if x.reserved then s.dir.reservations - 1 else s.dir.reservations) ∧
        (∀ b : Bucket,
          t.dir.checks[b.toNat]'b.isLt =
            if b = bucketOf k ∧ isLocal s k = false then
              (s.dir.checks[b.toNat]'b.isLt) ^^^
                (match lookup s k with
                 | some old => entryFold k old.stamp
                 | none => 0) ^^^ entryFold k x.record.stamp
            else s.dir.checks[b.toNat]'b.isLt) ∧
        (∀ n,
          liveOf t n =
            (liveOf s n -
                match lookup s k with
                | some old => if old.loc.sector = n then old.imageLen else 0
                | none => 0) +
              if loc.sector = n then new.imageLen else 0) ∧
        t.upd.slots = s.upd.slots.set i (afterCommit x s.upd.nextReady) ∧
        (let h :=
          match x.origin with
          | .host ticket => s.host.post (.writeDone ticket k .committed)
          | .peer => if (classOf s k).notify then s.host.post (.keyChanged k x.record.stamp.origin) else s.host
         t.host = h ∨ t.host = h.post (.storeAlert .spaceLow)) ∧
        t.fetch.wants = (s.fetch.wants.filter fun w => w.key != k || beats s k w.stamp x.record.stamp) ∧
        ((∀ w ∈ s.fetch.wants, beaten w → w.requested = false) → t.fetch.slots = s.fetch.slots ∧ t.line = s.line) ∧
        (∀ (j : Fin 4) w, w ∈ s.fetch.wants → beaten w → s.fetch.slots[j].key = some k →
          t.fetch.slots = s.fetch.slots.set j .free ∧ t.line = givenUp (.fetch j) s.line) ∧
        t.ctl = s.ctl ∧ t.cfg = s.cfg ∧ t.memb = s.memb ∧ t.summ = s.summ ∧ t.recon = s.recon ∧ t.resp = s.resp)

/-- A program that does not read back closes its sector; the slot retries once with everything it holds, and then fails with
STORE_FAULT (R51, R52, R60). Which bits did not take is an operand (DEDUCED, log 5). -/
def Obligations.UpdatesFailTheirVerify : Prop :=
  ∀ (s : State) (i : Fin 4) (x : Slot) (loc : Loc) (opening : Option Opening) (image bits : List Byte),
    s.store.op = some (.append (.slot i) loc opening image) → s.upd.slots[i] = some x → s.ctl.softWait = false →
    ¬ ReadsBack (flashAfter loc opening image bits s) loc opening image →
    let t := withSector loc.sector closed (endOp (flashAfter loc opening image bits s) s)
    (x.retry = false →
      exec (.updateProgramDone bits) s =
        .next
          (settleStore s
            { t with
              upd :=
                { s.upd with
                  slots :=
                    s.upd.slots.set i
                      (some { x with phase := .waitStore, retry := true, ready := s.upd.nextReady })
                  nextReady := s.upd.nextReady + 1 } })) ∧
    (x.retry = true → exec (.updateProgramDone bits) s = .next (settleStore s (failed .storeFault i x t)))

/-- A copy that reads back moves its entry, if that still locates the victim image with the copied stamp, and is dead on
arrival otherwise; one that does not closes its sector and waits again (R22, R60, R72, R157). Which bits did not take
is an operand (DEDUCED, log 5). -/
def Obligations.CopiesCommit : Prop :=
  ∀ (s : State) (c : CopySlot) (loc : Loc) (opening : Option Opening) (image bits : List Byte),
    s.store.op = some (.append .copy loc opening image) → s.upd.copy = some c →
    let m := flashAfter loc opening image bits s
    let free := fun t : State => { t with upd := { t.upd with copy := none } }
    (s.ctl.softWait = true → exec (.copyProgramDone bits) s = .next (endOp m s)) ∧
    (s.ctl.softWait = false → ReadsBack m loc opening image → DirectoryLaw s →
      (∀ e, lookup s c.record.key = some e → e.loc = c.source → e.stamp = c.record.stamp →
        exec (.copyProgramDone bits) s =
          .next
            (settleStore s
              (free
                (withSector loc.sector (fun y => { y with live := y.live + e.imageLen })
                  (withSector c.source.sector (fun y => { y with live := y.live - e.imageLen })
                    (withSector loc.sector fullIfUsed
                      { endOp m s with
                        dir :=
                          { s.dir with
                            entries :=
                              s.dir.entries.map fun d => if d.key = e.key then { d with loc := loc } else d } })))))) ∧
      ((∀ e, lookup s c.record.key = some e → e.loc = c.source → e.stamp ≠ c.record.stamp) →
        exec (.copyProgramDone bits) s = .next (settleStore s (free (withSector loc.sector fullIfUsed (endOp m s)))))) ∧
    (s.ctl.softWait = false → ¬ ReadsBack m loc opening image →
      exec (.copyProgramDone bits) s =
        .next
          (settleStore s
            { withSector loc.sector closed (endOp m s) with
              upd := { s.upd with copy := some { c with phase := .waitStore } } }))

/-- The markers, the erase and its count: reclaim-begun leads to COPYING at granule 1, erase-begun to ERASING with an ERASE
placed; a blank sector takes its count and is ERASED, and STORE_WAIT slots return; a failed one is RETIRED with its alert;
then the next sector left ERASING is taken up (R63, R64, R65, R66, R70, R73, R75, R157, R184). That marks and counts take
wholly is DEDUCED (log 6), and which bits an erase did not set is an operand (DEDUCED, log 5); that SECTOR_RETIRED is posted before SPACE_LOW, and that a RETIRED sector keeps its erase count,
are DESIGN CHOICES (logs 20 and 29). -/
def Obligations.MarksAndErasesEnd : Prop :=
  ∀ s : State, FlashLaw s →
    (∀ kind v, s.store.op = some (.mark kind v) →
      ∃ m : Memory, m.wf ∧
        (∀ a, m.read a =
          if a = v * 4096 + 15 then
            s.flash.read a &&& (match kind with
              | .reclaimBegun => 0x3F
              | .eraseBegun => 0xCF)
          else s.flash.read a) ∧
        (kind = .reclaimBegun → s.ctl.softWait = true → exec .reclaimMarkDone s = .next (endOp m s)) ∧
        (kind = .eraseBegun → s.ctl.softWait = true → exec .eraseMarkDone s = .next (endOp m s)) ∧
        (kind = .reclaimBegun → s.ctl.softWait = false →
          exec .reclaimMarkDone s =
            .next
              (settleStore s
                { s with flash := m, store := { s.store with op := none, comp := .copying v 1 } })) ∧
        (kind = .eraseBegun → s.ctl.softWait = false →
          exec .eraseMarkDone s =
            .next
              (settleStore s
                { s with
                  flash := m
                  store :=
                    { s.store with
                      op := none
                      sectors := s.store.sectors.modify v fun y => { y with state := .erasing }
                      comp := .erasing v
                      erase := some { sector := v, suspensions := 0, phase := .waiting } } }))) ∧
    (∀ e x, s.store.erase = some e → e.phase = .running → s.store.sectors[e.sector]? = some x →
      (∃ m : Memory, m.wf ∧
        (∀ a, m.read a =
          if e.sector * 4096 ≤ a ∧ a < e.sector * 4096 + 4096 then 0xFF else s.flash.read a) ∧
        ∀ b, exec (.eraseDone [] b) s =
          .next
            { s with flash := m, store := { s.store with erase := some { e with phase := .counting } } }) ∧
      ∀ bits b, (∃ n, n < 4096 ∧ (s.flash.erase (e.sector * 4096) bits).read (e.sector * 4096 + n) ≠ 0xFF) →
        ∃ t, exec (.eraseDone bits b) s = .next t ∧
          (∀ a, t.flash.read a =
            if a = e.sector * 4096 + 15 then
              (s.flash.erase (e.sector * 4096) bits).read a &&& (0xF3 ||| b)
            else (s.flash.erase (e.sector * 4096) bits).read a) ∧
          (∀ a, (a < e.sector * 4096 ∨ e.sector * 4096 + 4096 ≤ a) → t.flash.read a = s.flash.read a) ∧
          (∃ y, t.store.sectors[e.sector]? = some y ∧ y.state = .retired ∧ y.seq = none ∧
            y.eraseCount = x.eraseCount) ∧
          ((∀ (i : Fin 4) (y : Slot), s.upd.slots[i] = some y → y.phase ≠ .storeWait) →
            (t.host = s.host.post (.storeAlert .sectorRetired) ∨
              t.host = (s.host.post (.storeAlert .sectorRetired)).post (.storeAlert .spaceLow)) ∧
            t.upd.slots = s.upd.slots ∧ t.dir = s.dir) ∧
          (t.store.comp = .idle → ∀ (i : Fin 4) (y : Slot), t.upd.slots[i] = some y → y.phase ≠ .storeWait)) ∧
    ∀ e x, s.store.erase = some e → e.phase = .counting → s.store.sectors[e.sector]? = some x →
      let count := if x.eraseCount.toNat < 0xFFFE then x.eraseCount + 1 else 0xFFFE
      let part := be16 count ++ [(crc16 (be16 count)).extractLsb' 0 8]
      ∃ m : Memory, m.wf ∧
        (∀ a, m.read a =
          if e.sector * 4096 ≤ a ∧ a < e.sector * 4096 + 3 then
            s.flash.read a &&& part.getD (a - e.sector * 4096) 0
          else s.flash.read a) ∧
        (s.ctl.softWait = true →
          exec .eraseCountProgrammed s = .next { s with flash := m, store := { s.store with erase := none } }) ∧
        (s.ctl.softWait = false →
          let sectors :=
            s.store.sectors.set e.sector
              { state := .erased, seq := none, eraseCount := count, used := 0, live := 0, reclaim := false }
          let upd := { s.upd with slots := s.upd.slots.map (Option.map woken) }
          (NoneErasing s e.sector →
            exec .eraseCountProgrammed s =
              .next
                (settleStore s
                  { s with
                    flash := m
                    upd := upd
                    store := { s.store with sectors := sectors, erase := none, comp := .idle } })) ∧
          ∀ v, NextErasing s e.sector v →
            exec .eraseCountProgrammed s =
              .next
                (settleStore s
                  { s with
                    flash := m
                    upd := upd
                    store :=
                      { s.store with
                        sectors := sectors
                        erase := some { sector := v, suspensions := 0, phase := .waiting }
                        comp := .erasing v } }))

/-! ## What always holds -/

/-- Every step keeps flash in canonical form and at most one sector OPEN (R57). -/
def Obligations.StepsKeepStoreLaw : Prop :=
  ∀ s t : State, StoreLaw s → step s = .next t → StoreLaw t

/-- Every step keeps every queue and table within its capacity and free of what it holds once (R64, R86, R95, R126, R136,
R147, R179). -/
def Obligations.StepsKeepQueueLaw : Prop :=
  ∀ s t : State, QueueLaw s → step s = .next t → QueueLaw t

/-- Every step keeps the directory in order, its counts and its bucket checks those of its entries (R15, R24, R26). -/
def Obligations.StepsKeepDirectoryLaw : Prop :=
  ∀ s t : State, DirectoryLaw s → step s = .next t → DirectoryLaw t

/-- Every step keeps the station clock at or above the counter of every directory entry, slot record and follower (R11). -/
def Obligations.StepsKeepClockLaw : Prop :=
  ∀ s t : State, ClockLaw s → step s = .next t → ClockLaw t

/-- Every step keeps the update slots' law; and, but for the start-up scan, which takes what flash holds (log 19), entries
and reservations within the directory's capacity (R15, R16, R33). -/
def Obligations.StepsKeepSlotLaw : Prop :=
  (∀ s t : State, SlotLaw s → step s = .next t → SlotLaw t) ∧
  ∀ (c : Instr) (s t : State), SlotLaw s → CapacityLaw s → c ≠ .startUpScanEnd → exec c s = .next t → CapacityLaw t

/-- Every step keeps the Want List and the fetch slots in step (R136, R138, R139). -/
def Obligations.StepsKeepFetchLaw : Prop :=
  ∀ s t : State, FetchLaw s → step s = .next t → FetchLaw t

/-- Every step keeps the station's work to PRESENT peers, its query to a JOINING one, its own entry ABSENT (R101, R105,
R126, R136). -/
def Obligations.StepsKeepPeerLaw : Prop :=
  ∀ s t : State, PeerLaw s → step s = .next t → PeerLaw t

/-- Every step keeps transmission to an ACTIVE station, a locked area from being programmed, 36 group bytes (R90, R100, R160,
R166). -/
def Obligations.StepsKeepControlLaw : Prop :=
  ∀ s t : State, ControlLaw s → step s = .next t → ControlLaw t

/-- Every law holds right after reset; that state is the model's choice of a factory-fresh part (DESIGN CHOICE, logs 3
and 4). -/
def Obligations.LawsHoldAtReset : Prop :=
  StoreLaw State.reset ∧ QueueLaw State.reset ∧ DirectoryLaw State.reset ∧ ClockLaw State.reset ∧ SlotLaw State.reset ∧
  CapacityLaw State.reset ∧ FetchLaw State.reset ∧ PeerLaw State.reset ∧ ControlLaw State.reset

end StatedObligations
end

