-- ==== Sys2Proof/Laws/Conditions.lean ====
section
/-! SUPPORT. The computed conditions as propositions (Flags.lean, HostCommands.lean, Safety.lean). -/

namespace Sys2Proof.Machine

theorem inReset_eq_false {s : State} : inReset s = false ↔ Powered s := by simp [inReset, Powered]
theorem canTake_iff {s : State} : canTake s = true ↔ PortOpen s := by
  simp [canTake, PortOpen, inReset_eq_false]
theorem isUp_iff {s : State} : isUp s = true ↔ Up s := by
  unfold isUp Up
  rw [Bool.and_eq_true, Bool.not_eq_true', inReset_eq_false]
  cases s.ctl.st <;> simp
theorem isActive_iff {s : State} : isActive s = true ↔ Active s := by
  simp [isActive, Active, inReset_eq_false]
theorem mayPlace_iff {s : State} : mayPlace s = true ↔ Powered s ∧ (s.ctl.st = .listening ∨ s.ctl.st = .active) := by
  simp [mayPlace, inReset_eq_false]
theorem isScanning_iff {s : State} :
    isScanning s = true ↔ Powered s ∧ s.ctl.st = .starting ∧ s.ctl.softWait = false ∧ s.ctl.force ≠ none := by
  simp [isScanning, inReset_eq_false, Option.isSome_iff_ne_none, and_assoc]
theorem validKey_iff {k : Key} : validKey k = true ↔ k ≠ 0x0000 ∧ k ≠ 0xFFFF := by simp [validKey]
theorem isLocal_iff {s : State} {k : Key} : isLocal s k = true ↔ policyOf s k = .localOnly := by simp [isLocal]
theorem dirFull_iff {s : State} : dirFull s = true ↔ 1024 ≤ s.dir.entryCount + s.dir.reservations := by
  unfold dirFull; exact decide_eq_true_iff
theorem hasRoom_iff {s : State} :
    hasRoom s = true ↔ (Powered s ∧ (s.ctl.st = .listening ∨ s.ctl.st = .active)) ∧ s.line.waiting = [] ∧
      s.line.txq.length < 16 := by
  rw [hasRoom, Bool.and_eq_true, Bool.and_eq_true, mayPlace_iff, and_assoc, List.isEmpty_iff]
  exact and_congr_right' (and_congr_right' decide_eq_true_iff)

theorem placeLeft_iff {s : State} :
    placeLeft s = true ↔ (Powered s ∧ (s.ctl.st = .listening ∨ s.ctl.st = .active)) ∧
      s.line.txq.length + s.line.waiting.length < 16 := by
  rw [placeLeft, Bool.and_eq_true, mayPlace_iff]; exact and_congr_right' decide_eq_true_iff

end Sys2Proof.Machine
end

