-- ==== Sys2Proof/Laws/Memory.lean ====
section
/-! SUPPORT. Flash memory: every operation keeps the canonical form, and what each leaves to be read. -/

namespace Sys2Proof.Machine

/-! ## One byte -/

theorem Memory.read_of_all_gt {m : Memory} {a : Nat} (h : ∀ c ∈ m, a < c.1) : m.read a = blankByte := by
  induction m with
  | nil => rfl
  | cons c m ih =>
    have h1 := h c (by simp)
    rw [Memory.read, if_neg (by omega)]
    exact ih fun d hd => h d (by simp [hd])

theorem Memory.read_eq_blank_of_not_mem {m : Memory} {a : Nat} (h : ∀ c ∈ m, c.1 ≠ a) : m.read a = blankByte := by
  induction m with
  | nil => rfl
  | cons c m ih =>
    rw [Memory.read, if_neg (h c (by simp))]
    exact ih fun d hd => h d (by simp [hd])

theorem Memory.wf_nil : Memory.wf [] := ⟨List.Pairwise.nil, by simp⟩

theorem Memory.wf_tail {c : Host.Cell} {m : Memory} (h : Memory.wf (c :: m)) : Memory.wf m :=
  ⟨(List.pairwise_cons.1 h.1).2, fun d hd => h.2 d (by simp [hd])⟩

theorem Memory.read_of_mem {m : Memory} (h : m.wf) {c : Host.Cell} (hc : c ∈ m) : m.read c.1 = c.2 := by
  induction m with
  | nil => simp at hc
  | cons d m ih =>
    rw [Memory.read]
    rcases List.mem_cons.1 hc with rfl | hm
    · simp
    · rw [if_neg (by have := (List.pairwise_cons.1 h.1).1 c hm; omega)]
      exact ih (Memory.wf_tail h) hm

theorem Memory.read_putCell {m : Memory} {a : Nat} {b : Byte} (x : Nat) (h : ∀ c ∈ m, a < c.1) :
    (Memory.putCell a b m).read x = if x = a then b else m.read x := by
  unfold Memory.putCell
  split
  · split
    · subst x; rw [Memory.read_of_all_gt h]; simp_all
    · rfl
  · simp only [Memory.read]; split <;> split <;> first | rfl | omega

/-- What is read after one byte is written. -/
theorem Memory.read_write {m : Memory} (h : m.wf) (a : Nat) (b : Byte) (x : Nat) :
    (m.write a b).read x = if x = a then b else m.read x := by
  induction m with
  | nil => rw [Memory.write, Memory.read_putCell _ (by simp)]
  | cons c m ih =>
    have hc := (List.pairwise_cons.1 h.1).1
    rw [Memory.write]
    split
    · rw [Memory.read_putCell]
      intro d hd
      rcases List.mem_cons.1 hd with rfl | hm
      · assumption
      · have := hc d hm; omega
    · split
      · rename_i hne
        rw [Memory.read_putCell _ (by intro d hd; have := hc d hd; omega)]
        split
        · rfl
        · rw [Memory.read, if_neg (by omega)]
      · rw [Memory.read, Memory.read]
        split
        · split
          · omega
          · rfl
        · exact ih (Memory.wf_tail h)

theorem Memory.wf_putCell {m : Memory} {a : Nat} {b : Byte} (h : m.wf) (ha : ∀ c ∈ m, a < c.1) :
    (Memory.putCell a b m).wf := by
  unfold Memory.putCell
  split
  · exact h
  · refine ⟨List.pairwise_cons.2 ⟨ha, h.1⟩, ?_⟩
    intro c hc
    rcases List.mem_cons.1 hc with rfl | hm
    · assumption
    · exact h.2 c hm

theorem Memory.mem_write {m : Memory} {a : Nat} {b : Byte} {c : Host.Cell} (hc : c ∈ m.write a b) :
    c.1 = a ∨ c ∈ m := by
  induction m with
  | nil => unfold Memory.write Memory.putCell at hc; split at hc <;> simp_all
  | cons d m ih =>
    rw [Memory.write] at hc
    split at hc
    · unfold Memory.putCell at hc; split at hc <;> simp_all; rcases hc with h | h | h <;> simp [h]
    · split at hc
      · unfold Memory.putCell at hc; split at hc <;> simp_all; rcases hc with h | h <;> simp [h]
      · rcases List.mem_cons.1 hc with rfl | hm
        · simp
        · rcases ih hm with h | h <;> simp [h]

/-- A write keeps the canonical form. -/
theorem Memory.wf_write {m : Memory} (h : m.wf) (a : Nat) (b : Byte) : (m.write a b).wf := by
  induction m with
  | nil => exact Memory.wf_putCell Memory.wf_nil (by simp)
  | cons c m ih =>
    have hc := (List.pairwise_cons.1 h.1).1
    rw [Memory.write]
    split
    · refine Memory.wf_putCell h fun d hd => ?_
      rcases List.mem_cons.1 hd with rfl | hm
      · assumption
      · have := hc d hm; omega
    · split
      · exact Memory.wf_putCell (Memory.wf_tail h) fun d hd => by have := hc d hd; omega
      · have hw := ih (Memory.wf_tail h)
        refine ⟨List.pairwise_cons.2 ⟨fun d hd => ?_, hw.1⟩, fun d hd => ?_⟩
        · rcases Memory.mem_write hd with h1 | h1
          · omega
          · exact hc d h1
        · rcases List.mem_cons.1 hd with rfl | hm
          · exact h.2 _ (by simp)
          · exact hw.2 d hm

/-- Equal memories are equal data. -/
theorem Memory.ext_read {m n : Memory} (hm : m.wf) (hn : n.wf) (h : ∀ a, m.read a = n.read a) : m = n := by
  have hmem : ∀ {m n : Memory}, m.wf → n.wf → (∀ a, m.read a = n.read a) → ∀ c ∈ m, c ∈ n := by
    intro m n hm hn h c hc
    by_contra hcn
    have h1 := Memory.read_of_mem hm hc
    rw [h] at h1
    by_cases hx : ∃ d ∈ n, d.1 = c.1
    · obtain ⟨d, hd, hd'⟩ := hx
      have h2 := Memory.read_of_mem hn hd
      rw [hd', h1] at h2
      exact hcn (by rw [show c = d from Prod.ext hd'.symm h2]; exact hd)
    · rw [Memory.read_eq_blank_of_not_mem (fun d hd e => hx ⟨d, hd, e⟩)] at h1
      exact hm.2 c hc h1.symm
  have irr : ∀ {m : Memory}, m.wf → m.Nodup := fun hm => hm.1.imp fun h e => by simp [e] at h
  refine List.Perm.eq_of_pairwise (fun a b _ _ h1 h2 => absurd h1 (by omega)) hm.1 hn.1 ?_
  exact (List.perm_ext_iff_of_nodup (irr hm) (irr hn)).2 fun c => ⟨hmem hm hn h c, hmem hn hm (fun a => (h a).symm) c⟩

/-! ## Programs -/

/-- A program keeps the canonical form. -/
theorem Memory.wf_program {m : Memory} (h : m.wf) (a : Nat) (given failed : List Byte) (rest : Byte) :
    (m.program a given failed rest).wf := by
  induction given generalizing m a failed with
  | nil => exact h
  | cons g gs ih => exact ih (Memory.wf_write h _ _) _ _

/-- What is read after a program: named bytes ANDed with the given ones, but for the bits that did not take. -/
theorem Memory.read_program {m : Memory} (h : m.wf) (a : Nat) (given failed : List Byte) (rest : Byte) (x : Nat) :
    (m.program a given failed rest).read x =
      if a ≤ x ∧ x < a + given.length then
        m.read x &&& (given.getD (x - a) 0xFF ||| failed.getD (x - a) rest)
      else m.read x := by
  induction given generalizing m a failed with
  | nil => rw [Memory.program, if_neg (by simp)]
  | cons g gs ih =>
    rw [Memory.program, ih (Memory.wf_write h _ _), Memory.read_write h]
    by_cases hx : x = a
    · subst x
      rw [if_neg (by omega), if_pos rfl, if_pos (by simp)]
      cases failed <;> simp
    · rw [if_neg hx]
      by_cases hin : a + 1 ≤ x ∧ x < a + 1 + gs.length
      · rw [if_pos hin, if_pos (by simp; omega)]
        obtain ⟨k, hk⟩ : ∃ k, x - a = k + 1 := ⟨x - a - 1, by omega⟩
        rw [hk, show x - (a + 1) = k by omega]
        cases failed <;> simp
      · rw [if_neg hin, if_neg (by simp; omega)]

theorem Memory.read_program_outside {m : Memory} (h : m.wf) {a x : Nat} (given failed : List Byte) (rest : Byte)
    (hx : x < a ∨ a + given.length ≤ x) : (m.program a given failed rest).read x = m.read x := by
  rw [Memory.read_program h, if_neg (by omega)]

/-! ## Erases -/

theorem Memory.wf_blankSector {m : Memory} (h : m.wf) (base : Nat) : (m.blankSector base).wf :=
  ⟨h.1.filter _, fun c hc => h.2 c (List.mem_filter.1 hc).1⟩

theorem Memory.read_blankSector (m : Memory) (base x : Nat) :
    (m.blankSector base).read x = if base ≤ x ∧ x < base + 4096 then 0xFF else m.read x := by
  induction m with
  | nil => simp [Memory.blankSector, Memory.read, blankByte]
  | cons c m ih =>
    unfold Memory.blankSector at ih ⊢
    rw [List.filter_cons]
    split
    · rename_i hc
      simp only [Bool.or_eq_true, decide_eq_true_eq] at hc
      simp only [Config.sectorBytes] at hc
      rw [Memory.read, Memory.read, ih]
      split <;> split <;> first | rfl | omega
    · rename_i hc
      simp only [Bool.or_eq_true, decide_eq_true_eq] at hc
      simp only [Config.sectorBytes] at hc
      rw [Memory.read, ih]
      by_cases h1 : c.1 = x
      · rw [if_pos (by omega), if_pos (by omega)]
      · simp only [if_neg h1]

theorem Memory.isBlankSector_iff {m : Memory} (h : m.wf) (base : Nat) :
    m.isBlankSector base = true ↔ ∀ n, n < 4096 → m.read (base + n) = 0xFF := by
  unfold Memory.isBlankSector
  simp only [List.all_eq_true, Bool.or_eq_true, decide_eq_true_eq]
  simp only [Config.sectorBytes]
  constructor
  · intro ha n hn
    refine Memory.read_eq_blank_of_not_mem fun c hc => ?_
    have := ha c hc
    omega
  · intro ha c hc
    by_contra hlt
    have h1 := ha (c.1 - base) (by omega)
    rw [show base + (c.1 - base) = c.1 by omega, Memory.read_of_mem h hc] at h1
    exact h.2 c hc h1

/-- An erase keeps the canonical form. -/
theorem Memory.wf_erase {m : Memory} (h : m.wf) (base : Nat) (failed : List (Nat × Byte)) : (m.erase base failed).wf := by
  unfold Memory.erase
  generalize hacc : m.blankSector base = acc
  have hw : acc.wf := hacc ▸ Memory.wf_blankSector h base
  clear hacc
  induction failed generalizing acc with
  | nil => exact hw
  | cons c l ih =>
    refine ih _ ?_
    dsimp only
    split
    · exact Memory.wf_write hw _ _
    · exact hw

theorem Memory.read_erase_nil (m : Memory) (base x : Nat) :
    (m.erase base []).read x = if base ≤ x ∧ x < base + 4096 then 0xFF else m.read x :=
  Memory.read_blankSector m base x

/-- An erase changes nothing outside its sector. -/
theorem Memory.read_erase_outside {m : Memory} (h : m.wf) {base x : Nat} (failed : List (Nat × Byte))
    (hx : x < base ∨ base + 4096 ≤ x) : (m.erase base failed).read x = m.read x := by
  unfold Memory.erase
  have key : ∀ (l : List (Nat × Byte)) (acc : Memory), acc.wf →
      (l.foldl (fun acc c =>
        if c.1 < Config.sectorBytes then acc.write (base + c.1) (m.read (base + c.1) ||| c.2) else acc) acc).read x =
        acc.read x := by
    intro l
    induction l with
    | nil => intro acc _; rfl
    | cons c l ih =>
      intro acc hw
      rw [List.foldl_cons]
      split
      · rename_i hc
        rw [ih _ (Memory.wf_write hw _ _), Memory.read_write hw]
        simp only [Config.sectorBytes] at hc
        rw [if_neg (by omega)]
      · exact ih _ hw
  rw [key _ _ (Memory.wf_blankSector h base), Memory.read_blankSector, if_neg (by omega)]

/-- An abandoned erase keeps the canonical form. -/
theorem Memory.wf_eraseSome {m : Memory} (h : m.wf) (base : Nat) (erased : List (Nat × Byte)) :
    (m.eraseSome base erased).wf := by
  unfold Memory.eraseSome
  induction erased generalizing m with
  | nil => exact h
  | cons c l ih =>
    refine ih ?_
    dsimp only
    split
    · exact Memory.wf_write h _ _
    · exact h

/-- An abandoned erase leaves everything but the sector's body. -/
theorem Memory.read_eraseSome_outside {m : Memory} (h : m.wf) {base x : Nat} (erased : List (Nat × Byte))
    (hx : x < base + 16 ∨ base + 4096 ≤ x) : (m.eraseSome base erased).read x = m.read x := by
  unfold Memory.eraseSome
  induction erased generalizing m with
  | nil => rfl
  | cons c l ih =>
    rw [List.foldl_cons]
    split
    · rename_i hc
      simp only [Config.granuleBytes, Config.sectorBytes] at hc
      rw [ih (Memory.wf_write h _ _), Memory.read_write h, if_neg (by omega)]
    · exact ih h

/-- An abandoned erase only sets bits. -/
theorem Memory.read_eraseSome_sets {m : Memory} (h : m.wf) (base x : Nat) (erased : List (Nat × Byte)) :
    (m.eraseSome base erased).read x ||| m.read x = (m.eraseSome base erased).read x := by
  have key : ∀ (l : List (Nat × Byte)) (acc : Memory), acc.wf → acc.read x ||| m.read x = acc.read x →
      (acc.eraseSome base l).read x ||| m.read x = (acc.eraseSome base l).read x := by
    intro l
    induction l with
    | nil => intro acc _ ha; exact ha
    | cons c l ih =>
      intro acc hw ha
      unfold Memory.eraseSome at ih ⊢
      rw [List.foldl_cons]
      split
      · refine ih _ (Memory.wf_write hw _ _) ?_
        rw [Memory.read_write hw]
        split
        · subst x; rw [BitVec.or_assoc, BitVec.or_comm c.2, ← BitVec.or_assoc, ha]
        · exact ha
      · exact ih _ hw ha
  exact key erased m h (BitVec.or_self)

end Sys2Proof.Machine
end

