-- ==== Sys2Proof/Laws/State.lean ====
section
/-! SUPPORT. For every named update of State, one lemma per field: what the field is after it. All hold by rfl. -/

namespace Sys2Proof.Machine

section post
variable (e : Event) (s : State)
@[simp] theorem post_ctl : (post e s).ctl = s.ctl := rfl
@[simp] theorem post_cfg : (post e s).cfg = s.cfg := rfl
@[simp] theorem post_host : (post e s).host = s.host.post e := rfl
@[simp] theorem post_dir : (post e s).dir = s.dir := rfl
@[simp] theorem post_upd : (post e s).upd = s.upd := rfl
@[simp] theorem post_store : (post e s).store = s.store := rfl
@[simp] theorem post_flash : (post e s).flash = s.flash := rfl
@[simp] theorem post_line : (post e s).line = s.line := rfl
@[simp] theorem post_memb : (post e s).memb = s.memb := rfl
@[simp] theorem post_summ : (post e s).summ = s.summ := rfl
@[simp] theorem post_recon : (post e s).recon = s.recon := rfl
@[simp] theorem post_fetch : (post e s).fetch = s.fetch := rfl
@[simp] theorem post_resp : (post e s).resp = s.resp := rfl
@[simp] theorem post_now : (post e s).now = s.now := rfl
@[simp] theorem post_free : (post e s).free = s.free := rfl
@[simp] theorem post_pending : (post e s).pending = s.pending := rfl
end post

section openTxn
variable (k : TxnKind) (out : List Byte) (s : State)
@[simp] theorem openTxn_ctl : (openTxn k out s).ctl = s.ctl := rfl
@[simp] theorem openTxn_cfg : (openTxn k out s).cfg = s.cfg := rfl
@[simp] theorem openTxn_host : (openTxn k out s).host = { s.host with txn := some { kind := k, out := out } } := rfl
@[simp] theorem openTxn_dir : (openTxn k out s).dir = s.dir := rfl
@[simp] theorem openTxn_upd : (openTxn k out s).upd = s.upd := rfl
@[simp] theorem openTxn_store : (openTxn k out s).store = s.store := rfl
@[simp] theorem openTxn_flash : (openTxn k out s).flash = s.flash := rfl
@[simp] theorem openTxn_line : (openTxn k out s).line = s.line := rfl
@[simp] theorem openTxn_memb : (openTxn k out s).memb = s.memb := rfl
@[simp] theorem openTxn_summ : (openTxn k out s).summ = s.summ := rfl
@[simp] theorem openTxn_recon : (openTxn k out s).recon = s.recon := rfl
@[simp] theorem openTxn_fetch : (openTxn k out s).fetch = s.fetch := rfl
@[simp] theorem openTxn_resp : (openTxn k out s).resp = s.resp := rfl
@[simp] theorem openTxn_now : (openTxn k out s).now = s.now := rfl
@[simp] theorem openTxn_free : (openTxn k out s).free = s.free := rfl
@[simp] theorem openTxn_pending : (openTxn k out s).pending = s.pending := rfl
end openTxn

section complete
variable (r : Reply) (s : State)
@[simp] theorem complete_ctl : (complete r s).ctl = s.ctl := rfl
@[simp] theorem complete_cfg : (complete r s).cfg = s.cfg := rfl
@[simp] theorem complete_host : (complete r s).host = { s.host with request := none, reply := some { reply := r, read := false } } := rfl
@[simp] theorem complete_dir : (complete r s).dir = s.dir := rfl
@[simp] theorem complete_upd : (complete r s).upd = s.upd := rfl
@[simp] theorem complete_store : (complete r s).store = s.store := rfl
@[simp] theorem complete_flash : (complete r s).flash = s.flash := rfl
@[simp] theorem complete_line : (complete r s).line = s.line := rfl
@[simp] theorem complete_memb : (complete r s).memb = s.memb := rfl
@[simp] theorem complete_summ : (complete r s).summ = s.summ := rfl
@[simp] theorem complete_recon : (complete r s).recon = s.recon := rfl
@[simp] theorem complete_fetch : (complete r s).fetch = s.fetch := rfl
@[simp] theorem complete_resp : (complete r s).resp = s.resp := rfl
@[simp] theorem complete_now : (complete r s).now = s.now := rfl
@[simp] theorem complete_free : (complete r s).free = s.free := rfl
@[simp] theorem complete_pending : (complete r s).pending = s.pending := rfl
end complete

section accept
variable (s : State)
@[simp] theorem accept_ctl : (accept s).ctl = s.ctl := rfl
@[simp] theorem accept_cfg : (accept s).cfg = s.cfg := rfl
@[simp] theorem accept_host : (accept s).host = { s.host with txn := some { kind := .plain, out := [acceptedCode] }, reply := none } := rfl
@[simp] theorem accept_dir : (accept s).dir = s.dir := rfl
@[simp] theorem accept_upd : (accept s).upd = s.upd := rfl
@[simp] theorem accept_store : (accept s).store = s.store := rfl
@[simp] theorem accept_flash : (accept s).flash = s.flash := rfl
@[simp] theorem accept_line : (accept s).line = s.line := rfl
@[simp] theorem accept_memb : (accept s).memb = s.memb := rfl
@[simp] theorem accept_summ : (accept s).summ = s.summ := rfl
@[simp] theorem accept_recon : (accept s).recon = s.recon := rfl
@[simp] theorem accept_fetch : (accept s).fetch = s.fetch := rfl
@[simp] theorem accept_resp : (accept s).resp = s.resp := rfl
@[simp] theorem accept_now : (accept s).now = s.now := rfl
@[simp] theorem accept_free : (accept s).free = s.free := rfl
@[simp] theorem accept_pending : (accept s).pending = s.pending := rfl
end accept

section modifySector
variable (i : Nat) (f : Sector → Sector) (s : State)
@[simp] theorem modifySector_ctl : (modifySector i f s).ctl = s.ctl := rfl
@[simp] theorem modifySector_cfg : (modifySector i f s).cfg = s.cfg := rfl
@[simp] theorem modifySector_host : (modifySector i f s).host = s.host := rfl
@[simp] theorem modifySector_dir : (modifySector i f s).dir = s.dir := rfl
@[simp] theorem modifySector_upd : (modifySector i f s).upd = s.upd := rfl
@[simp] theorem modifySector_store : (modifySector i f s).store = { s.store with sectors := s.store.sectors.modify i f } := rfl
@[simp] theorem modifySector_flash : (modifySector i f s).flash = s.flash := rfl
@[simp] theorem modifySector_line : (modifySector i f s).line = s.line := rfl
@[simp] theorem modifySector_memb : (modifySector i f s).memb = s.memb := rfl
@[simp] theorem modifySector_summ : (modifySector i f s).summ = s.summ := rfl
@[simp] theorem modifySector_recon : (modifySector i f s).recon = s.recon := rfl
@[simp] theorem modifySector_fetch : (modifySector i f s).fetch = s.fetch := rfl
@[simp] theorem modifySector_resp : (modifySector i f s).resp = s.resp := rfl
@[simp] theorem modifySector_now : (modifySector i f s).now = s.now := rfl
@[simp] theorem modifySector_free : (modifySector i f s).free = s.free := rfl
@[simp] theorem modifySector_pending : (modifySector i f s).pending = s.pending := rfl
end modifySector

section addLive
variable (i n : Nat) (s : State)
@[simp] theorem addLive_ctl : (addLive i n s).ctl = s.ctl := rfl
@[simp] theorem addLive_cfg : (addLive i n s).cfg = s.cfg := rfl
@[simp] theorem addLive_host : (addLive i n s).host = s.host := rfl
@[simp] theorem addLive_dir : (addLive i n s).dir = s.dir := rfl
@[simp] theorem addLive_upd : (addLive i n s).upd = s.upd := rfl
@[simp] theorem addLive_store : (addLive i n s).store = { s.store with sectors := s.store.sectors.modify i fun x => { x with live := x.live + n } } := rfl
@[simp] theorem addLive_flash : (addLive i n s).flash = s.flash := rfl
@[simp] theorem addLive_line : (addLive i n s).line = s.line := rfl
@[simp] theorem addLive_memb : (addLive i n s).memb = s.memb := rfl
@[simp] theorem addLive_summ : (addLive i n s).summ = s.summ := rfl
@[simp] theorem addLive_recon : (addLive i n s).recon = s.recon := rfl
@[simp] theorem addLive_fetch : (addLive i n s).fetch = s.fetch := rfl
@[simp] theorem addLive_resp : (addLive i n s).resp = s.resp := rfl
@[simp] theorem addLive_now : (addLive i n s).now = s.now := rfl
@[simp] theorem addLive_free : (addLive i n s).free = s.free := rfl
@[simp] theorem addLive_pending : (addLive i n s).pending = s.pending := rfl
end addLive

section subLive
variable (i n : Nat) (s : State)
@[simp] theorem subLive_ctl : (subLive i n s).ctl = s.ctl := rfl
@[simp] theorem subLive_cfg : (subLive i n s).cfg = s.cfg := rfl
@[simp] theorem subLive_host : (subLive i n s).host = s.host := rfl
@[simp] theorem subLive_dir : (subLive i n s).dir = s.dir := rfl
@[simp] theorem subLive_upd : (subLive i n s).upd = s.upd := rfl
@[simp] theorem subLive_store : (subLive i n s).store = { s.store with sectors := s.store.sectors.modify i fun x => { x with live := x.live - n } } := rfl
@[simp] theorem subLive_flash : (subLive i n s).flash = s.flash := rfl
@[simp] theorem subLive_line : (subLive i n s).line = s.line := rfl
@[simp] theorem subLive_memb : (subLive i n s).memb = s.memb := rfl
@[simp] theorem subLive_summ : (subLive i n s).summ = s.summ := rfl
@[simp] theorem subLive_recon : (subLive i n s).recon = s.recon := rfl
@[simp] theorem subLive_fetch : (subLive i n s).fetch = s.fetch := rfl
@[simp] theorem subLive_resp : (subLive i n s).resp = s.resp := rfl
@[simp] theorem subLive_now : (subLive i n s).now = s.now := rfl
@[simp] theorem subLive_free : (subLive i n s).free = s.free := rfl
@[simp] theorem subLive_pending : (subLive i n s).pending = s.pending := rfl
end subLive

section setComp
variable (c : Compaction) (s : State)
@[simp] theorem setComp_ctl : (setComp c s).ctl = s.ctl := rfl
@[simp] theorem setComp_cfg : (setComp c s).cfg = s.cfg := rfl
@[simp] theorem setComp_host : (setComp c s).host = s.host := rfl
@[simp] theorem setComp_dir : (setComp c s).dir = s.dir := rfl
@[simp] theorem setComp_upd : (setComp c s).upd = s.upd := rfl
@[simp] theorem setComp_store : (setComp c s).store = { s.store with comp := c } := rfl
@[simp] theorem setComp_flash : (setComp c s).flash = s.flash := rfl
@[simp] theorem setComp_line : (setComp c s).line = s.line := rfl
@[simp] theorem setComp_memb : (setComp c s).memb = s.memb := rfl
@[simp] theorem setComp_summ : (setComp c s).summ = s.summ := rfl
@[simp] theorem setComp_recon : (setComp c s).recon = s.recon := rfl
@[simp] theorem setComp_fetch : (setComp c s).fetch = s.fetch := rfl
@[simp] theorem setComp_resp : (setComp c s).resp = s.resp := rfl
@[simp] theorem setComp_now : (setComp c s).now = s.now := rfl
@[simp] theorem setComp_free : (setComp c s).free = s.free := rfl
@[simp] theorem setComp_pending : (setComp c s).pending = s.pending := rfl
end setComp

section clearOp
variable (s : State)
@[simp] theorem clearOp_ctl : (clearOp s).ctl = s.ctl := rfl
@[simp] theorem clearOp_cfg : (clearOp s).cfg = s.cfg := rfl
@[simp] theorem clearOp_host : (clearOp s).host = s.host := rfl
@[simp] theorem clearOp_dir : (clearOp s).dir = s.dir := rfl
@[simp] theorem clearOp_upd : (clearOp s).upd = s.upd := rfl
@[simp] theorem clearOp_store : (clearOp s).store = { s.store with op := none } := rfl
@[simp] theorem clearOp_flash : (clearOp s).flash = s.flash := rfl
@[simp] theorem clearOp_line : (clearOp s).line = s.line := rfl
@[simp] theorem clearOp_memb : (clearOp s).memb = s.memb := rfl
@[simp] theorem clearOp_summ : (clearOp s).summ = s.summ := rfl
@[simp] theorem clearOp_recon : (clearOp s).recon = s.recon := rfl
@[simp] theorem clearOp_fetch : (clearOp s).fetch = s.fetch := rfl
@[simp] theorem clearOp_resp : (clearOp s).resp = s.resp := rfl
@[simp] theorem clearOp_now : (clearOp s).now = s.now := rfl
@[simp] theorem clearOp_free : (clearOp s).free = s.free := rfl
@[simp] theorem clearOp_pending : (clearOp s).pending = s.pending := rfl
end clearOp

section placeRead
variable (o : Reader) (l : Loc) (s : State)
@[simp] theorem placeRead_ctl : (placeRead o l s).ctl = s.ctl := rfl
@[simp] theorem placeRead_cfg : (placeRead o l s).cfg = s.cfg := rfl
@[simp] theorem placeRead_host : (placeRead o l s).host = s.host := rfl
@[simp] theorem placeRead_dir : (placeRead o l s).dir = s.dir := rfl
@[simp] theorem placeRead_upd : (placeRead o l s).upd = s.upd := rfl
@[simp] theorem placeRead_store : (placeRead o l s).store = { s.store with reads := s.store.reads ++ [{ owner := o, loc := l, after := s.upd.nextReady }] } := rfl
@[simp] theorem placeRead_flash : (placeRead o l s).flash = s.flash := rfl
@[simp] theorem placeRead_line : (placeRead o l s).line = s.line := rfl
@[simp] theorem placeRead_memb : (placeRead o l s).memb = s.memb := rfl
@[simp] theorem placeRead_summ : (placeRead o l s).summ = s.summ := rfl
@[simp] theorem placeRead_recon : (placeRead o l s).recon = s.recon := rfl
@[simp] theorem placeRead_fetch : (placeRead o l s).fetch = s.fetch := rfl
@[simp] theorem placeRead_resp : (placeRead o l s).resp = s.resp := rfl
@[simp] theorem placeRead_now : (placeRead o l s).now = s.now := rfl
@[simp] theorem placeRead_free : (placeRead o l s).free = s.free := rfl
@[simp] theorem placeRead_pending : (placeRead o l s).pending = s.pending := rfl
end placeRead

section endWalk
variable (v : Nat) (s : State)
@[simp] theorem endWalk_ctl : (endWalk v s).ctl = s.ctl := rfl
@[simp] theorem endWalk_cfg : (endWalk v s).cfg = s.cfg := rfl
@[simp] theorem endWalk_host : (endWalk v s).host = s.host := rfl
@[simp] theorem endWalk_dir : (endWalk v s).dir = s.dir := rfl
@[simp] theorem endWalk_upd : (endWalk v s).upd = s.upd := rfl
@[simp] theorem endWalk_store : (endWalk v s).store = { s.store with comp := .closing v, mark := some (.eraseBegun, v) } := rfl
@[simp] theorem endWalk_flash : (endWalk v s).flash = s.flash := rfl
@[simp] theorem endWalk_line : (endWalk v s).line = s.line := rfl
@[simp] theorem endWalk_memb : (endWalk v s).memb = s.memb := rfl
@[simp] theorem endWalk_summ : (endWalk v s).summ = s.summ := rfl
@[simp] theorem endWalk_recon : (endWalk v s).recon = s.recon := rfl
@[simp] theorem endWalk_fetch : (endWalk v s).fetch = s.fetch := rfl
@[simp] theorem endWalk_resp : (endWalk v s).resp = s.resp := rfl
@[simp] theorem endWalk_now : (endWalk v s).now = s.now := rfl
@[simp] theorem endWalk_free : (endWalk v s).free = s.free := rfl
@[simp] theorem endWalk_pending : (endWalk v s).pending = s.pending := rfl
end endWalk

section placeErase
variable (v : Nat) (s : State)
@[simp] theorem placeErase_ctl : (placeErase v s).ctl = s.ctl := rfl
@[simp] theorem placeErase_cfg : (placeErase v s).cfg = s.cfg := rfl
@[simp] theorem placeErase_host : (placeErase v s).host = s.host := rfl
@[simp] theorem placeErase_dir : (placeErase v s).dir = s.dir := rfl
@[simp] theorem placeErase_upd : (placeErase v s).upd = s.upd := rfl
@[simp] theorem placeErase_store : (placeErase v s).store = { s.store with comp := .erasing v, erase := some { sector := v, suspensions := 0, phase := .waiting } } := rfl
@[simp] theorem placeErase_flash : (placeErase v s).flash = s.flash := rfl
@[simp] theorem placeErase_line : (placeErase v s).line = s.line := rfl
@[simp] theorem placeErase_memb : (placeErase v s).memb = s.memb := rfl
@[simp] theorem placeErase_summ : (placeErase v s).summ = s.summ := rfl
@[simp] theorem placeErase_recon : (placeErase v s).recon = s.recon := rfl
@[simp] theorem placeErase_fetch : (placeErase v s).fetch = s.fetch := rfl
@[simp] theorem placeErase_resp : (placeErase v s).resp = s.resp := rfl
@[simp] theorem placeErase_now : (placeErase v s).now = s.now := rfl
@[simp] theorem placeErase_free : (placeErase v s).free = s.free := rfl
@[simp] theorem placeErase_pending : (placeErase v s).pending = s.pending := rfl
end placeErase

section dropErase
variable (s : State)
@[simp] theorem dropErase_ctl : (dropErase s).ctl = s.ctl := rfl
@[simp] theorem dropErase_cfg : (dropErase s).cfg = s.cfg := rfl
@[simp] theorem dropErase_host : (dropErase s).host = s.host := rfl
@[simp] theorem dropErase_dir : (dropErase s).dir = s.dir := rfl
@[simp] theorem dropErase_upd : (dropErase s).upd = s.upd := rfl
@[simp] theorem dropErase_store : (dropErase s).store = { s.store with erase := none } := rfl
@[simp] theorem dropErase_flash : (dropErase s).flash = s.flash := rfl
@[simp] theorem dropErase_line : (dropErase s).line = s.line := rfl
@[simp] theorem dropErase_memb : (dropErase s).memb = s.memb := rfl
@[simp] theorem dropErase_summ : (dropErase s).summ = s.summ := rfl
@[simp] theorem dropErase_recon : (dropErase s).recon = s.recon := rfl
@[simp] theorem dropErase_fetch : (dropErase s).fetch = s.fetch := rfl
@[simp] theorem dropErase_resp : (dropErase s).resp = s.resp := rfl
@[simp] theorem dropErase_now : (dropErase s).now = s.now := rfl
@[simp] theorem dropErase_free : (dropErase s).free = s.free := rfl
@[simp] theorem dropErase_pending : (dropErase s).pending = s.pending := rfl
end dropErase

section programFlash
variable (a : Nat) (given failed : List Byte) (r : Byte) (s : State)
@[simp] theorem programFlash_ctl : (programFlash a given failed r s).ctl = s.ctl := rfl
@[simp] theorem programFlash_cfg : (programFlash a given failed r s).cfg = s.cfg := rfl
@[simp] theorem programFlash_host : (programFlash a given failed r s).host = s.host := rfl
@[simp] theorem programFlash_dir : (programFlash a given failed r s).dir = s.dir := rfl
@[simp] theorem programFlash_upd : (programFlash a given failed r s).upd = s.upd := rfl
@[simp] theorem programFlash_store : (programFlash a given failed r s).store = s.store := rfl
@[simp] theorem programFlash_flash : (programFlash a given failed r s).flash = s.flash.program a given failed r := rfl
@[simp] theorem programFlash_line : (programFlash a given failed r s).line = s.line := rfl
@[simp] theorem programFlash_memb : (programFlash a given failed r s).memb = s.memb := rfl
@[simp] theorem programFlash_summ : (programFlash a given failed r s).summ = s.summ := rfl
@[simp] theorem programFlash_recon : (programFlash a given failed r s).recon = s.recon := rfl
@[simp] theorem programFlash_fetch : (programFlash a given failed r s).fetch = s.fetch := rfl
@[simp] theorem programFlash_resp : (programFlash a given failed r s).resp = s.resp := rfl
@[simp] theorem programFlash_now : (programFlash a given failed r s).now = s.now := rfl
@[simp] theorem programFlash_free : (programFlash a given failed r s).free = s.free := rfl
@[simp] theorem programFlash_pending : (programFlash a given failed r s).pending = s.pending := rfl
end programFlash

section placeFrame
variable (k : FrameKind) (fl : BitVec 4) (d : Byte) (p : List Byte) (r : Option Requester) (s : State)
@[simp] theorem placeFrame_ctl : (placeFrame k fl d p r s).ctl = s.ctl := rfl
@[simp] theorem placeFrame_cfg : (placeFrame k fl d p r s).cfg = s.cfg := rfl
@[simp] theorem placeFrame_host : (placeFrame k fl d p r s).host = s.host := rfl
@[simp] theorem placeFrame_dir : (placeFrame k fl d p r s).dir = s.dir := rfl
@[simp] theorem placeFrame_upd : (placeFrame k fl d p r s).upd = s.upd := rfl
@[simp] theorem placeFrame_store : (placeFrame k fl d p r s).store = s.store := rfl
@[simp] theorem placeFrame_flash : (placeFrame k fl d p r s).flash = s.flash := rfl
@[simp] theorem placeFrame_line : (placeFrame k fl d p r s).line = { s.line with txq := s.line.txq ++ [{ kind := k, flags := fl, dest := d, seq := s.line.seq, payload := p, collisions := 0, placer := r }], seq := s.line.seq + 1 } := rfl
@[simp] theorem placeFrame_memb : (placeFrame k fl d p r s).memb = s.memb := rfl
@[simp] theorem placeFrame_summ : (placeFrame k fl d p r s).summ = s.summ := rfl
@[simp] theorem placeFrame_recon : (placeFrame k fl d p r s).recon = s.recon := rfl
@[simp] theorem placeFrame_fetch : (placeFrame k fl d p r s).fetch = s.fetch := rfl
@[simp] theorem placeFrame_resp : (placeFrame k fl d p r s).resp = s.resp := rfl
@[simp] theorem placeFrame_now : (placeFrame k fl d p r s).now = s.now := rfl
@[simp] theorem placeFrame_free : (placeFrame k fl d p r s).free = s.free := rfl
@[simp] theorem placeFrame_pending : (placeFrame k fl d p r s).pending = s.pending := rfl
end placeFrame

section waitForRoom
variable (r : Requester) (s : State)
@[simp] theorem waitForRoom_ctl : (waitForRoom r s).ctl = s.ctl := rfl
@[simp] theorem waitForRoom_cfg : (waitForRoom r s).cfg = s.cfg := rfl
@[simp] theorem waitForRoom_host : (waitForRoom r s).host = s.host := rfl
@[simp] theorem waitForRoom_dir : (waitForRoom r s).dir = s.dir := rfl
@[simp] theorem waitForRoom_upd : (waitForRoom r s).upd = s.upd := rfl
@[simp] theorem waitForRoom_store : (waitForRoom r s).store = s.store := rfl
@[simp] theorem waitForRoom_flash : (waitForRoom r s).flash = s.flash := rfl
@[simp] theorem waitForRoom_line : (waitForRoom r s).line = { s.line with waiting := s.line.waiting ++ [r] } := rfl
@[simp] theorem waitForRoom_memb : (waitForRoom r s).memb = s.memb := rfl
@[simp] theorem waitForRoom_summ : (waitForRoom r s).summ = s.summ := rfl
@[simp] theorem waitForRoom_recon : (waitForRoom r s).recon = s.recon := rfl
@[simp] theorem waitForRoom_fetch : (waitForRoom r s).fetch = s.fetch := rfl
@[simp] theorem waitForRoom_resp : (waitForRoom r s).resp = s.resp := rfl
@[simp] theorem waitForRoom_now : (waitForRoom r s).now = s.now := rfl
@[simp] theorem waitForRoom_free : (waitForRoom r s).free = s.free := rfl
@[simp] theorem waitForRoom_pending : (waitForRoom r s).pending = s.pending := rfl
end waitForRoom

section dropRequest
variable (r : Requester) (s : State)
@[simp] theorem dropRequest_ctl : (dropRequest r s).ctl = s.ctl := rfl
@[simp] theorem dropRequest_cfg : (dropRequest r s).cfg = s.cfg := rfl
@[simp] theorem dropRequest_host : (dropRequest r s).host = s.host := rfl
@[simp] theorem dropRequest_dir : (dropRequest r s).dir = s.dir := rfl
@[simp] theorem dropRequest_upd : (dropRequest r s).upd = s.upd := rfl
@[simp] theorem dropRequest_store : (dropRequest r s).store = s.store := rfl
@[simp] theorem dropRequest_flash : (dropRequest r s).flash = s.flash := rfl
@[simp] theorem dropRequest_line : (dropRequest r s).line = { s.line with waiting := s.line.waiting.filter (fun q => q != r), txq := s.line.txq.map fun t => if t.placer = some r then { t with placer := none } else t } := rfl
@[simp] theorem dropRequest_memb : (dropRequest r s).memb = s.memb := rfl
@[simp] theorem dropRequest_summ : (dropRequest r s).summ = s.summ := rfl
@[simp] theorem dropRequest_recon : (dropRequest r s).recon = s.recon := rfl
@[simp] theorem dropRequest_fetch : (dropRequest r s).fetch = s.fetch := rfl
@[simp] theorem dropRequest_resp : (dropRequest r s).resp = s.resp := rfl
@[simp] theorem dropRequest_now : (dropRequest r s).now = s.now := rfl
@[simp] theorem dropRequest_free : (dropRequest r s).free = s.free := rfl
@[simp] theorem dropRequest_pending : (dropRequest r s).pending = s.pending := rfl
end dropRequest

section setPhase
variable (p : LinePhase) (s : State)
@[simp] theorem setPhase_ctl : (setPhase p s).ctl = s.ctl := rfl
@[simp] theorem setPhase_cfg : (setPhase p s).cfg = s.cfg := rfl
@[simp] theorem setPhase_host : (setPhase p s).host = s.host := rfl
@[simp] theorem setPhase_dir : (setPhase p s).dir = s.dir := rfl
@[simp] theorem setPhase_upd : (setPhase p s).upd = s.upd := rfl
@[simp] theorem setPhase_store : (setPhase p s).store = s.store := rfl
@[simp] theorem setPhase_flash : (setPhase p s).flash = s.flash := rfl
@[simp] theorem setPhase_line : (setPhase p s).line = { s.line with phase := p, quietSince := s.now } := rfl
@[simp] theorem setPhase_memb : (setPhase p s).memb = s.memb := rfl
@[simp] theorem setPhase_summ : (setPhase p s).summ = s.summ := rfl
@[simp] theorem setPhase_recon : (setPhase p s).recon = s.recon := rfl
@[simp] theorem setPhase_fetch : (setPhase p s).fetch = s.fetch := rfl
@[simp] theorem setPhase_resp : (setPhase p s).resp = s.resp := rfl
@[simp] theorem setPhase_now : (setPhase p s).now = s.now := rfl
@[simp] theorem setPhase_free : (setPhase p s).free = s.free := rfl
@[simp] theorem setPhase_pending : (setPhase p s).pending = s.pending := rfl
end setPhase

section startCycle
variable (s : State)
@[simp] theorem startCycle_ctl : (startCycle s).ctl = s.ctl := rfl
@[simp] theorem startCycle_cfg : (startCycle s).cfg = s.cfg := rfl
@[simp] theorem startCycle_host : (startCycle s).host = s.host := rfl
@[simp] theorem startCycle_dir : (startCycle s).dir = s.dir := rfl
@[simp] theorem startCycle_upd : (startCycle s).upd = s.upd := rfl
@[simp] theorem startCycle_store : (startCycle s).store = s.store := rfl
@[simp] theorem startCycle_flash : (startCycle s).flash = s.flash := rfl
@[simp] theorem startCycle_line : (startCycle s).line = { s.line with phase := .cycle, slot := 0 } := rfl
@[simp] theorem startCycle_memb : (startCycle s).memb = s.memb := rfl
@[simp] theorem startCycle_summ : (startCycle s).summ = s.summ := rfl
@[simp] theorem startCycle_recon : (startCycle s).recon = s.recon := rfl
@[simp] theorem startCycle_fetch : (startCycle s).fetch = s.fetch := rfl
@[simp] theorem startCycle_resp : (startCycle s).resp = s.resp := rfl
@[simp] theorem startCycle_now : (startCycle s).now = s.now := rfl
@[simp] theorem startCycle_free : (startCycle s).free = s.free := rfl
@[simp] theorem startCycle_pending : (startCycle s).pending = s.pending := rfl
end startCycle

section setBase
variable (b : Station) (s : State)
@[simp] theorem setBase_ctl : (setBase b s).ctl = s.ctl := rfl
@[simp] theorem setBase_cfg : (setBase b s).cfg = s.cfg := rfl
@[simp] theorem setBase_host : (setBase b s).host = s.host := rfl
@[simp] theorem setBase_dir : (setBase b s).dir = s.dir := rfl
@[simp] theorem setBase_upd : (setBase b s).upd = s.upd := rfl
@[simp] theorem setBase_store : (setBase b s).store = s.store := rfl
@[simp] theorem setBase_flash : (setBase b s).flash = s.flash := rfl
@[simp] theorem setBase_line : (setBase b s).line = { s.line with base := b } := rfl
@[simp] theorem setBase_memb : (setBase b s).memb = s.memb := rfl
@[simp] theorem setBase_summ : (setBase b s).summ = s.summ := rfl
@[simp] theorem setBase_recon : (setBase b s).recon = s.recon := rfl
@[simp] theorem setBase_fetch : (setBase b s).fetch = s.fetch := rfl
@[simp] theorem setBase_resp : (setBase b s).resp = s.resp := rfl
@[simp] theorem setBase_now : (setBase b s).now = s.now := rfl
@[simp] theorem setBase_free : (setBase b s).free = s.free := rfl
@[simp] theorem setBase_pending : (setBase b s).pending = s.pending := rfl
end setBase

section countDeferral
variable (s : State)
@[simp] theorem countDeferral_ctl : (countDeferral s).ctl = s.ctl := rfl
@[simp] theorem countDeferral_cfg : (countDeferral s).cfg = s.cfg := rfl
@[simp] theorem countDeferral_host : (countDeferral s).host = s.host := rfl
@[simp] theorem countDeferral_dir : (countDeferral s).dir = s.dir := rfl
@[simp] theorem countDeferral_upd : (countDeferral s).upd = s.upd := rfl
@[simp] theorem countDeferral_store : (countDeferral s).store = s.store := rfl
@[simp] theorem countDeferral_flash : (countDeferral s).flash = s.flash := rfl
@[simp] theorem countDeferral_line : (countDeferral s).line = { s.line with deferral := s.line.deferral - 1 } := rfl
@[simp] theorem countDeferral_memb : (countDeferral s).memb = s.memb := rfl
@[simp] theorem countDeferral_summ : (countDeferral s).summ = s.summ := rfl
@[simp] theorem countDeferral_recon : (countDeferral s).recon = s.recon := rfl
@[simp] theorem countDeferral_fetch : (countDeferral s).fetch = s.fetch := rfl
@[simp] theorem countDeferral_resp : (countDeferral s).resp = s.resp := rfl
@[simp] theorem countDeferral_now : (countDeferral s).now = s.now := rfl
@[simp] theorem countDeferral_free : (countDeferral s).free = s.free := rfl
@[simp] theorem countDeferral_pending : (countDeferral s).pending = s.pending := rfl
end countDeferral

section stopSending
variable (s : State)
@[simp] theorem stopSending_ctl : (stopSending s).ctl = s.ctl := rfl
@[simp] theorem stopSending_cfg : (stopSending s).cfg = s.cfg := rfl
@[simp] theorem stopSending_host : (stopSending s).host = s.host := rfl
@[simp] theorem stopSending_dir : (stopSending s).dir = s.dir := rfl
@[simp] theorem stopSending_upd : (stopSending s).upd = s.upd := rfl
@[simp] theorem stopSending_store : (stopSending s).store = s.store := rfl
@[simp] theorem stopSending_flash : (stopSending s).flash = s.flash := rfl
@[simp] theorem stopSending_line : (stopSending s).line = { s.line with sending := none } := rfl
@[simp] theorem stopSending_memb : (stopSending s).memb = s.memb := rfl
@[simp] theorem stopSending_summ : (stopSending s).summ = s.summ := rfl
@[simp] theorem stopSending_recon : (stopSending s).recon = s.recon := rfl
@[simp] theorem stopSending_fetch : (stopSending s).fetch = s.fetch := rfl
@[simp] theorem stopSending_resp : (stopSending s).resp = s.resp := rfl
@[simp] theorem stopSending_now : (stopSending s).now = s.now := rfl
@[simp] theorem stopSending_free : (stopSending s).free = s.free := rfl
@[simp] theorem stopSending_pending : (stopSending s).pending = s.pending := rfl
end stopSending

section countSlot
variable (s : State)
@[simp] theorem countSlot_ctl : (countSlot s).ctl = s.ctl := rfl
@[simp] theorem countSlot_cfg : (countSlot s).cfg = s.cfg := rfl
@[simp] theorem countSlot_host : (countSlot s).host = s.host := rfl
@[simp] theorem countSlot_dir : (countSlot s).dir = s.dir := rfl
@[simp] theorem countSlot_upd : (countSlot s).upd = s.upd := rfl
@[simp] theorem countSlot_store : (countSlot s).store = s.store := rfl
@[simp] theorem countSlot_flash : (countSlot s).flash = s.flash := rfl
@[simp] theorem countSlot_line : (countSlot s).line = { s.line with slot := s.line.slot + 1 } := rfl
@[simp] theorem countSlot_memb : (countSlot s).memb = s.memb := rfl
@[simp] theorem countSlot_summ : (countSlot s).summ = s.summ := rfl
@[simp] theorem countSlot_recon : (countSlot s).recon = s.recon := rfl
@[simp] theorem countSlot_fetch : (countSlot s).fetch = s.fetch := rfl
@[simp] theorem countSlot_resp : (countSlot s).resp = s.resp := rfl
@[simp] theorem countSlot_now : (countSlot s).now = s.now := rfl
@[simp] theorem countSlot_free : (countSlot s).free = s.free := rfl
@[simp] theorem countSlot_pending : (countSlot s).pending = s.pending := rfl
end countSlot

section setPeer
variable (p : Station) (e : Peer) (s : State)
@[simp] theorem setPeer_ctl : (setPeer p e s).ctl = s.ctl := rfl
@[simp] theorem setPeer_cfg : (setPeer p e s).cfg = s.cfg := rfl
@[simp] theorem setPeer_host : (setPeer p e s).host = s.host := rfl
@[simp] theorem setPeer_dir : (setPeer p e s).dir = s.dir := rfl
@[simp] theorem setPeer_upd : (setPeer p e s).upd = s.upd := rfl
@[simp] theorem setPeer_store : (setPeer p e s).store = s.store := rfl
@[simp] theorem setPeer_flash : (setPeer p e s).flash = s.flash := rfl
@[simp] theorem setPeer_line : (setPeer p e s).line = s.line := rfl
@[simp] theorem setPeer_memb : (setPeer p e s).memb = { s.memb with peers := s.memb.peers.set p.toNat e (station_lt p) } := rfl
@[simp] theorem setPeer_summ : (setPeer p e s).summ = s.summ := rfl
@[simp] theorem setPeer_recon : (setPeer p e s).recon = s.recon := rfl
@[simp] theorem setPeer_fetch : (setPeer p e s).fetch = s.fetch := rfl
@[simp] theorem setPeer_resp : (setPeer p e s).resp = s.resp := rfl
@[simp] theorem setPeer_now : (setPeer p e s).now = s.now := rfl
@[simp] theorem setPeer_free : (setPeer p e s).free = s.free := rfl
@[simp] theorem setPeer_pending : (setPeer p e s).pending = s.pending := rfl
end setPeer

section changePeer
variable (p : Station) (e : Peer) (s : State)
@[simp] theorem changePeer_ctl : (changePeer p e s).ctl = s.ctl := rfl
@[simp] theorem changePeer_cfg : (changePeer p e s).cfg = s.cfg := rfl
@[simp] theorem changePeer_host : (changePeer p e s).host = s.host.post (.peerState p e.state) := rfl
@[simp] theorem changePeer_dir : (changePeer p e s).dir = s.dir := rfl
@[simp] theorem changePeer_upd : (changePeer p e s).upd = s.upd := rfl
@[simp] theorem changePeer_store : (changePeer p e s).store = s.store := rfl
@[simp] theorem changePeer_flash : (changePeer p e s).flash = s.flash := rfl
@[simp] theorem changePeer_line : (changePeer p e s).line = s.line := rfl
@[simp] theorem changePeer_memb : (changePeer p e s).memb = { s.memb with peers := s.memb.peers.set p.toNat e (station_lt p) } := rfl
@[simp] theorem changePeer_summ : (changePeer p e s).summ = s.summ := rfl
@[simp] theorem changePeer_recon : (changePeer p e s).recon = s.recon := rfl
@[simp] theorem changePeer_fetch : (changePeer p e s).fetch = s.fetch := rfl
@[simp] theorem changePeer_resp : (changePeer p e s).resp = s.resp := rfl
@[simp] theorem changePeer_now : (changePeer p e s).now = s.now := rfl
@[simp] theorem changePeer_free : (changePeer p e s).free = s.free := rfl
@[simp] theorem changePeer_pending : (changePeer p e s).pending = s.pending := rfl
end changePeer

section setFetchSlot
variable (i : Fin 4) (x : FetchSlot) (s : State)
@[simp] theorem setFetchSlot_ctl : (setFetchSlot i x s).ctl = s.ctl := rfl
@[simp] theorem setFetchSlot_cfg : (setFetchSlot i x s).cfg = s.cfg := rfl
@[simp] theorem setFetchSlot_host : (setFetchSlot i x s).host = s.host := rfl
@[simp] theorem setFetchSlot_dir : (setFetchSlot i x s).dir = s.dir := rfl
@[simp] theorem setFetchSlot_upd : (setFetchSlot i x s).upd = s.upd := rfl
@[simp] theorem setFetchSlot_store : (setFetchSlot i x s).store = s.store := rfl
@[simp] theorem setFetchSlot_flash : (setFetchSlot i x s).flash = s.flash := rfl
@[simp] theorem setFetchSlot_line : (setFetchSlot i x s).line = s.line := rfl
@[simp] theorem setFetchSlot_memb : (setFetchSlot i x s).memb = s.memb := rfl
@[simp] theorem setFetchSlot_summ : (setFetchSlot i x s).summ = s.summ := rfl
@[simp] theorem setFetchSlot_recon : (setFetchSlot i x s).recon = s.recon := rfl
@[simp] theorem setFetchSlot_fetch : (setFetchSlot i x s).fetch = { s.fetch with slots := s.fetch.slots.set i x } := rfl
@[simp] theorem setFetchSlot_resp : (setFetchSlot i x s).resp = s.resp := rfl
@[simp] theorem setFetchSlot_now : (setFetchSlot i x s).now = s.now := rfl
@[simp] theorem setFetchSlot_free : (setFetchSlot i x s).free = s.free := rfl
@[simp] theorem setFetchSlot_pending : (setFetchSlot i x s).pending = s.pending := rfl
end setFetchSlot

section setWants
variable (l : List Want) (s : State)
@[simp] theorem setWants_ctl : (setWants l s).ctl = s.ctl := rfl
@[simp] theorem setWants_cfg : (setWants l s).cfg = s.cfg := rfl
@[simp] theorem setWants_host : (setWants l s).host = s.host := rfl
@[simp] theorem setWants_dir : (setWants l s).dir = s.dir := rfl
@[simp] theorem setWants_upd : (setWants l s).upd = s.upd := rfl
@[simp] theorem setWants_store : (setWants l s).store = s.store := rfl
@[simp] theorem setWants_flash : (setWants l s).flash = s.flash := rfl
@[simp] theorem setWants_line : (setWants l s).line = s.line := rfl
@[simp] theorem setWants_memb : (setWants l s).memb = s.memb := rfl
@[simp] theorem setWants_summ : (setWants l s).summ = s.summ := rfl
@[simp] theorem setWants_recon : (setWants l s).recon = s.recon := rfl
@[simp] theorem setWants_fetch : (setWants l s).fetch = { s.fetch with wants := l } := rfl
@[simp] theorem setWants_resp : (setWants l s).resp = s.resp := rfl
@[simp] theorem setWants_now : (setWants l s).now = s.now := rfl
@[simp] theorem setWants_free : (setWants l s).free = s.free := rfl
@[simp] theorem setWants_pending : (setWants l s).pending = s.pending := rfl
end setWants

section setService
variable (v : Option Service) (s : State)
@[simp] theorem setService_ctl : (setService v s).ctl = s.ctl := rfl
@[simp] theorem setService_cfg : (setService v s).cfg = s.cfg := rfl
@[simp] theorem setService_host : (setService v s).host = s.host := rfl
@[simp] theorem setService_dir : (setService v s).dir = s.dir := rfl
@[simp] theorem setService_upd : (setService v s).upd = s.upd := rfl
@[simp] theorem setService_store : (setService v s).store = s.store := rfl
@[simp] theorem setService_flash : (setService v s).flash = s.flash := rfl
@[simp] theorem setService_line : (setService v s).line = s.line := rfl
@[simp] theorem setService_memb : (setService v s).memb = s.memb := rfl
@[simp] theorem setService_summ : (setService v s).summ = s.summ := rfl
@[simp] theorem setService_recon : (setService v s).recon = s.recon := rfl
@[simp] theorem setService_fetch : (setService v s).fetch = s.fetch := rfl
@[simp] theorem setService_resp : (setService v s).resp = { s.resp with service := v } := rfl
@[simp] theorem setService_now : (setService v s).now = s.now := rfl
@[simp] theorem setService_free : (setService v s).free = s.free := rfl
@[simp] theorem setService_pending : (setService v s).pending = s.pending := rfl
end setService

section setSlot
variable (i : Fin 4) (x : Option Slot) (s : State)
@[simp] theorem setSlot_ctl : (setSlot i x s).ctl = s.ctl := rfl
@[simp] theorem setSlot_cfg : (setSlot i x s).cfg = s.cfg := rfl
@[simp] theorem setSlot_host : (setSlot i x s).host = s.host := rfl
@[simp] theorem setSlot_dir : (setSlot i x s).dir = s.dir := rfl
@[simp] theorem setSlot_upd : (setSlot i x s).upd = { s.upd with slots := s.upd.slots.set i x } := rfl
@[simp] theorem setSlot_store : (setSlot i x s).store = s.store := rfl
@[simp] theorem setSlot_flash : (setSlot i x s).flash = s.flash := rfl
@[simp] theorem setSlot_line : (setSlot i x s).line = s.line := rfl
@[simp] theorem setSlot_memb : (setSlot i x s).memb = s.memb := rfl
@[simp] theorem setSlot_summ : (setSlot i x s).summ = s.summ := rfl
@[simp] theorem setSlot_recon : (setSlot i x s).recon = s.recon := rfl
@[simp] theorem setSlot_fetch : (setSlot i x s).fetch = s.fetch := rfl
@[simp] theorem setSlot_resp : (setSlot i x s).resp = s.resp := rfl
@[simp] theorem setSlot_now : (setSlot i x s).now = s.now := rfl
@[simp] theorem setSlot_free : (setSlot i x s).free = s.free := rfl
@[simp] theorem setSlot_pending : (setSlot i x s).pending = s.pending := rfl
end setSlot

section enterWaitStore
variable (i : Fin 4) (x : Slot) (s : State)
@[simp] theorem enterWaitStore_ctl : (enterWaitStore i x s).ctl = s.ctl := rfl
@[simp] theorem enterWaitStore_cfg : (enterWaitStore i x s).cfg = s.cfg := rfl
@[simp] theorem enterWaitStore_host : (enterWaitStore i x s).host = s.host := rfl
@[simp] theorem enterWaitStore_dir : (enterWaitStore i x s).dir = s.dir := rfl
@[simp] theorem enterWaitStore_upd : (enterWaitStore i x s).upd = { s.upd with slots := s.upd.slots.set i (some { x with phase := .waitStore, ready := s.upd.nextReady }), nextReady := s.upd.nextReady + 1 } := rfl
@[simp] theorem enterWaitStore_store : (enterWaitStore i x s).store = s.store := rfl
@[simp] theorem enterWaitStore_flash : (enterWaitStore i x s).flash = s.flash := rfl
@[simp] theorem enterWaitStore_line : (enterWaitStore i x s).line = s.line := rfl
@[simp] theorem enterWaitStore_memb : (enterWaitStore i x s).memb = s.memb := rfl
@[simp] theorem enterWaitStore_summ : (enterWaitStore i x s).summ = s.summ := rfl
@[simp] theorem enterWaitStore_recon : (enterWaitStore i x s).recon = s.recon := rfl
@[simp] theorem enterWaitStore_fetch : (enterWaitStore i x s).fetch = s.fetch := rfl
@[simp] theorem enterWaitStore_resp : (enterWaitStore i x s).resp = s.resp := rfl
@[simp] theorem enterWaitStore_now : (enterWaitStore i x s).now = s.now := rfl
@[simp] theorem enterWaitStore_free : (enterWaitStore i x s).free = s.free := rfl
@[simp] theorem enterWaitStore_pending : (enterWaitStore i x s).pending = s.pending := rfl
end enterWaitStore

section wakeStoreWait
variable (s : State)
@[simp] theorem wakeStoreWait_ctl : (wakeStoreWait s).ctl = s.ctl := rfl
@[simp] theorem wakeStoreWait_cfg : (wakeStoreWait s).cfg = s.cfg := rfl
@[simp] theorem wakeStoreWait_host : (wakeStoreWait s).host = s.host := rfl
@[simp] theorem wakeStoreWait_dir : (wakeStoreWait s).dir = s.dir := rfl
@[simp] theorem wakeStoreWait_upd : (wakeStoreWait s).upd = { s.upd with slots := s.upd.slots.map (Option.map wakeSlot) } := rfl
@[simp] theorem wakeStoreWait_store : (wakeStoreWait s).store = s.store := rfl
@[simp] theorem wakeStoreWait_flash : (wakeStoreWait s).flash = s.flash := rfl
@[simp] theorem wakeStoreWait_line : (wakeStoreWait s).line = s.line := rfl
@[simp] theorem wakeStoreWait_memb : (wakeStoreWait s).memb = s.memb := rfl
@[simp] theorem wakeStoreWait_summ : (wakeStoreWait s).summ = s.summ := rfl
@[simp] theorem wakeStoreWait_recon : (wakeStoreWait s).recon = s.recon := rfl
@[simp] theorem wakeStoreWait_fetch : (wakeStoreWait s).fetch = s.fetch := rfl
@[simp] theorem wakeStoreWait_resp : (wakeStoreWait s).resp = s.resp := rfl
@[simp] theorem wakeStoreWait_now : (wakeStoreWait s).now = s.now := rfl
@[simp] theorem wakeStoreWait_free : (wakeStoreWait s).free = s.free := rfl
@[simp] theorem wakeStoreWait_pending : (wakeStoreWait s).pending = s.pending := rfl
end wakeStoreWait

section setStation
variable (q : StationState) (s : State)
@[simp] theorem setStation_ctl : (setStation q s).ctl = { s.ctl with st := q } := rfl
@[simp] theorem setStation_cfg : (setStation q s).cfg = s.cfg := rfl
@[simp] theorem setStation_host : (setStation q s).host = s.host := rfl
@[simp] theorem setStation_dir : (setStation q s).dir = s.dir := rfl
@[simp] theorem setStation_upd : (setStation q s).upd = s.upd := rfl
@[simp] theorem setStation_store : (setStation q s).store = s.store := rfl
@[simp] theorem setStation_flash : (setStation q s).flash = s.flash := rfl
@[simp] theorem setStation_line : (setStation q s).line = s.line := rfl
@[simp] theorem setStation_memb : (setStation q s).memb = s.memb := rfl
@[simp] theorem setStation_summ : (setStation q s).summ = s.summ := rfl
@[simp] theorem setStation_recon : (setStation q s).recon = s.recon := rfl
@[simp] theorem setStation_fetch : (setStation q s).fetch = s.fetch := rfl
@[simp] theorem setStation_resp : (setStation q s).resp = s.resp := rfl
@[simp] theorem setStation_now : (setStation q s).now = s.now := rfl
@[simp] theorem setStation_free : (setStation q s).free = s.free := rfl
@[simp] theorem setStation_pending : (setStation q s).pending = s.pending := rfl
end setStation

section enterStation
variable (q : StationState) (s : State)
@[simp] theorem enterStation_ctl : (enterStation q s).ctl = { s.ctl with st := q } := rfl
@[simp] theorem enterStation_cfg : (enterStation q s).cfg = s.cfg := rfl
@[simp] theorem enterStation_host : (enterStation q s).host = s.host.post (.stationState q) := rfl
@[simp] theorem enterStation_dir : (enterStation q s).dir = s.dir := rfl
@[simp] theorem enterStation_upd : (enterStation q s).upd = s.upd := rfl
@[simp] theorem enterStation_store : (enterStation q s).store = s.store := rfl
@[simp] theorem enterStation_flash : (enterStation q s).flash = s.flash := rfl
@[simp] theorem enterStation_line : (enterStation q s).line = s.line := rfl
@[simp] theorem enterStation_memb : (enterStation q s).memb = s.memb := rfl
@[simp] theorem enterStation_summ : (enterStation q s).summ = s.summ := rfl
@[simp] theorem enterStation_recon : (enterStation q s).recon = s.recon := rfl
@[simp] theorem enterStation_fetch : (enterStation q s).fetch = s.fetch := rfl
@[simp] theorem enterStation_resp : (enterStation q s).resp = s.resp := rfl
@[simp] theorem enterStation_now : (enterStation q s).now = s.now := rfl
@[simp] theorem enterStation_free : (enterStation q s).free = s.free := rfl
@[simp] theorem enterStation_pending : (enterStation q s).pending = s.pending := rfl
end enterStation

section copyGroup
variable (s : State)
@[simp] theorem copyGroup_ctl : (copyGroup s).ctl = { s.ctl with groupBytes := s.cfg.bytes.toList.take 36, groupHash := crc32 (s.cfg.bytes.toList.take 36) } := rfl
@[simp] theorem copyGroup_cfg : (copyGroup s).cfg = s.cfg := rfl
@[simp] theorem copyGroup_host : (copyGroup s).host = s.host := rfl
@[simp] theorem copyGroup_dir : (copyGroup s).dir = s.dir := rfl
@[simp] theorem copyGroup_upd : (copyGroup s).upd = s.upd := rfl
@[simp] theorem copyGroup_store : (copyGroup s).store = s.store := rfl
@[simp] theorem copyGroup_flash : (copyGroup s).flash = s.flash := rfl
@[simp] theorem copyGroup_line : (copyGroup s).line = s.line := rfl
@[simp] theorem copyGroup_memb : (copyGroup s).memb = s.memb := rfl
@[simp] theorem copyGroup_summ : (copyGroup s).summ = s.summ := rfl
@[simp] theorem copyGroup_recon : (copyGroup s).recon = s.recon := rfl
@[simp] theorem copyGroup_fetch : (copyGroup s).fetch = s.fetch := rfl
@[simp] theorem copyGroup_resp : (copyGroup s).resp = s.resp := rfl
@[simp] theorem copyGroup_now : (copyGroup s).now = s.now := rfl
@[simp] theorem copyGroup_free : (copyGroup s).free = s.free := rfl
@[simp] theorem copyGroup_pending : (copyGroup s).pending = s.pending := rfl
end copyGroup

section programConfig
variable (p : ConfigProgram) (failed : List Byte) (r : Byte) (s : State)
@[simp] theorem programConfig_ctl : (programConfig p failed r s).ctl = s.ctl := rfl
@[simp] theorem programConfig_cfg : (programConfig p failed r s).cfg = { bytes := programArea s.cfg.bytes p.given.1 p.given.2 failed r, prog := none } := rfl
@[simp] theorem programConfig_host : (programConfig p failed r s).host = s.host := rfl
@[simp] theorem programConfig_dir : (programConfig p failed r s).dir = s.dir := rfl
@[simp] theorem programConfig_upd : (programConfig p failed r s).upd = s.upd := rfl
@[simp] theorem programConfig_store : (programConfig p failed r s).store = s.store := rfl
@[simp] theorem programConfig_flash : (programConfig p failed r s).flash = s.flash := rfl
@[simp] theorem programConfig_line : (programConfig p failed r s).line = s.line := rfl
@[simp] theorem programConfig_memb : (programConfig p failed r s).memb = s.memb := rfl
@[simp] theorem programConfig_summ : (programConfig p failed r s).summ = s.summ := rfl
@[simp] theorem programConfig_recon : (programConfig p failed r s).recon = s.recon := rfl
@[simp] theorem programConfig_fetch : (programConfig p failed r s).fetch = s.fetch := rfl
@[simp] theorem programConfig_resp : (programConfig p failed r s).resp = s.resp := rfl
@[simp] theorem programConfig_now : (programConfig p failed r s).now = s.now := rfl
@[simp] theorem programConfig_free : (programConfig p failed r s).free = s.free := rfl
@[simp] theorem programConfig_pending : (programConfig p failed r s).pending = s.pending := rfl
end programConfig

section tick
variable (s : State)
@[simp] theorem tick_ctl : (tick s).ctl = s.ctl := rfl
@[simp] theorem tick_cfg : (tick s).cfg = s.cfg := rfl
@[simp] theorem tick_host : (tick s).host = s.host := rfl
@[simp] theorem tick_dir : (tick s).dir = s.dir := rfl
@[simp] theorem tick_upd : (tick s).upd = s.upd := rfl
@[simp] theorem tick_store : (tick s).store = s.store := rfl
@[simp] theorem tick_flash : (tick s).flash = s.flash := rfl
@[simp] theorem tick_line : (tick s).line = s.line := rfl
@[simp] theorem tick_memb : (tick s).memb = s.memb := rfl
@[simp] theorem tick_summ : (tick s).summ = s.summ := rfl
@[simp] theorem tick_recon : (tick s).recon = s.recon := rfl
@[simp] theorem tick_fetch : (tick s).fetch = s.fetch := rfl
@[simp] theorem tick_resp : (tick s).resp = s.resp := rfl
@[simp] theorem tick_now : (tick s).now = s.now + 1 := rfl
@[simp] theorem tick_free : (tick s).free = s.free := rfl
@[simp] theorem tick_pending : (tick s).pending = s.pending := rfl
end tick

end Sys2Proof.Machine
end

