-- ==== Sys2Proof/Laws/Store.lean ====
section
/-! SUPPORT. The Flash Store's shared operations: choosing sectors, the OPEN sector, and all that the trigger, the walk and the
space test can change (StoreOps.lean). -/

namespace Sys2Proof.Machine

set_option linter.unusedSimpArgs false

theorem length_readBytes (m : Memory) (a n : Nat) : (m.readBytes a n).length = n := by simp [Memory.readBytes]

theorem getD_readBytes (m : Memory) (a n i : Nat) (h : i < n) : (m.readBytes a n).getD i 0 = m.read (a + i) := by
  simp [Memory.readBytes, List.getD, List.getElem?_map, h]

theorem readBytes_eq_iff (m : Memory) (a : Nat) (l : List Byte) : m.readBytes a l.length = l ↔ ∀ i,
    i < l.length → m.read (a + i) = l.getD i 0 := by
  constructor
  · intro h i hi; rw [← getD_readBytes m a _ i hi, h]
  · intro h
    apply List.ext_getElem (by simp [length_readBytes])
    intro i h1 h2
    have := h i h2
    simp [Memory.readBytes, this, List.getD, h2]

theorem headerAddr_eq (n) : headerAddr n = n * 4096 := rfl

theorem read_programMark {s : State} (hf : FlashLaw s) (v : Nat) (b : Byte) (a : Nat) :
    (programMark v b 0 s).flash.read a = if a = v * 4096 + 15 then s.flash.read a &&& b else s.flash.read a := by
  unfold programMark programFlash
  simp only []
  rw [Memory.read_program hf, headerAddr_eq]
  by_cases h : a = v * 4096 + 15
  · subst h; simp
  · rw [if_neg h, if_neg]; simp; omega

theorem wf_programMark {s : State} (hf : FlashLaw s) (v : Nat) (b c : Byte) :
    (programMark v b c s).flash.wf := Memory.wf_program hf _ _ _ _

theorem argmin_eq_some (m : Nat → Nat) (l : List Nat) (n : Nat) (hn : n ∈ l) (hs : l.Pairwise (· < ·)) (h : ∀ k ∈ l,
    m n < m k ∨ (m n = m k ∧ n ≤ k)) : argmin m l = some n := by
  unfold argmin
  have key : ∀ (l : List Nat) (b : Option Nat), l.Pairwise (· < ·) → (n ∈ l ∨ b = some n) → (∀ k ∈ l,
      m n < m k ∨ (m n = m k ∧ n ≤ k)) → (∀ j, b = some j → m n < m j ∨ j = n) →
     (l.foldl (fun best i => match best with | some j => if m i < m j then some i else some j | none => some i) b) =
         some n := by
    intro l
    induction l with
    | nil => intro b _ h1 _ _; simpa using h1
    | cons a l ih =>
      intro b hs h1 h2 h3
      rw [List.pairwise_cons] at hs
      rw [List.foldl_cons]
      have ha := h2 a (by simp)
      apply ih _ hs.2
      · rcases h1 with h1 | h1
        · rcases List.mem_cons.1 h1 with rfl | h1
          · right
            cases b with
            | none => rfl
            | some j =>
              rcases h3 j rfl with h4 | rfl
              · simp [h4]
              · simp
          · exact Or.inl h1
        · subst h1; right
          have : ¬ m a < m n := by omega
          simp [this]
      · exact fun k hk => h2 k (by simp [hk])
      · intro j hj
        cases b with
        | none =>
          simp at hj; subst hj
          rcases ha with ha | ⟨_, ha⟩
          · exact Or.inl ha
          · by_cases e : a = n
            · exact Or.inr e
            · left
              rcases h1 with h1 | h1
              · rcases List.mem_cons.1 h1 with h1 | h1
                · exact absurd h1.symm e
                · have := hs.1 n h1; omega
              · simp at h1
        | some i =>
          simp at hj
          split at hj
          · simp at hj; subst hj
            rcases ha with ha | ⟨ha1, ha⟩
            · exact Or.inl ha
            · rcases h3 i rfl with h4 | rfl
              · by_cases e : a = n
                · exact Or.inr e
                · left
                  rcases h1 with h1 | h1
                  · rcases List.mem_cons.1 h1 with h1 | h1
                    · exact absurd h1.symm e
                    · have := hs.1 n h1; omega
                  · simp at h1; subst h1; omega
              · omega
          · simp at hj; subst hj; exact h3 i rfl
  exact key l none hs (Or.inl hn) h (by simp)

theorem eq_nil_of_argmin_none (m) : ∀ l, argmin m l = none → l = [] := by
  intro l h
  cases l with
  | nil => rfl
  | cons a l =>
    exfalso
    unfold argmin at h
    rw [List.foldl_cons] at h
    have key : ∀ (l : List Nat) j,
        (l.foldl (fun best i => match best with | some j => if m i < m j then some i else some j | none => some i) (some j)) ≠ none := by
      intro l
      induction l with
      | nil => simp
      | cons b l ih => intro j; rw [List.foldl_cons]; simp only []; split <;> exact ih _
    exact key l a h

theorem mem_sectorsWith {s : State} {ok : Sector → Bool} {n : Nat} : n ∈ sectorsWith s ok ↔ ∃ x,
    s.store.sectors[n]? = some x ∧ ok x = true := by
  unfold sectorsWith
  rw [List.mem_filter, List.mem_range]
  constructor
  · rintro ⟨h1, h2⟩
    rw [List.getElem?_eq_getElem h1] at h2 ⊢; exact ⟨_, rfl, h2⟩
  · rintro ⟨x, h1, h2⟩
    refine ⟨(List.getElem?_eq_some_iff.1 h1).1, by simp [h1, h2]⟩

theorem sectorsWith_sorted (s : State) (ok) : (sectorsWith s ok).Pairwise (· < ·) := by
  unfold sectorsWith; exact List.pairwise_lt_range.filter _

theorem eraseCountOf_eq {s : State} {n x} (h : s.store.sectors[n]? = some x) :
    eraseCountOf s n = x.eraseCount := by simp [eraseCountOf, h]

theorem chooseErased_eq {s : State} {n x} (h : s.store.sectors[n]? = some x) (hx : x.state = .erased) (hm : ∀ k y,
    s.store.sectors[k]? = some y → y.state = .erased →
        x.eraseCount.toNat < y.eraseCount.toNat ∨ (x.eraseCount = y.eraseCount ∧ n ≤ k)) : chooseErased s = some n := by
  unfold chooseErased
  apply argmin_eq_some
  · rw [mem_sectorsWith]; exact ⟨x, h, by simp [hx]⟩
  · exact sectorsWith_sorted s _
  · intro k hk
    obtain ⟨y, h1, h2⟩ := mem_sectorsWith.1 hk
    rw [eraseCountOf_eq h, eraseCountOf_eq h1]
    rcases hm k y h1 (by simpa using h2) with h3 | ⟨h3, h4⟩
    · exact Or.inl h3
    · exact Or.inr ⟨by rw [h3], h4⟩

theorem modify_eq_set {l : List Sector} {n x} (f : Sector →
    Sector) (h : l[n]? = some x) : l.modify n f = l.set n (f x) := by
  rw [List.modify_eq_set_getElem?, h]; rfl

theorem set_modify_self {l : List Sector} {n x} (f : Sector →
    Sector) (h : n < l.length) : (l.set n x).modify n f = l.set n (f x) := by
  rw [modify_eq_set (x := x) f (by simp [h]), List.set_set]

theorem modify_modify_eq_set {l : List Sector} {n x} (f g : Sector →
    Sector) (h : l[n]? = some x) : (l.modify n f).modify n g = l.set n (g (f x)) := by
  rw [modify_eq_set f h, set_modify_self g (List.getElem?_eq_some_iff.1 h).1]

theorem openSector_eq {s : State} (h : StoreLaw s) {n x} (ho : s.store.sectors[n]? = some x ∧
    x.state = .openForAppend) : openSector s = some (n, x) := by
  unfold openSector
  obtain ⟨h1, h2⟩ := ho
  have hlt : n < s.store.sectors.length := by
    rw [List.getElem?_eq_some_iff] at h1; exact h1.1
  have huniq : ∀ j y, s.store.sectors[j]? = some y → y.state = .openForAppend → j = n := by
    intro j y hj hy
    by_contra hne
    have hc := h.opened
    unfold countState at hc
    -- count ≥ 2
    have key : ∀ (l : List Sector) (a b : Nat) (u v : Sector), a < b → l[a]? = some u → l[b]? = some v →
        u.state = .openForAppend → v.state = .openForAppend → 2 ≤ l.countP fun x => x.state == .openForAppend := by
      intro l
      induction l with
      | nil => intro a b u v _ hu; simp at hu
      | cons z l ih =>
        intro a b u v hab hu hv e1 e2
        rw [List.countP_cons]
        obtain ⟨b, rfl⟩ : ∃ c, b = c + 1 := ⟨b - 1, by omega⟩
        cases a with
        | zero =>
          simp at hu hv; subst hu
          have : 0 < l.countP fun x => x.state == .openForAppend := by
            rw [List.countP_pos_iff]; exact ⟨v, List.mem_of_getElem? hv, by simp [e2]⟩
          rw [if_pos (by simp [e1])]; omega
        | succ a =>
          simp at hu hv
          have := ih a b u v (by omega) hu hv e1 e2
          omega
    rcases Nat.lt_or_gt_of_ne hne with hlt' | hlt'
    · have := key _ j n y x hlt' hj h1 hy h2; omega
    · have := key _ n j x y hlt' h1 hj h2 hy; omega
  have hf : s.store.sectors.findIdx? (fun x => x.state == .openForAppend) = some n := by
    rw [List.findIdx?_eq_some_iff_getElem]
    refine ⟨hlt, ?_, ?_⟩
    · rw [List.getElem?_eq_getElem hlt] at h1; cases h1; simp [h2]
    · intro j hj; simp
      intro he
      have := huniq j _ (List.getElem?_eq_getElem (by omega)) he
      omega
  simp [hf, h1]

theorem openSector_eq_none {s : State} (h : ∀ (k : Nat) (y : Sector), s.store.sectors[k]? = some y ∧
    y.state = .openForAppend → False) : openSector s = none := by
  unfold openSector
  have : s.store.sectors.findIdx? (fun x => x.state == .openForAppend) = none := by
    rw [List.findIdx?_eq_none_iff]
    intro x hx; simp
    intro he
    obtain ⟨n, hn⟩ := List.getElem?_of_mem hx
    exact h n x ⟨hn, he⟩
  simp [this]

theorem open_of_openSector {s : State} {n x} (h : openSector s = some (n, x)) : s.store.sectors[n]? = some x ∧
    x.state = .openForAppend := by
  unfold openSector at h
  split at h
  · rename_i i hi
    cases hx : s.store.sectors[i]? with
    | none => simp [hx] at h
    | some y =>
      simp [hx] at h; obtain ⟨rfl, rfl⟩ := h
      refine ⟨hx, ?_⟩
      have := List.findIdx?_eq_some_iff_getElem.1 hi
      obtain ⟨h1, h2, _⟩ := this
      rw [List.getElem?_eq_getElem h1] at hx; cases hx; simpa using h2
  · simp at h

theorem closeOpen_map {s : State} (h : StoreLaw s) :
    (closeOpen s).store.sectors = s.store.sectors.map fun y => if y.state =
    .openForAppend then { y with state := .full, used := 255 } else y := by
  unfold closeOpen
  cases ho : openSector s with
  | none =>
    simp only []
    conv => lhs; rw [← List.map_id s.store.sectors]
    apply List.map_congr_left
    intro y hy
    rw [if_neg]; rfl
    intro he
    obtain ⟨k, hk⟩ := List.getElem?_of_mem hy
    rw [openSector_eq h ⟨hk, he⟩] at ho; simp at ho
  | some p =>
    obtain ⟨n, x⟩ := p
    simp only [modifySector_store]
    have hn := open_of_openSector ho
    rw [modify_eq_set _ hn.1]
    apply List.ext_getElem?
    intro k
    rw [List.getElem?_set, List.getElem?_map]
    by_cases hk : n = k
    · subst hk
      have hlt := (List.getElem?_eq_some_iff.1 hn.1).1
      rw [if_pos rfl, if_pos hlt, hn.1]; simp [hn.2, closeSector]
    · rw [if_neg hk]
      cases hy : s.store.sectors[k]? with
      | none => simp
      | some y =>
        simp
        intro he
        exfalso
        have := openSector_eq h ⟨hy, he⟩; rw [this] at ho; simp at ho; exact hk ho.1.symm

theorem victimMeasure_eq {s : State} {n x} (h : s.store.sectors[n]? = some x) :
    victimMeasure s n = x.live * 4294967296 + (x.seq.getD 0).toNat := by simp [victimMeasure, h]

theorem markedFull_eq_cons {s : State} {v x} (hx : s.store.sectors[v]? = some x) (hf : x.state =
    .full) (hr : x.reclaim = true)
   (hn : ∀ n y, n < v → s.store.sectors[n]? = some y → y.state = .full → y.reclaim = false) : ∃ l,
       markedFull s = v :: l := by
  have hm : v ∈ markedFull s := mem_sectorsWith.2 ⟨x, hx, by simp [hf, hr]⟩
  have hs := sectorsWith_sorted s (fun x => x.state == .full && x.reclaim)
  change (markedFull s).Pairwise (· < ·) at hs
  cases hl : markedFull s with
  | nil => rw [hl] at hm; simp at hm
  | cons a l =>
    refine ⟨l, ?_⟩
    rw [hl] at hm hs
    rcases List.mem_cons.1 hm with rfl | hm
    · rfl
    · have := (List.pairwise_cons.1 hs).1 v hm
      have ha : a ∈ markedFull s := by rw [hl]; simp
      obtain ⟨y, h1, h2⟩ := mem_sectorsWith.1 ha
      simp at h2
      have := hn a y this h1 h2.1
      rw [this] at h2; simp at h2

theorem markedFull_eq_nil {s : State} (h : ∀ y ∈ s.store.sectors, y.state = .full →
    y.reclaim = false) : markedFull s = [] := by
  rw [List.eq_nil_iff_forall_not_mem]
  intro a ha
  obtain ⟨y, h1, h2⟩ := mem_sectorsWith.1 ha
  simp at h2
  have := h y (List.mem_of_getElem? h1) h2.1
  rw [this] at h2; simp at h2

theorem beginCompaction_compacts {s : State} (h : fullWithDead s = true) : isCompacting (beginCompaction s) = true := by
  unfold beginCompaction
  split
  · rfl
  · split
    · rfl
    · rename_i hv
      have := eq_nil_of_argmin_none _ _ hv
      unfold fullWithDead at h; rw [List.any_eq_true] at h
      obtain ⟨x, hx, h⟩ := h
      have hs : x.state = .full := by simp at h; exact h.1
      obtain ⟨n, hn⟩ := List.getElem?_of_mem hx
      have : n ∈ sectorsWith s fun x => x.state == .full := mem_sectorsWith.2 ⟨x, hn, by simp [hs]⟩
      simp_all

theorem testTrigger_of_not_idle {s : State} (h : s.store.comp ≠ .idle) : testTrigger s = s := by
  unfold testTrigger; rw [if_neg]; simp [h]

theorem isStalled_iff {s : State} : isStalled s = true ↔ ∃ v c, s.store.comp = .stalled v c := by
  unfold isStalled; cases s.store.comp <;> simp

theorem walkReads_eq_false {s : State} (h : ∀ r ∈ s.store.reads,
    r.owner ≠ .compaction) (ho : s.store.op = none) : walkReads s = false := by
  unfold walkReads; rw [ho]; simp; exact h

theorem nextRun_of_no_erasing {s : State} (h : ∀ (n : Nat) (x : Sector),
    s.store.sectors[n]? = some x → x.state ≠ .erasing) : nextRun s = testTrigger (setComp .idle s) := by
  unfold nextRun
  have : (sectorsWith s fun x => x.state == .erasing) = [] := by
    rw [List.eq_nil_iff_forall_not_mem]; intro a ha
    obtain ⟨y, h1, h2⟩ := mem_sectorsWith.1 ha
    exact h a y h1 (by simpa using h2)
  rw [this]

theorem nextRun_of_erasing {s : State} {v x} (h1 : s.store.sectors[v]? = some x) (h2 : x.state =
    .erasing) (h : ∀ (n : Nat) (x : Sector), n < v → s.store.sectors[n]? = some x →
    x.state ≠ .erasing) : nextRun s = placeErase v s := by
  unfold nextRun
  have : ∃ l, (sectorsWith s fun x => x.state == .erasing) = v :: l := by
    have hm : v ∈ (sectorsWith s fun x => x.state == .erasing) := mem_sectorsWith.2 ⟨x, h1, by simp [h2]⟩
    have hs := sectorsWith_sorted s (fun x => x.state == .erasing)
    cases hl : (sectorsWith s fun x => x.state == .erasing) with
    | nil => rw [hl] at hm; simp at hm
    | cons a l =>
      refine ⟨l, ?_⟩
      rw [hl] at hm hs
      rcases List.mem_cons.1 hm with rfl | hm
      · rfl
      · have := (List.pairwise_cons.1 hs).1 v hm
        have ha : a ∈ (sectorsWith s fun x => x.state == .erasing) := by rw [hl]; simp
        obtain ⟨y, h3, h4⟩ := mem_sectorsWith.1 ha
        exact absurd (by simpa using h4) (h a y this h3)
  obtain ⟨l, hl⟩ := this
  rw [hl]

theorem settleStore_testTrigger (o s : State) (_h : s.store.comp = .idle) :
    settleStore o (testTrigger s) = settleStore o s := by
  unfold settleStore
  congr 2
  unfold testTrigger
  split
  · rename_i h1
    simp only [Bool.and_eq_true, beq_iff_eq] at h1
    rw [if_neg]
    have := beginCompaction_compacts (show fullWithDead s =
        true by have := h1.2; unfold trigger at this; rw [Bool.and_eq_true] at this; exact this.2)
    rw [Bool.and_eq_true,
        not_and]; intro h2; rw [beq_iff_eq] at h2; unfold isCompacting at this; rw [h2] at this; simp at this
  · rfl

theorem advanceWalk_of_idle {s : State} (h : s.store.comp = .idle) :
    advanceWalk s = s := by unfold advanceWalk; simp [h]

theorem testTrigger_facts (s : State) : (testTrigger s).upd = s.upd ∧ (testTrigger s).host = s.host ∧
    (testTrigger s).dir = s.dir ∧ (testTrigger s).flash = s.flash ∧ (testTrigger s).store.erase = s.store.erase ∧
   (∀ (n : Nat) (x : Sector), s.store.sectors[n]? = some x → x.state ≠ .full →
       (testTrigger s).store.sectors[n]? = some x) ∧ ((testTrigger s).store.comp = .idle → s.store.comp = .idle) := by
  unfold testTrigger
  split
  · rename_i h1
    simp only [Bool.and_eq_true, beq_iff_eq] at h1
    unfold beginCompaction
    have key : ∀ (v : Nat) (f : Sector → Sector) (P : Sector → Bool), v ∈ sectorsWith s P → (∀ x,
        P x = true → x.state = .full) → ∀ (n : Nat) (x : Sector), s.store.sectors[n]? = some x → x.state ≠ .full →
        (s.store.sectors.modify v f)[n]? = some x := by
      intro v f P hv hP n x hx hs
      obtain ⟨y, h3, h4⟩ := mem_sectorsWith.1 hv
      rw [List.getElem?_modify]
      by_cases hn : v = n
      · subst hn; rw [hx] at h3; cases h3; exact absurd (hP _ h4) hs
      · rw [hx]; simp [hn]
    cases hm : markedFull s with
    | cons v l =>
      refine ⟨rfl, rfl, rfl, rfl, rfl, ?_, fun _ => h1.1⟩
      exact key v _ _ (by show v ∈ markedFull s; rw [hm]; simp) (by simp; intro x a _; exact a)
    | nil =>
      cases hc : chooseVictim s with
      | none => exact ⟨rfl, rfl, rfl, rfl, rfl, fun _ _ h _ => h, id⟩
      | some v =>
        refine ⟨rfl, rfl, rfl, rfl, rfl, ?_, fun _ => h1.1⟩
        refine key v _ (fun x => x.state == .full) ?_ (by simp)
        unfold chooseVictim at hc
        have : ∀ (m : Nat → Nat) (l : List Nat) (b : Option Nat),
            l.foldl (fun (best : Option Nat) i => match best with | some j => if m i < m j then some i else some j | none => some i) b = some v → v ∈ l ∨ b = some v := by
          intro m l
          induction l with
          | nil => intro b h; right; exact h
          | cons a l ih =>
            intro b h
            rw [List.foldl_cons] at h
            rcases ih _ h with h | h
            · left; simp [h]
            · cases b with
              | none => simp at h; left; simp [h]
              | some j =>
                simp only [] at h
                split at h
                · left; simp at h; simp [h]
                · right; exact h
        rcases this _ _ _ hc with h | h
        · exact h
        · simp at h
  · exact ⟨rfl, rfl, rfl, rfl, rfl, fun _ _ h _ => h, id⟩

theorem advanceWalk_facts (s : State) : (advanceWalk s).upd.slots = s.upd.slots ∧ (advanceWalk s).host = s.host ∧
    (advanceWalk s).dir = s.dir ∧ (advanceWalk s).flash = s.flash ∧ (advanceWalk s).store.sectors = s.store.sectors ∧
    ((advanceWalk s).store.comp = .idle → s.store.comp = .idle) := by
  unfold advanceWalk
  cases hc : s.store.comp with
  | copying v c =>
    dsimp only
    split
    · exact ⟨rfl, rfl, rfl, rfl, rfl, fun h => by simp [endWalk] at h⟩
    · split
      · exact ⟨rfl, rfl, rfl, rfl, rfl, fun h => by simp [placeRead, hc] at h⟩
      · exact ⟨rfl, rfl, rfl, rfl, rfl, fun h => by rw [hc] at h; cases h⟩
  | stalled v c =>
    dsimp only
    split
    · exact ⟨rfl, rfl, rfl, rfl, rfl, fun h => by simp [endWalk] at h⟩
    · exact ⟨rfl, rfl, rfl, rfl, rfl, fun h => by rw [hc] at h; cases h⟩
  | idle => exact ⟨rfl, rfl, rfl, rfl, rfl, fun _ => rfl⟩
  | marking v => exact ⟨rfl, rfl, rfl, rfl, rfl, fun h => by dsimp only at h; rw [hc] at h; cases h⟩
  | closing v => exact ⟨rfl, rfl, rfl, rfl, rfl, fun h => by dsimp only at h; rw [hc] at h; cases h⟩
  | erasing v => exact ⟨rfl, rfl, rfl, rfl, rfl, fun h => by dsimp only at h; rw [hc] at h; cases h⟩

theorem spaceEvent_facts (o s : State) : (spaceEvent o s).upd = s.upd ∧
    ((spaceEvent o s).host = s.host ∨ (spaceEvent o s).host = s.host.post (.storeAlert .spaceLow)) ∧
    (spaceEvent o s).dir = s.dir ∧ (spaceEvent o s).flash = s.flash ∧
    (spaceEvent o s).store.sectors = s.store.sectors ∧ (spaceEvent o s).store.comp = s.store.comp := by
  unfold spaceEvent spaceTest
  split
  · exact ⟨rfl, Or.inl rfl, rfl, rfl, rfl, rfl⟩
  · dsimp only
    split
    · exact ⟨rfl, Or.inr rfl, rfl, rfl, rfl, rfl⟩
    · exact ⟨rfl, Or.inl rfl, rfl, rfl, rfl, rfl⟩

theorem settleStore_facts (o s : State) : (settleStore o s).upd.slots = s.upd.slots ∧
    ((settleStore o s).host = s.host ∨ (settleStore o s).host = s.host.post (.storeAlert .spaceLow)) ∧
    (settleStore o s).dir = s.dir ∧ (settleStore o s).flash = s.flash ∧
   (∀ (n : Nat) (x : Sector), s.store.sectors[n]? = some x → x.state ≠ .full →
       (settleStore o s).store.sectors[n]? = some x) ∧ ((settleStore o s).store.comp = .idle →
       s.store.comp = .idle) := by
  have a := testTrigger_facts s
  have b := advanceWalk_facts (testTrigger s)
  have c := spaceEvent_facts o (advanceWalk (testTrigger s))
  unfold settleStore
  refine ⟨?_, ?_, ?_, ?_, ?_, ?_⟩
  · rw [c.1, b.1, a.1]
  · rw [← a.2.1, ← b.2.1]; exact c.2.1
  · rw [c.2.2.1, b.2.2.1, a.2.2.1]
  · rw [c.2.2.2.1, b.2.2.2.1, a.2.2.2.1]
  · rw [c.2.2.2.2.1, b.2.2.2.2.1]; exact a.2.2.2.2.2.1
  · rw [c.2.2.2.2.2]; exact fun h => a.2.2.2.2.2.2 (b.2.2.2.2.2 h)

theorem settleStore_rest (o s : State) : (settleStore o s).ctl = s.ctl ∧ (settleStore o s).cfg = s.cfg ∧
    (settleStore o s).memb = s.memb ∧ (settleStore o s).summ = s.summ ∧ (settleStore o s).recon = s.recon ∧
    (settleStore o s).resp = s.resp ∧ (settleStore o s).line = s.line ∧ (settleStore o s).fetch = s.fetch ∧
    (settleStore o s).store.op = s.store.op := by
  have a : ∀ s, (testTrigger s).ctl = s.ctl ∧ (testTrigger s).cfg = s.cfg ∧ (testTrigger s).memb = s.memb ∧
      (testTrigger s).summ = s.summ ∧ (testTrigger s).recon = s.recon ∧ (testTrigger s).resp = s.resp ∧
      (testTrigger s).line = s.line ∧ (testTrigger s).fetch = s.fetch ∧ (testTrigger s).store.op = s.store.op := by
    intro s; unfold testTrigger beginCompaction; split
    · split
      · exact ⟨rfl, rfl, rfl, rfl, rfl, rfl, rfl, rfl, rfl⟩
      · split <;> exact ⟨rfl, rfl, rfl, rfl, rfl, rfl, rfl, rfl, rfl⟩
    · exact ⟨rfl, rfl, rfl, rfl, rfl, rfl, rfl, rfl, rfl⟩
  have b : ∀ s, (advanceWalk s).ctl = s.ctl ∧ (advanceWalk s).cfg = s.cfg ∧ (advanceWalk s).memb = s.memb ∧
      (advanceWalk s).summ = s.summ ∧ (advanceWalk s).recon = s.recon ∧ (advanceWalk s).resp = s.resp ∧
      (advanceWalk s).line = s.line ∧ (advanceWalk s).fetch = s.fetch ∧ (advanceWalk s).store.op = s.store.op := by
    intro s; unfold advanceWalk; split
    · split
      · exact ⟨rfl, rfl, rfl, rfl, rfl, rfl, rfl, rfl, rfl⟩
      · split <;> exact ⟨rfl, rfl, rfl, rfl, rfl, rfl, rfl, rfl, rfl⟩
    · split <;> exact ⟨rfl, rfl, rfl, rfl, rfl, rfl, rfl, rfl, rfl⟩
    all_goals exact ⟨rfl, rfl, rfl, rfl, rfl, rfl, rfl, rfl, rfl⟩
  have c : ∀ o s, (spaceEvent o s).ctl = s.ctl ∧ (spaceEvent o s).cfg = s.cfg ∧ (spaceEvent o s).memb = s.memb ∧
      (spaceEvent o s).summ = s.summ ∧ (spaceEvent o s).recon = s.recon ∧ (spaceEvent o s).resp = s.resp ∧
      (spaceEvent o s).line = s.line ∧ (spaceEvent o s).fetch = s.fetch ∧ (spaceEvent o s).store.op = s.store.op := by
    intro o s; unfold spaceEvent spaceTest; split
    · exact ⟨rfl, rfl, rfl, rfl, rfl, rfl, rfl, rfl, rfl⟩
    · dsimp only; split <;> exact ⟨rfl, rfl, rfl, rfl, rfl, rfl, rfl, rfl, rfl⟩
  have x := a s
  have y := b (testTrigger s)
  have z := c o (advanceWalk (testTrigger s))
  unfold settleStore
  refine ⟨?_, ?_, ?_, ?_, ?_, ?_, ?_, ?_, ?_⟩
  · rw [z.1, y.1, x.1]
  · rw [z.2.1, y.2.1, x.2.1]
  · rw [z.2.2.1, y.2.2.1, x.2.2.1]
  · rw [z.2.2.2.1, y.2.2.2.1, x.2.2.2.1]
  · rw [z.2.2.2.2.1, y.2.2.2.2.1, x.2.2.2.2.1]
  · rw [z.2.2.2.2.2.1, y.2.2.2.2.2.1, x.2.2.2.2.2.1]
  · rw [z.2.2.2.2.2.2.1, y.2.2.2.2.2.2.1, x.2.2.2.2.2.2.1]
  · rw [z.2.2.2.2.2.2.2.1, y.2.2.2.2.2.2.2.1, x.2.2.2.2.2.2.2.1]
  · rw [z.2.2.2.2.2.2.2.2, y.2.2.2.2.2.2.2.2, x.2.2.2.2.2.2.2.2]

theorem liveOf_modifySector (s : State) (i : Nat) (f : Sector → Sector) (n : Nat) :
    liveOf (modifySector i f s) n =
      (match s.store.sectors[n]? with
       | some x => if i = n then (f x).live else x.live
       | none => 0) := by
  unfold liveOf modifySector
  simp only []
  rw [List.getElem?_modify]
  cases s.store.sectors[n]? with
  | none => rfl
  | some x => dsimp; split <;> simp_all

theorem liveOf_testTrigger (s : State) (n : Nat) : liveOf (testTrigger s) n = liveOf s n := by
  unfold testTrigger
  split
  · unfold beginCompaction
    split
    · unfold setComp; show liveOf (modifySector _ _ s) n =
        _; rw [liveOf_modifySector]; unfold liveOf; cases s.store.sectors[n]? <;> simp
    · split
      · show liveOf (modifySector _ _ s) n =
          _; rw [liveOf_modifySector]; unfold liveOf; cases s.store.sectors[n]? <;> simp
      · rfl
  · rfl

theorem liveOf_settleStore (o s : State) (n : Nat) : liveOf (settleStore o s) n = liveOf s n := by
  unfold settleStore
  rw [← liveOf_testTrigger s]
  unfold liveOf
  rw [(spaceEvent_facts _ _).2.2.2.2.1, (advanceWalk_facts _).2.2.2.2.1]

theorem spaceEvent_same {o s : State} (h : spaceView o = spaceView s) : spaceEvent o s = s := by
  unfold spaceEvent; rw [if_pos h]

theorem spaceEvent_of_same (t u : State) (h1 : u.store = t.store) (h2 : u.upd = t.upd) : spaceEvent t u = u := by
  apply spaceEvent_same; unfold spaceView; rw [h1, h2]

end Sys2Proof.Machine
end

