-- ==== Sys2Proof/Laws/Updates.lean ====
section
/-! SUPPORT. The Update Unit's shared operations: claiming, releasing and failing slots, as explicit updates and field by
field. -/

namespace Sys2Proof.Machine

theorem mem_slotNumbers (i : Fin 4) : i ∈ slotNumbers := by fin_cases i <;> simp [slotNumbers]

/-- A reservation given back, as an update. -/
theorem dropReservation_eq (held : Bool) (s : State) :
    dropReservation held s =
      { s with
        dir := { s.dir with reservations := if held then s.dir.reservations - 1 else s.dir.reservations } } := by
  cases held <;> rfl

/-- A slot claimed for a record, as an update (R38, R43). -/
theorem claimSlot_eq (i : Fin 4) (o : Origin) (r : Record) (s : State) :
    claimSlot i o r s =
      { s with
        dir :=
          { s.dir with
            reservations := if lookup s r.key = none then s.dir.reservations + 1 else s.dir.reservations }
        upd :=
          { s.upd with
            slots :=
              s.upd.slots.set i
                (some
                  { phase := .waitStore, origin := o, record := r, reserved := (lookup s r.key).isNone, retry := false
                    ready := s.upd.nextReady, follower := none })
            nextReady := s.upd.nextReady + 1 } } := by
  unfold claimSlot takeReservation enterWaitStore setSlot
  cases lookup s r.key <;> rfl

/-- A slot released, as an update (R50, R51). -/
theorem releaseSlot_eq (i : Fin 4) (x : Slot) (s : State) :
    releaseSlot i x s =
      { s with
        dir :=
          { s.dir with
            reservations :=
              match x.follower with
              | some f =>
                if lookup s f.key = none then (if x.reserved then s.dir.reservations - 1 else s.dir.reservations) + 1
                else if x.reserved then s.dir.reservations - 1 else s.dir.reservations
              | none => if x.reserved then s.dir.reservations - 1 else s.dir.reservations }
        upd :=
          { s.upd with
            slots :=
              s.upd.slots.set i
                (match x.follower with
                 | some f =>
                   some
                     { phase := .waitStore, origin := .peer, record := f, reserved := (lookup s f.key).isNone
                       retry := false, ready := s.upd.nextReady, follower := none }
                 | none => none)
            nextReady := if x.follower = none then s.upd.nextReady else s.upd.nextReady + 1 } } := by
  unfold releaseSlot
  rw [dropReservation_eq]
  cases x.follower with
  | none => rfl
  | some f => simp only []; rw [claimSlot_eq]; rfl

/-- A DIVERGED reason set, as an update (R52). -/
theorem setDiverged_store (s : State) :
    setDiverged .store s =
      { s with
        upd := { s.upd with divStore := true }
        host := if s.upd.divStore then s.host else s.host.post (.diverged .store) } := by
  unfold setDiverged
  simp only []
  cases hd : s.upd.divStore
  · rfl
  · simp [← hd]

/-- A DIVERGED reason set, as an update (R52). -/
theorem setDiverged_directory (s : State) :
    setDiverged .directory s =
      { s with
        upd := { s.upd with divDirectory := true }
        host := if s.upd.divDirectory then s.host else s.host.post (.diverged .directory) } := by
  unfold setDiverged
  simp only []
  cases hd : s.upd.divDirectory
  · rfl
  · simp [← hd]

/-! ## What failing slots leaves (R46, R51, R63) -/

@[simp] theorem claimSlot_ctl (i : Fin 4) (o : Origin) (r : Record) (s : State) : (claimSlot i o r s).ctl = s.ctl := by
  rw [claimSlot_eq]
@[simp] theorem releaseSlot_ctl (i : Fin 4) (x : Slot) (s : State) : (releaseSlot i x s).ctl = s.ctl := by
  rw [releaseSlot_eq]
@[simp] theorem setDiverged_ctl (r : DivReason) (s : State) : (setDiverged r s).ctl = s.ctl := by
  cases r <;> simp [setDiverged_store, setDiverged_directory]
@[simp] theorem claimSlot_cfg (i : Fin 4) (o : Origin) (r : Record) (s : State) : (claimSlot i o r s).cfg = s.cfg := by
  rw [claimSlot_eq]
@[simp] theorem releaseSlot_cfg (i : Fin 4) (x : Slot) (s : State) : (releaseSlot i x s).cfg = s.cfg := by
  rw [releaseSlot_eq]
@[simp] theorem setDiverged_cfg (r : DivReason) (s : State) : (setDiverged r s).cfg = s.cfg := by
  cases r <;> simp [setDiverged_store, setDiverged_directory]
@[simp] theorem claimSlot_store (i : Fin 4) (o : Origin) (r : Record) (s : State) : (claimSlot i o r s).store = s.store := by
  rw [claimSlot_eq]
@[simp] theorem releaseSlot_store (i : Fin 4) (x : Slot) (s : State) : (releaseSlot i x s).store = s.store := by
  rw [releaseSlot_eq]
@[simp] theorem setDiverged_storeField (r : DivReason) (s : State) : (setDiverged r s).store = s.store := by
  cases r <;> simp [setDiverged_store, setDiverged_directory]
@[simp] theorem claimSlot_flash (i : Fin 4) (o : Origin) (r : Record) (s : State) : (claimSlot i o r s).flash = s.flash := by
  rw [claimSlot_eq]
@[simp] theorem releaseSlot_flash (i : Fin 4) (x : Slot) (s : State) : (releaseSlot i x s).flash = s.flash := by
  rw [releaseSlot_eq]
@[simp] theorem setDiverged_flash (r : DivReason) (s : State) : (setDiverged r s).flash = s.flash := by
  cases r <;> simp [setDiverged_store, setDiverged_directory]
@[simp] theorem claimSlot_line (i : Fin 4) (o : Origin) (r : Record) (s : State) : (claimSlot i o r s).line = s.line := by
  rw [claimSlot_eq]
@[simp] theorem releaseSlot_line (i : Fin 4) (x : Slot) (s : State) : (releaseSlot i x s).line = s.line := by
  rw [releaseSlot_eq]
@[simp] theorem setDiverged_line (r : DivReason) (s : State) : (setDiverged r s).line = s.line := by
  cases r <;> simp [setDiverged_store, setDiverged_directory]
@[simp] theorem claimSlot_memb (i : Fin 4) (o : Origin) (r : Record) (s : State) : (claimSlot i o r s).memb = s.memb := by
  rw [claimSlot_eq]
@[simp] theorem releaseSlot_memb (i : Fin 4) (x : Slot) (s : State) : (releaseSlot i x s).memb = s.memb := by
  rw [releaseSlot_eq]
@[simp] theorem setDiverged_memb (r : DivReason) (s : State) : (setDiverged r s).memb = s.memb := by
  cases r <;> simp [setDiverged_store, setDiverged_directory]
@[simp] theorem claimSlot_summ (i : Fin 4) (o : Origin) (r : Record) (s : State) : (claimSlot i o r s).summ = s.summ := by
  rw [claimSlot_eq]
@[simp] theorem releaseSlot_summ (i : Fin 4) (x : Slot) (s : State) : (releaseSlot i x s).summ = s.summ := by
  rw [releaseSlot_eq]
@[simp] theorem setDiverged_summ (r : DivReason) (s : State) : (setDiverged r s).summ = s.summ := by
  cases r <;> simp [setDiverged_store, setDiverged_directory]
@[simp] theorem claimSlot_recon (i : Fin 4) (o : Origin) (r : Record) (s : State) : (claimSlot i o r s).recon = s.recon := by
  rw [claimSlot_eq]
@[simp] theorem releaseSlot_recon (i : Fin 4) (x : Slot) (s : State) : (releaseSlot i x s).recon = s.recon := by
  rw [releaseSlot_eq]
@[simp] theorem setDiverged_recon (r : DivReason) (s : State) : (setDiverged r s).recon = s.recon := by
  cases r <;> simp [setDiverged_store, setDiverged_directory]
@[simp] theorem claimSlot_fetch (i : Fin 4) (o : Origin) (r : Record) (s : State) : (claimSlot i o r s).fetch = s.fetch := by
  rw [claimSlot_eq]
@[simp] theorem releaseSlot_fetch (i : Fin 4) (x : Slot) (s : State) : (releaseSlot i x s).fetch = s.fetch := by
  rw [releaseSlot_eq]
@[simp] theorem setDiverged_fetch (r : DivReason) (s : State) : (setDiverged r s).fetch = s.fetch := by
  cases r <;> simp [setDiverged_store, setDiverged_directory]
@[simp] theorem claimSlot_resp (i : Fin 4) (o : Origin) (r : Record) (s : State) : (claimSlot i o r s).resp = s.resp := by
  rw [claimSlot_eq]
@[simp] theorem releaseSlot_resp (i : Fin 4) (x : Slot) (s : State) : (releaseSlot i x s).resp = s.resp := by
  rw [releaseSlot_eq]
@[simp] theorem setDiverged_resp (r : DivReason) (s : State) : (setDiverged r s).resp = s.resp := by
  cases r <;> simp [setDiverged_store, setDiverged_directory]
@[simp] theorem claimSlot_now (i : Fin 4) (o : Origin) (r : Record) (s : State) : (claimSlot i o r s).now = s.now := by
  rw [claimSlot_eq]
@[simp] theorem releaseSlot_now (i : Fin 4) (x : Slot) (s : State) : (releaseSlot i x s).now = s.now := by
  rw [releaseSlot_eq]
@[simp] theorem setDiverged_now (r : DivReason) (s : State) : (setDiverged r s).now = s.now := by
  cases r <;> simp [setDiverged_store, setDiverged_directory]
@[simp] theorem claimSlot_free (i : Fin 4) (o : Origin) (r : Record) (s : State) : (claimSlot i o r s).free = s.free := by
  rw [claimSlot_eq]
@[simp] theorem releaseSlot_free (i : Fin 4) (x : Slot) (s : State) : (releaseSlot i x s).free = s.free := by
  rw [releaseSlot_eq]
@[simp] theorem setDiverged_free (r : DivReason) (s : State) : (setDiverged r s).free = s.free := by
  cases r <;> simp [setDiverged_store, setDiverged_directory]
@[simp] theorem claimSlot_pending (i : Fin 4) (o : Origin) (r : Record) (s : State) : (claimSlot i o r s).pending = s.pending := by
  rw [claimSlot_eq]
@[simp] theorem releaseSlot_pending (i : Fin 4) (x : Slot) (s : State) : (releaseSlot i x s).pending = s.pending := by
  rw [releaseSlot_eq]
@[simp] theorem setDiverged_pending (r : DivReason) (s : State) : (setDiverged r s).pending = s.pending := by
  cases r <;> simp [setDiverged_store, setDiverged_directory]
theorem reportWrite_ctl (w : WriteResult) (s : State) (i : Fin 4) : (reportWrite w s i).ctl = s.ctl := by
  unfold reportWrite; split <;> [split <;> rfl; rfl]
theorem reportWrites_ctl (w : WriteResult) (l : List (Fin 4)) (s : State) : (l.foldl (reportWrite w) s).ctl = s.ctl := by
  induction l generalizing s with
  | nil => rfl
  | cons i l ih => rw [List.foldl_cons, ih, reportWrite_ctl]
theorem reportWrite_cfg (w : WriteResult) (s : State) (i : Fin 4) : (reportWrite w s i).cfg = s.cfg := by
  unfold reportWrite; split <;> [split <;> rfl; rfl]
theorem reportWrites_cfg (w : WriteResult) (l : List (Fin 4)) (s : State) : (l.foldl (reportWrite w) s).cfg = s.cfg := by
  induction l generalizing s with
  | nil => rfl
  | cons i l ih => rw [List.foldl_cons, ih, reportWrite_cfg]
theorem reportWrite_store (w : WriteResult) (s : State) (i : Fin 4) : (reportWrite w s i).store = s.store := by
  unfold reportWrite; split <;> [split <;> rfl; rfl]
theorem reportWrites_store (w : WriteResult) (l : List (Fin 4)) (s : State) : (l.foldl (reportWrite w) s).store = s.store := by
  induction l generalizing s with
  | nil => rfl
  | cons i l ih => rw [List.foldl_cons, ih, reportWrite_store]
theorem reportWrite_flash (w : WriteResult) (s : State) (i : Fin 4) : (reportWrite w s i).flash = s.flash := by
  unfold reportWrite; split <;> [split <;> rfl; rfl]
theorem reportWrites_flash (w : WriteResult) (l : List (Fin 4)) (s : State) : (l.foldl (reportWrite w) s).flash = s.flash := by
  induction l generalizing s with
  | nil => rfl
  | cons i l ih => rw [List.foldl_cons, ih, reportWrite_flash]
theorem reportWrite_line (w : WriteResult) (s : State) (i : Fin 4) : (reportWrite w s i).line = s.line := by
  unfold reportWrite; split <;> [split <;> rfl; rfl]
theorem reportWrites_line (w : WriteResult) (l : List (Fin 4)) (s : State) : (l.foldl (reportWrite w) s).line = s.line := by
  induction l generalizing s with
  | nil => rfl
  | cons i l ih => rw [List.foldl_cons, ih, reportWrite_line]
theorem reportWrite_memb (w : WriteResult) (s : State) (i : Fin 4) : (reportWrite w s i).memb = s.memb := by
  unfold reportWrite; split <;> [split <;> rfl; rfl]
theorem reportWrites_memb (w : WriteResult) (l : List (Fin 4)) (s : State) : (l.foldl (reportWrite w) s).memb = s.memb := by
  induction l generalizing s with
  | nil => rfl
  | cons i l ih => rw [List.foldl_cons, ih, reportWrite_memb]
theorem reportWrite_summ (w : WriteResult) (s : State) (i : Fin 4) : (reportWrite w s i).summ = s.summ := by
  unfold reportWrite; split <;> [split <;> rfl; rfl]
theorem reportWrites_summ (w : WriteResult) (l : List (Fin 4)) (s : State) : (l.foldl (reportWrite w) s).summ = s.summ := by
  induction l generalizing s with
  | nil => rfl
  | cons i l ih => rw [List.foldl_cons, ih, reportWrite_summ]
theorem reportWrite_recon (w : WriteResult) (s : State) (i : Fin 4) : (reportWrite w s i).recon = s.recon := by
  unfold reportWrite; split <;> [split <;> rfl; rfl]
theorem reportWrites_recon (w : WriteResult) (l : List (Fin 4)) (s : State) : (l.foldl (reportWrite w) s).recon = s.recon := by
  induction l generalizing s with
  | nil => rfl
  | cons i l ih => rw [List.foldl_cons, ih, reportWrite_recon]
theorem reportWrite_fetch (w : WriteResult) (s : State) (i : Fin 4) : (reportWrite w s i).fetch = s.fetch := by
  unfold reportWrite; split <;> [split <;> rfl; rfl]
theorem reportWrites_fetch (w : WriteResult) (l : List (Fin 4)) (s : State) : (l.foldl (reportWrite w) s).fetch = s.fetch := by
  induction l generalizing s with
  | nil => rfl
  | cons i l ih => rw [List.foldl_cons, ih, reportWrite_fetch]
theorem reportWrite_resp (w : WriteResult) (s : State) (i : Fin 4) : (reportWrite w s i).resp = s.resp := by
  unfold reportWrite; split <;> [split <;> rfl; rfl]
theorem reportWrites_resp (w : WriteResult) (l : List (Fin 4)) (s : State) : (l.foldl (reportWrite w) s).resp = s.resp := by
  induction l generalizing s with
  | nil => rfl
  | cons i l ih => rw [List.foldl_cons, ih, reportWrite_resp]
theorem reportWrite_now (w : WriteResult) (s : State) (i : Fin 4) : (reportWrite w s i).now = s.now := by
  unfold reportWrite; split <;> [split <;> rfl; rfl]
theorem reportWrites_now (w : WriteResult) (l : List (Fin 4)) (s : State) : (l.foldl (reportWrite w) s).now = s.now := by
  induction l generalizing s with
  | nil => rfl
  | cons i l ih => rw [List.foldl_cons, ih, reportWrite_now]
theorem reportWrite_free (w : WriteResult) (s : State) (i : Fin 4) : (reportWrite w s i).free = s.free := by
  unfold reportWrite; split <;> [split <;> rfl; rfl]
theorem reportWrites_free (w : WriteResult) (l : List (Fin 4)) (s : State) : (l.foldl (reportWrite w) s).free = s.free := by
  induction l generalizing s with
  | nil => rfl
  | cons i l ih => rw [List.foldl_cons, ih, reportWrite_free]
theorem reportWrite_pending (w : WriteResult) (s : State) (i : Fin 4) : (reportWrite w s i).pending = s.pending := by
  unfold reportWrite; split <;> [split <;> rfl; rfl]
theorem reportWrites_pending (w : WriteResult) (l : List (Fin 4)) (s : State) : (l.foldl (reportWrite w) s).pending = s.pending := by
  induction l generalizing s with
  | nil => rfl
  | cons i l ih => rw [List.foldl_cons, ih, reportWrite_pending]
theorem reportWrite_dir (w : WriteResult) (s : State) (i : Fin 4) : (reportWrite w s i).dir = s.dir := by
  unfold reportWrite; split <;> [split <;> rfl; rfl]
theorem reportWrites_dir (w : WriteResult) (l : List (Fin 4)) (s : State) : (l.foldl (reportWrite w) s).dir = s.dir := by
  induction l generalizing s with
  | nil => rfl
  | cons i l ih => rw [List.foldl_cons, ih, reportWrite_dir]
theorem releaseAt_ctl (s : State) (i : Fin 4) : (releaseAt s i).ctl = s.ctl := by
  unfold releaseAt; split <;> simp
theorem releaseAll_ctl (l : List (Fin 4)) (s : State) : (l.foldl releaseAt s).ctl = s.ctl := by
  induction l generalizing s with
  | nil => rfl
  | cons i l ih => rw [List.foldl_cons, ih, releaseAt_ctl]
@[simp] theorem failSlots_ctl (w : WriteResult) (l : List (Fin 4)) (s : State) : (failSlots w l s).ctl = s.ctl := by
  unfold failSlots; dsimp only; rw [releaseAll_ctl]; split <;> simp [reportWrites_ctl]
@[simp] theorem failStoreWait_ctl (s : State) : (failStoreWait s).ctl = s.ctl := failSlots_ctl ..
theorem releaseAt_cfg (s : State) (i : Fin 4) : (releaseAt s i).cfg = s.cfg := by
  unfold releaseAt; split <;> simp
theorem releaseAll_cfg (l : List (Fin 4)) (s : State) : (l.foldl releaseAt s).cfg = s.cfg := by
  induction l generalizing s with
  | nil => rfl
  | cons i l ih => rw [List.foldl_cons, ih, releaseAt_cfg]
@[simp] theorem failSlots_cfg (w : WriteResult) (l : List (Fin 4)) (s : State) : (failSlots w l s).cfg = s.cfg := by
  unfold failSlots; dsimp only; rw [releaseAll_cfg]; split <;> simp [reportWrites_cfg]
@[simp] theorem failStoreWait_cfg (s : State) : (failStoreWait s).cfg = s.cfg := failSlots_cfg ..
theorem releaseAt_store (s : State) (i : Fin 4) : (releaseAt s i).store = s.store := by
  unfold releaseAt; split <;> simp
theorem releaseAll_store (l : List (Fin 4)) (s : State) : (l.foldl releaseAt s).store = s.store := by
  induction l generalizing s with
  | nil => rfl
  | cons i l ih => rw [List.foldl_cons, ih, releaseAt_store]
@[simp] theorem failSlots_store (w : WriteResult) (l : List (Fin 4)) (s : State) : (failSlots w l s).store = s.store := by
  unfold failSlots; dsimp only; rw [releaseAll_store]; split <;> simp [reportWrites_store]
@[simp] theorem failStoreWait_store (s : State) : (failStoreWait s).store = s.store := failSlots_store ..
theorem releaseAt_flash (s : State) (i : Fin 4) : (releaseAt s i).flash = s.flash := by
  unfold releaseAt; split <;> simp
theorem releaseAll_flash (l : List (Fin 4)) (s : State) : (l.foldl releaseAt s).flash = s.flash := by
  induction l generalizing s with
  | nil => rfl
  | cons i l ih => rw [List.foldl_cons, ih, releaseAt_flash]
@[simp] theorem failSlots_flash (w : WriteResult) (l : List (Fin 4)) (s : State) : (failSlots w l s).flash = s.flash := by
  unfold failSlots; dsimp only; rw [releaseAll_flash]; split <;> simp [reportWrites_flash]
@[simp] theorem failStoreWait_flash (s : State) : (failStoreWait s).flash = s.flash := failSlots_flash ..
theorem releaseAt_line (s : State) (i : Fin 4) : (releaseAt s i).line = s.line := by
  unfold releaseAt; split <;> simp
theorem releaseAll_line (l : List (Fin 4)) (s : State) : (l.foldl releaseAt s).line = s.line := by
  induction l generalizing s with
  | nil => rfl
  | cons i l ih => rw [List.foldl_cons, ih, releaseAt_line]
@[simp] theorem failSlots_line (w : WriteResult) (l : List (Fin 4)) (s : State) : (failSlots w l s).line = s.line := by
  unfold failSlots; dsimp only; rw [releaseAll_line]; split <;> simp [reportWrites_line]
@[simp] theorem failStoreWait_line (s : State) : (failStoreWait s).line = s.line := failSlots_line ..
theorem releaseAt_memb (s : State) (i : Fin 4) : (releaseAt s i).memb = s.memb := by
  unfold releaseAt; split <;> simp
theorem releaseAll_memb (l : List (Fin 4)) (s : State) : (l.foldl releaseAt s).memb = s.memb := by
  induction l generalizing s with
  | nil => rfl
  | cons i l ih => rw [List.foldl_cons, ih, releaseAt_memb]
@[simp] theorem failSlots_memb (w : WriteResult) (l : List (Fin 4)) (s : State) : (failSlots w l s).memb = s.memb := by
  unfold failSlots; dsimp only; rw [releaseAll_memb]; split <;> simp [reportWrites_memb]
@[simp] theorem failStoreWait_memb (s : State) : (failStoreWait s).memb = s.memb := failSlots_memb ..
theorem releaseAt_summ (s : State) (i : Fin 4) : (releaseAt s i).summ = s.summ := by
  unfold releaseAt; split <;> simp
theorem releaseAll_summ (l : List (Fin 4)) (s : State) : (l.foldl releaseAt s).summ = s.summ := by
  induction l generalizing s with
  | nil => rfl
  | cons i l ih => rw [List.foldl_cons, ih, releaseAt_summ]
@[simp] theorem failSlots_summ (w : WriteResult) (l : List (Fin 4)) (s : State) : (failSlots w l s).summ = s.summ := by
  unfold failSlots; dsimp only; rw [releaseAll_summ]; split <;> simp [reportWrites_summ]
@[simp] theorem failStoreWait_summ (s : State) : (failStoreWait s).summ = s.summ := failSlots_summ ..
theorem releaseAt_recon (s : State) (i : Fin 4) : (releaseAt s i).recon = s.recon := by
  unfold releaseAt; split <;> simp
theorem releaseAll_recon (l : List (Fin 4)) (s : State) : (l.foldl releaseAt s).recon = s.recon := by
  induction l generalizing s with
  | nil => rfl
  | cons i l ih => rw [List.foldl_cons, ih, releaseAt_recon]
@[simp] theorem failSlots_recon (w : WriteResult) (l : List (Fin 4)) (s : State) : (failSlots w l s).recon = s.recon := by
  unfold failSlots; dsimp only; rw [releaseAll_recon]; split <;> simp [reportWrites_recon]
@[simp] theorem failStoreWait_recon (s : State) : (failStoreWait s).recon = s.recon := failSlots_recon ..
theorem releaseAt_fetch (s : State) (i : Fin 4) : (releaseAt s i).fetch = s.fetch := by
  unfold releaseAt; split <;> simp
theorem releaseAll_fetch (l : List (Fin 4)) (s : State) : (l.foldl releaseAt s).fetch = s.fetch := by
  induction l generalizing s with
  | nil => rfl
  | cons i l ih => rw [List.foldl_cons, ih, releaseAt_fetch]
@[simp] theorem failSlots_fetch (w : WriteResult) (l : List (Fin 4)) (s : State) : (failSlots w l s).fetch = s.fetch := by
  unfold failSlots; dsimp only; rw [releaseAll_fetch]; split <;> simp [reportWrites_fetch]
@[simp] theorem failStoreWait_fetch (s : State) : (failStoreWait s).fetch = s.fetch := failSlots_fetch ..
theorem releaseAt_resp (s : State) (i : Fin 4) : (releaseAt s i).resp = s.resp := by
  unfold releaseAt; split <;> simp
theorem releaseAll_resp (l : List (Fin 4)) (s : State) : (l.foldl releaseAt s).resp = s.resp := by
  induction l generalizing s with
  | nil => rfl
  | cons i l ih => rw [List.foldl_cons, ih, releaseAt_resp]
@[simp] theorem failSlots_resp (w : WriteResult) (l : List (Fin 4)) (s : State) : (failSlots w l s).resp = s.resp := by
  unfold failSlots; dsimp only; rw [releaseAll_resp]; split <;> simp [reportWrites_resp]
@[simp] theorem failStoreWait_resp (s : State) : (failStoreWait s).resp = s.resp := failSlots_resp ..
theorem releaseAt_now (s : State) (i : Fin 4) : (releaseAt s i).now = s.now := by
  unfold releaseAt; split <;> simp
theorem releaseAll_now (l : List (Fin 4)) (s : State) : (l.foldl releaseAt s).now = s.now := by
  induction l generalizing s with
  | nil => rfl
  | cons i l ih => rw [List.foldl_cons, ih, releaseAt_now]
@[simp] theorem failSlots_now (w : WriteResult) (l : List (Fin 4)) (s : State) : (failSlots w l s).now = s.now := by
  unfold failSlots; dsimp only; rw [releaseAll_now]; split <;> simp [reportWrites_now]
@[simp] theorem failStoreWait_now (s : State) : (failStoreWait s).now = s.now := failSlots_now ..
theorem releaseAt_free (s : State) (i : Fin 4) : (releaseAt s i).free = s.free := by
  unfold releaseAt; split <;> simp
theorem releaseAll_free (l : List (Fin 4)) (s : State) : (l.foldl releaseAt s).free = s.free := by
  induction l generalizing s with
  | nil => rfl
  | cons i l ih => rw [List.foldl_cons, ih, releaseAt_free]
@[simp] theorem failSlots_free (w : WriteResult) (l : List (Fin 4)) (s : State) : (failSlots w l s).free = s.free := by
  unfold failSlots; dsimp only; rw [releaseAll_free]; split <;> simp [reportWrites_free]
@[simp] theorem failStoreWait_free (s : State) : (failStoreWait s).free = s.free := failSlots_free ..
theorem releaseAt_pending (s : State) (i : Fin 4) : (releaseAt s i).pending = s.pending := by
  unfold releaseAt; split <;> simp
theorem releaseAll_pending (l : List (Fin 4)) (s : State) : (l.foldl releaseAt s).pending = s.pending := by
  induction l generalizing s with
  | nil => rfl
  | cons i l ih => rw [List.foldl_cons, ih, releaseAt_pending]
@[simp] theorem failSlots_pending (w : WriteResult) (l : List (Fin 4)) (s : State) : (failSlots w l s).pending = s.pending := by
  unfold failSlots; dsimp only; rw [releaseAll_pending]; split <;> simp [reportWrites_pending]
@[simp] theorem failStoreWait_pending (s : State) : (failStoreWait s).pending = s.pending := failSlots_pending ..

end Sys2Proof.Machine
end

