-- ==== Sys2Proof/Laws/Directory.lean ====
section
/-! SUPPORT. The Record Directory and the update slots: looking up, putting an entry, what a commit changes (Ops.lean,
UpdateOps.lean). -/

namespace Sys2Proof.Machine

set_option linter.unusedSimpArgs false

theorem lookup_of_invalid {s : State} {k : Key} (h : validKey k = false) : lookup s k = none := by simp [lookup, h]

theorem mem_of_lookup {s : State} {k : Key} {e : Entry} (h : lookup s k = some e) : e ∈ s.dir.entries ∧ e.key = k := by
  unfold lookup at h
  split at h <;> [skip; simp at h]
  exact ⟨List.mem_of_find?_eq_some h, by simpa using List.find?_some h⟩

theorem eq_of_key_eq {l : List Entry} (hs : l.Pairwise fun a b => a.key.toNat < b.key.toNat) {a b}
    (ha : a ∈ l) (hb : b ∈ l) (h : a.key = b.key) : a = b := by
  induction l with
  | nil => simp at ha
  | cons c l ih =>
    have hc := (List.pairwise_cons.1 hs).1
    rcases List.mem_cons.1 ha with rfl | ha <;> rcases List.mem_cons.1 hb with rfl | hb
    · rfl
    · have := hc b hb; rw [h] at this; omega
    · have := hc a (by assumption); rw [h] at this; omega
    · exact ih (List.pairwise_cons.1 hs).2 ha hb

theorem find_putEntry (l : List Entry) (e : Entry) (k : Key) :
    (putEntry l e).find? (fun d => d.key == k) = if k = e.key then some e else l.find? (fun d => d.key == k) := by
  induction l with
  | nil => unfold putEntry; by_cases h : k = e.key
           · simp [h]
           · simp [h, Ne.symm h]
  | cons d l ih =>
    unfold putEntry
    split
    · by_cases h : k = e.key
      · simp [h]
      · rw [List.find?_cons_of_neg (by simp [Ne.symm h]), if_neg h]
    · split
      · rename_i h1 h2
        by_cases h : k = e.key
        · simp [h]
        · rw [List.find?_cons_of_neg (by simp [Ne.symm h]), if_neg h,
            List.find?_cons_of_neg (by rw [← h2]; simp [Ne.symm h])]
      · rename_i h1 h2
        by_cases hd : d.key = k
        · rw [List.find?_cons_of_pos (by simp [hd]), List.find?_cons_of_pos (by simp [hd]), if_neg]
          intro h; exact h2 (by rw [← h, hd])
        · rw [List.find?_cons_of_neg (by simp [hd]), List.find?_cons_of_neg (by simp [hd]), ih]

theorem putEntry_eq_map {l : List Entry} {e : Entry} (hs : l.Pairwise fun a b => a.key.toNat < b.key.toNat) {d}
    (hd : d ∈ l) (hk : d.key = e.key) :
   putEntry l e = l.map fun d => if d.key = e.key then e else d := by
  induction l with
  | nil => simp at hd
  | cons a l ih =>
    have ha := (List.pairwise_cons.1 hs).1
    unfold putEntry
    rcases List.mem_cons.1 hd with rfl | hm
    · rw [if_neg (by rw [hk]; omega), if_pos hk.symm, List.map_cons, if_pos hk]
      congr 1
      symm
      rw [List.map_congr_left (g := id)]
      · simp
      · intro b hb; rw [if_neg]; rfl
        intro h; have := ha b hb; rw [h, hk] at this; omega
    · have := ha d hm
      rw [if_neg (by rw [← hk]; omega), if_neg (by intro h; rw [hk, h] at this; omega), List.map_cons,
          if_neg (by intro h; rw [hk, h] at this; omega), ih (List.pairwise_cons.1 hs).2 hm]

theorem getElem_xorCheck (v : Vector (BitVec 16) 64) (k : Key) (f : BitVec 16) (b : Bucket) :
    (xorCheck v k f)[b.toNat]'b.isLt = if b = bucketOf k then v[b.toNat]'b.isLt ^^^ f else v[b.toNat]'b.isLt := by
  unfold xorCheck
  rw [Vector.getElem_set]
  by_cases h : b = bucketOf k
  · subst h; simp
  · rw [if_neg h, if_neg]; intro h'; exact h (BitVec.eq_of_toNat_eq h'.symm)

theorem commitEntry_dir (e : Entry) (s : State) :
    (commitEntry e s).dir =
      match lookup s e.key with
      | none => s.dir.insert e (!isLocal s e.key)
      | some old => s.dir.replace old e (!isLocal s e.key) := by
  unfold commitEntry; cases lookup s e.key <;> rfl

theorem commitEntry_rest (e : Entry) (s : State) :
    ∃ l, commitEntry e s =
      { s with dir := (commitEntry e s).dir, store := { s.store with sectors := l } } := by
  unfold commitEntry; cases lookup s e.key <;> exact ⟨_, rfl⟩

theorem liveOf_commitEntry (e : Entry) (s : State) (he : e.loc.sector < s.store.sectors.length) (n : Nat) :
    liveOf (commitEntry e s) n =
      (liveOf s n - match lookup s e.key with
        | some old => if old.loc.sector = n then old.imageLen else 0
        | none => 0) + if e.loc.sector = n then e.imageLen else 0 := by
  unfold commitEntry
  cases hl : lookup s e.key with
  | none =>
    dsimp only; unfold addLive; rw [liveOf_modifySector]; unfold liveOf; dsimp only
    cases hx : s.store.sectors[n]? with
    | none => rw [if_neg (show ¬ e.loc.sector = n by intro h; rw [List.getElem?_eq_none_iff] at hx; omega)]; rfl
    | some x => dsimp only; split <;> simp
  | some old =>
    dsimp only; unfold addLive; rw [liveOf_modifySector]; unfold liveOf subLive modifySector; dsimp only
    rw [List.getElem?_modify]
    cases hx : s.store.sectors[n]? with
    | none => dsimp; rw [if_neg (show ¬ e.loc.sector =
        n by intro h; rw [List.getElem?_eq_none_iff] at hx; omega)]; split <;> simp
    | some x => dsimp; split <;> split <;> simp_all

theorem holdsKey_iff {s : State} {k : Key} {i : Fin 4} : holdsKey s k i = true ↔ ∃ x, s.upd.slots[i] = some x ∧
    x.record.key = k := by
  unfold holdsKey; split <;> simp_all

theorem slotWithKey_isSome {s : State} {k : Key} : (slotWithKey s k).isSome = true ↔ ∃ (i : Fin 4) (x : Slot),
    s.upd.slots[i] = some x ∧ x.record.key = k := by
  simp only [slotWithKey, List.find?_isSome, holdsKey_iff]
  exact ⟨fun ⟨i, _, h⟩ => ⟨i, h⟩, fun ⟨i, h⟩ => ⟨i, mem_slotNumbers i, h⟩⟩

theorem slotWithKey_eq_some {s : State} {k : Key} {i : Fin 4} {x : Slot} (h : s.upd.slots[i] =
    some x) (hk : x.record.key = k)
   (hf : ∀ (j : Fin 4) (y : Slot), j < i → s.upd.slots[j] = some y → y.record.key ≠ k) : slotWithKey s k = some i := by
  have hi : holdsKey s k i = true := holdsKey_iff.2 ⟨x, h, hk⟩
  have hj : ∀ j, j < i → holdsKey s k j = false := by
    intro j hj; rw [← Bool.not_eq_true, holdsKey_iff]; rintro ⟨y, h1, h2⟩; exact hf j y hj h1 h2
  unfold slotWithKey slotNumbers
  fin_cases i
  · simp only [List.find?_cons]; rw [show holdsKey s k 0 = true from hi]; rfl
  · simp only [List.find?_cons]; rw [hj 0 (by decide), show holdsKey s k 1 = true from hi]; rfl
  · simp only [List.find?_cons]; rw [hj 0 (by decide), hj 1 (by decide), show holdsKey s k 2 = true from hi]; rfl
  · simp only [List.find?_cons]; rw [hj 0 (by decide), hj 1 (by decide), hj 2 (by decide),
      show holdsKey s k 3 = true from hi]; rfl

theorem slotWithKey_eq_none {s : State} {k : Key} (h : ∀ (j : Fin 4) (y : Slot),
    s.upd.slots[j] = some y → y.record.key ≠ k) : slotWithKey s k = none := by
  rw [← Option.isNone_iff_eq_none, ← Bool.not_eq_false, Option.isNone_eq_false_iff, slotWithKey_isSome]
  rintro ⟨i, x, h1, h2⟩; exact h i x h1 h2

theorem any_inStoreWait_iff {s : State} : slotNumbers.any (inStoreWait s) = true ↔ ∃ (i : Fin 4) (x : Slot),
    s.upd.slots[i] = some x ∧ x.phase = .storeWait := by
  rw [List.any_eq_true]
  constructor
  · rintro ⟨i, _, h⟩; unfold inStoreWait at h; cases hx : s.upd.slots[i] with
    | none => simp [hx] at h
    | some x => simp [hx] at h; exact ⟨i, x, hx, h⟩
  · rintro ⟨i, x, hx, h⟩; exact ⟨i, Machine.mem_slotNumbers i, by unfold inStoreWait; simp [hx, h]⟩

theorem readAs_eq_some {found e r} (h : found = ImageRead.image r) (h1 : r.key = e.key) (h2 : r.stamp = e.stamp) :
    readAs found e = some r := by
  subst h; unfold readAs; simp only []; rw [if_pos ⟨h1, h2⟩]

theorem readAs_eq_none {found : ImageRead} {e : Entry} (h : ∀ r, found = .image r →
    r.key ≠ e.key ∨ r.stamp ≠ e.stamp) : readAs found e = none := by
  unfold readAs
  cases found with
  | blank => rfl
  | bad => rfl
  | image r =>
    simp only []; rw [if_neg]; rintro ⟨a, b⟩; rcases h r rfl with h | h
    · exact h a
    · exact h b

theorem isLiveImage_iff {s : State} {r : Record} {loc : Loc} : isLiveImage s r loc = true ↔ ∃ e,
    lookup s r.key = some e ∧ e.loc = loc ∧ e.stamp = r.stamp := by
  unfold isLiveImage; cases lookup s r.key <;> simp

end Sys2Proof.Machine
end

