-- ==== Sys2Proof/Laws/Dispatch.lean ====
section
/-! SUPPORT. What exec is on each command: its meaning, by rfl. -/

namespace Sys2Proof.Machine

theorem exec_status (s : State) : exec .status s = execStatus s := rfl
theorem exec_getReply (s : State) : exec .getReply s = execGetReply s := rfl
theorem exec_readEvent (s : State) : exec .readEvent s = execReadEvent s := rfl
theorem exec_readProfile (offset : Byte) (s : State) : exec (.readProfile offset) s = execReadProfile offset s := rfl
theorem exec_softReset (erased : List (Nat × Byte)) (s : State) : exec (.softReset erased) s = execSoftReset erased s := rfl
theorem exec_ackDiverged (s : State) : exec .ackDiverged s = execAckDiverged s := rfl
theorem exec_writeRecord (key : Key) (value : List Byte) (s : State) : exec (.writeRecord key value) s = execWriteRecord key value s := rfl
theorem exec_deleteRecord (key : Key) (s : State) : exec (.deleteRecord key) s = execDeleteRecord key s := rfl
theorem exec_readRecord (key : Key) (s : State) : exec (.readRecord key) s = execReadRecord key s := rfl
theorem exec_listKeys (start : Key) (s : State) : exec (.listKeys start) s = execListKeys start s := rfl
theorem exec_readPeers (s : State) : exec .readPeers s = execReadPeers s := rfl
theorem exec_syncNow (s : State) : exec .syncNow s = execSyncNow s := rfl
theorem exec_programConfig (offset : Byte) (bytes : List Byte) (s : State) : exec (.programConfig offset bytes) s = execProgramConfig offset bytes s := rfl
theorem exec_lockConfig (s : State) : exec .lockConfig s = execLockConfig s := rfl
theorem exec_unknownCommand (code : Byte) (s : State) : exec (.unknownCommand code) s = execUnknownCommand code s := rfl
theorem exec_transactionEnd (clocked : Nat) (s : State) : exec (.transactionEnd clocked) s = execTransactionEnd clocked s := rfl
theorem exec_configProgramDone (failed : List Byte) (s : State) : exec (.configProgramDone failed) s = execConfigProgramDone failed s := rfl
theorem exec_lockCheckProgrammed (failed : List Byte) (s : State) : exec (.lockCheckProgrammed failed) s = execLockCheckProgrammed failed s := rfl
theorem exec_lockMarkerProgrammed (failed : Byte) (s : State) : exec (.lockMarkerProgrammed failed) s = execLockMarkerProgrammed failed s := rfl
theorem exec_powerOnReset (cut : Cut) (s : State) : exec (.powerOnReset cut) s = execPowerOnReset cut s := rfl
theorem exec_powerOnResetEnd (straps : Station) (s : State) : exec (.powerOnResetEnd straps) s = execPowerOnResetEnd straps s := rfl
theorem exec_pinReset (cut : Cut) (s : State) : exec (.pinReset cut) s = execPinReset cut s := rfl
theorem exec_pinResetEnd (straps : Station) (s : State) : exec (.pinResetEnd straps) s = execPinResetEnd straps s := rfl
theorem exec_softResetWaitEnd (straps : Station) (s : State) : exec (.softResetWaitEnd straps) s = execSoftResetWaitEnd straps s := rfl
theorem exec_startUpScanEnd (s : State) : exec .startUpScanEnd s = execStartUpScanEnd s := rfl
theorem exec_listeningPeriodEnd (s : State) : exec .listeningPeriodEnd s = execListeningPeriodEnd s := rfl
theorem exec_settlingEnd (s : State) : exec .settlingEnd s = execSettlingEnd s := rfl
theorem exec_frameStart (s : State) : exec .frameStart s = execFrameStart s := rfl
theorem exec_frameEndGood (bytes : List Byte) (s : State) : exec (.frameEndGood bytes) s = execFrameEndGood bytes s := rfl
theorem exec_frameEndGarbled (s : State) : exec .frameEndGarbled s = execFrameEndGarbled s := rfl
theorem exec_guardEnd (s : State) : exec .guardEnd s = execGuardEnd s := rfl
theorem exec_slotStart (s : State) : exec .slotStart s = execSlotStart s := rfl
theorem exec_cycleEnd (s : State) : exec .cycleEnd s = execCycleEnd s := rfl
theorem exec_collisionDetected (s : State) : exec .collisionDetected s = execCollisionDetected s := rfl
theorem exec_transmitEnd (s : State) : exec .transmitEnd s = execTransmitEnd s := rfl
theorem exec_waitingFramePlaced (s : State) : exec .waitingFramePlaced s = execWaitingFramePlaced s := rfl
theorem exec_newsTaken (s : State) : exec .newsTaken s = execNewsTaken s := rfl
theorem exec_supplyTaken (s : State) : exec .supplyTaken s = execSupplyTaken s := rfl
theorem exec_summaryTaken (s : State) : exec .summaryTaken s = execSummaryTaken s := rfl
theorem exec_profileTaken (s : State) : exec .profileTaken s = execProfileTaken s := rfl
theorem exec_bucketReplyTaken (s : State) : exec .bucketReplyTaken s = execBucketReplyTaken s := rfl
theorem exec_fetchTaken (s : State) : exec .fetchTaken s = execFetchTaken s := rfl
theorem exec_bucketQueryTaken (s : State) : exec .bucketQueryTaken s = execBucketQueryTaken s := rfl
theorem exec_profileQueryTaken (s : State) : exec .profileQueryTaken s = execProfileQueryTaken s := rfl
theorem exec_summaryTimerExpiry (s : State) : exec .summaryTimerExpiry s = execSummaryTimerExpiry s := rfl
theorem exec_profileReplyTimeout (s : State) : exec .profileReplyTimeout s = execProfileReplyTimeout s := rfl
theorem exec_bucketReplyTimeout (s : State) : exec .bucketReplyTimeout s = execBucketReplyTimeout s := rfl
theorem exec_fetchReplyTimeout (slot : Fin 4) (s : State) : exec (.fetchReplyTimeout slot) s = execFetchReplyTimeout slot s := rfl
theorem exec_silenceLimit (peer : Station) (s : State) : exec (.silenceLimit peer) s = execSilenceLimit peer s := rfl
theorem exec_absenceLimit (peer : Station) (s : State) : exec (.absenceLimit peer) s = execAbsenceLimit peer s := rfl
theorem exec_duplicateMarkExpiry (peer : Station) (s : State) : exec (.duplicateMarkExpiry peer) s = execDuplicateMarkExpiry peer s := rfl
theorem exec_readGrant (s : State) : exec .readGrant s = execReadGrant s := rfl
theorem exec_appendGrant (s : State) : exec .appendGrant s = execAppendGrant s := rfl
theorem exec_markGrant (s : State) : exec .markGrant s = execMarkGrant s := rfl
theorem exec_eraseGrant (s : State) : exec .eraseGrant s = execEraseGrant s := rfl
theorem exec_eraseSuspended (s : State) : exec .eraseSuspended s = execEraseSuspended s := rfl
theorem exec_eraseResume (s : State) : exec .eraseResume s = execEraseResume s := rfl
theorem exec_hostReadDone (s : State) : exec .hostReadDone s = execHostReadDone s := rfl
theorem exec_responderReadDone (s : State) : exec .responderReadDone s = execResponderReadDone s := rfl
theorem exec_compactionReadDone (s : State) : exec .compactionReadDone s = execCompactionReadDone s := rfl
theorem exec_updateProgramDone (failed : List Byte) (s : State) : exec (.updateProgramDone failed) s = execUpdateProgramDone failed s := rfl
theorem exec_copyProgramDone (failed : List Byte) (s : State) : exec (.copyProgramDone failed) s = execCopyProgramDone failed s := rfl
theorem exec_reclaimMarkDone (s : State) : exec .reclaimMarkDone s = execReclaimMarkDone s := rfl
theorem exec_eraseMarkDone (s : State) : exec .eraseMarkDone s = execEraseMarkDone s := rfl
theorem exec_eraseDone (failed : List (Nat × Byte)) (markerFailed : Byte) (s : State) : exec (.eraseDone failed markerFailed) s = execEraseDone failed markerFailed s := rfl
theorem exec_settlingCarrier (s : State) : exec .settlingCarrier s = execSettlingCarrier s := rfl
theorem exec_eraseCountProgrammed (s : State) : exec .eraseCountProgrammed s = execEraseCountProgrammed s := rfl

end Sys2Proof.Machine
end

