-- ==== Sys2Proof/Laws/Layouts.lean ====
section
/-! SUPPORT. Byte layouts read back as written: words of bytes, station numbers, flags, records (Operands.lean). -/

namespace Sys2Proof.Machine

set_option linter.unusedSimpArgs false

theorem word16_of_bytes (w : BitVec 16) : w.extractLsb' 8 8 ++ w.extractLsb' 0 8 = w := by
  apply BitVec.eq_of_getLsbD_eq
  intro i hi
  simp only [BitVec.getLsbD_append, BitVec.getLsbD_extractLsb']
  by_cases h : i < 8
  · simp [h]
  · simp [h, show i - 8 < 8 by omega, show 8 + (i - 8) = i by omega]

theorem word32_of_bytes (w : BitVec 32) :
    w.extractLsb' 24 8 ++ w.extractLsb' 16 8 ++ w.extractLsb' 8 8 ++ w.extractLsb' 0 8 = w := by
  apply BitVec.eq_of_getLsbD_eq
  intro i hi
  simp only [BitVec.getLsbD_append, BitVec.getLsbD_extractLsb']
  by_cases h : i < 8
  · simp [h]
  · by_cases h2 : i < 16
    · simp [h, show i - 8 < 8 by omega, show 8 + (i - 8) = i by omega]
    · by_cases h3 : i < 24
      · simp [h, show ¬ i - 8 < 8 by omega, show i - 8 - 8 < 8 by omega, show 16 + (i - 8 - 8) = i by omega]
      · simp [h, show ¬ i - 8 < 8 by omega, show ¬ i - 8 - 8 < 8 by omega, show i - 8 - 8 - 8 < 8 by omega,
          show 24 + (i - 8 - 8 - 8) = i by omega]

theorem stationOfByte_stationByte (p : Station) : stationOfByte (stationByte p) = some p := by
  unfold stationOfByte stationByte
  have := p.isLt
  rw [if_pos (by rw [BitVec.toNat_setWidth]; omega)]
  congr 1
  apply BitVec.eq_of_toNat_eq
  rw [BitVec.toNat_setWidth, BitVec.toNat_setWidth]; omega

theorem flagByte_bit (b : Bool) : (flagByte b).getLsbD 0 = b := by cases b <;> rfl

theorem parseRecord_recordBytes (r : Record) (h : r.value.length ≤ 255) : parseRecord (recordBytes r) = some r := by
  have hl : (recordBytes r).length = 9 + r.value.length := by simp [recordBytes, be16, stampBytes, be32]; omega
  unfold parseRecord
  rw [if_neg (by omega)]
  have h8 : byteAt (recordBytes r) 8 = BitVec.ofNat 8 r.value.length := rfl
  have h6 : byteAt (recordBytes r) 6 = stationByte r.stamp.origin := rfl
  have h7 : byteAt (recordBytes r) 7 = flagByte r.tomb := rfl
  have h0 : wordAt (recordBytes r) 0 = r.key := word16_of_bytes _
  have h2 : longAt (recordBytes r) 2 = r.stamp.counter := word32_of_bytes _
  have hd : (recordBytes r).drop 9 = r.value := rfl
  rw [h8, h6, h7, h0, h2, hd, hl, if_neg (by simp; omega), stationOfByte_stationByte, flagByte_bit]

end Sys2Proof.Machine
end

