-- ==== Sys2Proof/Laws/Offers.lean ====
section
/-! SUPPORT. What offering work to the Transmit Queue can change: `Offers s t` is said once of every operation that places
frames or makes their requesters wait, and composes. -/

namespace Sys2Proof.Machine

/-- From s to t nothing but the Transmit Queue's side has moved: frames joined its tail (a queued frame may lose its
placer), requesters wait, queries, jobs and fetch slots advance, READs are placed, attempts and marks are counted. -/
structure Offers (s t : State) : Prop where
  ctl : t.ctl = s.ctl
  cfg : t.cfg = s.cfg
  host : t.host = s.host
  dir : t.dir = s.dir
  upd : t.upd = s.upd
  store : t.store = { s.store with reads := t.store.reads }
  flash : t.flash = s.flash
  line : t.line = { s.line with txq := t.line.txq, waiting := t.line.waiting, seq := t.line.seq }
  queued : s.line.txq.map (fun f => { f with placer := none }) <+: t.line.txq.map fun f => { f with placer := none }
  peers : ∀ p, { peerOf t p with attempts := 0 } = { peerOf s p with attempts := 0 }
  summ : t.summ = s.summ
  wants : t.fetch.wants.map (fun w => (w.key, w.stamp, w.source)) = s.fetch.wants.map fun w => (w.key, w.stamp, w.source)
  now : t.now = s.now
  free : t.free = s.free
  pending : t.pending = s.pending

namespace Offers

theorem refl (s : State) : Offers s s where
  ctl := rfl
  cfg := rfl
  host := rfl
  dir := rfl
  upd := rfl
  store := rfl
  flash := rfl
  line := rfl
  queued := List.prefix_rfl
  peers _ := rfl
  summ := rfl
  wants := rfl
  now := rfl
  free := rfl
  pending := rfl

theorem trans {s t u : State} (h : Offers s t) (k : Offers t u) : Offers s u where
  ctl := k.ctl.trans h.ctl
  cfg := k.cfg.trans h.cfg
  host := k.host.trans h.host
  dir := k.dir.trans h.dir
  upd := k.upd.trans h.upd
  store := by rw [k.store, h.store]
  flash := k.flash.trans h.flash
  line := by rw [k.line, h.line]
  queued := h.queued.trans k.queued
  peers p := (k.peers p).trans (h.peers p)
  summ := k.summ.trans h.summ
  wants := k.wants.trans h.wants
  now := k.now.trans h.now
  free := k.free.trans h.free
  pending := k.pending.trans h.pending

end Offers

theorem offers_placeFrame (k : FrameKind) (fl : BitVec 4) (d : Byte) (p : List Byte) (r : Option Requester) (s : State) :
    Offers s (placeFrame k fl d p r s) :=
  { Offers.refl s with line := rfl, queued := by simp [placeFrame], peers := fun _ => rfl, store := rfl }

theorem offers_waitForRoom (r : Requester) (s : State) : Offers s (waitForRoom r s) :=
  { Offers.refl s with line := rfl, peers := fun _ => rfl, store := rfl }

theorem offers_dropRequest (r : Requester) (s : State) : Offers s (dropRequest r s) :=
  { Offers.refl s with
    line := rfl
    queued := by
      simp only [dropRequest_line, List.map_map]
      have bare : ∀ t : TxFrame, { (if t.placer = some r then { t with placer := none } else t) with placer := none } =
          { t with placer := none } := fun t => by split <;> rfl
      simp [Function.comp_def, bare]
    peers := fun _ => rfl
    store := rfl }

theorem offers_setFetchSlot (i : Fin 4) (x : FetchSlot) (s : State) : Offers s (setFetchSlot i x s) :=
  { Offers.refl s with peers := fun _ => rfl, wants := rfl, store := rfl, line := rfl }

theorem offers_setService (v : Option Service) (s : State) : Offers s (setService v s) :=
  { Offers.refl s with peers := fun _ => rfl, store := rfl, line := rfl }

theorem offers_resp (r : Responder) (s : State) : Offers s { s with resp := r } :=
  { Offers.refl s with peers := fun _ => rfl, store := rfl, line := rfl }

theorem offers_recon (r : Reconciler) (s : State) : Offers s { s with recon := r } :=
  { Offers.refl s with peers := fun _ => rfl, store := rfl, line := rfl }

theorem offers_query (q : Option ProfileQuery) (s : State) : Offers s { s with memb := { s.memb with query := q } } :=
  { Offers.refl s with peers := fun _ => rfl, store := rfl, line := rfl }

theorem offers_placeRead (o : Reader) (l : Loc) (s : State) : Offers s (placeRead o l s) :=
  { Offers.refl s with store := rfl, line := rfl, peers := fun _ => rfl }

theorem offers_markRequested (k : Key) (s : State) : Offers s (markRequested k s) :=
  { Offers.refl s with
    wants := by
      simp only [markRequested, setWants_fetch, List.map_map]
      refine List.map_congr_left fun w _ => ?_
      simp only [Function.comp_apply]
      split <;> rfl
    peers := fun _ => rfl
    store := rfl
    line := rfl }

theorem offers_freeFetchSlot (i : Fin 4) (s : State) : Offers s (freeFetchSlot i s) :=
  (offers_setFetchSlot i .free s).trans (offers_dropRequest _ _)

theorem offers_placeProfileQuery (s : State) : Offers s (placeProfileQuery s) := by
  unfold placeProfileQuery
  split
  · exact (offers_query _ s).trans (offers_placeFrame ..)
  · exact Offers.refl s

theorem offers_placeBucketQuery (s : State) : Offers s (placeBucketQuery s) := by
  unfold placeBucketQuery
  split
  · exact (offers_recon _ s).trans (offers_placeFrame ..)
  · exact Offers.refl s

theorem offers_placeFetch (i : Fin 4) (s : State) : Offers s (placeFetch i s) := by
  unfold placeFetch
  split
  · exact (offers_setFetchSlot _ _ s).trans (offers_placeFrame ..)
  · exact Offers.refl s
  · exact Offers.refl s

theorem offers_placeReply (s : State) : Offers s (placeReply s) := by
  unfold placeReply
  split
  · split
    · exact (offers_resp _ s).trans (offers_placeFrame ..)
    · exact Offers.refl s
    · exact Offers.refl s
  · split
    · exact (offers_resp _ s).trans (offers_placeFrame ..)
    · exact (offers_resp _ s).trans (offers_placeFrame ..)
    · exact Offers.refl s
  · exact Offers.refl s

theorem offers_placeFor (r : Requester) (s : State) : Offers s (placeFor r s) := by
  cases r
  · exact offers_placeReply s
  · exact offers_placeProfileQuery s
  · exact offers_placeBucketQuery s
  · exact offers_placeFetch _ s

theorem offers_offerRequest (r : Requester) (s : State) : Offers s (offerRequest r s) := by
  unfold offerRequest
  split
  · exact offers_placeFor r s
  · exact offers_waitForRoom r s

theorem offers_serveJobs (n : Nat) (s : State) : Offers s (serveJobs n s) := by
  induction n generalizing s with
  | zero => exact Offers.refl s
  | succ n ih =>
    have round : ∀ v, Offers s (if hasRoom (setService v s) then serveJobs n (placeReply (setService v s))
        else waitForRoom .reply (setService v s)) := by
      intro v
      split
      · exact ((offers_setService v s).trans (offers_placeReply _)).trans (ih _)
      · exact (offers_setService v s).trans (offers_waitForRoom ..)
    unfold serveJobs
    split
    · exact Offers.refl s
    · split
      · exact Offers.refl s
      · split
        · split
          · exact (offers_setService _ s).trans (offers_placeRead ..)
          · exact round _
        · exact round _
        · exact round _

theorem offers_pumpResponder (s : State) : Offers s (pumpResponder s) := offers_serveJobs _ s

theorem offers_placeWaiting (s : State) : Offers s (placeWaiting s) := by
  have key : ∀ (l : List Requester) (t : State), Offers t (l.foldl (fun t r => placeFor r t) t) := by
    intro l
    induction l with
    | nil => exact Offers.refl
    | cons r l ih => exact fun t => (offers_placeFor r t).trans (ih _)
  have start : Offers s { s with line := { s.line with waiting := [] } } :=
    { Offers.refl s with line := rfl, peers := fun _ => rfl, store := rfl }
  unfold placeWaiting
  exact start.trans (key _ _)

theorem offers_serveWaiting (s : State) : Offers s (serveWaiting s) := by
  unfold serveWaiting
  split
  · exact Offers.refl s
  · exact (offers_placeWaiting s).trans (offers_pumpResponder _)

theorem offers_placeBehind {place : State → State} (h : ∀ t, Offers t (place t)) (s : State) :
    Offers s (placeBehind place s) := by
  unfold placeBehind
  split
  · dsimp only
    split
    · exact (offers_serveWaiting s).trans (h _)
    · exact offers_serveWaiting s
  · exact Offers.refl s

theorem offers_offerNews (r : Record) (s : State) : Offers s (offerNews r s) :=
  offers_placeBehind (fun t => offers_placeFrame _ _ _ _ _ t) s

theorem offers_offerSummary (s : State) : Offers s (offerSummary s) := by
  unfold offerSummary
  split
  · exact Offers.refl s
  · exact offers_placeBehind (fun t => offers_placeFrame _ _ _ _ _ t) s

/-- With no placer waiting, a frame that cannot wait is placed at once or not at all. -/
theorem placeBehind_of_none_waiting {place : State → State} {s : State} (h : s.line.waiting = []) :
    placeBehind place s = if hasRoom s then place s else s := by
  have left : placeLeft s = hasRoom s := by simp [placeLeft, hasRoom, h]
  simp only [placeBehind, serveWaiting, h, List.isEmpty_nil, if_true, left]
  split
  · rfl
  · rfl

theorem offerNews_of_none_waiting (r : Record) {s : State} (h : s.line.waiting = []) :
    offerNews r s = if hasRoom s then placeFrame .news 0 Config.broadcast (recordBytes r) none s else s :=
  placeBehind_of_none_waiting h

theorem offerSummary_of_none_waiting {s : State} (h : s.line.waiting = []) :
    offerSummary s =
      if s.line.txq.any (fun t => t.kind == .summary) then s
      else if hasRoom s then placeFrame .summary 0 Config.broadcast [] none s else s := by
  unfold offerSummary
  split
  · rfl
  · exact placeBehind_of_none_waiting h

theorem offers_countAttempts (p : Station) (n : Nat) (s : State) :
    Offers s (setPeer p { peerOf s p with attempts := n } s) :=
  { Offers.refl s with
    peers := fun q => by
      simp only [peerOf, setPeer_memb, Vector.getElem_set]
      split
      · rename_i h
        simp only [h]
      · rfl
    store := rfl
    line := rfl }

theorem offers_pumpProfile (s : State) : Offers s (pumpProfile s) := by
  unfold pumpProfile
  split
  · split
    · exact ((offers_countAttempts _ _ s).trans (offers_query _ _)).trans (offers_offerRequest ..)
    · exact Offers.refl s
  · exact Offers.refl s

theorem offers_pumpReconciler (s : State) : Offers s (pumpReconciler s) := by
  unfold pumpReconciler
  split
  · split
    · exact offers_recon _ s
    · exact (offers_recon _ s).trans (offers_offerRequest ..)
  · exact Offers.refl s

theorem offers_takeWant (s : State) (i : Fin 4) : Offers s (takeWant s i) := by
  unfold takeWant
  split
  · split
    · exact ((offers_markRequested _ s).trans (offers_setFetchSlot ..)).trans (offers_offerRequest ..)
    · exact Offers.refl s
  · exact Offers.refl s

theorem offers_pumpFetch (s : State) : Offers s (pumpFetch s) := by
  have key : ∀ (l : List (Fin 4)) (s : State), Offers s (l.foldl takeWant s) := by
    intro l
    induction l with
    | nil => exact Offers.refl
    | cons i l ih => exact fun s => (offers_takeWant s i).trans (ih _)
  exact key _ s

/-- The pump only offers. -/
theorem offers_pump (s : State) : Offers s (pump s) :=
  ((offers_pumpResponder s).trans (offers_pumpProfile _)).trans ((offers_pumpReconciler _).trans (offers_pumpFetch _))

/-! ## Field by field -/

@[simp] theorem offerSummary_ctl (s : State) : (offerSummary s).ctl = s.ctl := (offers_offerSummary s).ctl
@[simp] theorem offerSummary_cfg (s : State) : (offerSummary s).cfg = s.cfg := (offers_offerSummary s).cfg
@[simp] theorem offerSummary_host (s : State) : (offerSummary s).host = s.host := (offers_offerSummary s).host
@[simp] theorem offerSummary_dir (s : State) : (offerSummary s).dir = s.dir := (offers_offerSummary s).dir
@[simp] theorem offerSummary_upd (s : State) : (offerSummary s).upd = s.upd := (offers_offerSummary s).upd
@[simp] theorem offerSummary_flash (s : State) : (offerSummary s).flash = s.flash := (offers_offerSummary s).flash
@[simp] theorem offerSummary_summ (s : State) : (offerSummary s).summ = s.summ := (offers_offerSummary s).summ
@[simp] theorem offerSummary_now (s : State) : (offerSummary s).now = s.now := (offers_offerSummary s).now
@[simp] theorem offerSummary_free (s : State) : (offerSummary s).free = s.free := (offers_offerSummary s).free
@[simp] theorem offerSummary_pending (s : State) : (offerSummary s).pending = s.pending := (offers_offerSummary s).pending
@[simp] theorem offerNews_ctl (r : Record) (s : State) : (offerNews r s).ctl = s.ctl := (offers_offerNews r s).ctl
@[simp] theorem offerNews_cfg (r : Record) (s : State) : (offerNews r s).cfg = s.cfg := (offers_offerNews r s).cfg
@[simp] theorem offerNews_host (r : Record) (s : State) : (offerNews r s).host = s.host := (offers_offerNews r s).host
@[simp] theorem offerNews_dir (r : Record) (s : State) : (offerNews r s).dir = s.dir := (offers_offerNews r s).dir
@[simp] theorem offerNews_upd (r : Record) (s : State) : (offerNews r s).upd = s.upd := (offers_offerNews r s).upd
@[simp] theorem offerNews_flash (r : Record) (s : State) : (offerNews r s).flash = s.flash := (offers_offerNews r s).flash
@[simp] theorem offerNews_summ (r : Record) (s : State) : (offerNews r s).summ = s.summ := (offers_offerNews r s).summ
@[simp] theorem offerNews_now (r : Record) (s : State) : (offerNews r s).now = s.now := (offers_offerNews r s).now
@[simp] theorem offerNews_free (r : Record) (s : State) : (offerNews r s).free = s.free := (offers_offerNews r s).free
@[simp] theorem offerNews_pending (r : Record) (s : State) : (offerNews r s).pending = s.pending := (offers_offerNews r s).pending
@[simp] theorem offerRequest_ctl (r : Requester) (s : State) : (offerRequest r s).ctl = s.ctl := (offers_offerRequest r s).ctl
@[simp] theorem offerRequest_cfg (r : Requester) (s : State) : (offerRequest r s).cfg = s.cfg := (offers_offerRequest r s).cfg
@[simp] theorem offerRequest_host (r : Requester) (s : State) : (offerRequest r s).host = s.host := (offers_offerRequest r s).host
@[simp] theorem offerRequest_dir (r : Requester) (s : State) : (offerRequest r s).dir = s.dir := (offers_offerRequest r s).dir
@[simp] theorem offerRequest_upd (r : Requester) (s : State) : (offerRequest r s).upd = s.upd := (offers_offerRequest r s).upd
@[simp] theorem offerRequest_flash (r : Requester) (s : State) : (offerRequest r s).flash = s.flash := (offers_offerRequest r s).flash
@[simp] theorem offerRequest_summ (r : Requester) (s : State) : (offerRequest r s).summ = s.summ := (offers_offerRequest r s).summ
@[simp] theorem offerRequest_now (r : Requester) (s : State) : (offerRequest r s).now = s.now := (offers_offerRequest r s).now
@[simp] theorem offerRequest_free (r : Requester) (s : State) : (offerRequest r s).free = s.free := (offers_offerRequest r s).free
@[simp] theorem offerRequest_pending (r : Requester) (s : State) : (offerRequest r s).pending = s.pending := (offers_offerRequest r s).pending
@[simp] theorem placeReply_ctl (s : State) : (placeReply s).ctl = s.ctl := (offers_placeReply s).ctl
@[simp] theorem placeReply_cfg (s : State) : (placeReply s).cfg = s.cfg := (offers_placeReply s).cfg
@[simp] theorem placeReply_host (s : State) : (placeReply s).host = s.host := (offers_placeReply s).host
@[simp] theorem placeReply_dir (s : State) : (placeReply s).dir = s.dir := (offers_placeReply s).dir
@[simp] theorem placeReply_upd (s : State) : (placeReply s).upd = s.upd := (offers_placeReply s).upd
@[simp] theorem placeReply_flash (s : State) : (placeReply s).flash = s.flash := (offers_placeReply s).flash
@[simp] theorem placeReply_summ (s : State) : (placeReply s).summ = s.summ := (offers_placeReply s).summ
@[simp] theorem placeReply_now (s : State) : (placeReply s).now = s.now := (offers_placeReply s).now
@[simp] theorem placeReply_free (s : State) : (placeReply s).free = s.free := (offers_placeReply s).free
@[simp] theorem placeReply_pending (s : State) : (placeReply s).pending = s.pending := (offers_placeReply s).pending
@[simp] theorem pumpResponder_ctl (s : State) : (pumpResponder s).ctl = s.ctl := (offers_pumpResponder s).ctl
@[simp] theorem pumpResponder_cfg (s : State) : (pumpResponder s).cfg = s.cfg := (offers_pumpResponder s).cfg
@[simp] theorem pumpResponder_host (s : State) : (pumpResponder s).host = s.host := (offers_pumpResponder s).host
@[simp] theorem pumpResponder_dir (s : State) : (pumpResponder s).dir = s.dir := (offers_pumpResponder s).dir
@[simp] theorem pumpResponder_upd (s : State) : (pumpResponder s).upd = s.upd := (offers_pumpResponder s).upd
@[simp] theorem pumpResponder_flash (s : State) : (pumpResponder s).flash = s.flash := (offers_pumpResponder s).flash
@[simp] theorem pumpResponder_summ (s : State) : (pumpResponder s).summ = s.summ := (offers_pumpResponder s).summ
@[simp] theorem pumpResponder_now (s : State) : (pumpResponder s).now = s.now := (offers_pumpResponder s).now
@[simp] theorem pumpResponder_free (s : State) : (pumpResponder s).free = s.free := (offers_pumpResponder s).free
@[simp] theorem pumpResponder_pending (s : State) : (pumpResponder s).pending = s.pending := (offers_pumpResponder s).pending
@[simp] theorem pumpProfile_ctl (s : State) : (pumpProfile s).ctl = s.ctl := (offers_pumpProfile s).ctl
@[simp] theorem pumpProfile_cfg (s : State) : (pumpProfile s).cfg = s.cfg := (offers_pumpProfile s).cfg
@[simp] theorem pumpProfile_host (s : State) : (pumpProfile s).host = s.host := (offers_pumpProfile s).host
@[simp] theorem pumpProfile_dir (s : State) : (pumpProfile s).dir = s.dir := (offers_pumpProfile s).dir
@[simp] theorem pumpProfile_upd (s : State) : (pumpProfile s).upd = s.upd := (offers_pumpProfile s).upd
@[simp] theorem pumpProfile_flash (s : State) : (pumpProfile s).flash = s.flash := (offers_pumpProfile s).flash
@[simp] theorem pumpProfile_summ (s : State) : (pumpProfile s).summ = s.summ := (offers_pumpProfile s).summ
@[simp] theorem pumpProfile_now (s : State) : (pumpProfile s).now = s.now := (offers_pumpProfile s).now
@[simp] theorem pumpProfile_free (s : State) : (pumpProfile s).free = s.free := (offers_pumpProfile s).free
@[simp] theorem pumpProfile_pending (s : State) : (pumpProfile s).pending = s.pending := (offers_pumpProfile s).pending
@[simp] theorem pumpReconciler_ctl (s : State) : (pumpReconciler s).ctl = s.ctl := (offers_pumpReconciler s).ctl
@[simp] theorem pumpReconciler_cfg (s : State) : (pumpReconciler s).cfg = s.cfg := (offers_pumpReconciler s).cfg
@[simp] theorem pumpReconciler_host (s : State) : (pumpReconciler s).host = s.host := (offers_pumpReconciler s).host
@[simp] theorem pumpReconciler_dir (s : State) : (pumpReconciler s).dir = s.dir := (offers_pumpReconciler s).dir
@[simp] theorem pumpReconciler_upd (s : State) : (pumpReconciler s).upd = s.upd := (offers_pumpReconciler s).upd
@[simp] theorem pumpReconciler_flash (s : State) : (pumpReconciler s).flash = s.flash := (offers_pumpReconciler s).flash
@[simp] theorem pumpReconciler_summ (s : State) : (pumpReconciler s).summ = s.summ := (offers_pumpReconciler s).summ
@[simp] theorem pumpReconciler_now (s : State) : (pumpReconciler s).now = s.now := (offers_pumpReconciler s).now
@[simp] theorem pumpReconciler_free (s : State) : (pumpReconciler s).free = s.free := (offers_pumpReconciler s).free
@[simp] theorem pumpReconciler_pending (s : State) : (pumpReconciler s).pending = s.pending := (offers_pumpReconciler s).pending
@[simp] theorem pumpFetch_ctl (s : State) : (pumpFetch s).ctl = s.ctl := (offers_pumpFetch s).ctl
@[simp] theorem pumpFetch_cfg (s : State) : (pumpFetch s).cfg = s.cfg := (offers_pumpFetch s).cfg
@[simp] theorem pumpFetch_host (s : State) : (pumpFetch s).host = s.host := (offers_pumpFetch s).host
@[simp] theorem pumpFetch_dir (s : State) : (pumpFetch s).dir = s.dir := (offers_pumpFetch s).dir
@[simp] theorem pumpFetch_upd (s : State) : (pumpFetch s).upd = s.upd := (offers_pumpFetch s).upd
@[simp] theorem pumpFetch_flash (s : State) : (pumpFetch s).flash = s.flash := (offers_pumpFetch s).flash
@[simp] theorem pumpFetch_summ (s : State) : (pumpFetch s).summ = s.summ := (offers_pumpFetch s).summ
@[simp] theorem pumpFetch_now (s : State) : (pumpFetch s).now = s.now := (offers_pumpFetch s).now
@[simp] theorem pumpFetch_free (s : State) : (pumpFetch s).free = s.free := (offers_pumpFetch s).free
@[simp] theorem pumpFetch_pending (s : State) : (pumpFetch s).pending = s.pending := (offers_pumpFetch s).pending
@[simp] theorem pump_ctl (s : State) : (pump s).ctl = s.ctl := (offers_pump s).ctl
@[simp] theorem pump_cfg (s : State) : (pump s).cfg = s.cfg := (offers_pump s).cfg
@[simp] theorem pump_host (s : State) : (pump s).host = s.host := (offers_pump s).host
@[simp] theorem pump_dir (s : State) : (pump s).dir = s.dir := (offers_pump s).dir
@[simp] theorem pump_upd (s : State) : (pump s).upd = s.upd := (offers_pump s).upd
@[simp] theorem pump_flash (s : State) : (pump s).flash = s.flash := (offers_pump s).flash
@[simp] theorem pump_summ (s : State) : (pump s).summ = s.summ := (offers_pump s).summ
@[simp] theorem pump_now (s : State) : (pump s).now = s.now := (offers_pump s).now
@[simp] theorem pump_free (s : State) : (pump s).free = s.free := (offers_pump s).free
@[simp] theorem pump_pending (s : State) : (pump s).pending = s.pending := (offers_pump s).pending

@[simp] theorem placeFetch_store (i : Fin 4) (s : State) : (placeFetch i s).store = s.store := by
  unfold placeFetch; split <;> rfl
@[simp] theorem placeFetch_memb (i : Fin 4) (s : State) : (placeFetch i s).memb = s.memb := by
  unfold placeFetch; split <;> rfl
@[simp] theorem placeFetch_recon (i : Fin 4) (s : State) : (placeFetch i s).recon = s.recon := by
  unfold placeFetch; split <;> rfl
@[simp] theorem placeFetch_resp (i : Fin 4) (s : State) : (placeFetch i s).resp = s.resp := by
  unfold placeFetch; split <;> rfl
@[simp] theorem placeReply_store (s : State) : (placeReply s).store = s.store := by
  unfold placeReply; split <;> [split <;> rfl; split <;> rfl; rfl]
@[simp] theorem placeReply_memb (s : State) : (placeReply s).memb = s.memb := by
  unfold placeReply; split <;> [split <;> rfl; split <;> rfl; rfl]
@[simp] theorem placeReply_recon (s : State) : (placeReply s).recon = s.recon := by
  unfold placeReply; split <;> [split <;> rfl; split <;> rfl; rfl]
@[simp] theorem placeReply_fetch (s : State) : (placeReply s).fetch = s.fetch := by
  unfold placeReply; split <;> [split <;> rfl; split <;> rfl; rfl]
theorem serveJobs_memb (n : Nat) (s : State) : (serveJobs n s).memb = s.memb := by
  fun_induction serveJobs n s <;> simp_all +zetaDelta
@[simp] theorem pumpResponder_memb (s : State) : (pumpResponder s).memb = s.memb := serveJobs_memb _ s
theorem serveJobs_recon (n : Nat) (s : State) : (serveJobs n s).recon = s.recon := by
  fun_induction serveJobs n s <;> simp_all +zetaDelta
@[simp] theorem pumpResponder_recon (s : State) : (pumpResponder s).recon = s.recon := serveJobs_recon _ s
theorem serveJobs_fetch (n : Nat) (s : State) : (serveJobs n s).fetch = s.fetch := by
  fun_induction serveJobs n s <;> simp_all +zetaDelta
@[simp] theorem pumpResponder_fetch (s : State) : (pumpResponder s).fetch = s.fetch := serveJobs_fetch _ s
@[simp] theorem placeProfileQuery_store (s : State) : (placeProfileQuery s).store = s.store := by
  unfold placeProfileQuery; split <;> rfl
theorem offer_profileQuery_store (s : State) : (offerRequest .profileQuery s).store = s.store := by
  unfold offerRequest; split <;> [exact placeProfileQuery_store s; rfl]
@[simp] theorem pumpProfile_store (s : State) : (pumpProfile s).store = s.store := by
  unfold pumpProfile; (repeat' split) <;> first | rfl | exact offer_profileQuery_store _
@[simp] theorem placeProfileQuery_recon (s : State) : (placeProfileQuery s).recon = s.recon := by
  unfold placeProfileQuery; split <;> rfl
theorem offer_profileQuery_recon (s : State) : (offerRequest .profileQuery s).recon = s.recon := by
  unfold offerRequest; split <;> [exact placeProfileQuery_recon s; rfl]
@[simp] theorem pumpProfile_recon (s : State) : (pumpProfile s).recon = s.recon := by
  unfold pumpProfile; (repeat' split) <;> first | rfl | exact offer_profileQuery_recon _
@[simp] theorem placeProfileQuery_fetch (s : State) : (placeProfileQuery s).fetch = s.fetch := by
  unfold placeProfileQuery; split <;> rfl
theorem offer_profileQuery_fetch (s : State) : (offerRequest .profileQuery s).fetch = s.fetch := by
  unfold offerRequest; split <;> [exact placeProfileQuery_fetch s; rfl]
@[simp] theorem pumpProfile_fetch (s : State) : (pumpProfile s).fetch = s.fetch := by
  unfold pumpProfile; (repeat' split) <;> first | rfl | exact offer_profileQuery_fetch _
@[simp] theorem placeProfileQuery_resp (s : State) : (placeProfileQuery s).resp = s.resp := by
  unfold placeProfileQuery; split <;> rfl
theorem offer_profileQuery_resp (s : State) : (offerRequest .profileQuery s).resp = s.resp := by
  unfold offerRequest; split <;> [exact placeProfileQuery_resp s; rfl]
@[simp] theorem pumpProfile_resp (s : State) : (pumpProfile s).resp = s.resp := by
  unfold pumpProfile; (repeat' split) <;> first | rfl | exact offer_profileQuery_resp _
@[simp] theorem placeBucketQuery_store (s : State) : (placeBucketQuery s).store = s.store := by
  unfold placeBucketQuery; split <;> rfl
theorem offer_bucketQuery_store (s : State) : (offerRequest .bucketQuery s).store = s.store := by
  unfold offerRequest; split <;> [exact placeBucketQuery_store s; rfl]
@[simp] theorem pumpReconciler_store (s : State) : (pumpReconciler s).store = s.store := by
  unfold pumpReconciler; (repeat' split) <;> first | rfl | exact offer_bucketQuery_store _
@[simp] theorem placeBucketQuery_memb (s : State) : (placeBucketQuery s).memb = s.memb := by
  unfold placeBucketQuery; split <;> rfl
theorem offer_bucketQuery_memb (s : State) : (offerRequest .bucketQuery s).memb = s.memb := by
  unfold offerRequest; split <;> [exact placeBucketQuery_memb s; rfl]
@[simp] theorem pumpReconciler_memb (s : State) : (pumpReconciler s).memb = s.memb := by
  unfold pumpReconciler; (repeat' split) <;> first | rfl | exact offer_bucketQuery_memb _
@[simp] theorem placeBucketQuery_fetch (s : State) : (placeBucketQuery s).fetch = s.fetch := by
  unfold placeBucketQuery; split <;> rfl
theorem offer_bucketQuery_fetch (s : State) : (offerRequest .bucketQuery s).fetch = s.fetch := by
  unfold offerRequest; split <;> [exact placeBucketQuery_fetch s; rfl]
@[simp] theorem pumpReconciler_fetch (s : State) : (pumpReconciler s).fetch = s.fetch := by
  unfold pumpReconciler; (repeat' split) <;> first | rfl | exact offer_bucketQuery_fetch _
@[simp] theorem placeBucketQuery_resp (s : State) : (placeBucketQuery s).resp = s.resp := by
  unfold placeBucketQuery; split <;> rfl
theorem offer_bucketQuery_resp (s : State) : (offerRequest .bucketQuery s).resp = s.resp := by
  unfold offerRequest; split <;> [exact placeBucketQuery_resp s; rfl]
@[simp] theorem pumpReconciler_resp (s : State) : (pumpReconciler s).resp = s.resp := by
  unfold pumpReconciler; (repeat' split) <;> first | rfl | exact offer_bucketQuery_resp _
theorem offer_fetch_store (i : Fin 4) (s : State) : (offerRequest (.fetch i) s).store = s.store := by
  unfold offerRequest; split <;> [exact placeFetch_store i s; rfl]
@[simp] theorem takeWant_store (s : State) (i : Fin 4) : (takeWant s i).store = s.store := by
  unfold takeWant; (repeat' split) <;> first | rfl | exact offer_fetch_store _ _
@[simp] theorem pumpFetch_store (s : State) : (pumpFetch s).store = s.store := by
  simp [pumpFetch, slotNumbers]
theorem offer_fetch_memb (i : Fin 4) (s : State) : (offerRequest (.fetch i) s).memb = s.memb := by
  unfold offerRequest; split <;> [exact placeFetch_memb i s; rfl]
@[simp] theorem takeWant_memb (s : State) (i : Fin 4) : (takeWant s i).memb = s.memb := by
  unfold takeWant; (repeat' split) <;> first | rfl | exact offer_fetch_memb _ _
@[simp] theorem pumpFetch_memb (s : State) : (pumpFetch s).memb = s.memb := by
  simp [pumpFetch, slotNumbers]
theorem offer_fetch_recon (i : Fin 4) (s : State) : (offerRequest (.fetch i) s).recon = s.recon := by
  unfold offerRequest; split <;> [exact placeFetch_recon i s; rfl]
@[simp] theorem takeWant_recon (s : State) (i : Fin 4) : (takeWant s i).recon = s.recon := by
  unfold takeWant; (repeat' split) <;> first | rfl | exact offer_fetch_recon _ _
@[simp] theorem pumpFetch_recon (s : State) : (pumpFetch s).recon = s.recon := by
  simp [pumpFetch, slotNumbers]
theorem offer_fetch_resp (i : Fin 4) (s : State) : (offerRequest (.fetch i) s).resp = s.resp := by
  unfold offerRequest; split <;> [exact placeFetch_resp i s; rfl]
@[simp] theorem takeWant_resp (s : State) (i : Fin 4) : (takeWant s i).resp = s.resp := by
  unfold takeWant; (repeat' split) <;> first | rfl | exact offer_fetch_resp _ _
@[simp] theorem pumpFetch_resp (s : State) : (pumpFetch s).resp = s.resp := by
  simp [pumpFetch, slotNumbers]

end Sys2Proof.Machine
end

