-- ==== Sys2Proof/Laws/PerInstr.lean ====
section
/-! SUPPORT. The family HostLayout: what the SPI bytes of a host command look like, command by command. -/

namespace Sys2Proof.Laws.HostLayout

/-- The bytes a host clocks in for a command: none for a step that is no host command; else at least one, at most 258, the
first a code of R187 or, for the unknown command, none of them. -/
def Statement (i : Instr) : Prop :=
  ∀ bytes, hostBytes i = some bytes → i.wellFormed = true →
    ∃ code rest, bytes = code :: rest ∧ rest.length ≤ 258 ∧
      (commandCodes.contains code = true ∨ i = .unknownCommand code ∧ rest = [])

theorem status : Statement .status := by
  intro bytes h _
  exact ⟨_, _, (Option.some.inj h).symm, by simp, Or.inl (by decide)⟩

theorem getReply : Statement .getReply := by
  intro bytes h _
  exact ⟨_, _, (Option.some.inj h).symm, by simp, Or.inl (by decide)⟩

theorem readEvent : Statement .readEvent := by
  intro bytes h _
  exact ⟨_, _, (Option.some.inj h).symm, by simp, Or.inl (by decide)⟩

theorem readProfile (offset : Byte) : Statement (.readProfile offset) := by
  intro bytes h _
  exact ⟨_, _, (Option.some.inj h).symm, by simp, Or.inl (by decide)⟩

theorem softReset (erased : List (Nat × Byte)) : Statement (.softReset erased) := by
  intro bytes h _
  exact ⟨_, _, (Option.some.inj h).symm, by simp, Or.inl (by decide)⟩

theorem ackDiverged : Statement .ackDiverged := by
  intro bytes h _
  exact ⟨_, _, (Option.some.inj h).symm, by simp, Or.inl (by decide)⟩

theorem writeRecord (key : Key) (value : List Byte) : Statement (.writeRecord key value) := by
  intro bytes' h w
  refine ⟨_, _, (Option.some.inj h).symm, ?_, Or.inl (by decide)⟩
  simp only [Instr.wellFormed, decide_eq_true_eq] at w
  simp [be16]
  omega

theorem deleteRecord (key : Key) : Statement (.deleteRecord key) := by
  intro bytes h _
  exact ⟨_, _, (Option.some.inj h).symm, by simp [be16], Or.inl (by decide)⟩

theorem readRecord (key : Key) : Statement (.readRecord key) := by
  intro bytes h _
  exact ⟨_, _, (Option.some.inj h).symm, by simp [be16], Or.inl (by decide)⟩

theorem listKeys (start : Key) : Statement (.listKeys start) := by
  intro bytes h _
  exact ⟨_, _, (Option.some.inj h).symm, by simp [be16], Or.inl (by decide)⟩

theorem readPeers : Statement .readPeers := by
  intro bytes h _
  exact ⟨_, _, (Option.some.inj h).symm, by simp, Or.inl (by decide)⟩

theorem syncNow : Statement .syncNow := by
  intro bytes h _
  exact ⟨_, _, (Option.some.inj h).symm, by simp, Or.inl (by decide)⟩

theorem programConfig (offset : Byte) (bytes : List Byte) : Statement (.programConfig offset bytes) := by
  intro bytes' h w
  refine ⟨_, _, (Option.some.inj h).symm, ?_, Or.inl (by decide)⟩
  simp only [Instr.wellFormed, decide_eq_true_eq] at w
  simp
  omega

theorem lockConfig : Statement .lockConfig := by
  intro bytes h _
  exact ⟨_, _, (Option.some.inj h).symm, by simp, Or.inl (by decide)⟩

theorem unknownCommand (code : Byte) : Statement (.unknownCommand code) := by
  intro bytes h _
  exact ⟨code, [], (Option.some.inj h).symm, by simp, Or.inr ⟨rfl, rfl⟩⟩

theorem transactionEnd (clocked : Nat) : Statement (.transactionEnd clocked) := nofun

theorem configProgramDone (failed : List Byte) : Statement (.configProgramDone failed) := nofun

theorem lockCheckProgrammed (failed : List Byte) : Statement (.lockCheckProgrammed failed) := nofun

theorem lockMarkerProgrammed (failed : Byte) : Statement (.lockMarkerProgrammed failed) := nofun

theorem powerOnReset (cut : Cut) : Statement (.powerOnReset cut) := nofun

theorem powerOnResetEnd (straps : Station) : Statement (.powerOnResetEnd straps) := nofun

theorem pinReset (cut : Cut) : Statement (.pinReset cut) := nofun

theorem pinResetEnd (straps : Station) : Statement (.pinResetEnd straps) := nofun

theorem softResetWaitEnd (straps : Station) : Statement (.softResetWaitEnd straps) := nofun

theorem startUpScanEnd : Statement .startUpScanEnd := nofun

theorem listeningPeriodEnd : Statement .listeningPeriodEnd := nofun

theorem settlingEnd : Statement .settlingEnd := nofun

theorem frameStart : Statement .frameStart := nofun

theorem frameEndGood (bytes : List Byte) : Statement (.frameEndGood bytes) := nofun

theorem frameEndGarbled : Statement .frameEndGarbled := nofun

theorem guardEnd : Statement .guardEnd := nofun

theorem slotStart : Statement .slotStart := nofun

theorem cycleEnd : Statement .cycleEnd := nofun

theorem collisionDetected : Statement .collisionDetected := nofun

theorem transmitEnd : Statement .transmitEnd := nofun

theorem waitingFramePlaced : Statement .waitingFramePlaced := nofun

theorem newsTaken : Statement .newsTaken := nofun

theorem supplyTaken : Statement .supplyTaken := nofun

theorem summaryTaken : Statement .summaryTaken := nofun

theorem profileTaken : Statement .profileTaken := nofun

theorem bucketReplyTaken : Statement .bucketReplyTaken := nofun

theorem fetchTaken : Statement .fetchTaken := nofun

theorem bucketQueryTaken : Statement .bucketQueryTaken := nofun

theorem profileQueryTaken : Statement .profileQueryTaken := nofun

theorem summaryTimerExpiry : Statement .summaryTimerExpiry := nofun

theorem profileReplyTimeout : Statement .profileReplyTimeout := nofun

theorem bucketReplyTimeout : Statement .bucketReplyTimeout := nofun

theorem fetchReplyTimeout (slot : Fin 4) : Statement (.fetchReplyTimeout slot) := nofun

theorem silenceLimit (peer : Station) : Statement (.silenceLimit peer) := nofun

theorem absenceLimit (peer : Station) : Statement (.absenceLimit peer) := nofun

theorem duplicateMarkExpiry (peer : Station) : Statement (.duplicateMarkExpiry peer) := nofun

theorem readGrant : Statement .readGrant := nofun

theorem appendGrant : Statement .appendGrant := nofun

theorem markGrant : Statement .markGrant := nofun

theorem eraseGrant : Statement .eraseGrant := nofun

theorem eraseSuspended : Statement .eraseSuspended := nofun

theorem eraseResume : Statement .eraseResume := nofun

theorem hostReadDone : Statement .hostReadDone := nofun

theorem responderReadDone : Statement .responderReadDone := nofun

theorem compactionReadDone : Statement .compactionReadDone := nofun

theorem updateProgramDone (failed : List Byte) : Statement (.updateProgramDone failed) := nofun

theorem copyProgramDone (failed : List Byte) : Statement (.copyProgramDone failed) := nofun

theorem reclaimMarkDone : Statement .reclaimMarkDone := nofun

theorem eraseMarkDone : Statement .eraseMarkDone := nofun

theorem eraseDone (failed : List (Nat × Byte)) (markerFailed : Byte) : Statement (.eraseDone failed markerFailed) := nofun

theorem settlingCarrier : Statement .settlingCarrier := nofun

theorem eraseCountProgrammed : Statement .eraseCountProgrammed := nofun

end Sys2Proof.Laws.HostLayout
end

