-- ==== Sys2Proof/Laws/Withdraws.lean ====
section
/-! SUPPORT. What giving work up can change: `Withdraws s t` is said once of every operation that drops requests, jobs, Want
entries and fetches, or adds a Want entry, and composes. -/

namespace Sys2Proof.Machine

/-- From s to t only work on the line has been given up or noted: queued frames stay, but may lose their placer; waiting
requesters, fetch slots, the Want List, the Reconcile Queue, jobs and the owner of a READ may change. -/
structure Withdraws (s t : State) : Prop where
  ctl : t.ctl = s.ctl
  cfg : t.cfg = s.cfg
  host : t.host = s.host
  dir : t.dir = s.dir
  upd : t.upd = s.upd
  store : t.store = { s.store with reads := t.store.reads, op := t.store.op }
  flash : t.flash = s.flash
  line : t.line = { s.line with txq := t.line.txq, waiting := t.line.waiting }
  queued : t.line.txq.map (fun f => { f with placer := none }) = s.line.txq.map fun f => { f with placer := none }
  peers : t.memb.peers = s.memb.peers
  summ : t.summ = s.summ
  now : t.now = s.now
  free : t.free = s.free
  pending : t.pending = s.pending

namespace Withdraws

theorem refl (s : State) : Withdraws s s where
  ctl := rfl
  cfg := rfl
  host := rfl
  dir := rfl
  upd := rfl
  store := rfl
  flash := rfl
  line := rfl
  queued := rfl
  peers := rfl
  summ := rfl
  now := rfl
  free := rfl
  pending := rfl

theorem trans {s t u : State} (h : Withdraws s t) (k : Withdraws t u) : Withdraws s u where
  ctl := k.ctl.trans h.ctl
  cfg := k.cfg.trans h.cfg
  host := k.host.trans h.host
  dir := k.dir.trans h.dir
  upd := k.upd.trans h.upd
  store := by rw [k.store, h.store]
  flash := k.flash.trans h.flash
  line := by rw [k.line, h.line]
  queued := k.queued.trans h.queued
  peers := k.peers.trans h.peers
  summ := k.summ.trans h.summ
  now := k.now.trans h.now
  free := k.free.trans h.free
  pending := k.pending.trans h.pending

end Withdraws

theorem withdraws_dropRequest (r : Requester) (s : State) : Withdraws s (dropRequest r s) :=
  { Withdraws.refl s with
    line := rfl
    queued := by
      have bare : ∀ t : TxFrame, { (if t.placer = some r then { t with placer := none } else t) with placer := none } =
          { t with placer := none } := fun t => by split <;> rfl
      simp [Function.comp_def, bare]
    store := rfl }

theorem withdraws_fetch (f : FetchUnit) (s : State) : Withdraws s { s with fetch := f } :=
  { Withdraws.refl s with line := rfl, store := rfl }

theorem withdraws_recon (r : Reconciler) (s : State) : Withdraws s { s with recon := r } :=
  { Withdraws.refl s with line := rfl, store := rfl }

theorem withdraws_resp (r : Responder) (s : State) : Withdraws s { s with resp := r } :=
  { Withdraws.refl s with line := rfl, store := rfl }

theorem withdraws_query (q : Option ProfileQuery) (s : State) : Withdraws s { s with memb := { s.memb with query := q } } :=
  { Withdraws.refl s with line := rfl, store := rfl }

theorem withdraws_discardReads (s : State) : Withdraws s (discardReads s) :=
  { Withdraws.refl s with line := rfl, store := rfl }

theorem withdraws_freeFetchSlot (i : Fin 4) (s : State) : Withdraws s (freeFetchSlot i s) :=
  (withdraws_fetch _ s).trans (withdraws_dropRequest _ _)

theorem withdraws_fold {f : State → Fin 4 → State} (hf : ∀ s i, Withdraws s (f s i)) (l : List (Fin 4)) (s : State) :
    Withdraws s (l.foldl f s) := by
  induction l generalizing s with
  | nil => exact Withdraws.refl s
  | cons i l ih => exact (hf s i).trans (ih _)

theorem withdraws_freeSlotsOfKey (k : Key) (s : State) : Withdraws s (freeSlotsOfKey k s) :=
  withdraws_fold (fun s i => by split; exacts [withdraws_freeFetchSlot i s, Withdraws.refl s]) _ s

theorem withdraws_freeSlotsOfPeer (p : Station) (s : State) : Withdraws s (freeSlotsOfPeer p s) :=
  withdraws_fold (fun s i => by split; exacts [withdraws_freeFetchSlot i s, Withdraws.refl s]) _ s

theorem withdraws_setWants (l : List Want) (s : State) : Withdraws s (setWants l s) := withdraws_fetch _ s

theorem withdraws_removeWant (k : Key) (s : State) : Withdraws s (removeWant k s) := withdraws_setWants _ s

/-- Adding to the Want List (R137). -/
theorem withdraws_wantAdd (k : Key) (stamp : Stamp) (source : Station) (s : State) :
    Withdraws s (wantAdd k stamp source s) := by
  unfold wantAdd
  split
  · exact Withdraws.refl s
  · split
    · split
      · exact withdraws_setWants _ s
      · exact Withdraws.refl s
    · split
      · split
        · exact (withdraws_freeSlotsOfKey k s).trans (withdraws_setWants ..)
        · exact withdraws_setWants _ s
      · exact Withdraws.refl s

theorem withdraws_pruneWant (k : Key) (stamp : Stamp) (s : State) : Withdraws s (pruneWant k stamp s) := by
  unfold pruneWant
  split
  · split
    · exact Withdraws.refl s
    · exact (withdraws_freeSlotsOfKey k s).trans (withdraws_removeWant ..)
  · exact Withdraws.refl s

theorem withdraws_endBucketQuery (s : State) : Withdraws s (endBucketQuery s) :=
  (withdraws_recon _ s).trans (withdraws_dropRequest ..)

theorem withdraws_failBucketQuery (s : State) : Withdraws s (failBucketQuery s) := by
  unfold failBucketQuery
  dsimp only
  split
  · split
    · exact withdraws_endBucketQuery s
    · exact (withdraws_endBucketQuery s).trans (withdraws_recon ..)
  · exact withdraws_endBucketQuery s

theorem withdraws_finishQuery (s : State) : Withdraws s (finishQuery s) :=
  (withdraws_endBucketQuery s).trans (withdraws_recon ..)

theorem withdraws_endQueryOf (p : Station) (s : State) : Withdraws s (endQueryOf p s) := by
  unfold endQueryOf
  split
  · split
    · exact (withdraws_query _ s).trans (withdraws_dropRequest ..)
    · exact Withdraws.refl s
  · exact Withdraws.refl s

theorem withdraws_endService (s : State) : Withdraws s (endService s) :=
  ((withdraws_resp _ s).trans (withdraws_dropRequest ..)).trans (withdraws_discardReads _)

theorem withdraws_discardJobs (p : Station) (s : State) : Withdraws s (discardJobs p s) := by
  unfold discardJobs
  dsimp only
  split
  · exact (withdraws_endService s).trans (withdraws_resp ..)
  · exact withdraws_resp _ s

theorem withdraws_endPairOf (p : Station) (s : State) : Withdraws s (endPairOf p s) := by
  unfold endPairOf
  split
  · exact Withdraws.refl s
  · split
    · exact withdraws_endBucketQuery s
    · exact Withdraws.refl s
  · exact Withdraws.refl s

/-- The withdrawal of a peer's work (R111). -/
theorem withdraws_purgePeer (p : Station) (s : State) : Withdraws s (purgePeer p s) :=
  ((((withdraws_setWants _ s).trans (withdraws_freeSlotsOfPeer ..)).trans (withdraws_endPairOf ..)).trans
    (withdraws_recon ..)).trans (withdraws_discardJobs ..)

/-! ## Field by field -/

@[simp] theorem freeFetchSlot_ctl (i : Fin 4) (s : State) : (freeFetchSlot i s).ctl = s.ctl := (withdraws_freeFetchSlot i s).ctl
@[simp] theorem freeFetchSlot_cfg (i : Fin 4) (s : State) : (freeFetchSlot i s).cfg = s.cfg := (withdraws_freeFetchSlot i s).cfg
@[simp] theorem freeFetchSlot_host (i : Fin 4) (s : State) : (freeFetchSlot i s).host = s.host := (withdraws_freeFetchSlot i s).host
@[simp] theorem freeFetchSlot_dir (i : Fin 4) (s : State) : (freeFetchSlot i s).dir = s.dir := (withdraws_freeFetchSlot i s).dir
@[simp] theorem freeFetchSlot_upd (i : Fin 4) (s : State) : (freeFetchSlot i s).upd = s.upd := (withdraws_freeFetchSlot i s).upd
@[simp] theorem freeFetchSlot_flash (i : Fin 4) (s : State) : (freeFetchSlot i s).flash = s.flash := (withdraws_freeFetchSlot i s).flash
@[simp] theorem freeFetchSlot_summ (i : Fin 4) (s : State) : (freeFetchSlot i s).summ = s.summ := (withdraws_freeFetchSlot i s).summ
@[simp] theorem freeFetchSlot_now (i : Fin 4) (s : State) : (freeFetchSlot i s).now = s.now := (withdraws_freeFetchSlot i s).now
@[simp] theorem freeFetchSlot_free (i : Fin 4) (s : State) : (freeFetchSlot i s).free = s.free := (withdraws_freeFetchSlot i s).free
@[simp] theorem freeFetchSlot_pending (i : Fin 4) (s : State) : (freeFetchSlot i s).pending = s.pending := (withdraws_freeFetchSlot i s).pending
@[simp] theorem freeSlotsOfKey_ctl (k : Key) (s : State) : (freeSlotsOfKey k s).ctl = s.ctl := (withdraws_freeSlotsOfKey k s).ctl
@[simp] theorem freeSlotsOfKey_cfg (k : Key) (s : State) : (freeSlotsOfKey k s).cfg = s.cfg := (withdraws_freeSlotsOfKey k s).cfg
@[simp] theorem freeSlotsOfKey_host (k : Key) (s : State) : (freeSlotsOfKey k s).host = s.host := (withdraws_freeSlotsOfKey k s).host
@[simp] theorem freeSlotsOfKey_dir (k : Key) (s : State) : (freeSlotsOfKey k s).dir = s.dir := (withdraws_freeSlotsOfKey k s).dir
@[simp] theorem freeSlotsOfKey_upd (k : Key) (s : State) : (freeSlotsOfKey k s).upd = s.upd := (withdraws_freeSlotsOfKey k s).upd
@[simp] theorem freeSlotsOfKey_flash (k : Key) (s : State) : (freeSlotsOfKey k s).flash = s.flash := (withdraws_freeSlotsOfKey k s).flash
@[simp] theorem freeSlotsOfKey_summ (k : Key) (s : State) : (freeSlotsOfKey k s).summ = s.summ := (withdraws_freeSlotsOfKey k s).summ
@[simp] theorem freeSlotsOfKey_now (k : Key) (s : State) : (freeSlotsOfKey k s).now = s.now := (withdraws_freeSlotsOfKey k s).now
@[simp] theorem freeSlotsOfKey_free (k : Key) (s : State) : (freeSlotsOfKey k s).free = s.free := (withdraws_freeSlotsOfKey k s).free
@[simp] theorem freeSlotsOfKey_pending (k : Key) (s : State) : (freeSlotsOfKey k s).pending = s.pending := (withdraws_freeSlotsOfKey k s).pending
@[simp] theorem wantAdd_ctl (k : Key) (st : Stamp) (p : Station) (s : State) : (wantAdd k st p s).ctl = s.ctl := (withdraws_wantAdd k st p s).ctl
@[simp] theorem wantAdd_cfg (k : Key) (st : Stamp) (p : Station) (s : State) : (wantAdd k st p s).cfg = s.cfg := (withdraws_wantAdd k st p s).cfg
@[simp] theorem wantAdd_host (k : Key) (st : Stamp) (p : Station) (s : State) : (wantAdd k st p s).host = s.host := (withdraws_wantAdd k st p s).host
@[simp] theorem wantAdd_dir (k : Key) (st : Stamp) (p : Station) (s : State) : (wantAdd k st p s).dir = s.dir := (withdraws_wantAdd k st p s).dir
@[simp] theorem wantAdd_upd (k : Key) (st : Stamp) (p : Station) (s : State) : (wantAdd k st p s).upd = s.upd := (withdraws_wantAdd k st p s).upd
@[simp] theorem wantAdd_flash (k : Key) (st : Stamp) (p : Station) (s : State) : (wantAdd k st p s).flash = s.flash := (withdraws_wantAdd k st p s).flash
@[simp] theorem wantAdd_summ (k : Key) (st : Stamp) (p : Station) (s : State) : (wantAdd k st p s).summ = s.summ := (withdraws_wantAdd k st p s).summ
@[simp] theorem wantAdd_now (k : Key) (st : Stamp) (p : Station) (s : State) : (wantAdd k st p s).now = s.now := (withdraws_wantAdd k st p s).now
@[simp] theorem wantAdd_free (k : Key) (st : Stamp) (p : Station) (s : State) : (wantAdd k st p s).free = s.free := (withdraws_wantAdd k st p s).free
@[simp] theorem wantAdd_pending (k : Key) (st : Stamp) (p : Station) (s : State) : (wantAdd k st p s).pending = s.pending := (withdraws_wantAdd k st p s).pending
@[simp] theorem pruneWant_ctl (k : Key) (st : Stamp) (s : State) : (pruneWant k st s).ctl = s.ctl := (withdraws_pruneWant k st s).ctl
@[simp] theorem pruneWant_cfg (k : Key) (st : Stamp) (s : State) : (pruneWant k st s).cfg = s.cfg := (withdraws_pruneWant k st s).cfg
@[simp] theorem pruneWant_host (k : Key) (st : Stamp) (s : State) : (pruneWant k st s).host = s.host := (withdraws_pruneWant k st s).host
@[simp] theorem pruneWant_dir (k : Key) (st : Stamp) (s : State) : (pruneWant k st s).dir = s.dir := (withdraws_pruneWant k st s).dir
@[simp] theorem pruneWant_upd (k : Key) (st : Stamp) (s : State) : (pruneWant k st s).upd = s.upd := (withdraws_pruneWant k st s).upd
@[simp] theorem pruneWant_flash (k : Key) (st : Stamp) (s : State) : (pruneWant k st s).flash = s.flash := (withdraws_pruneWant k st s).flash
@[simp] theorem pruneWant_summ (k : Key) (st : Stamp) (s : State) : (pruneWant k st s).summ = s.summ := (withdraws_pruneWant k st s).summ
@[simp] theorem pruneWant_now (k : Key) (st : Stamp) (s : State) : (pruneWant k st s).now = s.now := (withdraws_pruneWant k st s).now
@[simp] theorem pruneWant_free (k : Key) (st : Stamp) (s : State) : (pruneWant k st s).free = s.free := (withdraws_pruneWant k st s).free
@[simp] theorem pruneWant_pending (k : Key) (st : Stamp) (s : State) : (pruneWant k st s).pending = s.pending := (withdraws_pruneWant k st s).pending
@[simp] theorem failBucketQuery_ctl (s : State) : (failBucketQuery s).ctl = s.ctl := (withdraws_failBucketQuery s).ctl
@[simp] theorem failBucketQuery_cfg (s : State) : (failBucketQuery s).cfg = s.cfg := (withdraws_failBucketQuery s).cfg
@[simp] theorem failBucketQuery_host (s : State) : (failBucketQuery s).host = s.host := (withdraws_failBucketQuery s).host
@[simp] theorem failBucketQuery_dir (s : State) : (failBucketQuery s).dir = s.dir := (withdraws_failBucketQuery s).dir
@[simp] theorem failBucketQuery_upd (s : State) : (failBucketQuery s).upd = s.upd := (withdraws_failBucketQuery s).upd
@[simp] theorem failBucketQuery_flash (s : State) : (failBucketQuery s).flash = s.flash := (withdraws_failBucketQuery s).flash
@[simp] theorem failBucketQuery_summ (s : State) : (failBucketQuery s).summ = s.summ := (withdraws_failBucketQuery s).summ
@[simp] theorem failBucketQuery_now (s : State) : (failBucketQuery s).now = s.now := (withdraws_failBucketQuery s).now
@[simp] theorem failBucketQuery_free (s : State) : (failBucketQuery s).free = s.free := (withdraws_failBucketQuery s).free
@[simp] theorem failBucketQuery_pending (s : State) : (failBucketQuery s).pending = s.pending := (withdraws_failBucketQuery s).pending
@[simp] theorem endBucketQuery_ctl (s : State) : (endBucketQuery s).ctl = s.ctl := (withdraws_endBucketQuery s).ctl
@[simp] theorem endBucketQuery_cfg (s : State) : (endBucketQuery s).cfg = s.cfg := (withdraws_endBucketQuery s).cfg
@[simp] theorem endBucketQuery_host (s : State) : (endBucketQuery s).host = s.host := (withdraws_endBucketQuery s).host
@[simp] theorem endBucketQuery_dir (s : State) : (endBucketQuery s).dir = s.dir := (withdraws_endBucketQuery s).dir
@[simp] theorem endBucketQuery_upd (s : State) : (endBucketQuery s).upd = s.upd := (withdraws_endBucketQuery s).upd
@[simp] theorem endBucketQuery_flash (s : State) : (endBucketQuery s).flash = s.flash := (withdraws_endBucketQuery s).flash
@[simp] theorem endBucketQuery_summ (s : State) : (endBucketQuery s).summ = s.summ := (withdraws_endBucketQuery s).summ
@[simp] theorem endBucketQuery_now (s : State) : (endBucketQuery s).now = s.now := (withdraws_endBucketQuery s).now
@[simp] theorem endBucketQuery_free (s : State) : (endBucketQuery s).free = s.free := (withdraws_endBucketQuery s).free
@[simp] theorem endBucketQuery_pending (s : State) : (endBucketQuery s).pending = s.pending := (withdraws_endBucketQuery s).pending
@[simp] theorem finishQuery_ctl (s : State) : (finishQuery s).ctl = s.ctl := (withdraws_finishQuery s).ctl
@[simp] theorem finishQuery_cfg (s : State) : (finishQuery s).cfg = s.cfg := (withdraws_finishQuery s).cfg
@[simp] theorem finishQuery_host (s : State) : (finishQuery s).host = s.host := (withdraws_finishQuery s).host
@[simp] theorem finishQuery_dir (s : State) : (finishQuery s).dir = s.dir := (withdraws_finishQuery s).dir
@[simp] theorem finishQuery_upd (s : State) : (finishQuery s).upd = s.upd := (withdraws_finishQuery s).upd
@[simp] theorem finishQuery_flash (s : State) : (finishQuery s).flash = s.flash := (withdraws_finishQuery s).flash
@[simp] theorem finishQuery_summ (s : State) : (finishQuery s).summ = s.summ := (withdraws_finishQuery s).summ
@[simp] theorem finishQuery_now (s : State) : (finishQuery s).now = s.now := (withdraws_finishQuery s).now
@[simp] theorem finishQuery_free (s : State) : (finishQuery s).free = s.free := (withdraws_finishQuery s).free
@[simp] theorem finishQuery_pending (s : State) : (finishQuery s).pending = s.pending := (withdraws_finishQuery s).pending
@[simp] theorem endQueryOf_ctl (p : Station) (s : State) : (endQueryOf p s).ctl = s.ctl := (withdraws_endQueryOf p s).ctl
@[simp] theorem endQueryOf_cfg (p : Station) (s : State) : (endQueryOf p s).cfg = s.cfg := (withdraws_endQueryOf p s).cfg
@[simp] theorem endQueryOf_host (p : Station) (s : State) : (endQueryOf p s).host = s.host := (withdraws_endQueryOf p s).host
@[simp] theorem endQueryOf_dir (p : Station) (s : State) : (endQueryOf p s).dir = s.dir := (withdraws_endQueryOf p s).dir
@[simp] theorem endQueryOf_upd (p : Station) (s : State) : (endQueryOf p s).upd = s.upd := (withdraws_endQueryOf p s).upd
@[simp] theorem endQueryOf_flash (p : Station) (s : State) : (endQueryOf p s).flash = s.flash := (withdraws_endQueryOf p s).flash
@[simp] theorem endQueryOf_summ (p : Station) (s : State) : (endQueryOf p s).summ = s.summ := (withdraws_endQueryOf p s).summ
@[simp] theorem endQueryOf_now (p : Station) (s : State) : (endQueryOf p s).now = s.now := (withdraws_endQueryOf p s).now
@[simp] theorem endQueryOf_free (p : Station) (s : State) : (endQueryOf p s).free = s.free := (withdraws_endQueryOf p s).free
@[simp] theorem endQueryOf_pending (p : Station) (s : State) : (endQueryOf p s).pending = s.pending := (withdraws_endQueryOf p s).pending
@[simp] theorem discardJobs_ctl (p : Station) (s : State) : (discardJobs p s).ctl = s.ctl := (withdraws_discardJobs p s).ctl
@[simp] theorem discardJobs_cfg (p : Station) (s : State) : (discardJobs p s).cfg = s.cfg := (withdraws_discardJobs p s).cfg
@[simp] theorem discardJobs_host (p : Station) (s : State) : (discardJobs p s).host = s.host := (withdraws_discardJobs p s).host
@[simp] theorem discardJobs_dir (p : Station) (s : State) : (discardJobs p s).dir = s.dir := (withdraws_discardJobs p s).dir
@[simp] theorem discardJobs_upd (p : Station) (s : State) : (discardJobs p s).upd = s.upd := (withdraws_discardJobs p s).upd
@[simp] theorem discardJobs_flash (p : Station) (s : State) : (discardJobs p s).flash = s.flash := (withdraws_discardJobs p s).flash
@[simp] theorem discardJobs_summ (p : Station) (s : State) : (discardJobs p s).summ = s.summ := (withdraws_discardJobs p s).summ
@[simp] theorem discardJobs_now (p : Station) (s : State) : (discardJobs p s).now = s.now := (withdraws_discardJobs p s).now
@[simp] theorem discardJobs_free (p : Station) (s : State) : (discardJobs p s).free = s.free := (withdraws_discardJobs p s).free
@[simp] theorem discardJobs_pending (p : Station) (s : State) : (discardJobs p s).pending = s.pending := (withdraws_discardJobs p s).pending
@[simp] theorem purgePeer_ctl (p : Station) (s : State) : (purgePeer p s).ctl = s.ctl := (withdraws_purgePeer p s).ctl
@[simp] theorem purgePeer_cfg (p : Station) (s : State) : (purgePeer p s).cfg = s.cfg := (withdraws_purgePeer p s).cfg
@[simp] theorem purgePeer_host (p : Station) (s : State) : (purgePeer p s).host = s.host := (withdraws_purgePeer p s).host
@[simp] theorem purgePeer_dir (p : Station) (s : State) : (purgePeer p s).dir = s.dir := (withdraws_purgePeer p s).dir
@[simp] theorem purgePeer_upd (p : Station) (s : State) : (purgePeer p s).upd = s.upd := (withdraws_purgePeer p s).upd
@[simp] theorem purgePeer_flash (p : Station) (s : State) : (purgePeer p s).flash = s.flash := (withdraws_purgePeer p s).flash
@[simp] theorem purgePeer_summ (p : Station) (s : State) : (purgePeer p s).summ = s.summ := (withdraws_purgePeer p s).summ
@[simp] theorem purgePeer_now (p : Station) (s : State) : (purgePeer p s).now = s.now := (withdraws_purgePeer p s).now
@[simp] theorem purgePeer_free (p : Station) (s : State) : (purgePeer p s).free = s.free := (withdraws_purgePeer p s).free
@[simp] theorem purgePeer_pending (p : Station) (s : State) : (purgePeer p s).pending = s.pending := (withdraws_purgePeer p s).pending

end Sys2Proof.Machine
end

