-- ==== Sys2Proof/Laws/Requests.lean ====
section
/-! SUPPORT. Peers, the Want List, fetch slots, pairs and jobs: what reading, freeing, purging and pumping do to each
(Ops.lean). -/

namespace Sys2Proof.Machine

set_option linter.unusedSimpArgs false

theorem peerOf_setPeer (s : State) (p q : Station) (e : Peer) :
    peerOf (setPeer p e s) q = if p = q then e else peerOf s q := by
  simp only [peerOf, setPeer_memb, Vector.getElem_set]
  by_cases h : p = q
  · simp [h]
  · rw [if_neg h, if_neg]; exact fun e => h (BitVec.eq_of_toNat_eq e)

theorem peerOf_changePeer (s : State) (p q : Station) (e : Peer) :
    peerOf (changePeer p e s) q = if p = q then e else peerOf s q := peerOf_setPeer s p q e

theorem peerOf_congr {s t : State} (h : t.memb.peers = s.memb.peers) (p) :
    peerOf t p = peerOf s p := by simp [peerOf, h]

theorem offer_profileQuery_peers (s : State) : (offerRequest .profileQuery s).memb.peers = s.memb.peers := by
  unfold offerRequest; split
  · simp only [placeFor]; unfold placeProfileQuery; split <;> rfl
  · rfl

theorem peerOf_pumpProfile (s : State) (p : Station) (h : (peerOf s p).state ≠ .joining) :
    peerOf (pumpProfile s) p = peerOf s p := by
  unfold pumpProfile
  split
  · split
    · rename_i q hq
      have hj : mayQuery s q = true := by
        have := List.find?_some hq; simpa using this
      have hne : q ≠ p := by rintro rfl; simp [mayQuery, h] at hj
      rw [peerOf_congr (s := setPeer q { peerOf s q with attempts := (peerOf s q).attempts + 1 } s), peerOf_setPeer,
          if_neg hne]
      exact offer_profileQuery_peers _
    · rfl
  · rfl

theorem peerOf_pump (s : State) (p : Station) (h : (peerOf s p).state ≠ .joining) : peerOf (pump s) p = peerOf s p := by
  have h1 : peerOf (pumpResponder s) p = peerOf s p := by simp [peerOf]
  have : peerOf (pump s) p = peerOf (pumpProfile (pumpResponder s)) p := by simp [peerOf, pump]
  rw [this, peerOf_pumpProfile _ _ (by rw [h1]; exact h), h1]

theorem endQueryOf_query_ne (p : Station) (s : State) : ∀ r, (endQueryOf p s).memb.query = some r → r.peer ≠ p := by
  intro r h
  unfold endQueryOf at h
  cases hq : s.memb.query with
  | none => simp [hq] at h
  | some q =>
    simp only [hq] at h
    split at h
    · simp at h
    · rw [hq] at h; cases h; assumption

theorem pumpProfile_query_ne (p : Station) (s : State) (hp : (peerOf s p).state ≠ .joining) (h : ∀ r,
    s.memb.query = some r → r.peer ≠ p) :
   ∀ r, (pumpProfile s).memb.query = some r → r.peer ≠ p := by
  intro r hr
  unfold pumpProfile at hr
  split at hr
  · split at hr
    · rename_i q hq
      have hj : mayQuery s q = true := by have := List.find?_some hq; simpa using this
      have hne : q ≠ p := by rintro rfl; simp [mayQuery, hp] at hj
      unfold offerRequest at hr
      dsimp only at hr
      split at hr
      · simp [placeFor, placeProfileQuery] at hr; rw [← hr]; exact hne
      · simp at hr; rw [← hr]; exact hne
    · exact h r hr
  · exact h r hr

theorem pump_query_ne (p : Station) (s : State) (hp : (peerOf s p).state ≠ .joining) (h : ∀ r,
    s.memb.query = some r → r.peer ≠ p) :
   ∀ r, (pump s).memb.query = some r → r.peer ≠ p := by
  unfold pump
  rw [pumpFetch_memb, pumpReconciler_memb]
  exact pumpProfile_query_ne p _ (by simpa [peerOf] using hp) (by simpa using h)

theorem find_stations_eq {P : Station → Bool} {p : Station} (h : P p = true) (hf : ∀ q : Station,
    q.toNat < p.toNat → P q = false) : stations.find? P = some p := by
  unfold stations
  rw [List.find?_map]
  have : (List.range 32).find? (P ∘ fun n => BitVec.ofNat 5 n) = some p.toNat := by
    rw [List.find?_range_eq_some]
    refine ⟨by simpa using h, by simpa using p.isLt, fun j hj => ?_⟩
    have hl := p.isLt
    have := hf (BitVec.ofNat 5 j) (by rw [BitVec.toNat_ofNat]; omega)
    simp [this]
  rw [this]; simp

theorem find_slotNumbers_eq (P : Fin 4 → Bool) (i : Fin 4) (h : P i = true) (hf : ∀ j,
    j < i → P j = false) : slotNumbers.find? P = some i := by
  have cs : i = 0 ∨ i = 1 ∨ i = 2 ∨ i = 3 := by fin_cases i <;> simp
  unfold slotNumbers
  rcases cs with rfl | rfl | rfl | rfl
  · simp [h]
  · simp [h, hf 0 (by decide)]
  · simp [h, hf 0 (by decide), hf 1 (by decide)]
  · simp [h, hf 0 (by decide), hf 1 (by decide), hf 2 (by decide)]

theorem pumpProfile_of_no_joining (s : State) (h : ∀ p, (peerOf s p).state = .joining →
    3 ≤ (peerOf s p).attempts) : pumpProfile s = s := by
  unfold pumpProfile
  split
  · have : stations.find? (mayQuery s) = none := by
      rw [List.find?_eq_none]; intro p _; simp [mayQuery]; exact h p
    simp [this]
  · rfl

theorem pumpReconciler_of_empty (s : State) (h : s.recon.queue = []) : pumpReconciler s = s := by
  unfold pumpReconciler
  split
  · simp only [h, List.dropWhile_nil]; rcases s with ⟨_,_,_,_,_,_,_,_,_,_,⟨q,p⟩,_,_,_,_,_⟩; simp_all
  · rfl

theorem takeWant_of_no_waiting (s : State) (i) (h : ∀ w ∈ s.fetch.wants, w.requested = true) : takeWant s i = s := by
  unfold takeWant
  split
  · have : (s.fetch.wants.find? fun w => !w.requested) = none := by
      rw [List.find?_eq_none]; intro p hp; simp [h p hp]
    simp [this]
  · rfl

theorem pumpFetch_of_no_waiting (s : State) (h : ∀ w ∈ s.fetch.wants, w.requested = true) : pumpFetch s = s := by
  simp [pumpFetch, slotNumbers, takeWant_of_no_waiting _ _ h]

theorem pumpResponder_of_idle (s : State) (h : s.resp.service ≠ none ∨ s.resp.jobs = []) : pumpResponder s = s := by
  unfold pumpResponder serveJobs
  split
  · rfl
  · rename_i hn
    rcases h with h | h
    · simp [Option.isSome_iff_ne_none.2 h] at hn
    · simp [h]

theorem serveJobs_of_no_jobs (n : Nat) (s : State) (h : s.resp.jobs = []) : serveJobs n s = s := by
  cases n with
  | zero => rfl
  | succ n => unfold serveJobs; split
              · rfl
              · simp [h]

theorem pumpReconciler_of_not_active {s : State} (h : s.ctl.st ≠ .active) : pumpReconciler s = s := by
  unfold pumpReconciler; rw [if_neg]; rw [Bool.and_eq_true, isActive_iff]; rintro ⟨a, _⟩; exact h a.2

theorem pumpFetch_of_not_active (t : State) (h : t.ctl.st ≠ .active) : pumpFetch t = t := by
  have : ∀ j, takeWant t j = t := by
    intro j; unfold takeWant; rw [if_neg]; rw [Bool.and_eq_true, isActive_iff]; rintro ⟨a, _⟩; exact h a.2
  simp [pumpFetch, slotNumbers, this]

theorem freeSlotsOfKey_wants (k : Key) (s : State) : (freeSlotsOfKey k s).fetch.wants = s.fetch.wants := by
  have : ∀ (l : List (Fin 4)) (s : State),
      (l.foldl (fun t i => if t.fetch.slots[i].key = some k then freeFetchSlot i t else t) s).fetch.wants =
      s.fetch.wants := by
    intro l
    induction l with
    | nil => intro s; rfl
    | cons a l ih => intro s; rw [List.foldl_cons, ih]; split <;> rfl
  exact this _ s

theorem pruneWant_wants (k : Key) (st : Stamp) (s : State) (hn : (s.fetch.wants.map (·.key)).Nodup) :
   (pruneWant k st s).fetch.wants = s.fetch.wants.filter fun w => w.key != k || beats s k w.stamp st := by
  have uniq : ∀ a ∈ s.fetch.wants, ∀ b ∈ s.fetch.wants, a.key = b.key → a = b := by
    intro a ha b hb h; exact List.inj_on_of_nodup_map hn ha hb h
  unfold pruneWant
  cases hw : wantOf s k with
  | none =>
    dsimp only
    symm; rw [List.filter_eq_self]
    intro a ha
    have := List.find?_eq_none.1 hw a ha
    simp at this; simp [this]
  | some w =>
    have hm := List.mem_of_find?_eq_some hw
    have hk : w.key = k := by simpa using List.find?_some hw
    dsimp only
    split
    · rename_i hb
      symm; rw [List.filter_eq_self]
      intro a ha
      by_cases h : a.key = k
      · rw [uniq a ha w hm (by rw [h, hk])]; simp [hb]
      · simp [h]
    · rename_i hb
      unfold removeWant withoutKey
      simp only [setWants_fetch, freeSlotsOfKey_wants]
      apply List.filter_congr
      intro a ha
      by_cases h : a.key = k
      · rw [uniq a ha w hm (by rw [h, hk]), hk]; simp; simpa using hb
      · simp [h]

theorem pruneWant_rest (k : Key) (st : Stamp) (s : State) : (pruneWant k st s).store = s.store ∧
    (pruneWant k st s).memb = s.memb ∧ (pruneWant k st s).recon = s.recon ∧ (pruneWant k st s).resp = s.resp ∧
    (pruneWant k st s).line.rxq = s.line.rxq ∧ (pruneWant k st s).line.seq = s.line.seq := by
  have : ∀ (l : List (Fin 4)) (s : State),
      let t := (l.foldl (fun t i => if t.fetch.slots[i].key = some k then freeFetchSlot i t else t) s); t.store =
      s.store ∧ t.memb = s.memb ∧ t.recon = s.recon ∧ t.resp = s.resp ∧ t.line.rxq = s.line.rxq ∧
      t.line.seq = s.line.seq := by
    intro l
    induction l with
    | nil => intro s; exact ⟨rfl, rfl, rfl, rfl, rfl, rfl⟩
    | cons a l ih => intro s; dsimp only; rw [List.foldl_cons]; have := ih (if s.fetch.slots[a].key =
        some k then freeFetchSlot a s else s); dsimp only at this; rw [this.1, this.2.1, this.2.2.1, this.2.2.2.1,
        this.2.2.2.2.1, this.2.2.2.2.2]; split <;> exact ⟨rfl, rfl, rfl, rfl, rfl, rfl⟩
  unfold pruneWant
  split
  · split
    · exact ⟨rfl, rfl, rfl, rfl, rfl, rfl⟩
    · unfold removeWant freeSlotsOfKey; generalize slotNumbers = l; exact this l s
  · exact ⟨rfl, rfl, rfl, rfl, rfl, rfl⟩

theorem map_replace_eq {l l' : List Want} {w : Want} {k : Key} {fresh : Want}
    (hn : ((l ++ w :: l').map (·.key)).Nodup) (hk : w.key = k) :
   (l ++ w :: l').map (fun x => if x.key = k then fresh else x) = l ++ fresh :: l' := by
  subst hk
  simp only [List.map_append, List.map_cons, List.nodup_append, List.nodup_cons] at hn
  obtain ⟨_, ⟨h2, _⟩, h4⟩ := hn
  have e1 : l.map (fun x => if x.key = w.key then fresh else x) = l := by
    conv => rhs; rw [← List.map_id l]
    refine List.map_congr_left fun x hx => if_neg ?_
    exact h4 _ (List.mem_map_of_mem hx) _ (by simp)
  have e2 : l'.map (fun x => if x.key = w.key then fresh else x) = l' := by
    conv => rhs; rw [← List.map_id l']
    refine List.map_congr_left fun x hx => if_neg ?_
    exact fun e => h2 (e ▸ List.mem_map_of_mem hx)
  simp [e1, e2]

theorem withoutKey_eq {l l' : List Want} {w : Want} {k : Key} (hn : ((l ++ w :: l').map (·.key)).Nodup) (hk : w.key =
    k) :
   withoutKey (l ++ w :: l') k = l ++ l' := by
  subst hk
  simp only [List.map_append, List.map_cons, List.nodup_append, List.nodup_cons] at hn
  obtain ⟨_, ⟨h2, _⟩, h4⟩ := hn
  unfold withoutKey
  rw [List.filter_append, List.filter_cons]
  simp only [bne_self_eq_false, Bool.false_eq_true, if_false]
  rw [List.filter_eq_self.2, List.filter_eq_self.2]
  · intro x hx; simp; exact fun e => h2 (e ▸ List.mem_map_of_mem hx)
  · intro x hx; simp; exact h4 _ (List.mem_map_of_mem hx) _ (by simp)

theorem wantOf_eq {s : State} {l l' : List Want} {w : Want} {k : Key} (h : s.fetch.wants =
    l ++ w :: l') (hn : (s.fetch.wants.map (·.key)).Nodup) (hk : w.key = k) : wantOf s k = some w := by
  subst hk
  rw [h] at hn
  simp only [List.map_append, List.map_cons, List.nodup_append, List.nodup_cons] at hn
  unfold wantOf
  rw [h, List.find?_append, List.find?_eq_none.2]
  · simp
  · intro x hx; simp; exact hn.2.2 _ (List.mem_map_of_mem hx) _ (by simp)

theorem freeSlotsOfKey_eq {s : State} {k : Key} {i : Fin 4} (hi : s.fetch.slots[i].key = some k) (hd : ∀ j : Fin 4,
    s.fetch.slots[j].key = some k → j = i) :
   freeSlotsOfKey k s = freeFetchSlot i s := by
  have other : ∀ (t : State) j, j ≠ i → t.fetch.slots[j] = s.fetch.slots[j] →
      (if t.fetch.slots[j].key = some k then freeFetchSlot j t else t) = t := by
    intro t j hj ht; rw [if_neg]; rw [ht]; exact fun e => hj (hd j e)
  have ff : ∀ j, j ≠ i → (freeFetchSlot i s).fetch.slots[j] = s.fetch.slots[j] := by
    intro j hj; simp only [freeFetchSlot, dropRequest_fetch, setFetchSlot_fetch,
        Fin.getElem_fin]; rw [Vector.getElem_set_ne]; exact fun e => hj (Fin.ext e.symm)
  unfold freeSlotsOfKey slotNumbers
  simp only [List.foldl_cons, List.foldl_nil]
  have cs : i = 0 ∨ i = 1 ∨ i = 2 ∨ i = 3 := by fin_cases i <;> simp
  rcases cs with rfl | rfl | rfl | rfl
  · rw [if_pos (show s.fetch.slots[(0 : Fin 4)].key = some k from hi), other _ 1 (by decide) (ff _ (by decide)),
      other _ 2 (by decide) (ff _ (by decide)), other _ 3 (by decide) (ff _ (by decide))]
  · rw [other s 0 (by decide) rfl, if_pos (show s.fetch.slots[(1 : Fin 4)].key = some k from hi),
      other _ 2 (by decide) (ff _ (by decide)), other _ 3 (by decide) (ff _ (by decide))]
  · rw [other s 0 (by decide) rfl, other s 1 (by decide) rfl,
      if_pos (show s.fetch.slots[(2 : Fin 4)].key = some k from hi), other _ 3 (by decide) (ff _ (by decide))]
  · rw [other s 0 (by decide) rfl, other s 1 (by decide) rfl, other s 2 (by decide) rfl,
      if_pos (show s.fetch.slots[(3 : Fin 4)].key = some k from hi)]

theorem freeSlotsOfPeer_slots (p : Station) (s : State) : ∀ i : Fin 4,
    (freeSlotsOfPeer p s).fetch.slots[i].peer ≠ some p := by
  have step : ∀ (t : State) (i j : Fin 4), t.fetch.slots[j].peer ≠ some p →
      (if t.fetch.slots[i].peer = some p then freeFetchSlot i t else t).fetch.slots[j].peer ≠ some p := by
    intro t i j h
    split
    · simp only [freeFetchSlot, dropRequest_fetch, setFetchSlot_fetch, Fin.getElem_fin, Vector.getElem_set]
      split
      · simp [FetchSlot.peer]
      · exact h
    · exact h
  have self : ∀ (t : State) (i : Fin 4),
      (if t.fetch.slots[i].peer = some p then freeFetchSlot i t else t).fetch.slots[i].peer ≠ some p := by
    intro t i
    split
    · simp [freeFetchSlot, FetchSlot.peer]
    · assumption
  have key : ∀ (l : List (Fin 4)) (t : State) (j : Fin 4), (j ∈ l ∨ t.fetch.slots[j].peer ≠ some p) →
      (l.foldl (fun t i => if t.fetch.slots[i].peer =
      some p then freeFetchSlot i t else t) t).fetch.slots[j].peer ≠ some p := by
    intro l
    induction l with
    | nil => intro t j h; simpa using h
    | cons i l ih =>
      intro t j h
      rw [List.foldl_cons]
      apply ih
      by_cases hij : j = i
      · subst j; exact Or.inr (self t i)
      · rcases h with h | h
        · rcases List.mem_cons.1 h with h | h
          · exact absurd h hij
          · exact Or.inl h
        · exact Or.inr (step t i j h)
  intro i; exact key _ s i (Or.inl (mem_slotNumbers i))

theorem freeSlotsOfPeer_wants (p : Station) (s : State) : (freeSlotsOfPeer p s).fetch.wants = s.fetch.wants := by
  have key : ∀ (l : List (Fin 4)) (t : State),
      (l.foldl (fun t i => if t.fetch.slots[i].peer = some p then freeFetchSlot i t else t) t).fetch.wants =
      t.fetch.wants := by
    intro l
    induction l with
    | nil => intro t; rfl
    | cons i l ih => intro t; rw [List.foldl_cons, ih]; split <;> rfl
  exact key _ s

theorem discardJobs_rest (p : Station) (s : State) : (discardJobs p s).fetch = s.fetch ∧
    (discardJobs p s).recon = s.recon ∧ (discardJobs p s).memb = s.memb ∧
    ∀ j ∈ (discardJobs p s).resp.jobs, j.peer ≠ p := by
  unfold discardJobs
  dsimp only
  refine ⟨?_, ?_, ?_, ?_⟩
  · split <;> rfl
  · split <;> rfl
  · split <;> rfl
  · intro j hj; have := (List.mem_filter.1 hj).2; simpa using this

theorem endPairOf_fetch (p : Station) (s : State) : (endPairOf p s).fetch = s.fetch := by
  unfold endPairOf; (repeat' split) <;> rfl

theorem purgePeer_facts (p : Station) (s : State) :
   (purgePeer p s).fetch.wants = (s.fetch.wants.filter fun w => w.source != p) ∧
       (∀ i : Fin 4, (purgePeer p s).fetch.slots[i].peer ≠ some p) ∧
   (∀ x ∈ (purgePeer p s).recon.queue, x.peer ≠ p) ∧ ∀ j ∈ (purgePeer p s).resp.jobs, j.peer ≠ p := by
  unfold purgePeer
  obtain ⟨h1, h2, h3, h4⟩ := discardJobs_rest p (dropPairsOf p (endPairOf p (freeSlotsOfPeer p (dropWantsOf p s))))
  rw [h1, h2]
  refine ⟨?_, ?_, ?_, h4⟩
  · simp only [dropPairsOf]; rw [endPairOf_fetch, freeSlotsOfPeer_wants]; rfl
  · have : (dropPairsOf p (endPairOf p (freeSlotsOfPeer p (dropWantsOf p s)))).fetch =
      (freeSlotsOfPeer p (dropWantsOf p s)).fetch := endPairOf_fetch p _
    intro i; simp only [this]; exact freeSlotsOfPeer_slots p _ i
  · intro x hx; simp only [dropPairsOf] at hx; have := (List.mem_filter.1 hx).2; simpa using this

-- pump keeps these

theorem placeFetch_slots (i : Fin 4) (s : State) (j : Fin 4) :
    (placeFetch i s).fetch.slots[j].peer = s.fetch.slots[j].peer := by
  unfold placeFetch
  split
  · rename_i h
    simp only [placeFrame_fetch, setFetchSlot_fetch, Fin.getElem_fin, Vector.getElem_set]
    split
    · rename_i hij; simp only [Fin.getElem_fin] at h; simp only [← hij, h]; rfl
    · rfl
  · rfl
  · rfl

theorem takeWant_slots (p : Station) (s : State) (i : Fin 4) (hw : ∀ w ∈ s.fetch.wants,
    w.source ≠ p) (h : ∀ j : Fin 4, s.fetch.slots[j].peer ≠ some p) :
   (∀ w ∈ (takeWant s i).fetch.wants, w.source ≠ p) ∧ ∀ j : Fin 4, (takeWant s i).fetch.slots[j].peer ≠ some p := by
  have hW : ∀ w ∈ (takeWant s i).fetch.wants, w.source ≠ p := by
    have := (offers_takeWant s i).wants
    intro w hwm
    have : (w.key, w.stamp, w.source) ∈ s.fetch.wants.map fun w => (w.key, w.stamp, w.source) := by
      rw [← this]; exact List.mem_map_of_mem hwm
    obtain ⟨v, hv, he⟩ := List.mem_map.1 this
    simp only [Prod.mk.injEq] at he
    rw [← he.2.2]; exact hw v hv
  refine ⟨hW, ?_⟩
  intro j
  unfold takeWant
  split
  · split
    · rename_i w hf
      have hmem := List.mem_of_find?_eq_some hf
      have base : (setFetchSlot i (.waitingRoom w.key w.source w.stamp) (markRequested w.key s)).fetch.slots[j].peer ≠ some p := by
        simp only [setFetchSlot_fetch, Fin.getElem_fin, Vector.getElem_set]
        split
        · simp [FetchSlot.peer]; exact hw w hmem
        · exact h j
      unfold offerRequest
      split
      · simp only [placeFor]; rw [placeFetch_slots]; exact base
      · exact base
    · exact h j
  · exact h j

theorem pumpFetch_slots (p : Station) (s : State) (hw : ∀ w ∈ s.fetch.wants, w.source ≠ p) (h : ∀ j : Fin 4,
    s.fetch.slots[j].peer ≠ some p) :
   ∀ j : Fin 4, (pumpFetch s).fetch.slots[j].peer ≠ some p := by
  have key : ∀ (l : List (Fin 4)) (s : State), (∀ w ∈ s.fetch.wants, w.source ≠ p) → (∀ j : Fin 4,
      s.fetch.slots[j].peer ≠ some p) → ∀ j : Fin 4, (l.foldl takeWant s).fetch.slots[j].peer ≠ some p := by
    intro l
    induction l with
    | nil => intro s _ h; exact h
    | cons i l ih => intro s hw h; have := takeWant_slots p s i hw h; exact ih _ this.1 this.2
  exact key _ s hw h

theorem serveJobs_jobs (n : Nat) (s : State) (p : Station) (h : ∀ j ∈ s.resp.jobs,
    j.peer ≠ p) : ∀ j ∈ (serveJobs n s).resp.jobs, j.peer ≠ p := by
  have hp : ∀ (s : State), (∀ j ∈ s.resp.jobs, j.peer ≠ p) → ∀ j ∈ (placeReply s).resp.jobs, j.peer ≠ p := by
    intro s h j hj
    unfold placeReply at hj
    split at hj
    · rename_i e1 _; rw [e1] at h
      split at hj
      · exact h j (List.mem_cons_of_mem _ hj)
      · rw [e1] at hj; exact h j hj
      · rw [e1] at hj; exact h j hj
    · rename_i job rest e1 _; rw [e1] at h
      split at hj
      · exact h j (List.mem_cons_of_mem _ hj)
      · simp only [placeFrame_resp] at hj
        split at hj
        · exact h j (List.mem_cons_of_mem _ hj)
        · rcases List.mem_append.1 hj with hj | hj
          · exact h j (List.mem_cons_of_mem _ hj)
          · simp at hj; rw [hj]; exact h job (by simp)
      · rw [e1] at hj; exact h j hj
    · exact h j hj
  induction n generalizing s with
  | zero => exact h
  | succ n ih =>
    have round : ∀ v, ∀ j ∈ (if hasRoom (setService v s) then serveJobs n (placeReply (setService v s))
        else waitForRoom .reply (setService v s)).resp.jobs, j.peer ≠ p := by
      intro v
      split
      · exact ih _ (hp _ (by simpa using h))
      · simpa using h
    unfold serveJobs
    split
    · exact h
    · split
      · exact h
      · split
        · split
          · simpa using h
          · exact round _
        · exact round _
        · exact round _

theorem pumpReconciler_queue_ne (p : Station) (s : State) (h : ∀ x ∈ s.recon.queue,
    x.peer ≠ p) : ∀ x ∈ (pumpReconciler s).recon.queue, x.peer ≠ p := by
  intro x hx
  unfold pumpReconciler at hx
  split at hx
  · split at hx
    · simp at hx
    · rename_i q rest hd
      have hsuf : ∀ y ∈ q :: rest, y.peer ≠ p := fun y hy => h y ((List.dropWhile_suffix _).subset (hd ▸ hy))
      have hx' : x ∈ { q with attempts := q.attempts + 1 } :: rest := by
        unfold offerRequest at hx
        split at hx
        · exact hx
        · exact hx
      rcases List.mem_cons.1 hx' with rfl | hx'
      · exact hsuf q (by simp)
      · exact hsuf x (by simp [hx'])
  · exact h x hx

theorem pumpFetch_settled {s t : State} (h : FetchLaw s) (hc : t.ctl = s.ctl) (hf : t.fetch = s.fetch) :
    pumpFetch t = t := by
  have key : ∀ i, takeWant t i = t := by
    intro i
    unfold takeWant
    split
    · rename_i ha
      have ha' : Active s := by
        have := isActive_iff.1 (Bool.and_eq_true_iff.1 ha).1
        simpa [Active, Powered, hc] using this
      have hfree : s.fetch.slots[i] = .free := by
        have := (Bool.and_eq_true_iff.1 ha).2; rw [hf] at this; simpa using this
      have : (t.fetch.wants.find? fun w => !w.requested) = none := by
        rw [List.find?_eq_none, hf]; intro w hw; simp [h.settled ha' ⟨i, hfree⟩ w hw]
      simp [this]
    · rfl
  simp [pumpFetch, slotNumbers, key]

end Sys2Proof.Machine
end

