-- ==== Sys2Proof/Laws/Reset.lean ====
section
/-! SUPPORT. The state after reset is what POWER_ON_RESET_END leaves of a factory-fresh part (logs 3 and 4). -/

namespace Sys2Proof.Machine

theorem blankArea_unlocked : areaLocked (Vector.replicate 64 (0xFF : Byte)).toList = false := by decide

theorem blankArea_group : ((Vector.replicate 64 (0xFF : Byte)).toList.take Config.groupCount) = List.replicate 36 0xFF := by
  decide

theorem blankArea_hash : crc32 (List.replicate 36 0xFF) = 0x9A809998 := by decide +kernel

/-- POWER_ON_RESET_END on a blank part with straps, unique ID and silicon revision 0 gives `State.reset`, whatever RAM held. -/
theorem reset_is_powerOnResetEnd (s : State) (hp : s.ctl.power = true) (hn : s.ctl.pin = false)
    (hc : s.cfg.bytes = Vector.replicate 64 0xFF) (hf : s.flash = []) (hu : s.ctl.uniqueId = 0)
    (hr : s.ctl.revision = 0) (ht : s.now = 0) (hx : s.free = 0) (hq : s.pending = [])
    (hh : s.host.txn = none) :
    exec (.powerOnResetEnd 0) s = .next State.reset := by
  rw [exec_powerOnResetEnd, execPowerOnResetEnd, if_pos hp]
  simp only [hn, Bool.false_eq_true, if_false]
  unfold resetEnd readArea isLocked copyGroup clearRam clearPort
  simp only [hc, blankArea_unlocked, Bool.false_eq_true, if_false]
  unfold enterStation setStation post State.reset
  simp only [blankArea_group, blankArea_hash, hf, hu, hr, ht, hx, hq, hh, Option.map_none]
  rfl

end Sys2Proof.Machine
end

