-- ==== Sys2Proof/Laws/Responder.lean ====
section
/-! SUPPORT. The Responder goes on: its rounds suffice, so one round can be said at a time; and what the waiting
placers' turn leaves for a frame that cannot wait (R95, R148). -/

namespace Sys2Proof.Machine

/-! ## One round at a time -/

/-- The service with which a job's reply is placed, where it reads no flash (R149). -/
def ReadyWith (s : State) (job : Job) (v : Service) : Prop :=
  (∃ key, job.kind = .supply key ∧ supplyEntry s key = none ∧ v = .built none) ∨ (job.kind = .profile ∧ v = .ready) ∨
  ((∃ b part resume, job.kind = .bucketReply b part resume) ∧ v = .ready)

/-- Placing a ready reply adds one frame. -/
theorem placeReply_length {s : State} {job : Job} {rest : List Job} {v : Service} (hj : s.resp.jobs = job :: rest)
    (hv : ReadyWith s job v) :
    (placeReply (setService (some v) s)).line.txq.length = s.line.txq.length + 1 := by
  unfold placeReply
  simp only [setService_resp, hj]
  rcases hv with ⟨key, h1, _, rfl⟩ | ⟨h1, rfl⟩ | ⟨⟨b, p, r, h1⟩, rfl⟩ <;> simp only [h1] <;> simp

/-- A round on a head job that is ready. -/
theorem serveJobs_ready {n : Nat} {s : State} {job : Job} {rest : List Job} {v : Service} (hm : mayPlace s = true)
    (hs : s.resp.service = none) (hj : s.resp.jobs = job :: rest) (hv : ReadyWith s job v) :
    serveJobs (n + 1) s =
      if hasRoom (setService (some v) s) then serveJobs n (placeReply (setService (some v) s))
      else waitForRoom .reply (setService (some v) s) := by
  rw [serveJobs, if_neg (by simp [hs, hm])]
  simp only [hj]
  rcases hv with ⟨key, h1, h2, rfl⟩ | ⟨h1, rfl⟩ | ⟨⟨b, p, r, h1⟩, rfl⟩
  · simp only [h1, h2]
  · simp only [h1]
  · simp only [h1]

/-- A job is ready, or its SUPPLY reads flash. -/
theorem ready_or_reads (s : State) (job : Job) :
    (∃ v, ReadyWith s job v) ∨ ∃ key e, job.kind = .supply key ∧ supplyEntry s key = some e := by
  cases hk : job.kind with
  | supply key =>
    cases he : supplyEntry s key with
    | some e => exact Or.inr ⟨key, e, rfl, he⟩
    | none => exact Or.inl ⟨_, Or.inl ⟨key, hk, he, rfl⟩⟩
  | profile => exact Or.inl ⟨_, Or.inr (Or.inl ⟨hk, rfl⟩)⟩
  | bucketReply b part resume => exact Or.inl ⟨_, Or.inr (Or.inr ⟨⟨b, part, resume, hk⟩, rfl⟩)⟩

/-- A round on a head job whose SUPPLY reads flash (R149). -/
theorem serveJobs_reads {n : Nat} {s : State} {job : Job} {rest : List Job} {key : Key} {e : Entry}
    (hm : mayPlace s = true) (hs : s.resp.service = none) (hj : s.resp.jobs = job :: rest)
    (hk : job.kind = .supply key) (he : supplyEntry s key = some e) :
    serveJobs (n + 1) s = placeRead .responder e.loc (setService (some (.reading e)) s) := by
  rw [serveJobs, if_neg (by simp [hs, hm])]
  simp only [hj, hk, he]

/-- More rounds than places change nothing. -/
theorem serveJobs_succ (n : Nat) (s : State) (hn : 1 ≤ n) (h : 17 ≤ n + s.line.txq.length) :
    serveJobs n s = serveJobs (n + 1) s := by
  induction n generalizing s with
  | zero => omega
  | succ n ih =>
    by_cases hg : s.resp.service = none ∧ mayPlace s = true
    · cases hj : s.resp.jobs with
      | nil => rw [serveJobs, serveJobs]; simp [hj]
      | cons job rest =>
        rcases ready_or_reads s job with ⟨v, hv⟩ | ⟨key, e, h1, h2⟩
        · rw [serveJobs_ready hg.2 hg.1 hj hv, serveJobs_ready hg.2 hg.1 hj hv]
          split
          · rename_i hr
            have h3 : s.line.txq.length < 16 := (hasRoom_iff.1 hr).2.2
            have h4 := placeReply_length hj hv
            exact ih _ (by omega) (by omega)
          · rfl
        · rw [serveJobs_reads hg.2 hg.1 hj h1 h2, serveJobs_reads hg.2 hg.1 hj h1 h2]
    · have : (s.resp.service.isSome || !mayPlace s) = true := by
        by_contra hc
        apply hg
        simpa using hc
      rw [serveJobs, serveJobs, if_pos this, if_pos this]

/-- The Responder takes a ready head job: its reply is placed and the Responder goes on, or it waits for room (R148). -/
theorem pumpResponder_ready {s : State} {job : Job} {rest : List Job} {v : Service} (hm : mayPlace s = true)
    (hs : s.resp.service = none) (hj : s.resp.jobs = job :: rest) (hv : ReadyWith s job v) :
    pumpResponder s =
      if hasRoom s then pumpResponder (placeReply (setService (some v) s))
      else waitForRoom .reply (setService (some v) s) := by
  have hr : hasRoom (setService (some v) s) = hasRoom s := rfl
  unfold pumpResponder
  rw [show Config.txCapacity + 1 = 16 + 1 from rfl, serveJobs_ready hm hs hj hv, hr]
  split
  · have := placeReply_length hj hv
    exact serveJobs_succ 16 _ (by omega) (by omega)
  · rfl

/-- The Responder waits while a job is in service, with no job, or where no frame may be placed (R148). -/
theorem pumpResponder_idle {s : State} (h : s.resp.service ≠ none ∨ s.resp.jobs = [] ∨ mayPlace s = false) :
    pumpResponder s = s := by
  unfold pumpResponder serveJobs
  split
  · rfl
  · rename_i hn
    rw [Bool.or_eq_true, not_or] at hn
    rcases h with h | h | h
    · exact absurd (Option.isSome_iff_ne_none.2 h) hn.1
    · simp [h]
    · simp [h] at hn

/-! ## Frames that cannot wait -/

/-- No SUMMARY is queued. -/
def NoSummary (s : State) : Prop := ∀ t ∈ s.line.txq, t.kind ≠ .summary

/-- Placing a request or a reply leaves station, waiting placers, and the absence of a SUMMARY as they were. -/
structure PlacesWork (s t : State) : Prop where
  ctl : t.ctl = s.ctl
  waiting : t.line.waiting = s.line.waiting
  summary : NoSummary s → NoSummary t

theorem PlacesWork.trans {s t u : State} (h : PlacesWork s t) (k : PlacesWork t u) : PlacesWork s u :=
  ⟨k.ctl.trans h.ctl, k.waiting.trans h.waiting, fun x => k.summary (h.summary x)⟩

theorem placesWork_placeFrame {k : FrameKind} (hk : k ≠ .summary) (fl : BitVec 4) (d : Byte) (p : List Byte)
    (r : Option Requester) (s : State) : PlacesWork s (placeFrame k fl d p r s) := by
  refine ⟨rfl, rfl, fun h t ht => ?_⟩
  rcases List.mem_append.1 (show t ∈ s.line.txq ++ [_] from ht) with h1 | h1
  · exact h t h1
  · rw [List.mem_singleton] at h1
    subst h1
    exact hk

theorem placesWork_placeReply (s : State) : PlacesWork s (placeReply s) := by
  unfold placeReply
  repeat' split
  all_goals first
    | exact ⟨rfl, rfl, id⟩
    | exact ⟨rfl, rfl, fun h => (placesWork_placeFrame (by decide) _ _ _ _ { s with resp := _ }).summary h⟩

theorem placesWork_placeFor (r : Requester) (s : State) : PlacesWork s (placeFor r s) := by
  cases r with
  | reply => exact placesWork_placeReply s
  | profileQuery =>
    simp only [placeFor, placeProfileQuery]
    split <;> first
      | exact ⟨rfl, rfl, id⟩
      | exact ⟨rfl, rfl, fun h => (placesWork_placeFrame (by decide) _ _ _ _ { s with memb := _ }).summary h⟩
  | bucketQuery =>
    simp only [placeFor, placeBucketQuery]
    split <;> first
      | exact ⟨rfl, rfl, id⟩
      | exact ⟨rfl, rfl, fun h => (placesWork_placeFrame (by decide) _ _ _ _ { s with recon := _ }).summary h⟩
  | fetch i =>
    simp only [placeFor, placeFetch]
    split <;> first
      | exact ⟨rfl, rfl, id⟩
      | exact ⟨rfl, rfl, fun h => (placesWork_placeFrame (by decide) _ _ _ _ (setFetchSlot i _ s)).summary h⟩

theorem placesWork_placeWaiting (s : State) :
    PlacesWork { s with line := { s.line with waiting := [] } } (placeWaiting s) := by
  have key : ∀ (l : List Requester) (t : State), PlacesWork t (l.foldl (fun t r => placeFor r t) t) := by
    intro l
    induction l with
    | nil => intro t; exact ⟨rfl, rfl, id⟩
    | cons r l ih => intro t; exact (placesWork_placeFor r t).trans (ih _)
  exact key _ _

/-- Where no placer waits, the Responder goes on until none does or the queue is full. -/
theorem serveJobs_waiting (n : Nat) (s : State) (hm : mayPlace s = true) (hw : s.line.waiting = []) :
    (serveJobs n s).ctl = s.ctl ∧ ((serveJobs n s).line.waiting = [] ∨ 16 ≤ (serveJobs n s).line.txq.length) ∧
    (NoSummary s → NoSummary (serveJobs n s)) := by
  induction n generalizing s with
  | zero => exact ⟨rfl, Or.inl hw, id⟩
  | succ n ih =>
    by_cases hs : s.resp.service = none
    · cases hj : s.resp.jobs with
      | nil =>
        have : serveJobs (n + 1) s = s := by rw [serveJobs]; simp [hj]
        rw [this]
        exact ⟨rfl, Or.inl hw, id⟩
      | cons job rest =>
        rcases ready_or_reads s job with ⟨v, hv⟩ | ⟨key, e, h1, h2⟩
        · rw [serveJobs_ready hm hs hj hv]
          split
          · have q := placesWork_placeReply (setService (some v) s)
            have hq : mayPlace (placeReply (setService (some v) s)) = true := by
              unfold mayPlace inReset at *
              rw [q.ctl]
              exact hm
            have := ih _ hq (q.waiting.trans hw)
            exact ⟨this.1.trans q.ctl, this.2.1, fun h => this.2.2 (q.summary h)⟩
          · rename_i hr
            refine ⟨rfl, Or.inr ?_, id⟩
            by_contra hc
            exact hr (hasRoom_iff.2 ⟨mayPlace_iff.1 hm, hw, Nat.not_le.1 hc⟩)
        · rw [serveJobs_reads hm hs hj h1 h2]
          exact ⟨rfl, Or.inl hw, id⟩
    · have : serveJobs (n + 1) s = s := by
        rw [serveJobs, if_pos (by simp [Option.isSome_iff_ne_none.2 hs])]
      rw [this]
      exact ⟨rfl, Or.inl hw, id⟩

/-- A frame that cannot wait comes after the waiting placers' turn, as if it were offered then (R95). -/
theorem placeBehind_serveWaiting (place : State → State) {s : State} (hp : mayPlace s = true)
    (hw : s.line.waiting ≠ []) (hl : s.line.txq.length + s.line.waiting.length < 16) :
    placeBehind place s = placeBehind place (serveWaiting s) ∧ (NoSummary s → NoSummary (serveWaiting s)) := by
  have he : s.line.waiting.isEmpty = false := by rw [List.isEmpty_eq_false_iff]; exact hw
  have e : serveWaiting s = pumpResponder (placeWaiting s) := by unfold serveWaiting; rw [he]; rfl
  have q := placesWork_placeWaiting s
  have hm : mayPlace (placeWaiting s) = true := by
    unfold mayPlace inReset at *
    rw [q.ctl]
    exact hp
  obtain ⟨h1, h2, h3⟩ := serveJobs_waiting (Config.txCapacity + 1) (placeWaiting s) hm q.waiting
  change (pumpResponder (placeWaiting s)).ctl = _ at h1
  change (pumpResponder (placeWaiting s)).line.waiting = [] ∨
    16 ≤ (pumpResponder (placeWaiting s)).line.txq.length at h2
  change NoSummary (placeWaiting s) → NoSummary (pumpResponder (placeWaiting s)) at h3
  rw [← e] at h1 h2 h3
  refine ⟨?_, fun h => h3 (q.summary h)⟩
  conv => lhs; unfold placeBehind
  rw [if_pos (placeLeft_iff.2 ⟨mayPlace_iff.1 hp, hl⟩)]
  dsimp only
  rcases h2 with h | h
  · rw [placeBehind_of_none_waiting h]
  · have hf : ¬ hasRoom (serveWaiting s) = true := by rw [hasRoom_iff]; omega
    rw [if_neg hf]
    unfold placeBehind
    rw [if_neg]
    rw [placeLeft_iff]
    omega

end Sys2Proof.Machine
end

