-- ==== Sys2Proof/Laws/Scan.lean ====
section
/-! SUPPORT. What the start-up scan's operations do: the largest of some words, the scan's order, the candidates it
keeps, the live granules, and what of the state it rebuilds (R29, R76 to R78). -/

namespace Sys2Proof.Machine

/-! ## The largest of some words -/

theorem le_maxWord {n : Nat} (a b : BitVec n) : a.toNat ≤ (maxWord a b).toNat ∧ b.toNat ≤ (maxWord a b).toNat ∧
    (maxWord a b = a ∨ maxWord a b = b) := by
  unfold maxWord
  split <;> simp <;> omega

theorem foldl_maxWord {n : Nat} (l : List (BitVec n)) (a : BitVec n) :
    (∀ d, d = a ∨ d ∈ l → d.toNat ≤ (l.foldl maxWord a).toNat) ∧ (l.foldl maxWord a = a ∨ l.foldl maxWord a ∈ l) := by
  induction l generalizing a with
  | nil => simp
  | cons b l ih =>
    obtain ⟨h1, h2, h3⟩ := le_maxWord a b
    obtain ⟨i1, i2⟩ := ih (maxWord a b)
    rw [List.foldl_cons]
    refine ⟨?_, ?_⟩
    · have hm := i1 (maxWord a b) (Or.inl rfl)
      rintro d (rfl | hd)
      · omega
      · rcases List.mem_cons.1 hd with rfl | hd
        · omega
        · exact i1 d (Or.inr hd)
    · rcases i2 with i2 | i2
      · rw [i2]
        rcases h3 with h3 | h3
        · exact Or.inl h3
        · right; rw [h3]; simp
      · right; simp [i2]

/-- The largest of some words bounds them, and is one of them, or 0 when there is none. -/
theorem largest_spec {n : Nat} (l : List (BitVec n)) :
    (∀ d ∈ l, d.toNat ≤ (largest l).toNat) ∧ (largest l ∈ l ∨ (largest l = 0 ∧ l = [])) := by
  obtain ⟨h1, h2⟩ := foldl_maxWord l 0
  refine ⟨fun d hd => h1 d (Or.inr hd), ?_⟩
  rcases h2 with h2 | h2
  · cases l with
    | nil => exact Or.inr ⟨h2, rfl⟩
    | cons b l =>
      left
      have : b.toNat ≤ ((b :: l).foldl maxWord 0).toNat := h1 b (by simp)
      rw [h2] at this
      have hb : b = 0 := BitVec.eq_of_toNat_eq (by simpa using this)
      unfold largest
      rw [h2, hb]; simp
  · exact Or.inl h2

/-! ## The order of the scan (R77) -/

theorem mem_insertBySeq (f : Nat → Nat) (i j : Nat) (l : List Nat) : j ∈ insertBySeq f i l ↔ j = i ∨ j ∈ l := by
  induction l with
  | nil => simp [insertBySeq]
  | cons a l ih =>
    unfold insertBySeq
    split
    · simp
    · simp [ih]; tauto

/-- An order of the scan: rising by sequence number, then by sector number. -/
theorem pairwise_insertBySeq (f : Nat → Nat) (i : Nat) (l : List Nat)
    (hl : l.Pairwise fun a b => f a < f b ∨ (f a = f b ∧ a < b)) (hi : ∀ a ∈ l, a < i) :
    (insertBySeq f i l).Pairwise fun a b => f a < f b ∨ (f a = f b ∧ a < b) := by
  induction l with
  | nil => simp [insertBySeq]
  | cons a l ih =>
    rw [List.pairwise_cons] at hl
    unfold insertBySeq
    split
    · rename_i h
      rw [List.pairwise_cons, List.pairwise_cons]
      refine ⟨?_, hl⟩
      intro b hb
      rcases List.mem_cons.1 hb with rfl | hb
      · exact Or.inl h
      · left; rcases hl.1 b hb with h' | h' <;> omega
    · rename_i h
      rw [List.pairwise_cons]
      refine ⟨?_, ih hl.2 fun b hb => hi b (by simp [hb])⟩
      intro b hb
      have := hi a (by simp)
      rcases (mem_insertBySeq f i b l).1 hb with rfl | hb
      · omega
      · exact hl.1 b hb

theorem foldl_insertBySeq (f : Nat → Nat) (l acc : List Nat) (hl : l.Pairwise (· < ·))
    (h : ∀ a ∈ acc, ∀ b ∈ l, a < b) (ha : acc.Pairwise fun a b => f a < f b ∨ (f a = f b ∧ a < b)) :
    (l.foldl (fun acc i => insertBySeq f i acc) acc).Pairwise (fun a b => f a < f b ∨ (f a = f b ∧ a < b)) ∧
    ∀ j, j ∈ l.foldl (fun acc i => insertBySeq f i acc) acc ↔ j ∈ acc ∨ j ∈ l := by
  induction l generalizing acc with
  | nil => exact ⟨ha, by simp⟩
  | cons i l ih =>
    rw [List.pairwise_cons] at hl
    obtain ⟨i1, i2⟩ := ih (insertBySeq f i acc) hl.2
      (by
        intro a ha' b hb
        rcases (mem_insertBySeq f i a acc).1 ha' with rfl | ha'
        · exact hl.1 b hb
        · exact h a ha' b (by simp [hb]))
      (pairwise_insertBySeq f i acc ha fun a ha' => h a ha' i (by simp))
    refine ⟨i1, fun j => ?_⟩
    rw [List.foldl_cons, i2, mem_insertBySeq]; simp; tauto

/-- The scan's order: the sectors with content, by sequence number, then by number (R77). -/
theorem scanOrder_spec (table : List Sector) :
    (∀ i, i ∈ scanOrder table ↔ ∃ x, table[i]? = some x ∧ hasContent x = true) ∧
    (scanOrder table).Pairwise fun i j => ∀ x y, table[i]? = some x → table[j]? = some y →
      (x.seq.getD 0).toNat < (y.seq.getD 0).toNat ∨ (x.seq.getD 0 = y.seq.getD 0 ∧ i < j) := by
  unfold scanOrder
  obtain ⟨h1, h2⟩ := foldl_insertBySeq
    (fun i => match table[i]? with
      | some x => (x.seq.getD 0).toNat
      | none => 0)
    ((List.range table.length).filter fun i => match table[i]? with
      | some x => hasContent x
      | none => false) [] (List.pairwise_lt_range.filter _) (by simp) (by simp)
  refine ⟨fun i => ?_, h1.imp ?_⟩
  · refine (h2 i).trans ?_
    rw [List.mem_filter, List.mem_range]
    constructor
    · rintro (h | ⟨h, h'⟩)
      · simp at h
      · rw [List.getElem?_eq_getElem h] at h' ⊢; exact ⟨_, rfl, h'⟩
    · rintro ⟨x, h, h'⟩
      exact Or.inr ⟨(List.getElem?_eq_some_iff.1 h).1, by rw [h]; exact h'⟩
  · intro i j h x y hx hy
    rw [hx, hy] at h
    rcases h with h | ⟨h, h'⟩
    · exact Or.inl h
    · exact Or.inr ⟨BitVec.eq_of_toNat_eq h, h'⟩

/-! ## The candidates kept (R77) -/

theorem newer_iff {a b : Stamp} : newer a b = true ↔
    b.counter.toNat < a.counter.toNat ∨ (a.counter = b.counter ∧ b.origin.toNat < a.origin.toNat) := by
  simp [newer]

theorem newer_trans {a b c : Stamp} (h : newer a b = true) (k : newer b c = true) : newer a c = true := by
  rw [newer_iff] at *
  rcases h with h | ⟨h, g⟩ <;> rcases k with k | ⟨k, g'⟩
  · left; omega
  · left; rw [← k]; exact h
  · left; rw [h]; exact k
  · right; exact ⟨h.trans k, by omega⟩

theorem newer_total {a b : Stamp} (h : newer a b = false) : a = b ∨ newer b a = true := by
  rw [← Bool.not_eq_true, newer_iff] at h
  rw [newer_iff]
  rcases Nat.lt_trichotomy a.counter.toNat b.counter.toNat with h1 | h1 | h1
  · exact Or.inr (Or.inl h1)
  · have e := BitVec.eq_of_toNat_eq h1
    rcases Nat.lt_trichotomy a.origin.toNat b.origin.toNat with h2 | h2 | h2
    · exact Or.inr (Or.inr ⟨e.symm, h2⟩)
    · left; cases a; cases b; simp only [Stamp.mk.injEq]; exact ⟨e, BitVec.eq_of_toNat_eq h2⟩
    · exact absurd (Or.inr ⟨e, h2⟩) h
  · exact absurd (Or.inl h1) h

/-- A stamp that beats one not beaten by a third beats the third. -/
theorem beats_of_not_beats {s : State} {k : Key} {a b c : Stamp} (h : beats s k a b = true)
    (n : beats s k c b = false) : beats s k a c = true := by
  unfold beats at *
  cases hp : policyOf s k <;> rw [hp] at h n <;> simp only [beatsUnder] at h n ⊢ <;>
    rcases newer_total n with rfl | e <;> first
    | exact h
    | exact newer_trans h e
    | exact newer_trans e h

theorem beats_trans {s : State} {k : Key} {a b c : Stamp} (h : beats s k a b = true) (g : beats s k b c = true) :
    beats s k a c = true := by
  unfold beats at *
  cases hp : policyOf s k <;> rw [hp] at h g <;> simp only [beatsUnder] at h g ⊢ <;> first
    | exact newer_trans h g
    | exact newer_trans g h

/-- A directory entry put in its place: ascending keys stay ascending, and it replaces the entry of its key (R15). -/
theorem putEntry_spec {l : List Entry} (e : Entry) (hs : l.Pairwise fun a b => a.key.toNat < b.key.toNat) :
    ((putEntry l e).Pairwise fun a b => a.key.toNat < b.key.toNat) ∧
    ∀ d, d ∈ putEntry l e ↔ d = e ∨ (d ∈ l ∧ d.key ≠ e.key) := by
  induction l with
  | nil => simp [putEntry]
  | cons a l ih =>
    have ha := (List.pairwise_cons.1 hs).1
    obtain ⟨i1, i2⟩ := ih (List.pairwise_cons.1 hs).2
    unfold putEntry
    split
    · rename_i h
      refine ⟨List.pairwise_cons.2 ⟨?_, hs⟩, fun d => ?_⟩
      · intro b hb
        rcases List.mem_cons.1 hb with rfl | hb
        · exact h
        · have := ha b hb; omega
      · rw [List.mem_cons]
        refine or_congr Iff.rfl ⟨fun hd => ⟨hd, ?_⟩, fun hd => hd.1⟩
        intro hk
        rcases List.mem_cons.1 hd with rfl | hd
        · rw [hk] at h; omega
        · have := ha d hd; rw [hk] at this; omega
    · split
      · rename_i h1 h2
        refine ⟨List.pairwise_cons.2 ⟨?_, (List.pairwise_cons.1 hs).2⟩, fun d => ?_⟩
        · rw [h2]; exact ha
        · rw [List.mem_cons, List.mem_cons]
          constructor
          · rintro (rfl | hd)
            · exact Or.inl rfl
            · right; refine ⟨Or.inr hd, ?_⟩
              intro hk; have := ha d hd; rw [hk, h2] at this; omega
          · rintro (rfl | ⟨rfl | hd, hk⟩)
            · exact Or.inl rfl
            · exact absurd h2.symm hk
            · exact Or.inr hd
      · rename_i h1 h2
        have hlt : a.key.toNat < e.key.toNat := by
          rcases Nat.lt_trichotomy a.key.toNat e.key.toNat with h | h | h
          · exact h
          · exact absurd (BitVec.eq_of_toNat_eq h).symm h2
          · exact absurd h h1
        refine ⟨List.pairwise_cons.2 ⟨?_, i1⟩, fun d => ?_⟩
        · intro b hb
          rcases (i2 b).1 hb with rfl | hb
          · exact hlt
          · exact ha b hb.1
        · rw [List.mem_cons, i2, List.mem_cons]
          constructor
          · rintro (rfl | rfl | ⟨hd, hk⟩)
            · right; exact ⟨Or.inl rfl, fun e => h2 e.symm⟩
            · exact Or.inl rfl
            · exact Or.inr ⟨Or.inr hd, hk⟩
          · rintro (rfl | ⟨rfl | hd, hk⟩)
            · exact Or.inr (Or.inl rfl)
            · exact Or.inl rfl
            · exact Or.inr (Or.inr ⟨hd, hk⟩)

/-- One candidate of a list is kept: it beats those of its key found before it, and none found after it beats it
(R77). -/
def Kept (s : State) (l : List (Loc × Record)) (e : Entry) : Prop :=
  ∃ before c after, l = before ++ c :: after ∧ e = entryOf c.2 c.1 ∧ validKey e.key = true ∧
    (∀ d ∈ before, d.2.key = e.key → beats s e.key e.stamp d.2.stamp = true) ∧
    ∀ d ∈ after, d.2.key = e.key → beats s e.key d.2.stamp e.stamp = false

/-- The scan keeps one candidate of each valid key found, in ascending key order (R77). -/
theorem foldl_keepCandidate (s : State) (l : List (Loc × Record)) :
    ((l.foldl (keepCandidate s) []).Pairwise fun a b => a.key.toNat < b.key.toNat) ∧
    (∀ e ∈ l.foldl (keepCandidate s) [], Kept s l e) ∧
    ∀ c ∈ l, validKey c.2.key = true → ∃ e ∈ l.foldl (keepCandidate s) [], e.key = c.2.key := by
  induction l using List.reverseRecOn with
  | nil => simp
  | append_singleton l c ih =>
    obtain ⟨i1, i2, i3⟩ := ih
    rw [List.foldl_append, List.foldl_cons, List.foldl_nil]
    generalize hk : l.foldl (keepCandidate s) [] = kept at *
    have keep : ∀ e ∈ kept, (c.2.key = e.key → beats s e.key c.2.stamp e.stamp = false) → Kept s (l ++ [c]) e := by
      intro e he hc
      obtain ⟨before, b, after, h1, h2, h3, h4, h5⟩ := i2 e he
      refine ⟨before, b, after ++ [c], by rw [h1]; simp, h2, h3, h4, fun d hd hk => ?_⟩
      rcases List.mem_append.1 hd with hd | hd
      · exact h5 d hd hk
      · simp at hd; subst hd; exact hc hk
    unfold keepCandidate
    dsimp only
    have hck : (entryOf c.2 c.1).key = c.2.key := rfl
    have hcs : (entryOf c.2 c.1).stamp = c.2.stamp := rfl
    split
    · rename_i hv
      cases hf : kept.find? (fun x => x.key == (entryOf c.2 c.1).key) with
      | none =>
        have hno : ∀ e ∈ kept, e.key ≠ c.2.key := by simpa [hck] using List.find?_eq_none.1 hf
        obtain ⟨p1, p2⟩ := putEntry_spec (entryOf c.2 c.1) i1
        refine ⟨p1, fun e he => ?_, fun d hd hvd => ?_⟩
        · rcases (p2 e).1 he with rfl | ⟨he, _⟩
          · refine ⟨l, c, [], rfl, rfl, hv, fun d hd hkd => ?_, by simp⟩
            obtain ⟨e, he, hek⟩ := i3 d hd (by rw [hkd]; exact hv)
            exact absurd (hek.trans hkd) (hno e he)
          · exact keep e he fun h => absurd h.symm (hno e he)
        · rcases List.mem_append.1 hd with hd | hd
          · obtain ⟨e, he, hek⟩ := i3 d hd hvd
            exact ⟨e, (p2 e).2 (Or.inr ⟨he, hno e he⟩), hek⟩
          · simp at hd; subst hd; exact ⟨_, (p2 _).2 (Or.inl rfl), rfl⟩
      | some old =>
        have ho := List.mem_of_find?_eq_some hf
        have hok : old.key = c.2.key := by simpa [hck] using List.find?_some hf
        dsimp only
        split
        · rename_i hb
          rw [hck, hcs] at hb
          obtain ⟨p1, p2⟩ := putEntry_spec (entryOf c.2 c.1) i1
          refine ⟨p1, fun e he => ?_, fun d hd hvd => ?_⟩
          · rcases (p2 e).1 he with rfl | ⟨he, hne⟩
            · refine ⟨l, c, [], rfl, rfl, hv, fun d hd hkd => ?_, by simp⟩
              rw [hck] at hkd
              rw [hck, hcs]
              obtain ⟨before, b, after, h1, h2, h3, h4, h5⟩ := i2 old ho
              rw [h1] at hd
              rw [hok] at h4 h5
              rcases List.mem_append.1 hd with hd | hd
              · exact beats_trans hb (h4 d hd hkd)
              · rcases List.mem_cons.1 hd with rfl | hd
                · rw [h2] at hb; exact hb
                · exact beats_of_not_beats hb (h5 d hd hkd)
            · exact keep e he fun h => absurd h.symm hne
          · rcases List.mem_append.1 hd with hd | hd
            · obtain ⟨e, he, hek⟩ := i3 d hd hvd
              by_cases hkc : d.2.key = c.2.key
              · exact ⟨_, (p2 _).2 (Or.inl rfl), by rw [hck, hkc]⟩
              · exact ⟨e, (p2 e).2 (Or.inr ⟨he, by rw [hck, hek]; exact hkc⟩), hek⟩
            · simp at hd; subst hd; exact ⟨_, (p2 _).2 (Or.inl rfl), rfl⟩
        · rename_i hb
          rw [hck, hcs] at hb
          refine ⟨i1, fun e he => keep e he fun h => ?_, fun d hd hvd => ?_⟩
          · have : e = old := eq_of_key_eq i1 he ho (by rw [hok, h])
            subst this; rw [← h]; exact Bool.not_eq_true _ ▸ hb
          · rcases List.mem_append.1 hd with hd | hd
            · exact i3 d hd hvd
            · simp at hd; subst hd; exact ⟨old, ho, hok⟩
    · rename_i hv
      refine ⟨i1, fun e he => keep e he fun h => ?_, fun d hd hvd => ?_⟩
      · obtain ⟨_, _, _, _, _, h3, _⟩ := i2 e he
        rw [← h] at h3; exact absurd h3 hv
      · rcases List.mem_append.1 hd with hd | hd
        · exact i3 d hd hvd
        · simp at hd; subst hd; exact absurd hvd hv

/-! ## Sectors read for the clock alone (R13, R77) -/

/-- An image read through a sector stands in it, from the granule on, and its check passes. -/
theorem mem_imagesThrough {m : Memory} {i n g : Nat} {c : Loc × Record} (h : c ∈ imagesThrough m i n g) :
    c.1.sector = i ∧ g ≤ c.1.granule ∧ readImage m c.1 = .image c.2 := by
  induction n generalizing g with
  | zero => simp [imagesThrough] at h
  | succ n ih =>
    unfold imagesThrough at h
    split at h
    · exact ⟨(ih h).1, by have := (ih h).2.1; omega, (ih h).2.2⟩
    · exact ⟨(ih h).1, by have := (ih h).2.1; omega, (ih h).2.2⟩
    · rename_i r hr
      rcases List.mem_cons.1 h with rfl | h
      · exact ⟨rfl, le_refl _, hr⟩
      · exact ⟨(ih h).1, by have := (ih h).2.1; unfold imageLen at this; omega, (ih h).2.2⟩

/-- Where no image is read, none is found. -/
theorem imagesThrough_eq_nil {m : Memory} {i : Nat} (h : ∀ g r, readImage m { sector := i, granule := g } ≠ .image r)
    (n g : Nat) : imagesThrough m i n g = [] := by
  induction n generalizing g with
  | zero => rfl
  | succ n ih =>
    unfold imagesThrough
    split
    · exact ih _
    · exact ih _
    · rename_i r hr
      exact absurd hr (h g r)

/-! ## What the scan rebuilds -/

/-- The live granules of a sector are the image lengths of the entries in it (R78). -/
theorem liveIn_eq (entries : List Entry) (i : Nat) :
    liveIn entries i = ((entries.filter fun e => e.loc.sector == i).map fun e => 1 + (e.len + 15) / 16).sum := by
  have key : ∀ (l : List Entry) n, l.foldl (fun n e => if e.loc.sector = i then n + e.imageLen else n) n =
      n + ((l.filter fun e => e.loc.sector == i).map fun e => 1 + (e.len + 15) / 16).sum := by
    intro l
    induction l with
    | nil => simp
    | cons e l ih =>
      intro n
      rw [List.foldl_cons, ih, List.filter_cons]
      by_cases h : e.loc.sector = i
      · simp [h, Entry.imageLen, imageLen]; omega
      · simp [h]
  unfold liveIn
  rw [key]; simp

/-- The scan rebuilds directory, sector table and highest sequence number, and nothing else (R29, R76 to R78). -/
theorem scan_shape (s : State) :
    ∃ d l q, scan s = { s with dir := d, store := { s.store with sectors := l, highestSeq := q } } := ⟨_, _, _, rfl⟩

theorem scan_eq (s : State) :
    scan s =
      { s with
        dir := (scan s).dir
        store := { s.store with sectors := (scan s).store.sectors, highestSeq := (scan s).store.highestSeq } } := by
  obtain ⟨d, l, q, h⟩ := scan_shape s
  rw [h]

end Sys2Proof.Machine
end

