-- ==== Sys2Proof/Tests/Slice0.lean ====
section
/-! SUPPORT. The model's own tests: ill-formed commands, known vectors of the byte layouts, single steps on small states, and
for each statement with hypotheses a state and operands that meet them. -/

namespace Sys2Proof.Tests
open Sys2Proof.Machine Sys2Proof.Stated

/-! ## Ill-formed commands -/

theorem test_illFormed_writeRecord : (Instr.writeRecord 1 (List.replicate 256 0)).wellFormed = false := by
  decide +kernel
theorem test_illFormed_programConfig : (Instr.programConfig 0 (List.replicate 256 0)).wellFormed = false := by
  decide +kernel
theorem test_illFormed_unknownCommand : (Instr.unknownCommand 0x17).wellFormed = false := by decide
theorem test_illFormed_frameTooShort : (Instr.frameEndGood (List.replicate 8 0)).wellFormed = false := by decide
theorem test_illFormed_frameTooLong : (Instr.frameEndGood (List.replicate 266 0)).wellFormed = false := by
  decide +kernel
theorem test_illFormed_cutWhole : (Instr.powerOnReset ⟨18, [], [], []⟩).wellFormed = false := by decide
theorem test_illFormed_cutTorn : (Instr.pinReset ⟨0, List.replicate 17 0, [], []⟩).wellFormed = false := by decide
theorem test_illFormed_cutErased : (Instr.pinReset ⟨0, [], [(15, 1)], []⟩).wellFormed = false := by decide
theorem test_illFormed_cutConfig : (Instr.powerOnReset ⟨0, [], [], List.replicate 256 0⟩).wellFormed = false := by
  decide +kernel
theorem test_illFormed_softReset : (Instr.softReset [(4096, 1)]).wellFormed = false := by decide
theorem test_illFormed_configProgramDone : (Instr.configProgramDone (List.replicate 256 0)).wellFormed = false := by
  decide +kernel
theorem test_illFormed_lockCheckProgrammed : (Instr.lockCheckProgrammed [0, 0, 0]).wellFormed = false := by decide
theorem test_illFormed_updateProgramDone : (Instr.updateProgramDone (List.replicate 273 0)).wellFormed = false := by
  decide +kernel
theorem test_illFormed_copyProgramDone : (Instr.copyProgramDone (List.replicate 273 0)).wellFormed = false := by
  decide +kernel
theorem test_illFormed_eraseDone : (Instr.eraseDone [(4096, 0)] 0).wellFormed = false := by decide

/-! ## Byte layouts -/

/-- The check values of the two CRCs of the conventions over "123456789" (00_scope.md). -/
theorem test_crc16 : crc16 [0x31, 0x32, 0x33, 0x34, 0x35, 0x36, 0x37, 0x38, 0x39] = 0x29B1 := by decide +kernel
theorem test_crc32 : crc32 [0x31, 0x32, 0x33, 0x34, 0x35, 0x36, 0x37, 0x38, 0x39] = 0xFC891918 := by decide +kernel

/-- WRITE_RECORD 1234h with two bytes on SPI: code, key high byte first, length, value (R187). -/
theorem test_hostBytes :
    takenCommand [0x10, 0x12, 0x34, 0x02, 0xAB, 0xCD] = some (.writeRecord 0x1234 [0xAB, 0xCD]) := by decide +kernel

/-- A FETCH of key 0102h at counter 3, origin 4, from station 5 to station 6 with sequence 7 (R183). -/
theorem test_frame :
    (Frame.mk 7 0 5 6 7 (fetchPayload 0x0102 ⟨3, 4⟩)).header ++ fetchPayload 0x0102 ⟨3, 4⟩ =
      [0x70, 0x05, 0x06, 0x07, 0x00, 0x07, 0x01, 0x02, 0x00, 0x00, 0x00, 0x03, 0x04] := by decide +kernel

/-- An image header: mark 3Ch, key, counter, origin, tombstone bit 0, length, blank bytes (R184). -/
theorem test_image :
    (imageBytes { key := 0x0102, stamp := ⟨3, 4⟩, tomb := false, value := [0xAA] }).take 14 =
      [0x3C, 0x01, 0x02, 0x00, 0x00, 0x00, 0x03, 0x04, 0xFE, 0x01, 0xFF, 0xFF, 0xFF, 0xFF] := by decide +kernel

/-- A header granule: blank count part, A5h, sequence number, erase count, clock, blank markers (R184). -/
theorem test_opening :
    (openingGranule ⟨1, 2, 3⟩).take 14 =
      [0xFF, 0xFF, 0xFF, 0xA5, 0x00, 0x00, 0x00, 0x01, 0x00, 0x02, 0x00, 0x00, 0x00, 0x03] := by decide +kernel

/-! ## Small states -/

/-- Class 0 OPEN and notifying up to 16 bytes, class 1 OWNED, class 2 ONCE, class 3 LOCAL, the others OPEN. -/
def classes : Vector ClassEntry 16 :=
  Vector.ofFn fun i =>
    if i = 1 then { policy := .owned, notify := false, maxLen := 240 }
    else if i = 2 then { policy := .once, notify := false, maxLen := 240 }
    else if i = 3 then { policy := .localOnly, notify := false, maxLen := 240 }
    else { policy := .openAll, notify := i = 0, maxLen := 16 }

/-- A sector of a small store. -/
def sector (q : SectorState) (used live : Nat) : Sector :=
  { state := q, seq := if q = .erased then none else some 1, eraseCount := 1, used := used, live := live, reclaim := false }

/-- Station 3 in a state, with an OPEN sector and three ERASED ones, nothing in the directory. -/
def station (q : StationState) : State :=
  { State.reset with
    ctl :=
      { State.reset.ctl with st := q, own := 3, force := some { classes := classes, rate := 0, interval := 1 } }
    host := HostPort.cleared
    store :=
      { Store.cleared with
        sectors :=
          [sector .openForAppend 10 0, sector .erased 0 0, sector .erased 0 0, sector .erased 0 0] } }

/-- The line of a station in a phase. -/
def onLine (p : LinePhase) (s : State) : State := { s with line := { s.line with phase := p } }

/-- A peer entry for station 5. -/
def withPeer (e : Peer) (s : State) : State := { s with memb := { s.memb with peers := s.memb.peers.set 5 e } }

/-- A PRESENT peer. -/
def presentPeer : Peer := { Peer.cleared with state := .present }

/-- The directory holds one entry of key 0040h. -/
def oneEntry : Entry := { key := 0x0040, stamp := ⟨5, 5⟩, tomb := false, len := 1, loc := { sector := 0, granule := 1 } }

def withEntry (s : State) : State :=
  { s with dir := { s.dir with entries := [oneEntry], entryCount := 1, sharedCount := 1, clock := 5 } }

/-- A record of key 0040h. -/
def record (n : Counter) : Record := { key := 0x0040, stamp := ⟨n, 5⟩, tomb := false, value := [0xAA] }

/-- A NEWS of a record from station 5. -/
def newsFrame (r : Record) : Frame :=
  { code := 2, flags := 0, source := 5, dest := 0x3F, seq := 0, payload := recordBytes r }

/-- A frame at the front of the Receive Queue. -/
def heard (f : Frame) (s : State) : State := { s with line := { s.line with rxq := [f] } }

/-- An update slot holding a record. -/
def slotOf (p : SlotPhase) (r : Record) : Slot :=
  { phase := p, origin := .peer, record := r, reserved := true, retry := false, ready := 0, follower := none }

def withSlot (x : Slot) (s : State) : State := { s with upd := { s.upd with slots := s.upd.slots.set 0 (some x) } }

def withOp (o : StoreOp) (s : State) : State := { s with store := { s.store with op := some o } }

def withErase (p : ErasePhase) (n : Nat) (s : State) : State :=
  { s with store := { s.store with erase := some { sector := 1, suspensions := n, phase := p } } }

/-! ## Single steps -/

/-- The state a command leaves. -/
def after (c : Instr) (s : State) : State :=
  match exec c s with
  | .next t => t
  | .fault _ => s
  | .refused _ => s

/-- SYNC_NOW on an ACTIVE station queues a SUMMARY (R121, R176). -/
theorem test_step_syncNow :
    let t := after .syncNow (station .active)
    t.line.txq.map (·.kind) = [.summary] ∧ t.host.reply.map (·.reply) = some (.code .done) := by decide +kernel

/-- A new key is admitted with counter 1 and ticket 1 (R12, R38, R39). -/
theorem test_step_writeRecord :
    let t := after (.writeRecord 0x0040 [1]) (station .active)
    t.host.reply.map (·.reply) = some (.admitted 1 ⟨1, 3⟩) ∧ t.dir.reservations = 1 ∧ t.dir.clock = 1 := by
  decide +kernel

/-- The granted APPEND takes granule 11 of the OPEN sector, of which 10 are used (R61). -/
theorem test_step_appendGrant :
    let t := after .appendGrant (withSlot (slotOf .waitStore (record 6)) (station .active))
    t.store.op.isSome = true ∧ t.store.sectors.map (·.used) = [12, 0, 0, 0] := by decide +kernel

/-- An APPEND in flight, in granules 11 and 12 of the OPEN sector. -/
def programmingSlot : State :=
  withOp (.append (.slot 0) { sector := 0, granule := 11 } none (imageBytes (record 6)))
    (withSlot (slotOf (.programming { sector := 0, granule := 11 }) (record 6)) (station .active))

/-- A commit makes the entry and posts KEY_CHANGED in a notifying class (R20, R47, R49). -/
theorem test_step_updateProgramDone :
    let t := after (.updateProgramDone []) programmingSlot
    t.dir.entries.map (·.key) = [0x0040] ∧ t.host.events = [.keyChanged 0x0040 5] ∧ t.upd.slots[0] = none := by
  decide +kernel

/-- A program of which a bit did not take fails its verify: the sector is FULL and the slot retries (R51, R60). -/
theorem test_step_verifyFails :
    let t := after (.updateProgramDone [0x80]) programmingSlot
    t.dir.entries = [] ∧ t.upd.slots[0].map (·.retry) = some true ∧
      t.store.sectors.map (·.state) = [.full, .erased, .erased, .erased] := by decide +kernel

/-- A soft reset waits in STARTING for the work in flight (R157). -/
theorem test_step_softReset :
    let t := after (.softReset []) (withOp (.mark .eraseBegun 1) (station .active))
    t.ctl.st = .starting ∧ t.ctl.softWait = true ∧ t.store.op.isSome = true := by decide +kernel

/-! ## Every statement's hypotheses are met: the machine, the formats, the host port -/

theorem test_meets_StepRunsTheFrontCommand : State.reset.pending = [] := rfl

theorem test_meets_BeatsIsAStrictOrder :
    beatsUnder .openAll ⟨2, 0⟩ ⟨1, 1⟩ = true ∧ beatsUnder .openAll ⟨1, 1⟩ ⟨1, 0⟩ = true ∧
    beatsUnder .once ⟨1, 0⟩ ⟨1, 1⟩ = true ∧ (⟨2, 0⟩ : Stamp) ≠ ⟨1, 1⟩ ∧ Policy.owned ≠ .once := by decide

theorem test_meets_FramesAreHeardAsSent : (Frame.mk 6 1 5 6 0 (List.replicate 256 0)).payload.length ≤ 256 := by
  decide +kernel

theorem test_meets_HostCommandsAreTaken :
    (Instr.writeRecord 1 (List.replicate 255 0)).wellFormed = true ∧
    hostBytes (.writeRecord 1 (List.replicate 255 0)) = some (0x10 :: be16 1 ++ 255 :: List.replicate 255 0) ∧
    ∀ e, Instr.writeRecord 1 (List.replicate 255 0) = .softReset e → e = [] := by
  refine ⟨by decide +kernel, by decide +kernel, nofun⟩

theorem test_meets_ImagesReadBack :
    Memory.wf [] ∧ (List.replicate 240 (0xAA : Byte)).length ≤ 240 ∧ 240 + (1 + (240 + 15) / 16) ≤ 256 ∧
    ∀ i, i < 16 * (1 + (240 + 15) / 16) → Memory.read [] (63 * 4096 + 240 * 16 + i) = 0xFF :=
  ⟨by decide, by decide +kernel, by decide, fun _ _ => rfl⟩

/-- The port is open after reset. -/
theorem portOpen_reset : PortOpen State.reset := ⟨⟨rfl, rfl⟩, rfl⟩

theorem test_meets_StatusReadsTheStation : PortOpen State.reset := portOpen_reset

/-- A request in progress, and a reply that waits. -/
def requesting : State := { State.reset with host := { HostPort.cleared with request := some .programConfig } }
def replying : State :=
  { State.reset with host := { HostPort.cleared with reply := some { reply := .code .done, read := false } } }

theorem test_meets_GetReplyReturnsTheBuffer :
    (PortOpen requesting ∧ requesting.host.request ≠ none) ∧
    (PortOpen State.reset ∧ State.reset.host.request = none ∧ State.reset.host.reply = none) ∧
    (PortOpen replying ∧ replying.host.request = none ∧ replying.host.reply = some ⟨.code .done, false⟩) ∧
    (after .getReply replying).host.txn = some { kind := .reply, out := [0x00] } ∧
    (after .getReply replying).host.reply = some ⟨.code .done, false⟩ :=
  ⟨⟨⟨⟨rfl, rfl⟩, rfl⟩, nofun⟩, ⟨portOpen_reset, rfl, rfl⟩, ⟨⟨⟨rfl, rfl⟩, rfl⟩, rfl, rfl⟩, by decide +kernel, by decide +kernel⟩

theorem test_meets_ReadEventTakesTheOldest :
    (PortOpen requesting ∧ requesting.host.events = []) ∧
    (PortOpen State.reset ∧ State.reset.host.events = .stationState .unconfigured :: []) ∧
    (after .readEvent State.reset).host.txn = some { kind := .event, out := [4, 1, 0, 0, 0, 0, 0, 0] } ∧
    (after .ackDiverged State.reset).host.txn = some { kind := .plain, out := [] } ∧
    (let h := { HostPort.cleared with events := [.stationState .active, .keyChanged 0x0040 5] }
     h.events = [.stationState .active] ++ .keyChanged 0x0040 5 :: [] ∧
     h.post (.keyChanged 0x0040 6) = { h with events := [.stationState .active, .keyChanged 0x0040 6] }) ∧
    (∀ x ∈ List.replicate 32 (Event.stationState .active), ∀ o, x ≠ .keyChanged 0x0040 o) ∧
    hirq State.reset = true ∧ hirq replying = true ∧ hirq (station .active) = false :=
  ⟨⟨⟨⟨rfl, rfl⟩, rfl⟩, rfl⟩, ⟨portOpen_reset, rfl⟩, by decide +kernel, by decide +kernel, ⟨rfl, by decide⟩,
   fun x hx o => by rw [List.eq_of_mem_replicate hx]; nofun, by decide, by decide, by decide⟩

/-- The control laws hold of the small station. -/
theorem controlLaw_station (q : StationState) : ControlLaw (station q) where
  sending h := absurd rfl h
  locked _ := rfl
  group := by cases q <;> decide

theorem test_meets_ReadProfileWraps : PortOpen (station .active) ∧ ControlLaw (station .active) :=
  ⟨⟨⟨rfl, rfl⟩, rfl⟩, controlLaw_station _⟩

theorem test_meets_ImmediateCommandsAct :
    PortOpen State.reset ∧ State.reset.ctl.softWait = false ∧ FlashLaw State.reset ∧ ¬ erasing State.reset 0 ∧
    PortOpen { State.reset with ctl := { State.reset.ctl with softWait := true } } := by
  refine ⟨portOpen_reset, rfl, ?_, ?_, ⟨⟨rfl, rfl⟩, rfl⟩⟩
  · unfold FlashLaw; decide
  · rintro ⟨e, h, _⟩; exact nomatch h

theorem test_meets_HostBusyChangesNothing :
    PortOpen requesting ∧ requesting.host.request ≠ none ∧ isRequest .syncNow :=
  ⟨⟨⟨rfl, rfl⟩, rfl⟩, nofun, by simp [isRequest]⟩

/-- The small station takes a request. -/
theorem freePort_station (q : StationState) : FreePort (station q) := ⟨⟨⟨rfl, rfl⟩, rfl⟩, rfl⟩

theorem test_meets_LocalAdmissionRefuses :
    FreePort (station .unconfigured) ∧
    ∃ after, Refuses (station .unconfigured) 0x0040 false 0 =
        [((station .unconfigured).ctl.st = .starting, .starting)] ++
          ((station .unconfigured).ctl.st = .unconfigured, .notConfigured) :: after ∧
      (∀ c ∈ [((station .unconfigured).ctl.st = .starting, ResultCode.starting)], ¬ c.1) ∧
      (station .unconfigured).ctl.st = .unconfigured :=
  ⟨freePort_station _, _, rfl, by simp [station], rfl⟩

/-- The small station with class 0 under ONCE. -/
def onceStation (q : StationState) : State :=
  { station q with
    ctl :=
      { (station q).ctl with
        force :=
          some
            { classes := classes.set 0 { policy := .once, notify := false, maxLen := 0 }, rate := 0
              interval := 1 } } }

/-- Each check of R34 refuses somewhere, with the checks before it passed. -/
theorem test_refusals :
    [ admissionRefusal (station .starting) 0x0000 false 0,
      admissionRefusal (station .unconfigured) 0x0000 false 0,
      admissionRefusal (station .mute) 0x0040 false 17,
      admissionRefusal (station .active) 0x0000 false 17,
      admissionRefusal (station .active) 0x1004 true 0,
      admissionRefusal (station .active) 0x2000 true 0,
      admissionRefusal (withEntry (onceStation .active)) 0x0040 false 1,
      admissionRefusal (withSlot (slotOf .waitStore (record 6)) (station .active)) 0x0040 false 17,
      admissionRefusal (withSlot (slotOf .waitStore (record 6)) (station .active)) 0x0040 false 16,
      admissionRefusal { station .active with dir := { Directory.cleared with entryCount := 1024 } } 0x0041 false 0,
      admissionRefusal { station .active with upd := { UpdateUnit.cleared with
        slots := Vector.replicate 4 (some (slotOf .waitStore (record 6))) } } 0x0041 false 0,
      admissionRefusal { station .active with dir := { Directory.cleared with clock := 0xFFFFFFFF } } 0x0041 false 0,
      admissionRefusal { station .active with store := Store.cleared } 0x0041 false 0 ] =
    [ some .starting, some .notConfigured, some .muted, some .badKey, some .notOwner, some .notDeletable,
      some .alreadySet, some .tooLong, some .keyBusy, some .dirFull, some .busy, some .clockExhausted,
      some .storeFull ] := by decide +kernel

theorem test_meets_LocalAdmissionAdmits :
    FreePort (station .active) ∧ LowestFree (station .active) 0 ∧
    (∀ c ∈ Refuses (station .active) 0x0040 false 16, ¬ c.1) ∧
    ∀ c ∈ Refuses (station .active) 0x0040 true 0, ¬ c.1 := by
  have hp : policyOf (station .active) 0x0040 = .openAll := by decide +kernel
  have hl : (classOf (station .active) 0x0040).maxLen = 16 := by decide +kernel
  have hk : lookup (station .active) 0x0040 = none := by decide
  have hs : ∀ i : Fin 4, (station .active).upd.slots[i] = none := by decide
  have ho : openFree (station .active) = 245 := by decide +kernel
  have hq : (station .active).ctl.st = .active := rfl
  have hd : (station .active).dir = Directory.cleared := rfl
  have h0 : (0x0040 : Key) ≠ 0x0000 := by decide
  have h1 : (0x0040 : Key) ≠ 0xFFFF := by decide
  refine ⟨freePort_station _, ⟨hs 0, nofun⟩, ?_, ?_⟩ <;>
  · generalize station .active = s at hp hl hk hs ho hq hd
    generalize (0x0040 : Key) = k at hp hl hk h0 h1
    intro c hc
    simp only [Refuses, List.mem_cons, List.not_mem_nil, or_false] at hc
    rcases hc with rfl | rfl | rfl | rfl | rfl | rfl | rfl | rfl | rfl | rfl | rfl | rfl | rfl <;>
      simp [hp, hl, hk, hs, ho, hq, hd, foreignKey, Hopeless, Directory.cleared]
    exact ⟨h0, h1⟩

theorem test_meets_ReadRecordLooksUp :
    (FreePort (station .starting) ∧ FreePort (station .unconfigured)) ∧
    (FreePort (station .mute) ∧ Serving (station .mute) ∧ lookup (station .mute) 0x0040 = none) ∧
    (FreePort (withEntry (station .active)) ∧ Serving (withEntry (station .active)) ∧
      lookup (withEntry (station .active)) 0x0040 = some oneEntry) :=
  ⟨⟨freePort_station _, freePort_station _⟩,
   ⟨freePort_station _, Or.inr (Or.inr rfl), by decide⟩,
   ⟨⟨⟨rfl, rfl⟩, rfl⟩, rfl⟩, Or.inr (Or.inl rfl), by decide⟩

theorem test_meets_ReportsCompleteAtOnce :
    (∀ q, FreePort (station q)) ∧ Serving (station .listening) ∧ Serving (station .mute) ∧
    (station .active).ctl.st = .active ∧ (∀ t ∈ (station .active).line.txq, t.kind ≠ .summary) ∧
    (station .active).line.waiting = [] ∧ (station .active).line.txq.length < 16 :=
  ⟨freePort_station, Or.inl rfl, Or.inr (Or.inr rfl), rfl, nofun, rfl, by decide⟩

/-- A blank area, and one whose first 36 bytes hold valid values. -/
def filled : State :=
  { State.reset with
    cfg := { State.reset.cfg with bytes := Vector.ofFn fun i => if 3 ≤ i.val ∧ i.val < 36 then 1 else 0 } }

theorem test_meets_ConfigurationRequestsBegin :
    (∀ q, FreePort (station q)) ∧ Serving (station .active) ∧
    (FreePort State.reset ∧ State.reset.ctl.st = .unconfigured ∧ isLocked State.reset = false) ∧
    areaValues State.reset.cfg.bytes.toList = none ∧
    (FreePort filled ∧ areaValues (filled.cfg.bytes.set 61 0xFF).toList ≠ none) ∧
    isLocked { filled with ctl := State.reset.ctl } = true :=
  ⟨freePort_station, Or.inr (Or.inl rfl), ⟨⟨portOpen_reset, rfl⟩, rfl, by decide⟩, by decide +kernel,
   ⟨⟨⟨⟨rfl, rfl⟩, rfl⟩, rfl⟩, by decide +kernel⟩, by decide +kernel⟩

/-- A programming of the area in flight. -/
def programmingArea (p : ConfigProgram) (w : Bool) : State :=
  { State.reset with
    cfg := { State.reset.cfg with prog := some p }
    ctl := { State.reset.ctl with softWait := w } }

theorem test_meets_ConfigurationProgramsEnd :
    (∀ p w, (programmingArea p w).cfg.prog = some p ∧ (programmingArea p w).ctl.softWait = w) ∧
    (let area := programmed (programmingArea (.check 0x1234) false).cfg.bytes 62 (be16 0x1234) []
     area[62] ++ area[63] = (0x1234 : BitVec 16)) ∧
    (let area := programmed (programmingArea (.check 0x1234) false).cfg.bytes 62 (be16 0x1234) [0x01]
     area[62] ++ area[63] ≠ (0x1234 : BitVec 16)) ∧
    (programmed (programmingArea .marker false).cfg.bytes 61 [0x00] [0x0F])[61] ≠ 0xFF ∧
    (programmed (programmingArea .marker false).cfg.bytes 61 [0x00] [0xFF])[61] = 0xFF :=
  ⟨fun _ _ => ⟨rfl, rfl⟩, by decide +kernel, by decide +kernel, by decide +kernel, by decide +kernel⟩

/-! ## Resets, station states, the line -/

/-- A part held by the supply, by RESET, or by both. -/
def held (power pin : Bool) : State := { State.reset with ctl := { State.reset.ctl with power := power, pin := pin } }

/-- A soft reset's wait with nothing in flight. -/
def awaitingReset : State := { State.reset with ctl := { State.reset.ctl with softWait := true } }

theorem test_meets_ResetsStopAllWork :
    FlashLaw programmingSlot ∧ ¬ inFlight programmingSlot (11 * 16 - 1) ∧ inFlight programmingSlot (11 * 16) ∧
    ¬ erasing programmingSlot (11 * 16) ∧ programmingSlot.store.op ≠ none ∧ (withErase .running 0 State.reset).store.op = none ∧
    erasing (withErase .running 0 State.reset) (4096 + 16) ∧ ¬ configInFlight State.reset 0 := by
  refine ⟨?_, ?_, ?_, ?_, nofun, rfl, ⟨_, rfl, Or.inl rfl, by decide, by decide⟩, ?_⟩
  · unfold FlashLaw; decide
  · rintro (⟨who, loc, opening, image, h, hin⟩ | ⟨kind, v, h, _⟩ | ⟨e, h, _⟩ | ⟨e, h, _⟩)
    · cases h
      rcases hin with ⟨h, _⟩ | ⟨h, _⟩
      · revert h; decide
      · exact h rfl
    · cases h
    · cases h
    · cases h
  · exact Or.inl ⟨_, _, _, _, rfl, Or.inl ⟨by decide, by decide +kernel⟩⟩
  · rintro ⟨e, h, _⟩; cases h
  · rintro ⟨p, h, _⟩; cases h

theorem test_meets_ResetsEndInStarting :
    ((held true false).ctl.power = true ∧ (held true false).ctl.pin = false) ∧
    ((held false true).ctl.pin = true ∧ (held false true).ctl.power = false) ∧
    ((held true true).ctl.power = true ∧ (held true true).ctl.pin = true) ∧
    Powered awaitingReset ∧ awaitingReset.ctl.softWait = true ∧ awaitingReset.store.op = none ∧
    awaitingReset.store.erase = none ∧ awaitingReset.line.sending = none ∧ awaitingReset.cfg.prog = none :=
  ⟨⟨rfl, rfl⟩, ⟨rfl, rfl⟩, ⟨rfl, rfl⟩, ⟨rfl, rfl⟩, rfl, rfl, rfl, rfl, rfl⟩

/-- A transaction open when a soft reset's wait ends takes no command (R178). -/
theorem test_step_softResetWaitEnd :
    let s := { awaitingReset with host := { awaitingReset.host with txn := some { kind := .event, out := [1] } } }
    let t := after (.softResetWaitEnd 3) s
    t.host.txn = some { kind := .plain, out := [] } ∧ canTake t = false ∧ t.ctl.own = 3 := by decide +kernel

/-- Two sectors left ERASING. -/
def leftErasing : State :=
  { station .active with store := { Store.cleared with sectors := [sector .full 255 9, sector .erasing 255 0, sector .erasing 255 0] } }

/-- A record of no length, and flash with a failing image at granule 2 and the record's at granule 3. -/
def emptyRecord : Record := { key := 0x0102, stamp := ⟨3, 4⟩, tomb := false, value := [] }
def pastFailing : Memory := Memory.program (Memory.program [] 32 [0x3C] [] 0) 48 (imageBytes emptyRecord) [] 0

/-- A sector read for the clock alone is read past a blank granule and past an image whose check fails (R13, R77). -/
theorem test_images_are_read_through :
    readImage pastFailing { sector := 0, granule := 2 } = .bad ∧
    imagesThrough pastFailing 0 4 1 = [({ sector := 0, granule := 3 }, emptyRecord)] ∧
    (imagesFrom pastFailing 0 4 1).images = [] := by decide +kernel

/-- A RETIRED sector is read so, and a FULL one without a sequence number is not read. -/
theorem test_which_sectors_are_read_through (m : Memory) :
    clockImages m 0 (sector .retired 0 0) = imagesThrough m 0 Config.imageGranules 1 ∧
    clockImages m 0 { sector .full 255 0 with seq := none } = [] := by
  constructor <;> simp [clockImages, hasContent, sector]

theorem test_meets_ScanRebuildsTheStation :
    Powered (station .starting) ∧ (station .starting).ctl.st = .starting ∧ (station .starting).ctl.softWait = false ∧
    (station .starting).ctl.force ≠ none ∧ (station .starting).flash = [] ∧
    (leftErasing.store.sectors[1]? = some (sector .erasing 255 0) ∧
      ∀ n y, n < 1 → leftErasing.store.sectors[n]? = some y → y.state ≠ .erasing) ∧
    ∀ x ∈ (station .active).store.sectors, x.state ≠ .erasing := by
  refine ⟨⟨rfl, rfl⟩, rfl, rfl, nofun, rfl, ⟨rfl, fun n y hn h => ?_⟩, by decide⟩
  obtain rfl : n = 0 := by omega
  cases h
  decide

/-- No peer of the small station is known. -/
theorem peers_station (q : StationState) (p : Station) : peerOf (station q) p = Peer.cleared := by
  simp [peerOf, station, State.reset, Membership.cleared]

/-- Work waits for an ACTIVE station 3: station 5 to be queried, a pair, a Want entry. -/
def workWaits (n : Nat) (flag : Bool) : State :=
  { withPeer { Peer.cleared with state := .joining, attempts := n, isPartial := flag } (station .active) with
    recon := { queue := [{ peer := 5, bucket := 0, attempts := 0 }], phase := .idle }
    fetch :=
      { wants := [{ key := 0x0040, stamp := ⟨6, 5⟩, source := 5, attempts := 0, requested := false }]
        slots := Vector.replicate 4 .free } }

theorem test_meets_ListeningEndsInActive :
    Powered (station .listening) ∧ (station .listening).ctl.st = .listening ∧
    (∀ p, (peerOf (station .listening) p).state ≠ .joining) ∧ (station .listening).recon.queue = [] ∧
    (station .listening).recon.phase = .idle ∧ (station .listening).fetch.wants = [] ∧
    (∀ t ∈ (station .listening).line.txq, t.kind ≠ .summary) ∧ (station .listening).line.waiting = [] ∧
    (station .listening).line.txq.length < 16 ∧ ¬ Active (station .listening) ∧
    (∀ n flag, Active (workWaits n flag) ∧ (workWaits n flag).memb.query = none ∧ (workWaits n flag).recon.phase = .idle ∧
      (peerOf (workWaits n flag) 5).state = .joining ∧ (peerOf (workWaits n flag) 5).attempts = n ∧
      (peerOf (workWaits n flag) 5).isPartial = flag ∧ (workWaits n flag).recon.queue = { peer := 5, bucket := 0, attempts := 0 } :: [] ∧
      (workWaits n flag).fetch.slots[(0 : Fin 4)] = .free ∧ ((workWaits n flag).fetch.wants.map (·.key)).Nodup ∧
      (workWaits n flag).fetch.wants = [] ++ { key := 0x0040, stamp := ⟨6, 5⟩, source := 5, attempts := 0, requested := false } :: []) ∧
    ∀ p', p'.toNat < (5 : Station).toNat → (peerOf (workWaits 0 false) p').state ≠ .joining := by
  refine ⟨⟨rfl, rfl⟩, rfl, fun p => by rw [peers_station]; decide, rfl, rfl, rfl, nofun, rfl, by decide, fun h => (nomatch h.2),
    fun n flag => ⟨⟨⟨rfl, rfl⟩, rfl⟩, rfl, rfl, rfl, rfl, rfl, rfl, rfl, by simp [workWaits], rfl⟩, fun p' hlt => ?_⟩
  have h5 : ¬ (5 : Nat) = p'.toNat := fun e => absurd hlt (by rw [← e]; decide)
  simp [peerOf, workWaits, withPeer, station, State.reset, Membership.cleared, h5, Peer.cleared]

/-- The receiver is enabled in LISTENING, ACTIVE and MUTE. -/
theorem up_station (q : StationState) (h : q = .listening ∨ q = .active ∨ q = .mute) : Up (station q) := ⟨⟨rfl, rfl⟩, h⟩

theorem up_active : Up (station .active) := up_station _ (Or.inr (Or.inl rfl))

theorem test_meets_LinePhasesFollowTheLine :
    (∀ p, Up (onLine p (station .active)) ∧ (onLine p (station .active)).line.phase = p) ∧
    (∃ s, Up s ∧ s.line.phase = .cycle ∧ s.line.slot = 32) ∧
    (onLine .busy (station .active)).line.sending = none ∧ parseFrame [0xC5] = none :=
  ⟨fun _ => ⟨up_active, rfl⟩,
   ⟨{ station .active with line := { Line.cleared with phase := .cycle, slot := 32 } }, up_active, rfl, rfl⟩, rfl,
   by decide +kernel⟩

/-- A frame of a station, with no payload. -/
def bareFrame (p : Station) : Frame := { code := 3, flags := 0, source := p, dest := 3, seq := 0, payload := [] }

theorem test_meets_OwnNumberMutes :
    Hearing (onLine .busy (station .active)) ∧ Hearing (onLine .busy (station .mute)) ∧
    parseFrame (bareFrame 3).lineBytes = some (bareFrame 3) ∧
    (bareFrame 3).source = (onLine .busy (station .active)).ctl.own :=
  ⟨⟨up_active, rfl, rfl⟩, ⟨up_station _ (Or.inr (Or.inr rfl)), rfl, rfl⟩, by decide +kernel, rfl⟩

/-- A SUMMARY of station 5 that carries the unique-ID-low 7. -/
def summaryOf7 : Frame :=
  { code := 1, flags := 0, source := 5, dest := 0x3F, seq := 0, payload := summaryPayload 0 7 false 0 (List.replicate 64 0) }

/-- Station 5 is PRESENT with another unique-ID-low. -/
def hearsOther : State := onLine .busy (withPeer { presentPeer with uniqueIdLow := some 9 } (station .active))

set_option maxRecDepth 20000 in
/-- A PRESENT peer becomes DUPLICATE, and its work is withdrawn. -/
theorem test_meets_GoodFramesAreHeard_duplicate :
    Hearing hearsOther ∧ parseFrame summaryOf7.lineBytes = some summaryOf7 ∧ summaryOf7.source ≠ hearsOther.ctl.own ∧
    (peerOf hearsOther summaryOf7.source).state = .present ∧
    ∃ new, Heard hearsOther.now summaryOf7.carriedId (peerOf hearsOther summaryOf7.source) new ∧ new.state = .duplicate :=
  ⟨⟨up_active, rfl, rfl⟩, by decide +kernel, by decide, by decide,
   { presentPeer with state := .duplicate, lastHeard := some 0, uniqueIdLow := some 7, dupMark := some 0 },
   ⟨fun _ => by decide +kernel, fun h => absurd ⟨7, by decide +kernel, show some 9#32 ≠ some 7#32 by decide⟩ h⟩, rfl⟩

theorem test_meets_GoodFramesAreHeard :
    Hearing (onLine .busy (station .active)) ∧ parseFrame (bareFrame 5).lineBytes = some (bareFrame 5) ∧
    (bareFrame 5).source ≠ (onLine .busy (station .active)).ctl.own ∧ (bareFrame 5).accepted 3 = true ∧
    (bareFrame 5).accepted 4 = false ∧ (onLine .busy (station .active)).line.rxq.length < 4 :=
  ⟨⟨up_active, rfl, rfl⟩, by decide +kernel, by decide, by decide, by decide, by decide⟩

/-- A queued frame of a kind. -/
def queued (k : FrameKind) (n : Nat) (r : Option Requester) : TxFrame :=
  { kind := k, flags := 0, dest := 5, seq := 0, payload := [], collisions := n, placer := r }

/-- A transmission of the first frame of a queue. -/
def transmitting (t : TxFrame) (w : Bool) : State :=
  { station .active with
    ctl := { (station .active).ctl with softWait := w }
    line := { Line.cleared with phase := .busy, txq := [queued .summary 0 none, t]
                                sending := some { cls := t.kind.cls, frame := bareFrame 3 } } }

/-- The own slot of station 3 starts, with a FETCH and a SUMMARY queued. -/
def ownSlotStarts : State :=
  { station .active with
    line := { Line.cleared with phase := .cycle, slot := 3, txq := [queued .summary 0 none, queued .fetch 0 none] } }

theorem test_meets_SlotsStartTransmissions :
    Up ownSlotStarts ∧ ownSlotStarts.line.phase = .cycle ∧ ownSlotStarts.line.slot < 32 ∧
    ownSlotStarts.ctl.st = .active ∧ ownSlotStarts.line.deferral = 0 ∧
    ownSlotStarts.line.slot = (ownSlotStarts.ctl.own - ownSlotStarts.line.base).toNat ∧
    FirstOf ownSlotStarts .requests [queued .summary 0 none] (queued .fetch 0 none) [] ∧
    (∀ x ∈ ownSlotStarts.line.txq, rank TxClass.requests ≤ rank x.kind.cls) ∧
    (onLine .cycle (station .mute)).ctl.st ≠ .active :=
  ⟨up_active, rfl, by decide, rfl, rfl, by decide, ⟨rfl, rfl, by decide⟩, by decide, by decide⟩

theorem test_meets_CollisionsDefer :
    (transmitting (queued .fetch 7 none) true).ctl.softWait = true ∧
    (transmitting (queued .fetch 7 none) false).ctl.softWait = false ∧
    ∃ tx, (transmitting (queued .fetch 7 none) false).line.sending = some tx ∧
      FirstOf (transmitting (queued .fetch 7 none) false) tx.cls [queued .summary 0 none] (queued .fetch 7 none) [] :=
  ⟨rfl, rfl, _, rfl, rfl, rfl, by decide⟩

/-- Placed requests that await their replies. -/
def awaitingReplies (s : State) : State :=
  { s with
    memb := { s.memb with query := some { peer := 5, placed := some { seq := 0, since := 0 } } }
    recon := { queue := [{ peer := 5, bucket := 0, attempts := 1 }], phase := .awaitingPart { seq := 0, since := 0 } 0 }
    fetch :=
      { wants := [{ key := 0x0040, stamp := ⟨6, 5⟩, source := 5, attempts := 0, requested := true }]
        slots := s.fetch.slots.set 0 (.awaiting 0x0040 5 { seq := 0, since := 0 }) } }

theorem test_meets_TransmissionsEnd :
    (∀ r w, (transmitting (queued .fetch 0 r) w).ctl.softWait = w ∧
      ∃ tx, (transmitting (queued .fetch 0 r) w).line.sending = some tx ∧
        FirstOf (transmitting (queued .fetch 0 r) w) tx.cls [queued .summary 0 none] (queued .fetch 0 r) []) ∧
    ∀ r, let s := awaitingReplies (transmitting (queued .fetch 0 r) false)
      s.memb.query = some { peer := 5, placed := some { seq := 0, since := 0 } } ∧
      s.recon.phase = .awaitingPart { seq := 0, since := 0 } 0 ∧
      s.fetch.slots[(0 : Fin 4)] = .awaiting 0x0040 5 { seq := 0, since := 0 } :=
  ⟨fun _ _ => ⟨rfl, _, rfl, rfl, rfl, by simp [queued, FrameKind.cls]⟩, fun _ => ⟨rfl, rfl, rfl⟩⟩

/-- A requester waits for room, for a job of the Responder. -/
def awaitingRoom (r : Requester) (k : JobKind) (v : Option Service) : State :=
  { station .active with
    line := { Line.cleared with waiting := [r] }
    memb := { Membership.cleared with query := some { peer := 5, placed := none } }
    recon := { queue := [{ peer := 5, bucket := 0, attempts := 1 }], phase := .waitingRoom }
    fetch := { FetchUnit.cleared with slots := (Vector.replicate 4 .free).set 0 (.waitingRoom 0x0040 5 ⟨6, 5⟩) }
    resp := { jobs := [{ peer := 5, echo := 7, kind := k }], service := v } }

/-- A bucket with 37 shared entries. -/
def fullBucket (s : State) : State :=
  { s with dir := { s.dir with entries := (List.range 37).map fun n => { oneEntry with key := BitVec.ofNat 16 (64 * n + 64) } } }

/-- A part of 37 entries lists 36, without LAST, and its job goes to the tail with the last key listed (R148, R151). -/
theorem test_step_partOf36 :
    let t := after .waitingFramePlaced (fullBucket (awaitingRoom .reply (.bucketReply 0 0 none) (some .ready)))
    (t.line.txq.map fun f => (f.flags, f.payload.length)) = [(0, 256), (1, 11)] ∧ t.resp.jobs = [] := by decide +kernel

/-- A NEWS offered while a placer waits comes after it (R95). -/
theorem test_step_newsWaits :
    ((offerNews (record 6) (awaitingRoom (.fetch 0) .profile (some .ready))).line.txq.map fun f => (f.kind, f.seq)) =
      [(.fetch, 0), (.news, 1)] := by decide +kernel

theorem test_meets_WaitingFramesArePlaced :
    (∀ r k v, Placing (awaitingRoom r k v) ∧
      (awaitingRoom r k v).line.waiting = r :: [] ∧ (awaitingRoom r k v).line.txq.length < 16 ∧
      (awaitingRoom r k v).fetch.slots[(0 : Fin 4)] = .waitingRoom 0x0040 5 ⟨6, 5⟩ ∧
      (awaitingRoom r k v).memb.query = some { peer := 5, placed := none } ∧
      (awaitingRoom r k v).recon.queue = { peer := 5, bucket := 0, attempts := 1 } :: [] ∧
      (awaitingRoom r k v).resp.jobs = [{ peer := 5, echo := 7, kind := k }] ∧
      (awaitingRoom r k v).resp.service = v) ∧
    (found (awaitingRoom .reply .profile none) 0 none).length ≤ 36 ∧
    ¬ (found (fullBucket (awaitingRoom .reply .profile none)) 0 none).length ≤ 36 ∧
    (∀ r, ¬ Room (awaitingRoom r .profile none) (awaitingRoom r .profile none).line ∧
      (awaitingRoom r .profile none).line.txq.length + (awaitingRoom r .profile none).line.waiting.length < 16) ∧
    (let s := { awaitingRoom .reply .profile none with line := Line.cleared }
     Room s s.line ∧ s.memb.query = some { peer := 5, placed := none } ∧
     s.recon.queue = { peer := 5, bucket := 0, attempts := 1 } :: [] ∧
     s.fetch.slots[(0 : Fin 4)] = .waitingRoom 0x0040 5 ⟨6, 5⟩ ∧ ∀ t ∈ s.line.txq, t.kind ≠ .summary) :=
  ⟨fun _ _ _ => ⟨⟨⟨rfl, rfl⟩, Or.inr rfl⟩, rfl, Nat.zero_lt_succ 15, rfl, rfl, rfl, rfl, rfl⟩, by decide +kernel,
   by decide +kernel, fun _ => ⟨fun h => (nomatch h.2.1), by simp [awaitingRoom, Line.cleared]⟩,
   ⟨⟨⟨rfl, rfl⟩, Or.inr rfl⟩, rfl, by decide⟩, rfl, rfl, rfl, nofun⟩

/-! ## The takings -/

/-- A frame at the front of the Receive Queue waits for its block. -/
theorem waits_heard {s : State} {f : Frame} {k : FrameKind} (hs : Up s) (hk : f.kind = some k) :
    Waits (heard f s) k [] f [] := ⟨hs, rfl, hk, nofun⟩

/-- The fetch law of a station that fetches nothing. -/
theorem fetchLaw_idle {s : State} (hw : s.fetch.wants = []) (hs : s.fetch.slots = Vector.replicate 4 .free) : FetchLaw s where
  wanted := by rw [hw]; exact List.nodup_nil
  held i k h := by rw [hs] at h; simp [FetchSlot.key] at h
  requested w h := by rw [hw] at h; cases h
  distinct i j k h := by rw [hs] at h; simp [FetchSlot.key] at h
  settled _ _ w h := by rw [hw] at h; cases h

/-- The small station with a PRESENT station 5. -/
def withPresent (q : StationState) : State := withPeer presentPeer (station q)

theorem test_meets_UnusedFramesAreDiscarded :
    Waits (heard (newsFrame (record 6)) (station .active)) .news [] (newsFrame (record 6)) [] ∧
    Unused .news (peerOf (heard (newsFrame (record 6)) (station .active)) 5).state ∧
    Unused .profile .present ∧ Unused .profileQuery .silent ∧ ¬ Unused .profileQuery .duplicate ∧
    (ForBlock .fetch (bareFrame 5) ∧ (bareFrame 5).kind ≠ some .fetch ∧
      (heard (bareFrame 5) (station .active)).line.rxq = [] ++ bareFrame 5 :: []) ∧
    ∀ x ∈ (heard (bareFrame 5) (station .active)).line.rxq, ¬ ForBlock .news x := by
  refine ⟨waits_heard up_active rfl, by show (peerOf (station .active) 5).state ≠ _; rw [peers_station]; decide, nofun,
    Or.inr rfl, by simp [Unused], ⟨Or.inr ⟨⟨_, rfl, Or.inr (Or.inr rfl)⟩, Or.inl rfl⟩, by decide, rfl⟩, fun x hx => ?_⟩
  obtain rfl : x = bareFrame 5 := by simpa [heard] using hx
  rintro (h | ⟨_, h | h | h⟩) <;> exact absurd h (by decide)

/-- The Responder takes the older request first, whatever its kind (R86). -/
theorem test_step_responderOrder :
    (after .fetchTaken (heard (bareFrame 5) (station .active))).line.rxq = [bareFrame 5] := by decide +kernel

/-- A NEWS of a record from the PRESENT station 5, on a small station changed by `f`. -/
def newsAt (r : Record) (f : State → State) : State := heard (newsFrame r) (f (withPresent .active))

theorem newsOf_newsAt {r : Record} {f : State → State} (hu : Up (f (withPresent .active)))
    (hm : (f (withPresent .active)).memb = (withPresent .active).memb)
    (hf : (f (withPresent .active)).fetch = FetchUnit.cleared) (hp : parseRecord (recordBytes r) = some r) :
    NewsOf (newsAt r f) [] (newsFrame r) [] r :=
  ⟨waits_heard hu rfl, by show (peerOf (f (withPresent .active)) 5).state = _; unfold peerOf; simp only [hm]; rfl, hp,
   fetchLaw_idle (by show (f _).fetch.wants = _; rw [hf]; rfl) (by show (f _).fetch.slots = _; rw [hf]; rfl)⟩

/-- A record of a LOCAL key, and one of an OWNED key of another station than its origin. -/
def localRecord : Record := { record 6 with key := 0x3000 }
def foreignRecord : Record := { record 6 with key := 0x1004 }

theorem test_meets_ArrivalsAreDropped :
    (Waits (heard { newsFrame (record 6) with payload := [1] } (station .active)) .news [] { newsFrame (record 6) with payload := [1] } [] ∧
      parseRecord [1] = none) ∧
    (NewsOf (newsAt localRecord id) [] (newsFrame localRecord) [] localRecord ∧ Malformed (newsAt localRecord id) localRecord) ∧
    (NewsOf (newsAt foreignRecord id) [] (newsFrame foreignRecord) [] foreignRecord ∧
      Foreign (newsAt foreignRecord id) foreignRecord) ∧
    NewsOf (newsAt (record 5) withEntry) [] (newsFrame (record 5)) [] (record 5) ∧
    ¬ Malformed (newsAt (record 5) withEntry) (record 5) ∧ ¬ Foreign (newsAt (record 5) withEntry) (record 5) ∧
    Stale (newsAt (record 5) withEntry) (record 5) := by
  refine ⟨⟨waits_heard up_active rfl, by decide +kernel⟩,
    ⟨newsOf_newsAt up_active rfl rfl (by decide +kernel), ?_⟩,
    ⟨newsOf_newsAt up_active rfl rfl (by decide +kernel), ?_⟩,
    newsOf_newsAt up_active rfl rfl (by decide +kernel), ?_, ?_, oneEntry, ?_, ?_⟩
  · unfold Malformed; decide +kernel
  · unfold Foreign; decide +kernel
  · unfold Malformed; decide +kernel
  · unfold Foreign; decide +kernel
  · decide +kernel
  · decide +kernel

/-- The slot of key 0040h holds a record, and perhaps a follower. -/
def keySlot (n : Counter) (g : Option Record) (s : State) : State :=
  withSlot { slotOf .waitStore (record n) with follower := g } (withEntry s)

theorem test_meets_ArrivalsAreAdmitted :
    (∀ n g, NewsOf (newsAt (record 7) (keySlot n g)) [] (newsFrame (record 7)) [] (record 7)) ∧
    ¬ Malformed (newsAt (record 7) (keySlot 6 none)) (record 7) ∧ ¬ Foreign (newsAt (record 7) (keySlot 6 none)) (record 7) ∧
    (¬ ∃ e, lookup (newsAt (record 7) (keySlot 6 none)) 0x0040 = some e ∧
      beats (newsAt (record 7) (keySlot 6 none)) 0x0040 ⟨7, 5⟩ e.stamp = false) ∧
    beats (newsAt (record 7) (keySlot 6 none)) 0x0040 ⟨7, 5⟩ ⟨6, 5⟩ = true ∧
    beats (newsAt (record 7) (keySlot 7 none)) 0x0040 ⟨7, 5⟩ ⟨7, 5⟩ = false ∧
    (NewsOf (newsAt (record 7) withEntry) [] (newsFrame (record 7)) [] (record 7) ∧
      LowestFree (newsAt (record 7) withEntry) 0) ∧
    NewsOf (newsAt (record 7) id) [] (newsFrame (record 7)) [] (record 7) ∧
    lookup (newsAt (record 7) id) 0x0040 = none ∧
    (newsAt (record 7) id).dir.entryCount + (newsAt (record 7) id).dir.reservations < 1024 := by
  refine ⟨fun _ _ => newsOf_newsAt up_active rfl rfl (by decide +kernel), ?_, ?_, ?_, by decide +kernel, by decide +kernel,
    ⟨newsOf_newsAt up_active rfl rfl (by decide +kernel), rfl, nofun⟩,
    newsOf_newsAt up_active rfl rfl (by decide +kernel), by decide +kernel, by decide +kernel⟩
  · unfold Malformed; decide +kernel
  · unfold Foreign; decide +kernel
  · rintro ⟨e, he, hb⟩
    rw [show lookup (newsAt (record 7) (keySlot 6 none)) 0x0040 = some oneEntry by decide +kernel] at he
    cases he
    revert hb
    decide +kernel

/-- A full directory, and four busy slots of another key. -/
def fullDirectory (s : State) : State := { s with dir := { s.dir with entryCount := 1024 } }
def fullSlots (s : State) : State :=
  { s with upd := { s.upd with slots := Vector.replicate 4 (some (slotOf .waitStore { record 6 with key := 0x0041 })) } }

theorem test_meets_ArrivalsWithoutASlot :
    (NewsOf (newsAt (record 7) fullDirectory) [] (newsFrame (record 7)) [] (record 7) ∧
      lookup (newsAt (record 7) fullDirectory) 0x0040 = none ∧
      1024 ≤ (newsAt (record 7) fullDirectory).dir.entryCount + (newsAt (record 7) fullDirectory).dir.reservations) ∧
    NewsOf (newsAt (record 7) fullSlots) [] (newsFrame (record 7)) [] (record 7) ∧
    (∀ (j : Fin 4) (y : Slot), (newsAt (record 7) fullSlots).upd.slots[j] = some y → y.record.key ≠ 0x0040) ∧
    (∀ i : Fin 4, (newsAt (record 7) fullSlots).upd.slots[i] ≠ none) := by
  refine ⟨⟨newsOf_newsAt up_active rfl rfl (by decide +kernel), by decide +kernel, by decide +kernel⟩,
    newsOf_newsAt up_active rfl rfl (by decide +kernel), fun j y h => ?_, fun i => ?_⟩
  · simp [newsAt, heard, fullSlots] at h
    subst h
    decide
  · simp [newsAt, heard, fullSlots]

/-- The law of a station with one Want entry, held by fetch slot 0 if REQUESTED. -/
theorem fetchLaw_one {s : State} {w : Want} {f : FetchSlot} (hw : s.fetch.wants = [w])
    (hs : s.fetch.slots = (Vector.replicate 4 .free).set 0 f)
    (hf : (w.requested = true ∧ f.key = some w.key ∧ f.peer = some w.source) ∨
      (w.requested = false ∧ f = .free ∧ ¬ Active s)) : FetchLaw s := by
  have h0 : s.fetch.slots[(0 : Fin 4)] = f := by rw [hs]; rfl
  have hn : ∀ i : Fin 4, i ≠ 0 → s.fetch.slots[i] = .free := by
    intro i hi
    rw [hs]
    fin_cases i
    · exact absurd rfl hi
    all_goals rfl
  have hb : ∀ (i : Fin 4) (k : Key), s.fetch.slots[i].key = some k → i = 0 := by
    intro i k h
    by_contra hi
    rw [hn i hi] at h
    cases h
  refine ⟨by rw [hw]; simp, fun i k h => ?_, fun x hx hr => ?_, fun i j k h h' => ?_, fun ha _ x hx => ?_⟩
  · obtain rfl := hb i k h
    rw [h0] at h
    rcases hf with ⟨h1, h2, h3⟩ | ⟨_, rfl, _⟩
    · rw [h2] at h
      exact ⟨w, by rw [hw]; simp, Option.some.inj h, h1, by rw [h0]; exact h3⟩
    · cases h
  · rw [hw, List.mem_singleton] at hx
    subst hx
    rcases hf with ⟨_, h2, _⟩ | ⟨h1, _, _⟩
    · exact ⟨0, by rw [h0]; exact h2⟩
    · rw [h1] at hr; cases hr
  · rw [hb i k h, hb j k h']
  · rw [hw, List.mem_singleton] at hx
    subst hx
    rcases hf with ⟨h1, _, _⟩ | ⟨_, _, h3⟩
    · exact h1
    · exact absurd ha h3

/-- A WAITING Want entry of key 0040h at a LISTENING station. -/
def wantWaits : State :=
  { withPresent .listening with
    fetch :=
      { wants := [{ key := 0x0040, stamp := ⟨6, 5⟩, source := 5, attempts := 0, requested := false }]
        slots := (Vector.replicate 4 .free).set 0 .free } }

theorem fetchLaw_awaiting (q : StationState) : FetchLaw (awaitingReplies (withPresent q)) :=
  fetchLaw_one rfl rfl (Or.inl ⟨rfl, rfl, rfl⟩)

theorem fetchLaw_wantWaits : FetchLaw wantWaits :=
  fetchLaw_one rfl rfl (Or.inr ⟨rfl, rfl, fun h => nomatch h.2⟩)

theorem test_meets_WantListAdds :
    ((station .mute).ctl.st = .mute ∧ (station .active).ctl.st ≠ .mute ∧
      (∀ w ∈ (station .active).fetch.wants, w.key ≠ 0x0040) ∧ (station .active).fetch.wants.length < 128) ∧
    128 ≤ (List.replicate 128 ({ key := 0x0041, stamp := ⟨6, 5⟩, source := 5, attempts := 0, requested := true } : Want)).length ∧
    (FetchLaw wantWaits ∧ (∃ w, wantWaits.fetch.wants = [] ++ w :: [] ∧ w.key = 0x0040 ∧ w.requested = false ∧
      beats wantWaits 0x0040 ⟨7, 5⟩ w.stamp = true ∧ beats wantWaits 0x0040 ⟨6, 5⟩ w.stamp = false)) ∧
    FetchLaw (awaitingReplies (withPresent .active)) ∧
    (awaitingReplies (withPresent .active)).fetch.slots[(0 : Fin 4)].key = some 0x0040 ∧
    beats (awaitingReplies (withPresent .active)) 0x0040 ⟨7, 5⟩ ⟨6, 5⟩ = true :=
  ⟨⟨rfl, nofun, nofun, by decide⟩, by decide +kernel,
   ⟨fetchLaw_wantWaits, _, rfl, rfl, rfl, by decide +kernel, by decide +kernel⟩, fetchLaw_awaiting _, rfl, by decide +kernel⟩

/-- A SUPPLY from station 5. -/
def supplyFrame (flags : BitVec 4) (payload : List Byte) : Frame :=
  { code := 8, flags := flags, source := 5, dest := 3, seq := 0, payload := payload }

/-- The record of key 0040h with the largest value. -/
def longRecord : Record := { record 6 with value := List.replicate 240 0 }

theorem test_meets_SuppliesSettleFetches :
    (∀ fl p, Waits (heard (supplyFrame fl p) (awaitingReplies (withPresent .active))) .supply [] (supplyFrame fl p) []) ∧
    (∀ fl p, (peerOf (heard (supplyFrame fl p) (awaitingReplies (withPresent .active))) 5).state = .present) ∧
    (supplyFrame 2 [0]).isAbsent = true ∧ parseRecord ((supplyFrame 0 [0]).payload.drop 1) = none ∧
    (supplyFrame 2 (0 :: be16 0x0040)).payload = 0 :: be16 0x0040 ∧
    (supplyFrame 0 (0 :: recordBytes longRecord)).isAbsent = false ∧ longRecord.value.length ≤ 240 ∧
    (0xFE : Byte).getLsbD 0 = longRecord.tomb ∧
    (awaitingReplies (withPresent .active)).fetch.slots[(0 : Fin 4)] = .awaiting 0x0040 5 { seq := 0, since := 0 } ∧
    (∀ (i : Fin 4) p, (withPresent .active).fetch.slots[i] = .awaiting 0x0040 5 p → p.seq ≠ 0) := by
  refine ⟨fun _ _ => waits_heard up_active rfl, fun _ _ => rfl, by decide, by decide, rfl, by decide, by decide +kernel,
    by decide, rfl, fun i p h => ?_⟩
  simp [withPresent, withPeer, station, State.reset, FetchUnit.cleared] at h

/-- A SUMMARY from station 5 with a clock, the PARTIAL flag and a count. -/
def summaryFrame (flag : Bool) (count : Nat) : Frame :=
  { code := 1, flags := 0, source := 5, dest := 0x3F, seq := 0
    payload := summaryPayload 7 0 flag count (List.replicate 64 1) }

theorem test_meets_SummariesAreCompared :
    (∀ fl n q, q = .listening ∨ q = .active ∨ q = .mute →
      Waits (heard (summaryFrame fl n) (withPresent q)) .summary [] (summaryFrame fl n) []) ∧
    (∀ fl n q, (peerOf (heard (summaryFrame fl n) (withPresent q)) 5).state = .present) ∧
    1024 < (wordAt (summaryFrame false 1025).payload 10).toNat ∧ (wordAt (summaryFrame false 1024).payload 10).toNat = 1024 ∧
    (wordAt (summaryFrame false 0).payload 10).toNat = 0 ∧ (byteAt (summaryFrame true 1).payload 8).getLsbD 0 = true ∧
    (byteAt (summaryFrame false 1).payload 8).getLsbD 0 = false ∧
    (awaitingReplies (withPresent .active)).recon.phase ≠ .idle :=
  ⟨fun _ _ q h => waits_heard (up_station q h) rfl, fun _ _ _ => rfl, by decide +kernel, by decide +kernel,
   by decide +kernel, by decide +kernel, by decide +kernel, nofun⟩

/-- A PROFILE from station 5. -/
def profileFrame : Frame :=
  { code := 4, flags := 0, source := 5, dest := 3, seq := 0, payload := List.replicate 93 0 }

/-- The small station with a JOINING station 5. -/
def withJoining (q : StationState) : State := withPeer { Peer.cleared with state := .joining } (station q)

theorem test_meets_ProfilesDecideCompatibility :
    Waits (heard profileFrame (withJoining .active)) .profile [] profileFrame [] ∧
    (peerOf (heard profileFrame (withJoining .active)) 5).state = .joining ∧
    (withJoining .active).memb.query = none ∧
    ∃ q, (awaitingReplies (withJoining .active)).memb.query = some q ∧ q.peer = profileFrame.source :=
  ⟨waits_heard up_active rfl, rfl, rfl, _, rfl, rfl⟩

/-- A part of bucket 0 from station 5. -/
def partFrame (flags : BitVec 4) (part : Byte) : Frame :=
  { code := 6, flags := flags, source := 5, dest := 3, seq := 0, payload := [0, 0, part, 0] }

theorem test_meets_BucketPartsAreCompared :
    ((0x0040 : Key).extractLsb' 0 6 = 0 ∧ policyOf (station .active) 0x0040 ≠ .localOnly ∧
      lookup (withEntry (station .active)) 0x0040 = some oneEntry ∧ lookup (station .active) 0x0040 = none) ∧
    (31 < (0x20 : Byte).toNat ∧ policyOf (station .active) 0x3000 = .localOnly) ∧
    (∀ fl n, Waits (heard (partFrame fl n) (awaitingReplies (withPresent .active))) .bucketReply [] (partFrame fl n) []) ∧
    (withPresent .active).recon.phase = .idle ∧
    (awaitingReplies (withPresent .active)).recon.phase = .awaitingPart { seq := 0, since := 0 } 0 ∧
    (awaitingReplies (withPresent .active)).recon.queue = { peer := 5, bucket := 0, attempts := 1 } :: [] ∧
    (∀ fl n, (peerOf (heard (partFrame fl n) (awaitingReplies (withPresent .active))) 5).state = .present) ∧
    (∀ fl n, byteAt (partFrame fl n).payload 0 = 0 ∧ byteAt (partFrame fl n).payload 1 = 0 ∧
      (byteAt (partFrame fl n).payload 2) = n ∧
      (partFrame fl n).payload.length = 4 + 7 * (byteAt (partFrame fl n).payload 3).toNat) ∧
    (partFrame 0 0).isLast = false ∧ (partFrame 1 0).isLast = true ∧ 0 < (1 : Byte).toNat :=
  ⟨⟨by decide, by decide +kernel, by decide +kernel, by decide +kernel⟩, ⟨by decide, by decide +kernel⟩,
   fun _ _ => waits_heard up_active rfl, rfl, rfl, rfl, fun _ _ => rfl, fun _ _ => ⟨rfl, rfl, rfl, rfl⟩, by decide, by decide,
   by decide⟩

/-- A request from station 5. -/
def requestFrame (code : BitVec 4) (payload : List Byte) : Frame :=
  { code := code, flags := 0, source := 5, dest := 3, seq := 9, payload := payload }

/-- Jobs wait behind the one in service. -/
def serving (jobs : List Job) (s : State) : State := { s with resp := { jobs := jobs, service := some .ready } }

theorem test_meets_RequestsBecomeJobs :
    (∀ q p, q = .listening ∨ q = .active ∨ q = .mute →
      Waits (heard (requestFrame 7 p) (withPresent q)) .fetch [] (requestFrame 7 p) [] ∧
      Waits (heard (requestFrame 5 p) (withPresent q)) .bucketQuery [] (requestFrame 5 p) [] ∧
      Waits (heard (requestFrame 3 p) (withPresent q)) .profileQuery [] (requestFrame 3 p) []) ∧
    (¬ Unused .fetch PeerState.present ∧ ¬ Unused .bucketQuery PeerState.present ∧ ¬ Unused .profileQuery PeerState.present) ∧
    ((requestFrame 7 (fetchPayload 0x0040 ⟨6, 5⟩)).payload.length = 7 ∧ (byteAt [0x3F] 0).toNat < 64) ∧
    (serving [{ peer := 5, echo := 0, kind := .profile }] (station .active)).resp.service ≠ none ∧
    (List.replicate 8 ({ peer := 6, echo := 0, kind := .profile } : Job)).length = 8 ∧
    ((station .active).resp.service = none ∧ (station .active).resp.jobs = []) ∧
    (policyOf (withEntry (station .active)) 0x0040 ≠ .localOnly ∧
      lookup (withEntry (station .active)) 0x0040 = some oneEntry) ∧
    (policyOf (station .active) 0x3000 = .localOnly ∧ lookup (station .active) 0x0040 = none) ∧
    (Room (station .active) (station .active).line ∧ ¬ Placing (station .mute)) ∧
    ((requestFrame 7 [0]).payload.length ≠ 7 ∧ 64 ≤ (byteAt (requestFrame 5 [0x40]).payload 0).toNat) ∧
    (∀ r k, Placing (awaitingRoom r k none) ∧ (awaitingRoom r k none).resp.jobs = { peer := 5, echo := 7, kind := k } :: [] ∧
      ¬ Room (awaitingRoom r k none) (awaitingRoom r k none).line) :=
  ⟨fun q _ h => ⟨waits_heard (up_station q h) rfl, waits_heard (up_station q h) rfl, waits_heard (up_station q h) rfl⟩,
   ⟨fun h => h rfl, fun h => h rfl, fun h => by rcases h with h | h <;> cases h⟩, ⟨by decide, by decide⟩, nofun,
   by decide, ⟨rfl, rfl⟩, ⟨by decide +kernel, by decide +kernel⟩, ⟨by decide +kernel, by decide +kernel⟩,
   ⟨⟨⟨⟨rfl, rfl⟩, Or.inr rfl⟩, rfl, by decide⟩, fun h => h.2.elim nofun nofun⟩, ⟨by decide, by decide⟩,
   fun _ _ => ⟨⟨⟨rfl, rfl⟩, Or.inr rfl⟩, rfl, fun h => (nomatch h.2.1)⟩⟩

/-! ## The timers -/

/-- The small station with its summary timer running. -/
def timed (txq : List TxFrame) : State :=
  { station .active with summ := { timer := some 0 }, line := { Line.cleared with txq := txq } }

/-- A JOINING station 5 with some attempts, and a query to station 6 that awaits its reply. -/
def querying (n : Nat) (q : StationState) : State :=
  { withPeer { Peer.cleared with state := .joining, attempts := n } (station q) with
    memb :=
      { (withPeer { Peer.cleared with state := .joining, attempts := n } (station q)).memb with
        query := some { peer := 6, placed := some { seq := 0, since := 0 } } } }

/-- Of the peers, station 5 alone may be JOINING. -/
theorem peers_querying (n : Nat) (q : StationState) (p : Station) (h : (peerOf (querying n q) p).state = .joining) :
    p = 5 := by
  by_contra hp
  have h5 : ¬ (5 : Nat) = p.toNat := fun e => hp (BitVec.eq_of_toNat_eq e.symm)
  simp [peerOf, querying, withPeer, station, State.reset, Membership.cleared, h5, Peer.cleared] at h

theorem test_meets_TimersRunOut :
    ((∀ l, Active (timed l) ∧ (timed l).summ.timer ≠ none) ∧ (∃ t ∈ (timed [queued .summary 0 none]).line.txq, t.kind = .summary) ∧
      (∀ t ∈ (timed []).line.txq, t.kind ≠ .summary) ∧ Room (timed []) (timed []).line) ∧
    ((∀ n, Up (querying n .active)) ∧ (∀ n q, (querying n q).memb.query = some { peer := 6, placed := some { seq := 0, since := 0 } }) ∧
      (∀ p, (peerOf (querying 3 .active) p).state = .joining → 3 ≤ (peerOf (querying 3 .active) p).attempts) ∧
      (peerOf (querying 2 .active) 5).state = .joining ∧ (peerOf (querying 2 .active) 5).attempts < 3 ∧
      (∀ p', p'.toNat < (5 : Station).toNat → (peerOf (querying 2 .active) p').state = .joining →
        3 ≤ (peerOf (querying 2 .active) p').attempts) ∧
      Room (querying 2 .active) (givenUp .profileQuery (querying 2 .active).line)) ∧
    (Up (awaitingReplies (withPresent .active)) ∧
      (awaitingReplies (withPresent .active)).recon.queue = { peer := 5, bucket := 0, attempts := 1 } :: [] ∧
      (peerOf (awaitingReplies (withPresent .active)) 5).isPartial = false ∧
      (peerOf (awaitingReplies (withPeer { presentPeer with isPartial := true } (station .active))) 5).isPartial = true ∧
      Room (awaitingReplies (withPresent .active)) (givenUp .bucketQuery (awaitingReplies (withPresent .active)).line)) ∧
    FetchLaw (awaitingReplies (withPresent .active)) ∧
    (awaitingReplies (withPresent .active)).fetch.slots[(0 : Fin 4)] = .awaiting 0x0040 5 { seq := 0, since := 0 } ∧
    Room (awaitingReplies (withPresent .active)) (givenUp (.fetch 0) (awaitingReplies (withPresent .active)).line) := by
  have room : ∀ (q : StationState) (l : Line), l.txq = [] → l.waiting = [] → Room (station .active) l :=
    fun _ l h h' => ⟨⟨⟨rfl, rfl⟩, Or.inr rfl⟩, h', by rw [h]; decide⟩
  refine ⟨⟨fun _ => ⟨⟨⟨rfl, rfl⟩, rfl⟩, nofun⟩, by decide, nofun, room .active _ rfl rfl⟩,
    ⟨fun _ => up_active, fun _ _ => rfl, fun p h => ?_, rfl, by decide, fun p' hlt h => ?_, room .active _ rfl rfl⟩,
    ⟨up_active, rfl, rfl, rfl, room .active _ rfl rfl⟩, fetchLaw_awaiting _, rfl, room .active _ rfl rfl⟩
  · obtain rfl := peers_querying 3 _ p h
    decide
  · obtain rfl := peers_querying 2 _ p' h
    exact absurd hlt (lt_irrefl _)

theorem test_meets_PeerLimitsExpire :
    Up (withPresent .active) ∧ (peerOf (withPresent .active) 5).state = .present ∧
    (peerOf (withJoining .active) 5).state ≠ .absent ∧ (peerOf (withJoining .active) 5).state ≠ .present ∧
    (peerOf (withPeer { Peer.cleared with state := .duplicate } (station .active)) 5).state = .duplicate :=
  ⟨up_active, rfl, by decide, by decide, rfl⟩

/-! ## The store -/

/-- A READ, a MARK waiting. -/
def withRead (s : State) : State :=
  { s with store := { s.store with reads := [{ owner := .host, loc := ⟨0, 1⟩, after := 1 }] } }
def withMark (s : State) : State := { s with store := { s.store with mark := some (.eraseBegun, 1) } }

/-- No APPEND waits at the small station. -/
theorem noAppend_station (q : StationState) : NoAppend (station q) :=
  ⟨fun i x h => by simp [station, State.reset, UpdateUnit.cleared] at h, fun c h => nomatch h.1⟩

theorem storeFree_station {s : State} (ho : s.store.op = none) (he : s.store.erase = none) : StoreFree s :=
  ⟨ho, fun e h => by rw [he] at h; cases h⟩

/-- A store with some sectors, and a slot that waits with a record of 2 granules. -/
def waitingSlot (l : List Sector) (c : Compaction) : State :=
  withSlot (slotOf .waitStore (record 6))
    { station .active with store := { Store.cleared with sectors := l, comp := c } }

/-- The slot is the only one, and the earliest. -/
theorem earliest_waitingSlot (l : List Sector) (c : Compaction) :
    Earliest (waitingSlot l c) 0 (slotOf .waitStore (record 6)) := by
  refine ⟨rfl, rfl, fun j y h _ => ?_⟩
  have : j = 0 := by
    by_contra hj
    fin_cases j
    · exact hj rfl
    all_goals cases h
  subst this
  cases h
  exact Or.inr ⟨rfl, le_refl _⟩

theorem turn_waitingSlot (l : List Sector) (c : Compaction) :
    Turn (waitingSlot l c) (.slot 0) (record 6) 2 :=
  Or.inr
    ⟨fun _ _ ⟨⟨_, he, _⟩, _⟩ => (nomatch he), rfl,
     Or.inl ⟨0, _, rfl, earliest_waitingSlot l c, rfl, rfl, fun _ h => nomatch h.1⟩⟩

/-- No ERASE is suspended, so none owes a grant. -/
theorem not_caused {s : State} (h : s.store.erase = none) (i : Fin 4) (x : Slot) : ¬ Caused s i x :=
  fun ⟨⟨e, he, _⟩, _⟩ => by rw [h] at he; cases he

/-- An APPEND has suspended the ERASE, and a READ has been placed after it. -/
def causing (l : List Sector) : State :=
  withRead
    { waitingSlot l (.erasing 1) with
      store :=
        { (waitingSlot l (.erasing 1)).store with
          erase := some { sector := 1, suspensions := 1, phase := .suspended, owes := true } } }

theorem caused_causing (l : List Sector) : Caused (causing l) 0 (slotOf .waitStore (record 6)) := by
  refine ⟨⟨_, rfl, rfl, rfl⟩, (earliest_waitingSlot l (.erasing 1)), fun r rest h => ?_⟩
  cases h
  exact Nat.zero_lt_one

/-- The APPEND that caused the suspension is granted before the READ, and the READ after it (R64). -/
theorem test_step_causeFirst :
    let s := causing [sector .openForAppend 10 0, sector .erasing 0 0]
    (after .readGrant s).store.op = none ∧ (after .appendGrant s).store.op.isSome ∧ (after .appendGrant s).store.reads.length = 1 := by
  decide +kernel

theorem test_meets_TheArbiterGrantsInOrder :
    (Up (withRead (station .active)) ∧ StoreFree (withRead (station .active)) ∧
      (withRead (station .active)).store.reads = { owner := .host, loc := ⟨0, 1⟩, after := 1 } :: [] ∧
      ∀ i x, ¬ Caused (withRead (station .active)) i x) ∧
    (Up (causing []) ∧ StoreFree (causing []) ∧ Caused (causing []) 0 (slotOf .waitStore (record 6))) ∧
    (StoreFree (waitingSlot [] .idle) ∧ (waitingSlot [] .idle).store.reads = [] ∧ ¬ NoAppend (waitingSlot [] .idle)) ∧
    (StoreFree (withMark (station .active)) ∧ NoAppend (withMark (station .active)) ∧
      (withMark (station .active)).store.mark = some (.eraseBegun, 1)) ∧
    (StoreFree (withErase .waiting 0 (station .active)) ∧ StoreFree (withErase .suspended 0 (station .active)) ∧
      NoAppend (withErase .waiting 0 (station .active))) ∧
    ¬ StoreFree (withErase .running 0 (station .active)) ∧
    (∀ n, (withErase .running n (withRead (station .active))).store.erase = some { sector := 1, suspensions := n, phase := .running }) ∧
    ∀ n, (withErase .running n (withRead (station .active))).store.reads ≠ [] :=
  ⟨⟨up_active, storeFree_station rfl rfl, rfl, not_caused rfl⟩,
   ⟨up_active, ⟨rfl, fun e h => by cases h; exact Or.inr rfl⟩, caused_causing _⟩,
   ⟨storeFree_station rfl rfl, rfl, fun h => h.1 0 _ rfl rfl⟩,
   ⟨storeFree_station rfl rfl, noAppend_station .active, rfl⟩,
   ⟨⟨rfl, fun e h => by cases h; exact Or.inl rfl⟩, ⟨rfl, fun e h => by cases h; exact Or.inr rfl⟩, noAppend_station .active⟩,
   fun h => (h.2 _ rfl).elim nofun nofun, fun _ => rfl, fun _ => nofun⟩

/-- A store with a copy that waits. -/
def waitingCopy (l : List Sector) (c : Compaction) : State :=
  { station .active with
    store := { Store.cleared with sectors := l, comp := c }
    upd := { UpdateUnit.cleared with copy := some { phase := .waitStore, record := record 6, source := ⟨1, 1⟩ } } }

theorem turn_waitingCopy (l : List Sector) (c : Compaction) : Turn (waitingCopy l c) .copy (record 6) 1 :=
  Or.inr
    ⟨not_caused rfl, rfl,
     Or.inr ⟨_, rfl, ⟨rfl, rfl⟩, rfl, rfl, Or.inr fun i x h => by simp [waitingCopy, UpdateUnit.cleared] at h⟩⟩

/-- It is the turn of the APPEND that caused a suspension, before a READ. -/
theorem turn_causing (l : List Sector) : Turn (causing l) (.slot 0) (record 6) 2 :=
  Or.inl ⟨0, _, rfl, caused_causing l, rfl, rfl⟩

theorem storeLaw_of {s : State} (hf : s.flash = []) (ho : countState s .openForAppend ≤ 1) : StoreLaw s where
  canonical := by unfold FlashLaw; rw [hf]; exact ⟨List.Pairwise.nil, nofun⟩
  opened := ho

theorem test_meets_AppendsArePlaced :
    let fits := waitingSlot [sector .openForAppend 253 0, sector .erased 0 0, sector .erased 0 0] .idle
    let opens := waitingSlot [sector .openForAppend 254 0, sector .erased 0 0, sector .erased 0 0] .idle
    (Up fits ∧ StoreFree fits ∧ Turn fits (.slot 0) (record 6) 2 ∧ StoreLaw fits ∧
      OpenAt fits 0 (sector .openForAppend 253 0) ∧ 1 + ((record 6).value.length + 15) / 16 ≤ 255 - 253) ∧
    (Turn opens (.slot 0) (record 6) 2 ∧ StoreLaw opens ∧ (∀ k y, OpenAt opens k y → 255 - y.used < 2) ∧
      2 ≤ erasedCount opens ∧ opens.store.sectors[1]? = some (sector .erased 0 0) ∧
      (∀ k y, opens.store.sectors[k]? = some y → y.state = .erased →
        (sector .erased 0 0).eraseCount.toNat < y.eraseCount.toNat ∨
          ((sector .erased 0 0).eraseCount = y.eraseCount ∧ 1 ≤ k))) ∧
    Turn (waitingCopy [sector .erased 0 0] (.copying 1 1)) .copy (record 6) 1 ∧
    (Turn (causing [sector .openForAppend 10 0]) (.slot 0) (record 6) 2 ∧ StoreFree (causing [sector .openForAppend 10 0])) := by
  refine ⟨⟨up_active, storeFree_station rfl rfl, turn_waitingSlot _ _, storeLaw_of rfl (by decide), ⟨rfl, rfl⟩, by decide⟩,
    ⟨turn_waitingSlot _ _, storeLaw_of rfl (by decide), fun k y h => ?_, by decide, rfl, fun k y h he => ?_⟩, turn_waitingCopy _ _,
    turn_causing _, rfl, fun e h => by cases h; exact Or.inr rfl⟩
  · rcases k with _ | _ | _ | k
    · cases h.1; decide
    · cases h.1; cases h.2
    · cases h.1; cases h.2
    · cases h.1
  · rcases k with _ | _ | _ | k
    · cases h; cases he
    · cases h; exact Or.inr ⟨rfl, le_refl _⟩
    · cases h; exact Or.inr ⟨rfl, by decide⟩
    · cases h

/-- No sector is OPEN. -/
theorem noneOpen {l : List Sector} (h : ∀ x ∈ l, x.state ≠ .openForAppend) {s : State} (hs : s.store.sectors = l) (k : Nat)
    (y : Sector) (n : Nat) (ho : OpenAt s k y) : 255 - y.used < n :=
  absurd ho.2 (h y (hs ▸ List.mem_of_getElem? ho.1))

theorem test_meets_AppendsWithoutAPlace :
    let full := [sector .full 255 9, sector .erased 0 0]
    let tight := [sector .full 255 255, sector .erased 0 0]
    (∀ c, StoreFree (waitingSlot full c) ∧ Turn (waitingSlot full c) (.slot 0) (record 6) 2 ∧ StoreLaw (waitingSlot full c) ∧
      (∀ k y, OpenAt (waitingSlot full c) k y → 255 - y.used < 2) ∧ erasedCount (waitingSlot full c) < 2) ∧
    isCompacting (waitingSlot full (.copying 0 1)) = true ∧ DeadGranule (waitingSlot full .idle) ∧
    isStalled (waitingSlot full (.stalled 0 1)) = true ∧
    (Turn (waitingSlot tight .idle) (.slot 0) (record 6) 2 ∧ ¬ DeadGranule (waitingSlot tight .idle)) ∧
    (∀ c, Turn (waitingCopy [] c) .copy (record 6) 1 ∧ StoreLaw (waitingCopy [] c) ∧ erasedCount (waitingCopy [] c) < 1 ∧
      CopyWaits (waitingCopy [] c) { phase := .waitStore, record := record 6, source := ⟨1, 1⟩ }) := by
  have one : ∀ s : State, s.store.sectors = [sector .full 255 9, sector .erased 0 0] →
      countState s .openForAppend ≤ 1 ∧ erasedCount s < 2 := by
    intro s h; unfold erasedCount countState; rw [h]; decide
  have none : ∀ s : State, s.store.sectors = [] → countState s .openForAppend ≤ 1 := by
    intro s h; unfold countState; rw [h]; decide
  refine ⟨fun c => ⟨storeFree_station rfl rfl, turn_waitingSlot _ _, storeLaw_of rfl (one _ rfl).1,
    fun k y => noneOpen (l := [sector .full 255 9, sector .erased 0 0]) (by decide) rfl k y 2, (one _ rfl).2⟩, rfl, ⟨_, List.mem_cons_self .., rfl, by decide⟩, rfl,
    ⟨turn_waitingSlot _ _, ?_⟩, fun c => ⟨turn_waitingCopy _ _, storeLaw_of rfl (none _ rfl), Nat.zero_lt_one, rfl, rfl⟩⟩
  rintro ⟨x, hx, hf, hl⟩
  simp [waitingSlot, withSlot] at hx
  rcases hx with rfl | rfl
  · exact absurd hl (by decide)
  · cases hf

theorem test_meets_CompactionFollowsTheStore :
    let low := waitingSlot [sector .full 255 9, sector .full 255 200] .idle
    let marked := waitingSlot [sector .full 255 9, { sector .full 255 9 with reclaim := true }] .idle
    (outOfSpace (withSlot (slotOf .storeWait (record 6)) (station .active)) = true ∧ (station .active).store.low = false ∧
      outOfSpace (station .active) = false) ∧
    (low.store.comp = .idle ∧ erasedCount low ≤ 2 ∧ DeadGranule low ∧
      (∀ y ∈ low.store.sectors, y.state = .full → y.reclaim = false) ∧ low.store.sectors[0]? = some (sector .full 255 9) ∧
      (∀ n y, n ≠ 0 → low.store.sectors[n]? = some y → y.state = .full →
        (sector .full 255 9).live < y.live ∨ ((sector .full 255 9).live = y.live ∧ (0 : Nat) < 0))) ∧
    (DeadGranule marked ∧ marked.store.sectors[1]? = some { sector .full 255 9 with reclaim := true } ∧
      (∀ n y, n < 1 → marked.store.sectors[n]? = some y → y.state = .full → y.reclaim = false)) ∧
    (liveOf (waitingSlot [] (.copying 0 1)) 0 = 0 ∧ (waitingSlot [] (.stalled 0 1)).store.comp = .stalled 0 1) ∧
    (Unchanged low low ∧ ¬ Unchanged low marked ∧ Unchanged (waitingSlot [] (.copying 0 1)) (waitingSlot [] (.copying 0 3))) ∧
    (let copying := waitingSlot [sector .full 255 9] (.copying 0 1)
     liveOf copying 0 ≠ 0 ∧ copying.upd.copy = none ∧ ¬ WalkReads copying ∧
     WalkReads (withOp (.read .compaction .blank) copying)) := by
  refine ⟨⟨by decide +kernel, rfl, by decide +kernel⟩,
    ⟨rfl, by decide, ⟨_, List.mem_cons_self .., rfl, by decide⟩, by decide, rfl, fun n y hn h _ => ?_⟩,
    ⟨⟨_, List.mem_cons_self .., rfl, by decide⟩, rfl, fun n y hn h _ => ?_⟩, ⟨rfl, rfl⟩,
    ⟨⟨rfl, fun _ => rfl, Or.inr (Or.inr rfl)⟩, fun h => absurd h.1 (by decide), rfl, fun _ => rfl, Or.inl ⟨_, _, _, rfl, rfl⟩⟩,
    Nat.succ_ne_zero 8, rfl, fun h => ?_, Or.inr ⟨_, rfl⟩⟩
  · rcases n with _ | _ | n
    · exact absurd rfl hn
    · cases h; exact Or.inl (by decide)
    · cases h
  · obtain rfl : n = 0 := by omega
    cases h
    rfl
  · rcases h with ⟨r, hr, _⟩ | ⟨f, hf⟩
    · cases hr
    · cases hf

/-- A READ of an owner ends with what it found. -/
def reading (o : Reader) (found : ImageRead) (s : State) : State := withOp (.read o found) s

theorem test_meets_ReadsAreAnswered :
    (∀ found, (reading .host found { station .active with host := { HostPort.cleared with request := some (.readRecord oneEntry) } }).host.request =
      some (.readRecord oneEntry)) ∧
    ((record 5).key = oneEntry.key ∧ (record 5).stamp = oneEntry.stamp ∧ (record 6).stamp ≠ oneEntry.stamp) ∧
    (∀ found, (reading .discarded found (station .active)).store.op = some (.read .discarded found)) ∧
    (let s := { station .active with
        resp := { jobs := [{ peer := 5, echo := 7, kind := .supply 0x0040 }], service := some (.reading oneEntry) } }
     (∀ found, (reading .responder found s).resp.jobs = [{ peer := 5, echo := 7, kind := .supply 0x0040 }] ∧
       Room (reading .responder found s) (reading .responder found s).line) ∧
     ¬ Room { s with ctl := { s.ctl with st := .mute } } s.line) :=
  ⟨fun _ => rfl, ⟨rfl, rfl, by decide⟩, fun _ => rfl, fun _ => ⟨rfl, ⟨⟨rfl, rfl⟩, Or.inr rfl⟩, rfl, Nat.zero_lt_succ 15⟩,
   fun h => by rcases h.1.2 with h | h <;> cases h⟩

/-- Compaction walks its victim, sector 0 at granule 1. -/
def walking (found : ImageRead) (s : State) : State :=
  withOp (.read .compaction found)
    { s with store := { s.store with sectors := [sector .reclaiming 255 2], comp := .copying 0 1 } }

theorem test_meets_TheWalkReadsTheVictim :
    (∀ found, (walking found (withEntry (station .active))).store.comp = .copying 0 1 ∧
      liveOf (walking found (withEntry (station .active))) 0 ≠ 0 ∧ (walking found (withEntry (station .active))).upd.copy = none ∧
      ∀ r ∈ (walking found (withEntry (station .active))).store.reads, r.owner ≠ .compaction) ∧
    (lookup (walking (.image (record 5)) (withEntry (station .active))) 0x0040 = some oneEntry ∧
      oneEntry.loc = { sector := 0, granule := 1 } ∧ oneEntry.stamp = (record 5).stamp ∧ oneEntry.stamp ≠ (record 6).stamp) ∧
    (withOp (.read .compaction .blank) { station .active with store := { Store.cleared with comp := .closing 0 } }).store.comp =
      .closing 0 :=
  ⟨fun _ => ⟨rfl, Nat.succ_ne_zero 1, rfl, nofun⟩, ⟨by decide +kernel, rfl, rfl, by decide⟩, rfl⟩

/-- The directory law of a station without entries whose slots hold keys that are valid. -/
theorem directoryLaw_empty {s : State} (hd : s.dir.entries = []) (hc : s.dir.entryCount = 0) (hs : s.dir.sharedCount = 0)
    (hk : s.dir.checks = Vector.replicate 64 0)
    (hu : ∀ (i : Fin 4) (x : Slot), s.upd.slots[i] = some x → slotKeysValid x) : DirectoryLaw s where
  ascending := by rw [hd]; exact List.Pairwise.nil
  valid e h := by rw [hd] at h; cases h
  count := by rw [hd, hc]; rfl
  shared := by rw [hd, hs]; rfl
  checks b := by simp [hk, bucketFold, hd]
  slots := hu

theorem slots_programmingSlot (i : Fin 4) (x : Slot) (h : programmingSlot.upd.slots[i] = some x) :
    i = 0 ∧ x = slotOf (.programming { sector := 0, granule := 11 }) (record 6) := by
  have : i = 0 := by
    by_contra hi
    fin_cases i
    · exact hi rfl
    all_goals cases h
  subst this
  cases h
  exact ⟨rfl, rfl⟩

/-- A place and an image, as programmed by the APPEND in flight. -/
abbrev here : Loc := { sector := 0, granule := 11 }

/-- The tests of a verify, byte by byte, as a computation. -/
theorem readsBack_of {m : Memory} {image : List Byte}
    (h : ((List.range image.length).all fun i => m.read (here.sector * 4096 + here.granule * 16 + i) == image.getD i 0) = true) :
    ReadsBack m here none image :=
  ⟨fun i hi => by simpa using List.all_eq_true.1 h i (List.mem_range.2 hi), nofun⟩

theorem test_meets_UpdatesCommit :
    programmingSlot.store.op = some (.append (.slot 0) here none (imageBytes (record 6))) ∧
    programmingSlot.upd.slots[(0 : Fin 4)] = some (slotOf (.programming here) (record 6)) ∧
    programmingSlot.ctl.softWait = false ∧
    ReadsBack (flashAfter here none (imageBytes (record 6)) [] programmingSlot) here none (imageBytes (record 6)) ∧
    DirectoryLaw programmingSlot ∧ FetchLaw programmingSlot ∧ here.sector < programmingSlot.store.sectors.length ∧
    (∀ f, (slotOf (.programming here) (record 6)).follower = some f → f.key = 0x0040) ∧
    { programmingSlot with ctl := { programmingSlot.ctl with softWait := true } }.ctl.softWait = true ∧
    (slotOf (.programming here) (record 6)).origin = .peer := by
  refine ⟨rfl, rfl, rfl, readsBack_of (by decide +kernel), directoryLaw_empty rfl rfl rfl rfl fun i x h => ?_,
    fetchLaw_idle rfl rfl, by decide, nofun, rfl, rfl⟩
  obtain ⟨_, rfl⟩ := slots_programmingSlot i x h
  exact ⟨by decide, nofun⟩

theorem test_meets_UpdatesFailTheirVerify :
    programmingSlot.store.op = some (.append (.slot 0) here none (imageBytes (record 6))) ∧
    programmingSlot.ctl.softWait = false ∧ (slotOf (.programming here) (record 6)).retry = false ∧
    ({ slotOf (.programming here) (record 6) with retry := true } : Slot).retry = true ∧
    ¬ ReadsBack (flashAfter here none (imageBytes (record 6)) [0x80] programmingSlot) here none (imageBytes (record 6)) := by
  refine ⟨rfl, rfl, rfl, rfl, fun h => ?_⟩
  have := h.1 0 (by decide)
  revert this
  decide +kernel

/-- A copy of the entry's image is being programmed. -/
def programmingCopy (n : Counter) : State :=
  withOp (.append .copy here none (imageBytes (record n)))
    { withEntry (station .active) with
      dir :=
        { (withEntry (station .active)).dir with checks := xorCheck (Vector.replicate 64 0) 0x0040 (entryFold 0x0040 ⟨5, 5⟩) }
      upd := { UpdateUnit.cleared with copy := some { phase := .programming here, record := record n, source := ⟨0, 1⟩ } } }

theorem directoryLaw_programmingCopy (n : Counter) : DirectoryLaw (programmingCopy n) where
  ascending := List.pairwise_singleton _ _
  valid e h := by
    obtain rfl := List.mem_singleton.1 h
    decide
  count := rfl
  shared := (by decide +kernel : (programmingCopy 0).dir.sharedCount =
    (programmingCopy 0).dir.entries.countP fun e => !isLocal (programmingCopy 0) e.key)
  checks b := by
    have : ∀ b : Bucket, (programmingCopy 0).dir.checks[b.toNat]'b.isLt = bucketFold (programmingCopy 0) b := by decide +kernel
    exact this b
  slots i x h := by simp [programmingCopy, withOp, UpdateUnit.cleared] at h

theorem test_meets_CopiesCommit :
    (∀ n, (programmingCopy n).store.op = some (.append .copy here none (imageBytes (record n))) ∧
      (programmingCopy n).upd.copy = some { phase := .programming here, record := record n, source := ⟨0, 1⟩ } ∧
      (programmingCopy n).ctl.softWait = false ∧ DirectoryLaw (programmingCopy n)) ∧
    ReadsBack (flashAfter here none (imageBytes (record 5)) [] (programmingCopy 5)) here none (imageBytes (record 5)) ∧
    (lookup (programmingCopy 5) 0x0040 = some oneEntry ∧ oneEntry.loc = ⟨0, 1⟩ ∧ oneEntry.stamp = (record 5).stamp ∧
      oneEntry.stamp ≠ (record 4).stamp) ∧
    ReadsBack (flashAfter here none (imageBytes (record 4)) [] (programmingCopy 4)) here none (imageBytes (record 4)) ∧
    ¬ ReadsBack (flashAfter here none (imageBytes (record 5)) [0x80] (programmingCopy 5)) here none (imageBytes (record 5)) := by
  refine ⟨fun n => ⟨rfl, rfl, rfl, directoryLaw_programmingCopy n⟩, readsBack_of (by decide +kernel),
    ⟨by decide +kernel, rfl, rfl, by decide⟩, readsBack_of (by decide +kernel), fun h => ?_⟩
  have := h.1 0 (by decide)
  revert this
  decide +kernel

theorem test_meets_MarksAndErasesEnd :
    (∀ k, FlashLaw (withOp (.mark k 1) (station .active)) ∧ (withOp (.mark k 1) (station .active)).store.op = some (.mark k 1) ∧
      (withOp (.mark k 1) (station .active)).ctl.softWait = false) ∧
    (∀ p, (withErase p 0 (station .active)).store.erase = some { sector := 1, suspensions := 0, phase := p } ∧
      (withErase p 0 (station .active)).store.sectors[1]? = some (sector .erased 0 0)) ∧
    (∃ n, n < 4096 ∧ ((withErase .running 0 { station .active with flash := [(4096 + 20, 0)] }).flash.erase (1 * 4096) [(20, 0)]).read
      (1 * 4096 + n) ≠ 0xFF) ∧
    NoneErasing (station .active) 1 ∧
    NextErasing (waitingSlot [sector .full 255 0, sector .erasing 255 0, sector .erasing 255 0] .idle) 1 2 := by
  refine ⟨fun _ => ⟨⟨List.Pairwise.nil, nofun⟩, rfl, rfl⟩, fun _ => ⟨rfl, rfl⟩, ⟨20, by decide, by decide +kernel⟩,
    fun n x hn h => ?_, ⟨by decide, ⟨_, rfl, rfl⟩, fun n x hlt hn h => ?_⟩⟩
  · rcases n with _ | _ | _ | _ | n
    · cases h; decide
    · exact absurd rfl hn
    · cases h; decide
    · cases h; decide
    · cases h
  · rcases n with _ | _ | n
    · cases h; decide
    · exact absurd rfl hn
    · omega

/-! ## The laws hold somewhere, and a step is taken there -/

/-- The APPEND in flight, whose completion is the next command. -/
def stepping (s : State) : State := { s with pending := [.updateProgramDone []] }

theorem step_stepping (s : State) : ∃ t, step (stepping s) = .next t := ⟨_, rfl⟩

theorem test_meets_StepsKeepStoreLaw : StoreLaw (stepping programmingSlot) ∧ ∃ t, step (stepping programmingSlot) = .next t :=
  ⟨storeLaw_of rfl (by decide), step_stepping _⟩

theorem test_meets_StepsKeepQueueLaw : QueueLaw (stepping programmingSlot) ∧ ∃ t, step (stepping programmingSlot) = .next t :=
  ⟨⟨by decide, by decide, by decide, by decide, by decide, by decide, by decide, by decide, by decide, nofun⟩, step_stepping _⟩

theorem test_meets_StepsKeepDirectoryLaw :
    DirectoryLaw (stepping programmingSlot) ∧ ∃ t, step (stepping programmingSlot) = .next t := by
  refine ⟨directoryLaw_empty rfl rfl rfl rfl fun i x h => ?_, step_stepping _⟩
  obtain ⟨_, rfl⟩ := slots_programmingSlot i x h
  exact ⟨by decide, nofun⟩

/-- The station clock has seen the record in flight. -/
def clocked : State :=
  { stepping programmingSlot with dir := { programmingSlot.dir with clock := 6, reservations := 1 } }

theorem test_meets_StepsKeepClockLaw : ClockLaw clocked ∧ ∃ t, step clocked = .next t := by
  refine ⟨⟨nofun, fun i x h => ?_, fun i x f h hf => ?_, fun h => absurd h (by decide)⟩, _, rfl⟩
  · obtain ⟨_, rfl⟩ := slots_programmingSlot i x h
    decide
  · obtain ⟨_, rfl⟩ := slots_programmingSlot i x h
    cases hf

theorem test_meets_StepsKeepSlotLaw : SlotLaw clocked ∧ CapacityLaw clocked ∧ ∃ t, step clocked = .next t := by
  refine ⟨⟨fun i x h => ?_, fun i j x y h h' _ => ?_, fun i x h => ?_, by decide, fun i x f h hf => ?_,
    fun h => absurd h (by decide)⟩, by unfold CapacityLaw; decide, _, rfl⟩
  · obtain ⟨_, rfl⟩ := slots_programmingSlot i x h
    decide
  · rw [(slots_programmingSlot i x h).1, (slots_programmingSlot j y h').1]
  · obtain ⟨_, rfl⟩ := slots_programmingSlot i x h
    decide +kernel
  · obtain ⟨_, rfl⟩ := slots_programmingSlot i x h
    cases hf

theorem test_meets_StepsKeepFetchLaw :
    FetchLaw (stepping (awaitingReplies (withPresent .active))) ∧ ∃ t, step (stepping (awaitingReplies (withPresent .active))) = .next t :=
  ⟨fetchLaw_one rfl rfl (Or.inl ⟨rfl, rfl, rfl⟩), step_stepping _⟩

/-- A PRESENT station 5 with a Want entry, and a JOINING station 6 that is queried. -/
def peersAtWork : State :=
  { stepping wantWaits with
    memb :=
      { peers := wantWaits.memb.peers.set 6 { Peer.cleared with state := .joining }
        query := some { peer := 6, placed := none } } }

theorem test_meets_StepsKeepPeerLaw : PeerLaw peersAtWork ∧ ∃ t, step peersAtWork = .next t := by
  refine ⟨⟨fun w h => ?_, nofun, fun q h => ?_, rfl⟩, _, rfl⟩
  · obtain rfl := List.mem_singleton.1 h
    rfl
  · cases h
    rfl

theorem test_meets_StepsKeepControlLaw :
    ControlLaw (stepping (station .active)) ∧ ∃ t, step (stepping (station .active)) = .next t :=
  ⟨⟨nofun, fun _ => rfl, by decide⟩, step_stepping _⟩

end Sys2Proof.Tests
end

