-- ==== Sys2Proof/Proofs/Clock.lean ====
section
/-! PROOFS. Every step keeps the clock law (R11): `KeepsClock s t` is said once of every shared operation, and composes; the
start-up scan and the end of a reset, which build directory and clock anew, meet the law by themselves. -/

namespace Sys2Proof.Proofs
open Sys2Proof Sys2Proof.Machine

/-! ## The relation -/

/-- A counter stands in the directory, or in a slot's record or follower. -/
def Counted (s : State) (c : Counter) : Prop :=
  (∃ e ∈ s.dir.entries, e.stamp.counter = c) ∨
    ∃ (i : Fin 4) (x : Slot), s.upd.slots[i] = some x ∧
      (x.record.stamp.counter = c ∨ ∃ f, x.follower = some f ∧ f.stamp.counter = c)

/-- From s to t the clock has not fallen, no counter has come in that it does not cover, and no scan has begun nor met a
newly busy slot. -/
structure KeepsClock (s t : State) : Prop where
  counted : ∀ c, Counted t c → Counted s c ∨ c.toNat ≤ t.dir.clock.toNat
  clock : s.dir.clock.toNat ≤ t.dir.clock.toNat
  scan : isScanning t = true → isScanning s = true ∧ ∀ i : Fin 4, s.upd.slots[i] = none → t.upd.slots[i] = none

theorem clockLaw_iff {s : State} :
    ClockLaw s ↔ (∀ c, Counted s c → c.toNat ≤ s.dir.clock.toNat) ∧ ScanLaw s := by
  constructor
  · rintro ⟨he, hr, hf, hs⟩
    refine ⟨?_, hs⟩
    rintro c (⟨e, hm, rfl⟩ | ⟨i, x, hx, rfl | ⟨f, hxf, rfl⟩⟩)
    · exact he e hm
    · exact hr i x hx
    · exact hf i x f hx hxf
  · rintro ⟨h, hs⟩
    exact ⟨fun e he => h _ (.inl ⟨e, he, rfl⟩), fun i x hx => h _ (.inr ⟨i, x, hx, .inl rfl⟩),
      fun i x f hx hf => h _ (.inr ⟨i, x, hx, .inr ⟨f, hf, rfl⟩⟩), hs⟩

namespace KeepsClock

theorem refl (s : State) : KeepsClock s s where
  counted _ := Or.inl
  clock := le_rfl
  scan h := ⟨h, fun _ => id⟩

theorem trans {s t u : State} (h : KeepsClock s t) (k : KeepsClock t u) : KeepsClock s u where
  counted c hc := by
    rcases k.counted c hc with ht | hle
    · exact (h.counted c ht).imp id fun hle => hle.trans k.clock
    · exact Or.inr hle
  clock := h.clock.trans k.clock
  scan hu := ⟨(h.scan (k.scan hu).1).1, fun i hi => (k.scan hu).2 i ((h.scan (k.scan hu).1).2 i hi)⟩

/-- What the relation is for. -/
theorem law {s t : State} (h : KeepsClock s t) (hs : ClockLaw s) : ClockLaw t := by
  rw [clockLaw_iff] at hs ⊢
  refine ⟨fun c hc => ?_, fun ht i => (h.scan ht).2 i (hs.2 (h.scan ht).1 i)⟩
  rcases h.counted c hc with hc | hle
  · exact (hs.1 c hc).trans h.clock
  · exact hle

/-- Directory and slots as they were, and no scan begun. -/
theorem of_same {s t : State} (hd : t.dir = s.dir) (hu : t.upd.slots = s.upd.slots)
    (hs : isScanning t = true → isScanning s = true) : KeepsClock s t where
  counted c hc := by
    simp only [Counted, hd, hu] at hc ⊢
    exact Or.inl hc
  clock := by rw [hd]
  scan ht := ⟨hs ht, fun i hi => by rw [hu]; exact hi⟩

end KeepsClock

theorem isScanning_congr {s t : State} (h : t.ctl = s.ctl) : isScanning t = isScanning s := by
  unfold isScanning inReset
  rw [h]

/-- Directory, slots and Station Control as they were. -/
theorem keepsClock_of_fields {s t : State} (hd : t.dir = s.dir) (hu : t.upd.slots = s.upd.slots) (hc : t.ctl = s.ctl) :
    KeepsClock s t :=
  .of_same hd hu fun h => by rw [← isScanning_congr hc]; exact h

theorem keepsClock_of_offers {s t : State} (h : Offers s t) : KeepsClock s t :=
  keepsClock_of_fields h.dir (by rw [h.upd]) h.ctl

theorem keepsClock_of_withdraws {s t : State} (h : Withdraws s t) : KeepsClock s t :=
  keepsClock_of_fields h.dir (by rw [h.upd]) h.ctl

/-- An effect that is guarded. -/
theorem keepsClock_ite {p : Prop} [Decidable p] {s t u : State} (ht : p → KeepsClock s t) (hu : ¬ p → KeepsClock s u) :
    KeepsClock s (if p then t else u) := by
  split
  · exact ht ‹_›
  · exact hu ‹_›

theorem keepsClock_guard {p : Prop} [Decidable p] {s t : State} (h : p → KeepsClock s t) :
    KeepsClock s (if p then t else s) := keepsClock_ite h fun _ => .refl s

theorem isScanning_of_isUp {s : State} (h : isUp s = true) : isScanning s = false := by
  rw [← Bool.not_eq_true, isScanning_iff]
  rintro ⟨_, hst, _⟩
  rcases (isUp_iff.1 h).2 with h | h | h <;> rw [h] at hst <;> cases hst

/-! ## The shared operations -/

theorem keepsClock_raiseClock (c : Counter) (s : State) : KeepsClock s (raiseClock c s) :=
  keepsClock_guard fun h =>
    { counted := fun _ => Or.inl
      clock := h.le
      scan := fun ht => ⟨ht, fun _ => id⟩ }

theorem le_raiseClock (c : Counter) (s : State) : c.toNat ≤ (raiseClock c s).dir.clock.toNat := by
  unfold raiseClock
  split
  · exact le_rfl
  · omega

@[simp] theorem raiseClock_upd (c : Counter) (s : State) : (raiseClock c s).upd = s.upd := by
  unfold raiseClock; split <;> rfl

@[simp] theorem raiseClock_ctl (c : Counter) (s : State) : (raiseClock c s).ctl = s.ctl := by
  unfold raiseClock; split <;> rfl

/-- What a slot of an updated list of slots holds. -/
theorem slots_set_eq {v : Vector (Option Slot) 4} {i j : Fin 4} {x : Option Slot} :
    (v.set i x)[j] = if i = j then x else v[j] := by
  simp only [Fin.getElem_fin, Vector.getElem_set, Fin.ext_iff]

/-- One slot changed, the directory's entries and the clock as they were: its record and follower must have stood in the
slot before, or be covered. -/
theorem keepsClock_of_slot {s t : State} {i : Fin 4} {x : Option Slot} (he : t.dir.entries = s.dir.entries)
    (hk : t.dir.clock = s.dir.clock) (hu : t.upd.slots = s.upd.slots.set i x)
    (hs : isScanning t = true → isScanning s = true ∧ (s.upd.slots[i] = none → x = none))
    (hr : ∀ y, x = some y → Counted s y.record.stamp.counter ∨ y.record.stamp.counter.toNat ≤ s.dir.clock.toNat)
    (hf : ∀ y f, x = some y → y.follower = some f →
      Counted s f.stamp.counter ∨ f.stamp.counter.toNat ≤ s.dir.clock.toNat) : KeepsClock s t where
  counted c hc := by
    rw [hk]
    rcases hc with ⟨e, hm, rfl⟩ | ⟨j, y, hy, hc⟩
    · exact Or.inl (Or.inl ⟨e, he ▸ hm, rfl⟩)
    · rw [hu, slots_set_eq] at hy
      split at hy
      · rcases hc with rfl | ⟨f, hyf, rfl⟩
        · exact hr y hy
        · exact hf y f hy hyf
      · exact Or.inl (Or.inr ⟨j, y, hy, hc⟩)
  clock := by rw [hk]
  scan ht := ⟨(hs ht).1, fun j hj => by
    rw [hu, slots_set_eq]
    split
    · rename_i hij
      exact (hs ht).2 (hij ▸ hj)
    · exact hj⟩

theorem counted_record {s : State} {i : Fin 4} {x : Slot} (hx : s.upd.slots[i] = some x) :
    Counted s x.record.stamp.counter := Or.inr ⟨i, x, hx, Or.inl rfl⟩

theorem counted_follower {s : State} {i : Fin 4} {x : Slot} {f : Record} (hx : s.upd.slots[i] = some x)
    (hf : x.follower = some f) : Counted s f.stamp.counter := Or.inr ⟨i, x, hx, Or.inr ⟨f, hf, rfl⟩⟩

/-- A busy slot changed but for its record and follower, with nothing else of the slots, directory or Station Control. -/
theorem keepsClock_of_slot_same {s t : State} {i : Fin 4} {x y : Slot} (hx : s.upd.slots[i] = some x)
    (hd : t.dir = s.dir) (hc : t.ctl = s.ctl) (hu : t.upd.slots = s.upd.slots.set i (some y))
    (hr : y.record = x.record) (hf : y.follower = x.follower) : KeepsClock s t := by
  refine keepsClock_of_slot (by rw [hd]) (by rw [hd]) hu (fun ht => ⟨by rwa [← isScanning_congr hc], ?_⟩) ?_ ?_
  · intro hn
    rw [hx] at hn
    cases hn
  · rintro _ ⟨⟩
    rw [hr]
    exact Or.inl (counted_record hx)
  · rintro _ f ⟨⟩ hyf
    exact Or.inl (counted_follower hx (hf ▸ hyf))

/-- A record the clock covers is given a slot, outside the scan. -/
theorem keepsClock_claimSlot {s : State} {r : Record} (i : Fin 4) (o : Origin)
    (hr : r.stamp.counter.toNat ≤ s.dir.clock.toNat) (hs : isScanning s = false) : KeepsClock s (claimSlot i o r s) := by
  rw [claimSlot_eq]
  refine keepsClock_of_slot rfl rfl rfl (fun ht => ?_) ?_ ?_
  · exact absurd (show isScanning s = true from ht) (by rw [hs]; decide)
  · rintro _ ⟨⟩
    exact Or.inr hr
  · rintro _ f ⟨⟩ hf
    cases hf

/-- A busy slot released: its follower was counted before (R50, R51). -/
theorem keepsClock_releaseSlot {s : State} {i : Fin 4} {x : Slot} (hx : s.upd.slots[i] = some x) :
    KeepsClock s (releaseSlot i x s) := by
  rw [releaseSlot_eq]
  refine keepsClock_of_slot rfl rfl rfl (fun ht => ⟨ht, fun hn => ?_⟩) ?_ ?_
  · rw [hx] at hn
    cases hn
  · intro y hy
    cases hf : x.follower with
    | none => rw [hf] at hy; cases hy
    | some f => rw [hf] at hy; cases hy; exact Or.inl (counted_follower hx hf)
  · intro y g hy hg
    cases hf : x.follower with
    | none => rw [hf] at hy; cases hy
    | some f => rw [hf] at hy; cases hy; cases hg

theorem keepsClock_releaseAt (s : State) (i : Fin 4) : KeepsClock s (releaseAt s i) := by
  unfold releaseAt
  split
  · exact keepsClock_releaseSlot ‹_›
  · exact .refl s

/-- A fold of steps that each keep the clock. -/
theorem keepsClock_fold {α : Type} {f : State → α → State} (hf : ∀ s a, KeepsClock s (f s a)) (l : List α) (s : State) :
    KeepsClock s (l.foldl f s) := by
  induction l generalizing s with
  | nil => exact .refl s
  | cons a l ih => exact (hf s a).trans (ih _)

theorem keepsClock_post (e : Event) (s : State) : KeepsClock s (post e s) := keepsClock_of_fields rfl rfl rfl

theorem keepsClock_reportWrite (w : WriteResult) (s : State) (i : Fin 4) : KeepsClock s (reportWrite w s i) := by
  unfold reportWrite
  split
  · split
    · exact keepsClock_post ..
    · exact .refl s
  · exact .refl s

theorem keepsClock_setDiverged (r : DivReason) (s : State) : KeepsClock s (setDiverged r s) := by
  cases r
  · rw [setDiverged_directory]; exact keepsClock_of_fields rfl rfl rfl
  · rw [setDiverged_store]; exact keepsClock_of_fields rfl rfl rfl

theorem keepsClock_failSlots (w : WriteResult) (l : List (Fin 4)) (s : State) : KeepsClock s (failSlots w l s) :=
  ((keepsClock_fold (keepsClock_reportWrite w) l s).trans
    (keepsClock_guard fun _ => keepsClock_setDiverged ..)).trans (keepsClock_fold keepsClock_releaseAt l _)

theorem keepsClock_failStoreWait (s : State) : KeepsClock s (failStoreWait s) := keepsClock_failSlots ..

/-- Slots woken hold what they held (R63). -/
theorem keepsClock_wakeStoreWait (s : State) : KeepsClock s (wakeStoreWait s) where
  counted c hc := by
    refine Or.inl ?_
    rcases hc with h | ⟨i, x, hx, hc⟩
    · exact Or.inl h
    · simp only [wakeStoreWait, Fin.getElem_fin, Vector.getElem_map, Option.map_eq_some_iff] at hx
      obtain ⟨y, hy, rfl⟩ := hx
      refine Or.inr ⟨i, y, hy, ?_⟩
      unfold wakeSlot at hc
      split at hc <;> exact hc
  clock := le_rfl
  scan ht := ⟨ht, fun i hi => by simpa [wakeStoreWait] using hi⟩

/-! ## Compaction and space -/

theorem keepsClock_testTrigger (s : State) : KeepsClock s (testTrigger s) := by
  refine keepsClock_guard fun _ => ?_
  unfold beginCompaction
  split
  · exact keepsClock_of_fields rfl rfl rfl
  · split
    · exact keepsClock_of_fields rfl rfl rfl
    · exact .refl s

theorem keepsClock_settleStore (old s : State) : KeepsClock s (settleStore old s) := by
  obtain ⟨hslots, -, hdir, -⟩ := settleStore_facts old s
  exact keepsClock_of_fields hdir hslots (settleStore_rest old s).1

theorem keepsClock_spaceTest (s : State) : KeepsClock s (spaceTest s) :=
  keepsClock_ite (fun _ => keepsClock_of_fields rfl rfl rfl) fun _ => keepsClock_of_fields rfl rfl rfl

theorem keepsClock_spaceEvent (old s : State) : KeepsClock s (spaceEvent old s) :=
  keepsClock_ite (fun _ => .refl s) fun _ => keepsClock_spaceTest s

theorem keepsClock_advanceWalk (s : State) : KeepsClock s (advanceWalk s) := by
  obtain ⟨hslots, -, hdir, -⟩ := advanceWalk_facts s
  refine keepsClock_of_fields hdir hslots ?_
  unfold advanceWalk
  split
  · split
    · rfl
    · split <;> rfl
  · split <;> rfl
  all_goals rfl

theorem keepsClock_nextRun (s : State) : KeepsClock s (nextRun s) := by
  unfold nextRun
  split
  · exact keepsClock_of_fields rfl rfl rfl
  · exact KeepsClock.trans (t := setComp .idle s) (keepsClock_of_fields rfl rfl rfl) (keepsClock_testTrigger _)

theorem keepsClock_stallCompaction (v c : Nat) (s : State) : KeepsClock s (stallCompaction v c s) := by
  refine KeepsClock.trans ?_ (keepsClock_failStoreWait _)
  exact keepsClock_of_fields rfl rfl rfl

end Sys2Proof.Proofs
end

