-- ==== Sys2Proof/Proofs/Clock2.lean ====
section
/-! PROOFS. The clock law (R11), continued: commits, local admission and arrivals. -/

namespace Sys2Proof.Proofs
open Sys2Proof Sys2Proof.Machine

/-! ## Commits (R47, R72) -/

theorem mem_of_mem_putEntry {l : List Entry} {e d : Entry} (h : d ∈ putEntry l e) : d = e ∨ d ∈ l := by
  induction l with
  | nil => exact Or.inl (List.mem_singleton.1 h)
  | cons a l ih =>
    unfold putEntry at h
    split at h
    · exact List.mem_cons.1 h
    · split at h
      · exact (List.mem_cons.1 h).imp id (List.mem_cons_of_mem a)
      · rcases List.mem_cons.1 h with rfl | h
        · exact Or.inr List.mem_cons_self
        · exact (ih h).imp id (List.mem_cons_of_mem a)

/-- An entry put whose counter was counted before, with nothing else of clock, slots or Station Control. -/
theorem keepsClock_of_putEntry {s t : State} {e : Entry} (hd : t.dir.entries = putEntry s.dir.entries e)
    (hk : t.dir.clock = s.dir.clock) (hu : t.upd.slots = s.upd.slots) (hc : t.ctl = s.ctl)
    (he : Counted s e.stamp.counter) : KeepsClock s t where
  counted c hc := by
    refine Or.inl ?_
    rcases hc with ⟨d, hm, rfl⟩ | h
    · rw [hd] at hm
      rcases mem_of_mem_putEntry hm with rfl | hm
      · exact he
      · exact Or.inl ⟨d, hm, rfl⟩
    · rw [hu] at h
      exact Or.inr h
  clock := by rw [hk]
  scan ht := ⟨by rwa [← isScanning_congr hc], fun i hi => by rw [hu]; exact hi⟩

theorem keepsClock_commitEntry {s : State} {e : Entry} (he : Counted s e.stamp.counter) :
    KeepsClock s (commitEntry e s) := by
  unfold commitEntry
  split <;> exact keepsClock_of_putEntry (e := e) rfl rfl rfl rfl he

theorem keepsClock_commitCopy (c : CopySlot) (loc : Loc) (s : State) : KeepsClock s (commitCopy c loc s) := by
  unfold commitCopy
  split
  · rename_i e hl
    exact keepsClock_guard fun _ => keepsClock_of_putEntry (e := { e with loc := loc }) rfl rfl rfl rfl
      (.inl ⟨e, (mem_of_lookup hl).1, rfl⟩)
  · exact .refl s

theorem keepsClock_reportCommit (x : Slot) (s : State) : KeepsClock s (reportCommit x s) := by
  unfold reportCommit
  split
  · exact keepsClock_post ..
  · exact keepsClock_guard fun _ => keepsClock_post ..

theorem reportCommit_upd (x : Slot) (s : State) : (reportCommit x s).upd = s.upd := by
  unfold reportCommit
  split
  · rfl
  · split <;> rfl

theorem keepsClock_commitSlot {s : State} {i : Fin 4} {x : Slot} (hx : s.upd.slots[i] = some x) (loc : Loc) :
    KeepsClock s (commitSlot i x loc s) := by
  refine (((keepsClock_commitEntry ?_).trans (keepsClock_of_withdraws (withdraws_pruneWant ..))).trans
    (keepsClock_reportCommit ..)).trans (keepsClock_releaseSlot ?_)
  · exact counted_record hx
  · obtain ⟨l, hl⟩ := commitEntry_rest (entryOf x.record loc) s
    rw [reportCommit_upd, pruneWant_upd, hl]
    exact hx

theorem keepsClock_offerCommitNews (x : Slot) (s : State) : KeepsClock s (offerCommitNews x s) := by
  unfold offerCommitNews
  split
  · exact keepsClock_ite (fun _ => .refl s) fun _ => keepsClock_of_offers (offers_offerNews ..)
  · exact .refl s

/-! ## Local admission and arrivals (R34 to R44) -/

theorem keepsClock_complete (r : Reply) (s : State) : KeepsClock s (complete r s) := keepsClock_of_fields rfl rfl rfl

/-- A clock that is not exhausted goes up by 1. -/
theorem toNat_clock_succ {c : Counter} (h : c ≠ Config.clockExhausted) : (c + 1).toNat = c.toNat + 1 := by
  have hne : c.toNat ≠ 0xFFFFFFFF := fun e => h (BitVec.eq_of_toNat_eq e)
  have hlt := c.isLt
  have one : (1 : Counter).toNat = 1 := rfl
  rw [BitVec.toNat_add, one]
  omega

/-- No admission in STARTING, and none with the clock exhausted (R34). -/
theorem of_admissionRefusal_none {s : State} {k : Key} {tomb : Bool} {len : Nat}
    (h : admissionRefusal s k tomb len = none) : isScanning s = false ∧ s.dir.clock ≠ Config.clockExhausted := by
  simp only [admissionRefusal, admissionChecks, Option.map_eq_none_iff, List.find?_eq_none, List.mem_cons,
    forall_eq_or_imp, beq_iff_eq] at h
  obtain ⟨hst, -, -, -, -, -, -, -, -, -, -, hclock, -⟩ := h
  refine ⟨?_, hclock⟩
  rw [← Bool.not_eq_true, isScanning_iff]
  exact fun hs => hst hs.2.1

theorem keepsClock_admitLocal {s : State} (i : Fin 4) (k : Key) (tomb : Bool) (value : List Byte)
    (hs : isScanning s = false) (hc : s.dir.clock ≠ Config.clockExhausted) :
    KeepsClock s (admitLocal i k tomb value s) := by
  refine KeepsClock.trans (KeepsClock.trans ?_ (keepsClock_claimSlot i _ ?_ ?_)) (keepsClock_complete ..)
  · have hle : s.dir.clock.toNat ≤ (s.dir.clock + 1).toNat := by rw [toNat_clock_succ hc]; omega
    exact ⟨fun _ => Or.inl, hle, fun ht => ⟨ht, fun _ => id⟩⟩
  · exact le_rfl
  · exact hs

theorem keepsClock_localAdmission (k : Key) (tomb : Bool) (value : List Byte) (s : State) :
    KeepsClock s (localAdmission k tomb value s) := by
  unfold localAdmission
  split
  · exact keepsClock_complete ..
  · rename_i hn
    obtain ⟨hs, hc⟩ := of_admissionRefusal_none hn
    split
    · exact keepsClock_admitLocal _ k tomb value hs hc
    · exact keepsClock_complete ..

theorem keepsClock_meetSlot {s : State} {i : Fin 4} {x : Slot} {r : Record} (hx : s.upd.slots[i] = some x)
    (hr : r.stamp.counter.toNat ≤ s.dir.clock.toNat) : KeepsClock s (meetSlot i x r s) := by
  have follows : KeepsClock s (setSlot i (some { x with follower := some r }) s) := by
    refine keepsClock_of_slot rfl rfl rfl (fun ht => ⟨ht, fun hn => ?_⟩) ?_ ?_
    · rw [hx] at hn
      cases hn
    · rintro _ ⟨⟩
      exact Or.inl (counted_record (x := x) hx)
    · rintro _ f ⟨⟩ ⟨⟩
      exact Or.inr hr
  refine keepsClock_guard fun _ => ?_
  split
  · exact follows
  · exact keepsClock_guard fun _ => follows

theorem keepsClock_placeArrival {s : State} {r : Record} (source : Station)
    (hr : r.stamp.counter.toNat ≤ s.dir.clock.toNat) (hs : isScanning s = false) :
    KeepsClock s (placeArrival r source s) := by
  refine keepsClock_ite (fun _ => .refl s) fun _ => ?_
  split
  · split
    · exact keepsClock_meetSlot ‹_› hr
    · exact .refl s
  · refine keepsClock_ite (fun _ => keepsClock_setDiverged ..) fun _ => ?_
    split
    · exact keepsClock_claimSlot _ _ hr hs
    · exact keepsClock_of_withdraws (withdraws_wantAdd ..)

/-- An arrival raises the clock before its record can be counted (R11, R40). -/
theorem keepsClock_arrive {s : State} (r : Record) (source : Station) (hs : isScanning s = false) :
    KeepsClock s (arrive r source s) := by
  refine keepsClock_ite (fun _ => .refl s) fun _ => ?_
  refine (keepsClock_raiseClock _ s).trans (keepsClock_placeArrival source (le_raiseClock ..) ?_)
  rw [isScanning_congr (raiseClock_ctl ..), hs]

theorem keepsClock_offerArrival {s : State} (r : Record) (source : Station) (hs : isScanning s = false) :
    KeepsClock s (offerArrival r source s) :=
  (keepsClock_arrive r source hs).trans (keepsClock_of_offers (offers_pumpFetch _))

end Sys2Proof.Proofs
end

