-- ==== Sys2Proof/Proofs/Clock3.lean ====
section
/-! PROOFS. The clock law (R11), continued: the meanings of the commands. -/

namespace Sys2Proof.Proofs
open Sys2Proof Sys2Proof.Machine

/-! ## The commands -/

/-- A command's meaning answers with a next state, and keeps the clock. -/
def AnswersKeeping (s : State) (o : Host.Outcome State Fault Refusal) : Prop := ∃ t, o = .next t ∧ KeepsClock s t

theorem answersKeeping_next {s t : State} (h : KeepsClock s t) : AnswersKeeping s (.next t) := ⟨t, rfl, h⟩

/-! ### Host commands -/

theorem answersKeeping_immediate {f : State → State} {s : State} (h : KeepsClock s (f s)) :
    AnswersKeeping s (immediate f s) := answersKeeping_next (keepsClock_guard fun _ => h)

theorem keepsClock_openTxn (k : TxnKind) (out : List Byte) (s : State) : KeepsClock s (openTxn k out s) :=
  keepsClock_of_fields rfl rfl rfl

theorem keepsClock_accept (s : State) : KeepsClock s (accept s) := keepsClock_of_fields rfl rfl rfl

theorem answersKeeping_requestCommand {serve : State → State} {s : State} (h : ∀ t, KeepsClock t (serve t)) :
    AnswersKeeping s (requestCommand serve s) :=
  answersKeeping_immediate (keepsClock_ite (fun _ => keepsClock_openTxn ..) fun _ => (keepsClock_accept s).trans (h _))

theorem keepsClock_takeEvent (s : State) : KeepsClock s (takeEvent s) := by
  unfold takeEvent
  split <;> exact keepsClock_of_fields rfl rfl rfl

theorem keepsClock_endTxn (clocked : Nat) (s : State) :
    AnswersKeeping s (execTransactionEnd clocked s) := by
  refine answersKeeping_next ?_
  split
  · exact keepsClock_of_fields rfl rfl rfl
  · exact .refl s

theorem keepsClock_serveRead (key : Key) (s : State) : KeepsClock s (serveRead key s) := by
  unfold serveRead
  split
  · exact keepsClock_complete ..
  · refine keepsClock_ite (fun _ => ?_) fun _ => keepsClock_complete ..
    split
    · exact keepsClock_complete ..
    · exact keepsClock_of_fields rfl rfl rfl

theorem keepsClock_serveList (start : Key) (s : State) : KeepsClock s (serveList start s) := by
  unfold serveList
  split <;> exact keepsClock_complete ..

theorem keepsClock_servePeers (s : State) : KeepsClock s (servePeers s) := by
  unfold servePeers
  split <;> exact keepsClock_complete ..

theorem keepsClock_expireSummary (s : State) : KeepsClock s (expireSummary s) :=
  KeepsClock.trans (keepsClock_of_fields (t := { s with summ := { timer := some s.now } }) rfl rfl rfl)
    (keepsClock_of_offers (offers_offerSummary _))

theorem keepsClock_serveSync (s : State) : KeepsClock s (serveSync s) := by
  unfold serveSync
  split
  case h_5 => exact (keepsClock_complete ..).trans (keepsClock_expireSummary _)
  all_goals exact keepsClock_complete ..

theorem keepsClock_serveProgram (offset : Byte) (given : List Byte) (s : State) :
    KeepsClock s (serveProgram offset given s) := by
  unfold serveProgram
  split
  · exact keepsClock_complete ..
  · exact keepsClock_ite (fun _ => keepsClock_complete ..) fun _ => keepsClock_of_fields rfl rfl rfl

theorem keepsClock_serveLock (s : State) : KeepsClock s (serveLock s) := by
  unfold serveLock
  split
  · exact keepsClock_complete ..
  · split
    · exact keepsClock_complete ..
    · exact keepsClock_of_fields rfl rfl rfl

theorem keepsClock_spacedAdmission (k : Key) (tomb : Bool) (value : List Byte) (s : State) :
    KeepsClock s (spaceEvent s (localAdmission k tomb value s)) :=
  (keepsClock_localAdmission ..).trans (keepsClock_spaceEvent ..)

/-! ### The configuration area and the starts of resets -/

theorem abandonErase_fields (erased : List (Nat × Byte)) (s : State) :
    (abandonErase erased s).dir = s.dir ∧ (abandonErase erased s).upd = s.upd ∧
      (abandonErase erased s).ctl = s.ctl := by
  unfold abandonErase
  split
  · split <;> exact ⟨rfl, rfl, rfl⟩
  · exact ⟨rfl, rfl, rfl⟩

theorem abandonRead_fields (s : State) :
    (abandonRead s).dir = s.dir ∧ (abandonRead s).upd = s.upd ∧ (abandonRead s).ctl = s.ctl := by
  unfold abandonRead
  split <;> exact ⟨rfl, rfl, rfl⟩

theorem isScanning_of_softWait {s : State} (h : s.ctl.softWait = true) : isScanning s = false := by
  simp [isScanning, h]

theorem isScanning_of_inReset {s : State} (h : inReset s = true) : isScanning s = false := by
  simp [isScanning, h]

/-- Directory and slots as they were, in a station that is not scanning. -/
theorem keepsClock_of_not_scanning {s t : State} (hd : t.dir = s.dir) (hu : t.upd.slots = s.upd.slots)
    (hs : isScanning t = false) : KeepsClock s t :=
  .of_same hd hu fun h => absurd h (by rw [hs]; decide)

theorem keepsClock_softResetStart (erased : List (Nat × Byte)) (s : State) :
    KeepsClock s (softResetStart erased s) := by
  obtain ⟨hdr, hur, -⟩ := abandonRead_fields (abandonErase erased s)
  obtain ⟨hde, hue, -⟩ := abandonErase_fields erased s
  refine keepsClock_ite (fun _ => .refl s) fun _ => keepsClock_of_not_scanning ?_ ?_ (isScanning_of_softWait rfl)
  · exact hdr.trans hde
  · exact congrArg (·.slots) (hur.trans hue)

theorem keepsClock_copyGroup (s : State) : KeepsClock s (copyGroup s) := .of_same rfl rfl id

theorem keepsClock_programConfig (p : ConfigProgram) (failed : List Byte) (rest : Byte) (s : State) :
    KeepsClock s (programConfig p failed rest s) := keepsClock_of_fields rfl rfl rfl

theorem answersKeeping_configProgramDone (failed : List Byte) (s : State) :
    AnswersKeeping s (execConfigProgramDone failed s) := by
  refine answersKeeping_next ?_
  split
  · exact keepsClock_ite (fun _ => keepsClock_programConfig ..) fun _ =>
      ((keepsClock_programConfig ..).trans (keepsClock_complete ..)).trans (keepsClock_copyGroup _)
  all_goals exact .refl s

theorem answersKeeping_lockCheckProgrammed (failed : List Byte) (s : State) :
    AnswersKeeping s (execLockCheckProgrammed failed s) := by
  refine answersKeeping_next ?_
  split
  · refine keepsClock_ite (fun _ => keepsClock_programConfig ..) fun _ => ?_
    exact keepsClock_ite (fun _ => keepsClock_of_fields rfl rfl rfl) fun _ =>
      (keepsClock_programConfig ..).trans (keepsClock_complete ..)
  all_goals exact .refl s

theorem answersKeeping_lockMarkerProgrammed (failed : Byte) (s : State) :
    AnswersKeeping s (execLockMarkerProgrammed failed s) := by
  refine answersKeeping_next ?_
  split
  · refine keepsClock_ite (fun _ => keepsClock_programConfig ..) fun _ => ?_
    exact keepsClock_ite (fun _ => (keepsClock_programConfig ..).trans (keepsClock_softResetStart ..)) fun _ =>
      (keepsClock_programConfig ..).trans (keepsClock_complete ..)
  all_goals exact .refl s

theorem programAppend_fields (loc : Loc) (opening : Option Opening) (image failed : List Byte) (rest : Byte) (s : State) :
    (programAppend loc opening image failed rest s).dir = s.dir ∧
      (programAppend loc opening image failed rest s).upd = s.upd ∧
      (programAppend loc opening image failed rest s).ctl = s.ctl := by
  unfold programAppend
  split <;> simp

theorem cutOp_fields (cut : Cut) (s : State) : (cutOp cut s).dir = s.dir ∧ (cutOp cut s).upd = s.upd := by
  unfold cutOp
  split
  · exact ⟨(programAppend_fields ..).1, (programAppend_fields ..).2.1⟩
  all_goals exact ⟨rfl, rfl⟩

theorem cutErase_fields (cut : Cut) (s : State) : (cutErase cut s).dir = s.dir ∧ (cutErase cut s).upd = s.upd := by
  obtain ⟨hd, hu, -⟩ := abandonErase_fields cut.erased s
  unfold cutErase
  split
  · split
    case h_4 => exact ⟨rfl, rfl⟩
    all_goals exact ⟨hd, hu⟩
  · exact ⟨rfl, rfl⟩

theorem cutConfig_fields (cut : Cut) (s : State) : (cutConfig cut s).dir = s.dir ∧ (cutConfig cut s).upd = s.upd := by
  unfold cutConfig
  split <;> exact ⟨rfl, rfl⟩

/-- What a reset cuts off leaves directory and slots as they were (R156). -/
theorem stopAll_fields (cut : Cut) (s : State) : (stopAll cut s).dir = s.dir ∧ (stopAll cut s).upd = s.upd := by
  obtain ⟨hdo, huo⟩ := cutOp_fields cut s
  obtain ⟨hde, hue⟩ := cutErase_fields cut (cutOp cut s)
  obtain ⟨hdc, huc⟩ := cutConfig_fields cut (cutErase cut (cutOp cut s))
  exact ⟨(hdc.trans hde).trans hdo, (huc.trans hue).trans huo⟩

/-- A part held in reset, its directory and slots as they were. -/
theorem keepsClock_of_inReset {s t : State} (h : t.dir = s.dir ∧ t.upd = s.upd) (hr : inReset t = true) :
    KeepsClock s t := keepsClock_of_not_scanning h.1 (by rw [h.2]) (isScanning_of_inReset hr)

/-! ### The listening period's end, and the line -/

theorem answersKeeping_listeningPeriodEnd (s : State) : AnswersKeeping s (execListeningPeriodEnd s) := by
  refine answersKeeping_next (keepsClock_guard fun _ => ?_)
  have active : KeepsClock s (setStation .active { s with ctl := { s.ctl with listeningSince := none } }) :=
    .of_same rfl rfl fun h => absurd (isScanning_iff.1 h).2.1 (by simp)
  exact ((((active.trans (keepsClock_expireSummary _)).trans (keepsClock_of_offers (offers_pumpProfile _))).trans
    (keepsClock_of_offers (offers_pumpReconciler _))).trans (keepsClock_of_offers (offers_pumpFetch _))).trans
    (keepsClock_post ..)

theorem keepsClock_setPeer (p : Station) (e : Peer) (s : State) : KeepsClock s (setPeer p e s) :=
  keepsClock_of_fields rfl rfl rfl

theorem keepsClock_changePeer (p : Station) (e : Peer) (s : State) : KeepsClock s (changePeer p e s) :=
  keepsClock_of_fields rfl rfl rfl

theorem keepsClock_hearPeer (p : Station) (id : Option (BitVec 32)) (s : State) : KeepsClock s (hearPeer p id s) := by
  unfold hearPeer
  dsimp only
  split
  · exact keepsClock_changePeer ..
  · exact keepsClock_setPeer ..
  · exact keepsClock_ite
      (fun _ => (keepsClock_changePeer ..).trans (keepsClock_of_withdraws (withdraws_purgePeer ..)))
      fun _ => keepsClock_setPeer ..
  · exact keepsClock_ite (fun _ => keepsClock_changePeer ..) fun _ => keepsClock_changePeer ..
  · exact keepsClock_ite (fun _ => keepsClock_changePeer ..) fun _ => keepsClock_setPeer ..
  · exact keepsClock_ite (fun _ => keepsClock_setPeer ..) fun _ => keepsClock_setPeer ..

theorem keepsClock_enterMute (s : State) : KeepsClock s (enterMute s) :=
  .of_same rfl rfl fun h => absurd (isScanning_iff.1 h).2.1 (by simp [enterMute])

theorem keepsClock_endGood (f : Frame) (s : State) : KeepsClock s (endGood f s) := by
  have heard : KeepsClock s (setBase (f.source + 1) (setPhase .guardTime s)) := keepsClock_of_fields rfl rfl rfl
  refine heard.trans (keepsClock_ite (fun _ => ?_) fun _ => ?_)
  · exact keepsClock_ite (fun _ => .refl _) fun _ => keepsClock_enterMute _
  · refine ((keepsClock_hearPeer f.source f.carriedId _).trans ?_).trans (keepsClock_of_offers (offers_pump _))
    exact keepsClock_guard fun _ => keepsClock_of_fields rfl rfl rfl

theorem answersKeeping_frameEndGood (bytes : List Byte) (s : State) : AnswersKeeping s (execFrameEndGood bytes s) := by
  refine answersKeeping_next (keepsClock_guard fun _ => ?_)
  split
  · exact keepsClock_endGood ..
  · exact keepsClock_of_fields rfl rfl rfl

theorem answersKeeping_frameStart (s : State) : AnswersKeeping s (execFrameStart s) := by
  refine answersKeeping_next (keepsClock_guard fun _ => ?_)
  split <;> exact keepsClock_of_fields rfl rfl rfl

theorem keepsClock_beginSending (s : State) : KeepsClock s (beginSending s) := by
  unfold beginSending
  split
  · split
    · exact keepsClock_of_fields rfl rfl rfl
    · exact .refl s
  · exact .refl s

theorem answersKeeping_slotStart (s : State) : AnswersKeeping s (execSlotStart s) :=
  answersKeeping_next (keepsClock_guard fun _ =>
    KeepsClock.trans (t := if maySend s then beginSending s else s)
      (keepsClock_guard fun _ => keepsClock_beginSending s) (keepsClock_of_fields rfl rfl rfl))

theorem answersKeeping_collisionDetected (s : State) : AnswersKeeping s (execCollisionDetected s) := by
  refine answersKeeping_next ?_
  split
  · exact .refl s
  · refine keepsClock_ite (fun _ => keepsClock_of_fields rfl rfl rfl) fun _ => ?_
    split <;> exact keepsClock_of_fields rfl rfl rfl

theorem keepsClock_reportSent (r : Option Requester) (s : State) : KeepsClock s (reportSent r s) := by
  unfold reportSent
  split
  · split <;> exact keepsClock_of_fields rfl rfl rfl
  · split <;> exact keepsClock_of_fields rfl rfl rfl
  · split <;> exact keepsClock_of_fields rfl rfl rfl
  · exact .refl s
  · exact .refl s

theorem answersKeeping_transmitEnd (s : State) : AnswersKeeping s (execTransmitEnd s) := by
  refine answersKeeping_next ?_
  split
  · exact .refl s
  · refine keepsClock_ite (fun _ => keepsClock_of_fields rfl rfl rfl) fun _ => ?_
    split
    · exact keepsClock_of_fields rfl rfl rfl
    · refine KeepsClock.trans ?_ (keepsClock_reportSent ..)
      exact keepsClock_of_fields rfl rfl rfl

theorem answersKeeping_waitingFramePlaced (s : State) : AnswersKeeping s (execWaitingFramePlaced s) := by
  refine answersKeeping_next ?_
  split
  · refine keepsClock_guard fun _ => ?_
    refine KeepsClock.trans ?_ (keepsClock_of_offers ((offers_placeFor ..).trans (offers_pumpResponder _)))
    exact keepsClock_of_fields rfl rfl rfl
  · exact .refl s

/-! ### Takings -/

theorem answersKeeping_takeFrame {k : FrameKind} {use : Frame → State → State} {s : State}
    (h : ∀ f t, isUp t = true → KeepsClock t (use f t)) : AnswersKeeping s (takeFrame k use s) := by
  refine answersKeeping_next (keepsClock_guard fun hup => ?_)
  split
  · refine keepsClock_guard fun _ => KeepsClock.trans ?_ (h _ _ ?_)
    · exact keepsClock_of_fields rfl rfl rfl
    · exact hup
  · exact .refl s

theorem keepsClock_useNews (f : Frame) {s : State} (hup : isUp s = true) : KeepsClock s (useNews f s) := by
  refine keepsClock_guard fun _ => ?_
  split
  · exact (keepsClock_offerArrival _ _ (isScanning_of_isUp hup)).trans (keepsClock_spaceEvent ..)
  · exact .refl s

theorem keepsClock_settleSupply (source : Station) (echo : Byte) (key : Key) (r : Option Record) {s : State}
    (hs : isScanning s = false) : KeepsClock s (settleSupply source echo key r s) := by
  have settled (i : Fin 4) : Withdraws s (removeWant key (freeFetchSlot i s)) :=
    (withdraws_freeFetchSlot ..).trans (withdraws_removeWant ..)
  unfold settleSupply
  split
  · rename_i i _
    split
    · refine (keepsClock_of_withdraws (settled i)).trans (keepsClock_offerArrival _ _ ?_)
      rw [isScanning_congr (settled i).ctl, hs]
    · exact (keepsClock_of_withdraws (settled i)).trans (keepsClock_of_offers (offers_pumpFetch _))
  · split
    · exact keepsClock_offerArrival _ _ hs
    · exact .refl s

theorem keepsClock_useSupply (f : Frame) {s : State} (hup : isUp s = true) : KeepsClock s (useSupply f s) := by
  refine keepsClock_guard fun _ => ?_
  split
  · exact (keepsClock_settleSupply _ _ _ _ (isScanning_of_isUp hup)).trans (keepsClock_spaceEvent ..)
  · exact .refl s

theorem keepsClock_useSummary (f : Frame) (s : State) : KeepsClock s (useSummary f s) := by
  refine keepsClock_guard fun _ => ((keepsClock_raiseClock ..).trans (keepsClock_setPeer ..)).trans
    (keepsClock_guard fun _ => KeepsClock.trans ?_ (keepsClock_of_offers (offers_pumpReconciler _)))
  exact keepsClock_of_fields rfl rfl rfl

theorem keepsClock_useProfile (f : Frame) (s : State) : KeepsClock s (useProfile f s) :=
  keepsClock_guard fun _ => ((keepsClock_of_withdraws (withdraws_endQueryOf ..)).trans (keepsClock_changePeer ..)).trans
    (keepsClock_of_offers (offers_pump _))

theorem keepsClock_takePart (f : Frame) (p : Pair) (placed : Placed) (expected : Nat) (s : State) :
    KeepsClock s (takePart f p placed expected s) := by
  have compare (t : State) (h : HeardEntry) : KeepsClock t (compareEntry f.source p.bucket t h) := by
    unfold compareEntry
    split
    · exact keepsClock_of_withdraws (withdraws_wantAdd ..)
    · exact .refl t
  refine (keepsClock_fold compare (heardEntries (f.payload.drop 4)) s).trans (keepsClock_ite (fun _ => ?_) fun _ => ?_)
  · exact (keepsClock_of_withdraws (withdraws_finishQuery _)).trans
      (keepsClock_of_offers ((offers_pumpReconciler _).trans (offers_pumpFetch _)))
  · refine KeepsClock.trans ?_ (keepsClock_of_offers (offers_pumpFetch _))
    exact keepsClock_of_fields rfl rfl rfl

theorem keepsClock_useBucketReply (f : Frame) (s : State) : KeepsClock s (useBucketReply f s) := by
  unfold useBucketReply
  split
  · refine keepsClock_ite (fun _ => .refl s) fun _ => keepsClock_ite (fun _ => ?_) fun _ => ?_
    · exact (keepsClock_of_withdraws (withdraws_failBucketQuery s)).trans
        (keepsClock_of_offers (offers_pumpReconciler _))
    · exact keepsClock_takePart ..
  all_goals exact .refl s

theorem keepsClock_acceptRequest (f : Frame) (kind : JobKind) (s : State) : KeepsClock s (acceptRequest f kind s) := by
  refine keepsClock_guard fun _ => KeepsClock.trans ?_ (keepsClock_of_offers (offers_pumpResponder _))
  exact keepsClock_ite (fun _ => keepsClock_of_fields rfl rfl rfl) fun _ =>
    keepsClock_guard fun _ => keepsClock_of_fields rfl rfl rfl

/-! ### Timers -/

theorem keepsClock_countAttempt (k : Key) (s : State) : KeepsClock s (countAttempt k s) := by
  unfold countAttempt
  split
  · exact keepsClock_ite (fun _ => keepsClock_of_fields rfl rfl rfl) fun _ => keepsClock_of_fields rfl rfl rfl
  · exact .refl s

theorem answersKeeping_profileReplyTimeout (s : State) : AnswersKeeping s (execProfileReplyTimeout s) :=
  answersKeeping_next (keepsClock_guard fun _ =>
    (keepsClock_of_withdraws ((withdraws_query none s).trans (withdraws_dropRequest ..))).trans
      (keepsClock_of_offers (offers_pumpProfile _)))

theorem answersKeeping_bucketReplyTimeout (s : State) : AnswersKeeping s (execBucketReplyTimeout s) := by
  refine answersKeeping_next (keepsClock_guard fun _ => ?_)
  split
  · exact (keepsClock_of_withdraws (withdraws_failBucketQuery s)).trans
      (keepsClock_of_offers (offers_pumpReconciler _))
  all_goals exact .refl s

theorem answersKeeping_fetchReplyTimeout (i : Fin 4) (s : State) : AnswersKeeping s (execFetchReplyTimeout i s) := by
  refine answersKeeping_next (keepsClock_guard fun _ => ?_)
  split
  · exact ((keepsClock_of_withdraws (withdraws_freeFetchSlot i s)).trans (keepsClock_countAttempt ..)).trans
      (keepsClock_of_offers (offers_pumpFetch _))
  all_goals exact .refl s

theorem answersKeeping_silenceLimit (p : Station) (s : State) : AnswersKeeping s (execSilenceLimit p s) :=
  answersKeeping_next (keepsClock_guard fun _ =>
    ((keepsClock_changePeer ..).trans (keepsClock_of_withdraws (withdraws_purgePeer ..))).trans
      (keepsClock_of_offers (offers_pump _)))

theorem answersKeeping_absenceLimit (p : Station) (s : State) : AnswersKeeping s (execAbsenceLimit p s) :=
  answersKeeping_next (keepsClock_guard fun _ =>
    ((keepsClock_of_withdraws ((withdraws_discardJobs p s).trans (withdraws_endQueryOf ..))).trans
      (keepsClock_changePeer ..)).trans (keepsClock_of_offers (offers_pump _)))

theorem answersKeeping_duplicateMarkExpiry (p : Station) (s : State) : AnswersKeeping s (execDuplicateMarkExpiry p s) :=
  answersKeeping_next (keepsClock_guard fun _ =>
    (keepsClock_changePeer ..).trans (keepsClock_of_offers (offers_pumpProfile _)))

/-! ### The arbiter -/

theorem answersKeeping_readGrant (s : State) : AnswersKeeping s (execReadGrant s) := by
  refine answersKeeping_next (keepsClock_guard fun _ => ?_)
  split
  · exact keepsClock_of_fields rfl rfl rfl
  · exact .refl s

theorem keepsClock_setPhase {s : State} {i : Fin 4} {x : Slot} (hx : s.upd.slots[i] = some x) (p : SlotPhase) :
    KeepsClock s (setSlot i (some { x with phase := p }) s) := keepsClock_of_slot_same hx rfl rfl rfl rfl rfl

theorem keepsClock_startProgramming (who : Appender) (loc : Loc) (s : State) :
    KeepsClock s (startProgramming who loc s) := by
  unfold startProgramming
  split
  · split
    · exact keepsClock_setPhase ‹_› _
    · exact .refl s
  · exact keepsClock_of_fields rfl rfl rfl

theorem keepsClock_beginProgram (who : Appender) (r : Record) (loc : Loc) (opening : Option Opening) (s : State) :
    KeepsClock s (beginProgram who r loc opening s) := by
  have used : KeepsClock s (useGranules loc.sector (imageLen r.value.length) s) := keepsClock_of_fields rfl rfl rfl
  refine (used.trans (keepsClock_startProgramming who loc _)).trans ?_
  exact keepsClock_of_fields rfl rfl rfl

theorem keepsClock_openAt (i : Nat) (s : State) : KeepsClock s (openAt i s).1 := by
  have close : KeepsClock s (closeOpen s) := by
    unfold closeOpen
    split
    · exact keepsClock_of_fields rfl rfl rfl
    · exact .refl s
  exact close.trans (keepsClock_of_fields rfl rfl rfl)

theorem keepsClock_takePlace (who : Appender) (r : Record) (p : Place) (s : State) :
    KeepsClock s (takePlace who r p s) := by
  unfold takePlace
  split
  · exact keepsClock_beginProgram ..
  · exact (keepsClock_openAt ..).trans (keepsClock_beginProgram ..)

theorem keepsClock_grantSlot (i : Fin 4) (s : State) : KeepsClock s (grantSlot i s) := by
  unfold grantSlot
  split
  · rename_i x hx
    split
    · exact keepsClock_takePlace ..
    · refine (keepsClock_testTrigger s).trans
        (keepsClock_ite (fun _ => keepsClock_setPhase ?_ _) fun _ => keepsClock_failSlots ..)
      rw [(testTrigger_facts s).1]
      exact hx
  · exact .refl s

theorem keepsClock_answerCopy (s : State) : KeepsClock s (answerCopy s) := by
  unfold answerCopy
  split
  · exact keepsClock_stallCompaction ..
  · exact keepsClock_of_fields rfl rfl rfl
  all_goals exact .refl s

theorem keepsClock_grantCopy (s : State) : KeepsClock s (grantCopy s) := by
  unfold grantCopy
  split
  · split
    · exact keepsClock_takePlace ..
    · exact keepsClock_answerCopy s
  · exact .refl s

theorem answersKeeping_appendGrant (s : State) : AnswersKeeping s (execAppendGrant s) := by
  have cause : KeepsClock s (settleCause s) := keepsClock_of_fields rfl rfl rfl
  refine answersKeeping_next (keepsClock_guard fun _ => ?_)
  split
  · exact (cause.trans (keepsClock_grantSlot ..)).trans (keepsClock_settleStore ..)
  · exact (cause.trans (keepsClock_grantCopy _)).trans (keepsClock_settleStore ..)
  · exact .refl s

theorem answersKeeping_markGrant (s : State) : AnswersKeeping s (execMarkGrant s) := by
  refine answersKeeping_next (keepsClock_guard fun _ => ?_)
  split
  · exact keepsClock_of_fields rfl rfl rfl
  · exact .refl s

/-- A guarded change outside directory, slots and Station Control. -/
theorem answersKeeping_guard {p : Prop} [Decidable p] {s t : State} (hd : t.dir = s.dir) (hu : t.upd.slots = s.upd.slots)
    (hc : t.ctl = s.ctl) : AnswersKeeping s (.next (if p then t else s)) :=
  answersKeeping_next (keepsClock_guard fun _ => keepsClock_of_fields hd hu hc)

/-! ### Completions -/

theorem keepsClock_clearOp (s : State) : KeepsClock s (clearOp s) := keepsClock_of_fields rfl rfl rfl

theorem answersKeeping_hostReadDone (s : State) : AnswersKeeping s (execHostReadDone s) := by
  refine answersKeeping_next ?_
  split
  · refine (keepsClock_clearOp s).trans ?_
    unfold answerRead
    split
    · split <;> exact keepsClock_complete ..
    all_goals exact .refl _
  all_goals exact .refl s

theorem answersKeeping_responderReadDone (s : State) : AnswersKeeping s (execResponderReadDone s) := by
  refine answersKeeping_next ?_
  split
  · refine (keepsClock_clearOp s).trans ?_
    unfold buildSupply
    split
    · rename_i found _ _ e _
      refine (keepsClock_of_offers (offers_setService (some (.built (readAs found e))) _)).trans
        (keepsClock_of_offers ?_)
      dsimp only
      split
      · exact (offers_placeReply _).trans (offers_pumpResponder _)
      · exact offers_waitForRoom ..
    all_goals exact .refl _
  · exact keepsClock_clearOp s
  all_goals exact .refl s

theorem keepsClock_walkOn (found : ImageRead) (s : State) : KeepsClock s (walkOn found s) := by
  unfold walkOn
  split
  · split
    · exact keepsClock_ite (fun _ => keepsClock_of_fields rfl rfl rfl) fun _ => keepsClock_of_fields rfl rfl rfl
    all_goals exact keepsClock_stallCompaction ..
  all_goals exact .refl s

theorem answersKeeping_compactionReadDone (s : State) : AnswersKeeping s (execCompactionReadDone s) := by
  refine answersKeeping_next ?_
  split
  · exact ((keepsClock_clearOp s).trans (keepsClock_walkOn ..)).trans (keepsClock_settleStore ..)
  all_goals exact .refl s

theorem keepsClock_endProgram (loc : Loc) (opening : Option Opening) (image failed : List Byte) (s : State) :
    KeepsClock s (clearOp (programAppend loc opening image failed 0 s)) := by
  obtain ⟨hd, hu, hc⟩ := programAppend_fields loc opening image failed 0 s
  exact keepsClock_of_fields hd (congrArg (·.slots) hu) hc

theorem keepsClock_modifySector (i : Nat) (f : Sector → Sector) (s : State) : KeepsClock s (modifySector i f s) :=
  keepsClock_of_fields rfl rfl rfl

theorem keepsClock_passUpdate {i : Fin 4} {x : Slot} {s : State} (hx : s.upd.slots[i] = some x) (loc : Loc) (old : State) :
    KeepsClock s (passUpdate i x loc old s) :=
  ((((keepsClock_modifySector ..).trans (keepsClock_commitSlot (s := closeIfFull loc.sector s) hx loc)).trans
    (keepsClock_settleStore ..)).trans (keepsClock_of_offers (offers_pumpFetch _))).trans (keepsClock_offerCommitNews ..)

theorem keepsClock_failUpdate {i : Fin 4} {x : Slot} {s : State} (hx : s.upd.slots[i] = some x) (loc : Loc) (old : State) :
    KeepsClock s (failUpdate i x loc old s) := by
  refine ((keepsClock_modifySector loc.sector closeSector s).trans
    (keepsClock_ite (fun _ => keepsClock_failSlots ..) fun _ => ?_)).trans (keepsClock_settleStore ..)
  exact keepsClock_of_slot_same (s := closeFailed loc.sector s) hx rfl rfl rfl rfl rfl

theorem answersKeeping_updateProgramDone (failed : List Byte) (s : State) :
    AnswersKeeping s (execUpdateProgramDone failed s) := by
  refine answersKeeping_next ?_
  split
  · rename_i i loc opening image _
    have ended := keepsClock_endProgram loc opening image failed s
    refine keepsClock_ite (fun _ => ended) fun _ => ?_
    split
    · rename_i x hx
      have hx' : (clearOp (programAppend loc opening image failed 0 s)).upd.slots[i] = some x := by
        rw [show (clearOp (programAppend loc opening image failed 0 s)).upd = s.upd from (programAppend_fields ..).2.1]
        exact hx
      exact keepsClock_ite (fun _ => ended.trans (keepsClock_passUpdate hx' ..)) fun _ =>
        ended.trans (keepsClock_failUpdate hx' ..)
    · exact ended
  all_goals exact .refl s

theorem keepsClock_passCopy (c : CopySlot) (loc : Loc) (s : State) : KeepsClock s (passCopy c loc s) := by
  refine ((keepsClock_modifySector ..).trans (keepsClock_commitCopy c loc (closeIfFull loc.sector s))).trans ?_
  exact keepsClock_of_fields rfl rfl rfl

theorem answersKeeping_copyProgramDone (failed : List Byte) (s : State) :
    AnswersKeeping s (execCopyProgramDone failed s) := by
  refine answersKeeping_next ?_
  split
  · rename_i loc opening image _
    have ended := keepsClock_endProgram loc opening image failed s
    refine keepsClock_ite (fun _ => ended) fun _ => ?_
    split
    · refine KeepsClock.trans (keepsClock_ite (fun _ => ended.trans (keepsClock_passCopy ..)) fun _ => ended.trans ?_)
        (keepsClock_settleStore ..)
      exact keepsClock_of_fields rfl rfl rfl
    · exact ended
  all_goals exact .refl s

theorem answersKeeping_reclaimMarkDone (s : State) : AnswersKeeping s (execReclaimMarkDone s) := by
  refine answersKeeping_next ?_
  split
  · refine keepsClock_ite (fun _ => keepsClock_of_fields rfl rfl rfl) fun _ =>
      KeepsClock.trans ?_ (keepsClock_settleStore ..)
    exact keepsClock_of_fields rfl rfl rfl
  all_goals exact .refl s

theorem answersKeeping_eraseMarkDone (s : State) : AnswersKeeping s (execEraseMarkDone s) := by
  refine answersKeeping_next ?_
  split
  · refine keepsClock_ite (fun _ => keepsClock_of_fields rfl rfl rfl) fun _ =>
      KeepsClock.trans ?_ (keepsClock_settleStore ..)
    exact keepsClock_of_fields rfl rfl rfl
  all_goals exact .refl s

theorem keepsClock_retire (v : Nat) (markerFailed : Byte) (s : State) : KeepsClock s (retire v markerFailed s) := by
  have marked : KeepsClock s (modifySector v (fun x => { x with state := .retired, seq := none })
      (dropErase (programMark v retiredMark markerFailed s))) := keepsClock_of_fields rfl rfl rfl
  exact ((marked.trans (keepsClock_nextRun _)).trans (keepsClock_guard fun _ => keepsClock_failStoreWait _)).trans
    (keepsClock_post ..)

theorem answersKeeping_eraseDone (failed : List (Nat × Byte)) (markerFailed : Byte) (s : State) :
    AnswersKeeping s (execEraseDone failed markerFailed s) := by
  refine answersKeeping_next ?_
  split
  · rename_i e _
    have erased : KeepsClock s { s with flash := s.flash.erase (headerAddr e.sector) failed } :=
      keepsClock_of_fields rfl rfl rfl
    refine keepsClock_guard fun _ => keepsClock_ite (fun _ => keepsClock_of_fields rfl rfl rfl) fun _ => ?_
    exact (erased.trans (keepsClock_retire ..)).trans (keepsClock_settleStore ..)
  · exact .refl s

theorem answersKeeping_eraseCountProgrammed (s : State) : AnswersKeeping s (execEraseCountProgrammed s) := by
  refine answersKeeping_next ?_
  split
  · rename_i e _
    have counted : KeepsClock s (dropErase (programEraseCount e.sector [] 0 s)) := keepsClock_of_fields rfl rfl rfl
    refine keepsClock_guard fun _ => keepsClock_ite (fun _ => counted) fun _ => ?_
    exact (((counted.trans (keepsClock_modifySector ..)).trans (keepsClock_wakeStoreWait _)).trans
      (keepsClock_nextRun _)).trans (keepsClock_settleStore ..)
  · exact .refl s

end Sys2Proof.Proofs
end

