-- ==== Sys2Proof/Proofs/Clock4.lean ====
section
/-! PROOFS. The clock law (R11), concluded: the scan, the resets' ends, and every step. -/

namespace Sys2Proof.Proofs
open Sys2Proof Sys2Proof.Machine

/-! ## The start-up scan and the ends of resets, which build the directory anew -/

theorem length_headerTable (m : Memory) : (headerTable m).length = 64 := by
  simp [headerTable, sectorNumbers]

/-- An image of a sector with content is one of those the clock is rebuilt from (R13, R77). -/
theorem counter_mem_scanCounters {m : Memory} {i : Nat} {c : Loc × Record} (hi : i ∈ scanOrder (headerTable m))
    (hc : c ∈ (imagesOf m i).images) : c.2.stamp.counter ∈ scanCounters m (headerTable m) := by
  obtain ⟨x, hx, hcon⟩ := ((scanOrder_spec _).1 i).1 hi
  have hlt : i < 64 := length_headerTable m ▸ (List.getElem?_eq_some_iff.1 hx).1
  unfold scanCounters
  refine List.mem_flatMap.2 ⟨i, List.mem_range.2 hlt, List.mem_append_right _ ?_⟩
  simp only [hx, clockImages, hcon, if_true]
  exact List.mem_map.2 ⟨c, hc, rfl⟩

/-- The clock the scan rebuilds covers every entry it keeps (R13). -/
theorem scan_covers (s : State) : ∀ e ∈ (scan s).dir.entries, e.stamp.counter.toNat ≤ (scan s).dir.clock.toNat := by
  intro e he
  obtain ⟨before, c, after, hl, rfl, -⟩ := (foldl_keepCandidate s _).2.1 e he
  have hc : c ∈ (scanOrder (headerTable s.flash)).flatMap fun i => (imagesOf s.flash i).images := by
    rw [hl]
    exact List.mem_append_right _ List.mem_cons_self
  obtain ⟨i, hi, hc⟩ := List.mem_flatMap.1 hc
  exact (largest_spec _).1 _ (counter_mem_scanCounters hi hc)

/-- With no slot busy and the entries covered, the law holds. -/
theorem clockLaw_of_free {s : State} (he : ∀ e ∈ s.dir.entries, e.stamp.counter.toNat ≤ s.dir.clock.toNat)
    (hu : ∀ i : Fin 4, s.upd.slots[i] = none) : ClockLaw s where
  entries := he
  records i x hx := by rw [hu i] at hx; cases hx
  followers i x f hx := by rw [hu i] at hx; cases hx
  scan _ := hu

theorem clockLaw_startUpScanEnd {s t : State} (hs : ClockLaw s) (h : exec .startUpScanEnd s = .next t) : ClockLaw t := by
  rw [exec_startUpScanEnd, execStartUpScanEnd, Host.Outcome.next.injEq] at h
  subst h
  split
  · rename_i hscan
    refine ((keepsClock_nextRun _).trans (keepsClock_advanceWalk _)).law (clockLaw_of_free ?_ ?_)
    · exact scan_covers s
    · exact hs.scan hscan
  · exact hs

/-- RAM cleared leaves no entry and no busy slot (R156). -/
theorem clockLaw_resetEnd (straps : Station) (s : State) : ClockLaw (resetEnd straps s) := by
  have cleared (u : State) (hd : u.dir = Directory.cleared) (hu : u.upd = UpdateUnit.cleared) : ClockLaw u := by
    refine clockLaw_of_free (fun e he => ?_) fun i => ?_
    · rw [hd] at he
      cases he
    · rw [hu]
      exact Vector.getElem_replicate ..
  unfold resetEnd readArea
  dsimp only
  split <;> exact cleared _ rfl rfl

theorem answersKeeping_ackDiverged (s : State) : AnswersKeeping s (execAckDiverged s) := by
  unfold execAckDiverged
  refine answersKeeping_immediate ?_
  exact keepsClock_of_fields rfl rfl rfl

/-- Every command but the start-up scan's end and the resets' ends keeps the clock. -/
theorem answersKeeping_exec (c : Instr) (s : State) (hscan : c ≠ .startUpScanEnd)
    (hends : ∀ p, c ≠ .powerOnResetEnd p ∧ c ≠ .pinResetEnd p ∧ c ≠ .softResetWaitEnd p) :
    AnswersKeeping s (exec c s) := by
  cases c with
  | status => exact answersKeeping_immediate (keepsClock_openTxn ..)
  | getReply => exact answersKeeping_immediate (keepsClock_openTxn ..)
  | readEvent => exact answersKeeping_immediate (keepsClock_takeEvent s)
  | readProfile offset => exact answersKeeping_immediate (keepsClock_openTxn ..)
  | softReset erased => exact answersKeeping_immediate (keepsClock_softResetStart ..)
  | ackDiverged => exact answersKeeping_ackDiverged s
  | writeRecord key value => exact answersKeeping_requestCommand (keepsClock_spacedAdmission key false value)
  | deleteRecord key => exact answersKeeping_requestCommand (keepsClock_spacedAdmission key true [])
  | readRecord key => exact answersKeeping_requestCommand (keepsClock_serveRead key)
  | listKeys start => exact answersKeeping_requestCommand (keepsClock_serveList start)
  | readPeers => exact answersKeeping_requestCommand keepsClock_servePeers
  | syncNow => exact answersKeeping_requestCommand keepsClock_serveSync
  | programConfig offset bytes => exact answersKeeping_requestCommand (keepsClock_serveProgram offset bytes)
  | lockConfig => exact answersKeeping_requestCommand keepsClock_serveLock
  | unknownCommand code => exact answersKeeping_immediate (keepsClock_openTxn ..)
  | transactionEnd clocked => exact keepsClock_endTxn clocked s
  | configProgramDone failed => exact answersKeeping_configProgramDone failed s
  | lockCheckProgrammed failed => exact answersKeeping_lockCheckProgrammed failed s
  | lockMarkerProgrammed failed => exact answersKeeping_lockMarkerProgrammed failed s
  | powerOnReset cut => exact answersKeeping_next (keepsClock_of_inReset (stopAll_fields cut s) rfl)
  | powerOnResetEnd p => exact absurd rfl (hends p).1
  | pinReset cut => exact answersKeeping_next (keepsClock_of_inReset (stopAll_fields cut s) (Bool.or_true _))
  | pinResetEnd p => exact absurd rfl (hends p).2.1
  | softResetWaitEnd p => exact absurd rfl (hends p).2.2
  | startUpScanEnd => exact absurd rfl hscan
  | listeningPeriodEnd => exact answersKeeping_listeningPeriodEnd s
  | settlingEnd => exact answersKeeping_guard rfl rfl rfl
  | frameStart => exact answersKeeping_frameStart s
  | frameEndGood bytes => exact answersKeeping_frameEndGood bytes s
  | frameEndGarbled => exact answersKeeping_guard rfl rfl rfl
  | guardEnd => exact answersKeeping_guard rfl rfl rfl
  | slotStart => exact answersKeeping_slotStart s
  | cycleEnd => exact answersKeeping_guard rfl rfl rfl
  | collisionDetected => exact answersKeeping_collisionDetected s
  | transmitEnd => exact answersKeeping_transmitEnd s
  | waitingFramePlaced => exact answersKeeping_waitingFramePlaced s
  | newsTaken => exact answersKeeping_takeFrame fun f _ => keepsClock_useNews f
  | supplyTaken => exact answersKeeping_takeFrame fun f _ => keepsClock_useSupply f
  | summaryTaken => exact answersKeeping_takeFrame fun f t _ => keepsClock_useSummary f t
  | profileTaken => exact answersKeeping_takeFrame fun f t _ => keepsClock_useProfile f t
  | bucketReplyTaken => exact answersKeeping_takeFrame fun f t _ => keepsClock_useBucketReply f t
  | fetchTaken => exact answersKeeping_takeFrame fun f t _ => keepsClock_guard fun _ => keepsClock_acceptRequest f _ t
  | bucketQueryTaken =>
    exact answersKeeping_takeFrame fun f t _ => keepsClock_guard fun _ => keepsClock_acceptRequest f _ t
  | profileQueryTaken =>
    exact answersKeeping_takeFrame fun f t _ => keepsClock_guard fun _ => keepsClock_acceptRequest f _ t
  | summaryTimerExpiry => exact answersKeeping_next (keepsClock_guard fun _ => keepsClock_expireSummary s)
  | profileReplyTimeout => exact answersKeeping_profileReplyTimeout s
  | bucketReplyTimeout => exact answersKeeping_bucketReplyTimeout s
  | fetchReplyTimeout slot => exact answersKeeping_fetchReplyTimeout slot s
  | silenceLimit peer => exact answersKeeping_silenceLimit peer s
  | absenceLimit peer => exact answersKeeping_absenceLimit peer s
  | duplicateMarkExpiry peer => exact answersKeeping_duplicateMarkExpiry peer s
  | readGrant => exact answersKeeping_readGrant s
  | appendGrant => exact answersKeeping_appendGrant s
  | markGrant => exact answersKeeping_markGrant s
  | eraseGrant => exact answersKeeping_guard rfl rfl rfl
  | eraseSuspended => exact answersKeeping_guard rfl rfl rfl
  | eraseResume => exact answersKeeping_guard rfl rfl rfl
  | hostReadDone => exact answersKeeping_hostReadDone s
  | responderReadDone => exact answersKeeping_responderReadDone s
  | compactionReadDone => exact answersKeeping_compactionReadDone s
  | updateProgramDone failed => exact answersKeeping_updateProgramDone failed s
  | copyProgramDone failed => exact answersKeeping_copyProgramDone failed s
  | reclaimMarkDone => exact answersKeeping_reclaimMarkDone s
  | eraseMarkDone => exact answersKeeping_eraseMarkDone s
  | eraseDone failed markerFailed => exact answersKeeping_eraseDone failed markerFailed s
  | settlingCarrier => exact answersKeeping_guard rfl rfl rfl
  | eraseCountProgrammed => exact answersKeeping_eraseCountProgrammed s

/-- One cause of a reset is over: the part is held by the other, or RAM is cleared (R156). -/
theorem clockLaw_causeOver {s u : State} {held : Bool} (p : Station) (hs : ClockLaw s) (hu : u.dir = s.dir ∧ u.upd = s.upd)
    (hr : held = true → inReset u = true) : ClockLaw (if held then u else resetEnd p u) := by
  split
  · exact (keepsClock_of_inReset hu (hr ‹_›)).law hs
  · exact clockLaw_resetEnd ..

theorem clockLaw_powerOnResetEnd {s t : State} (p : Station) (hs : ClockLaw s)
    (h : exec (.powerOnResetEnd p) s = .next t) : ClockLaw t := by
  rw [exec_powerOnResetEnd, execPowerOnResetEnd, Host.Outcome.next.injEq] at h
  subst h
  split
  · exact clockLaw_causeOver p hs ⟨rfl, rfl⟩ fun hpin => Bool.or_eq_true_iff.2 (.inr hpin)
  · exact hs

theorem clockLaw_pinResetEnd {s t : State} (p : Station) (hs : ClockLaw s)
    (h : exec (.pinResetEnd p) s = .next t) : ClockLaw t := by
  rw [exec_pinResetEnd, execPinResetEnd, Host.Outcome.next.injEq] at h
  subst h
  split
  · exact clockLaw_causeOver p hs ⟨rfl, rfl⟩ fun hpower => Bool.or_eq_true_iff.2 (.inl hpower)
  · exact hs

theorem clockLaw_softResetWaitEnd {s t : State} (p : Station) (hs : ClockLaw s)
    (h : exec (.softResetWaitEnd p) s = .next t) : ClockLaw t := by
  rw [exec_softResetWaitEnd, execSoftResetWaitEnd, Host.Outcome.next.injEq] at h
  subst h
  split
  · exact clockLaw_resetEnd ..
  · exact hs

/-- Every command keeps the clock law. -/
theorem clockLaw_exec {c : Instr} {s t : State} (hs : ClockLaw s) (h : exec c s = .next t) : ClockLaw t := by
  by_cases hscan : c = .startUpScanEnd
  · exact clockLaw_startUpScanEnd hs (hscan ▸ h)
  by_cases hpower : ∃ p, c = .powerOnResetEnd p
  · obtain ⟨p, rfl⟩ := hpower
    exact clockLaw_powerOnResetEnd p hs h
  by_cases hpin : ∃ p, c = .pinResetEnd p
  · obtain ⟨p, rfl⟩ := hpin
    exact clockLaw_pinResetEnd p hs h
  by_cases hsoft : ∃ p, c = .softResetWaitEnd p
  · obtain ⟨p, rfl⟩ := hsoft
    exact clockLaw_softResetWaitEnd p hs h
  obtain ⟨u, hu, keeps⟩ := answersKeeping_exec c s hscan fun p =>
    ⟨fun e => hpower ⟨p, e⟩, fun e => hpin ⟨p, e⟩, fun e => hsoft ⟨p, e⟩⟩
  rw [hu, Host.Outcome.next.injEq] at h
  exact h ▸ keeps.law hs

/-- Settles O55: `KeepsClock` for every command but the scan's end and the resets' ends, which rebuild what the law speaks
of; an idle step changes the time alone. -/
theorem stepsKeepClockLaw : Obligations.StepsKeepClockLaw := by
  intro s t hs h
  unfold step at h
  split at h
  · rename_i c rest _
    exact clockLaw_exec ((keepsClock_of_fields (s := s) (t := { s with pending := rest }) rfl rfl rfl).law hs) h
  · rw [Host.Outcome.next.injEq] at h
    exact h ▸ (keepsClock_of_fields (s := s) (t := tick s) rfl rfl rfl).law hs

end Sys2Proof.Proofs
end

