-- ==== Sys2Proof/Proofs/Stamps.lean ====
section
/-! PROOFS. The winning order (R10), and local admission (R34 to R39): the checks as propositions, and what a write or delete
that fails none of them leaves. -/

namespace Sys2Proof.Proofs
open Sys2Proof Sys2Proof.Machine Sys2Proof.Stated

/-! ## The winning order (R10) -/

theorem beatsUnder_once (a b : Stamp) : beatsUnder .once a b = newer b a := rfl

theorem beatsUnder_of_ne_once {p : Policy} (hp : p ≠ .once) (a b : Stamp) : beatsUnder p a b = newer a b := by
  cases p with
  | once => exact absurd rfl hp
  | openAll => rfl
  | owned => rfl
  | localOnly => rfl

theorem newer_irrefl (a : Stamp) : newer a a = false := by
  rw [← Bool.not_eq_true, newer_iff]
  omega

theorem newer_asymm {a b : Stamp} (h : newer a b = true) : newer b a = false := by
  rw [← Bool.not_eq_true]
  intro h'
  exact Bool.false_ne_true ((newer_irrefl a).symm.trans (newer_trans h h'))

theorem newer_or_newer {a b : Stamp} (h : a ≠ b) : newer a b = true ∨ newer b a = true := by
  by_cases hab : newer a b = true
  · exact Or.inl hab
  · exact Or.inr ((newer_total (Bool.not_eq_true _ ▸ hab)).resolve_left h)

/-- Settles O3: `newer` is a strict total order, and `beatsUnder` is it or, under ONCE, its reverse. -/
theorem beatsIsAStrictOrder : Obligations.BeatsIsAStrictOrder := by
  intro p a b c
  by_cases hp : p = .once
  · subst hp
    simp only [beatsUnder_once]
    refine ⟨newer_irrefl a, newer_asymm, fun h k => newer_trans k h, fun h => (newer_or_newer h).symm,
      fun h => absurd rfl h, ?_⟩
    rw [newer_iff, eq_comm (a := b.counter)]
  · simp only [beatsUnder_of_ne_once hp, beatsUnder_once]
    refine ⟨newer_irrefl a, newer_asymm, newer_trans, newer_or_newer, fun _ => newer_iff, ?_⟩
    rw [newer_iff, eq_comm (a := b.counter)]

/-! ## The checks of local admission (R34 to R37) -/

theorem hopeless_iff {s : State} {len : Nat} : hopeless s len = true ↔ Hopeless s len := by
  simp [hopeless, Hopeless, fullWithDead, and_assoc]

theorem validKey_eq_false_iff {k : Key} : validKey k = false ↔ k = 0x0000 ∨ k = 0xFFFF := by
  rw [← Bool.not_eq_true, validKey_iff]
  tauto

theorem freeSlot_isNone_iff {s : State} : (freeSlot s).isNone = true ↔ ∀ i : Fin 4, s.upd.slots[i] ≠ none := by
  simp only [freeSlot, Option.isNone_iff_eq_none, List.find?_eq_none]
  exact ⟨fun h i hi => h i (mem_slotNumbers i) (by simp [hi]), fun h i _ hi => h i (by simpa using hi)⟩

theorem freeSlot_eq_some {s : State} {i : Fin 4} (h : LowestFree s i) : freeSlot s = some i := by
  refine find_slotNumbers_eq _ i (by rw [h.1]; rfl) fun j hj => ?_
  rw [← Bool.not_eq_true, Option.isNone_iff_eq_none]
  exact h.2 j hj

/-- A check of the model says what the check of R34 at its place says, with the same refusal. -/
def SameCheck (b : Bool × ResultCode) (p : Prop × ResultCode) : Prop := (b.1 = true ↔ p.1) ∧ b.2 = p.2

/-- The model's checks are those of R34, in their order. -/
theorem admissionChecks_refuses (s : State) (k : Key) (tomb : Bool) (len : Nat) :
    List.Forall₂ SameCheck (admissionChecks s k tomb len) (Refuses s k tomb len) := by
  unfold admissionChecks Refuses
  refine .cons ⟨beq_iff_eq, rfl⟩ <| .cons ⟨beq_iff_eq, rfl⟩ <| .cons ⟨?muted, rfl⟩ <| .cons ⟨?badKey, rfl⟩ <|
    .cons ⟨?notOwner, rfl⟩ <| .cons ⟨?notDeletable, rfl⟩ <| .cons ⟨?alreadySet, rfl⟩ <| .cons ⟨?tooLong, rfl⟩ <|
    .cons ⟨slotWithKey_isSome, rfl⟩ <| .cons ⟨?dirFull, rfl⟩ <| .cons ⟨freeSlot_isNone_iff, rfl⟩ <|
    .cons ⟨beq_iff_eq, rfl⟩ <| .cons ⟨hopeless_iff, rfl⟩ .nil
  case muted => simp [isLocal]
  case badKey => rw [Bool.not_eq_true', validKey_eq_false_iff]
  case notOwner => simp [foreignKey, ownerOf]
  case notDeletable => simp
  case alreadySet => simp [and_assoc, Option.isSome_iff_ne_none]
  case tooLong => simp
  case dirFull => rw [Bool.and_eq_true, dirFull_iff, Option.isNone_iff_eq_none]

theorem admissionRefusal_eq_none {s : State} {k : Key} {tomb : Bool} {len : Nat}
    (h : ∀ c ∈ Refuses s k tomb len, ¬ c.1) : admissionRefusal s k tomb len = none := by
  rw [admissionRefusal, Option.map_eq_none_iff, List.find?_eq_none]
  intro b hb
  obtain ⟨n, hn, rfl⟩ := List.mem_iff_getElem.1 hb
  have same := admissionChecks_refuses s k tomb len
  have hn' := hn
  rw [same.length_eq] at hn'
  exact fun hb => h _ (List.getElem_mem hn') ((same.get hn hn').1.1 hb)

/-! ## Admission (R38) -/

/-- A FREE slot that is claimed is seen by the space test (R67). -/
theorem spaceEvent_of_claimed {old s : State} {i : Fin 4} {x : Slot} (ho : old.upd.slots[i] = none)
    (hs : s.upd.slots[i] = some x) : spaceEvent old s = spaceTest s := by
  unfold spaceEvent
  refine if_neg fun h => ?_
  have hv := congrArg (fun v => v.2.1) h
  simp only [spaceView, List.map_inj_left] at hv
  have hi := hv i (mem_slotNumbers i)
  rw [ho, hs] at hi
  cases hi

theorem getElem_set_slot {v : Vector (Option Slot) 4} {i : Fin 4} {x : Option Slot} : (v.set i x)[i] = x := by
  rw [slots_set_eq, if_pos rfl]

/-- A request command is handed on where the port is free (R170). -/
theorem requestCommand_free {serve : State → State} {s : State} (h : FreePort s) :
    requestCommand serve s = .next (serve (accept s)) := by
  unfold requestCommand immediate
  rw [if_pos (canTake_iff.2 h.1)]
  dsimp only
  rw [if_neg (by simp [h.2])]

/-- Admission into a slot, after the request's acceptance, as the statement has it (R38, R39). -/
theorem admitLocal_accept (i : Fin 4) (k : Key) (tomb : Bool) (value : List Byte) (s : State) :
    admitLocal i k tomb value (accept s) = admitted i k tomb value s := by
  unfold admitLocal
  dsimp only
  rw [claimSlot_eq]
  rfl

/-- A write or delete that fails no check is admitted, and the space test is made of its slot. -/
theorem admission_of_no_refusal {s : State} {k : Key} {tomb : Bool} {value : List Byte} {i : Fin 4}
    (hi : LowestFree s i) (h : ∀ c ∈ Refuses s k tomb value.length, ¬ c.1) :
    spaceEvent (accept s) (localAdmission k tomb value (accept s)) = spaceTest (admitted i k tomb value s) := by
  have hn : admissionRefusal (accept s) k tomb value.length = none := admissionRefusal_eq_none (s := s) h
  have hf : freeSlot (accept s) = some i := freeSlot_eq_some (s := s) hi
  unfold localAdmission
  simp only [hn, hf]
  rw [admitLocal_accept]
  exact spaceEvent_of_claimed (i := i) hi.1 getElem_set_slot

/-- Settles O14. -/
theorem localAdmissionAdmits : Obligations.LocalAdmissionAdmits := by
  intro s k value i hp hi
  refine ⟨fun h => ?_, fun h => ?_⟩
  · rw [exec_writeRecord, execWriteRecord, requestCommand_free hp, admission_of_no_refusal hi h]
  · rw [exec_deleteRecord, execDeleteRecord, requestCommand_free hp, admission_of_no_refusal hi h]

end Sys2Proof.Proofs
end

