-- ==== Sys2Proof/Proofs/Arrivals.lean ====
section
/-! PROOFS. Arrivals (R40 to R44): a NEWS taken, its tests as propositions, and what becomes of its record. -/

namespace Sys2Proof.Proofs
open Sys2Proof Sys2Proof.Machine Sys2Proof.Stated

/-! ## Taking a frame (R86) -/

theorem isForBlock_iff {k : FrameKind} {f : Frame} : isForBlock k f = true ↔ ForBlock k f := by
  have responders : (∃ j, f.kind = some j ∧ (j = .fetch ∨ j = .bucketQuery ∨ j = .profileQuery)) ↔
      f.kind = some .fetch ∨ f.kind = some .bucketQuery ∨ f.kind = some .profileQuery := by
    simp [and_or_left, exists_or]
  rw [ForBlock, responders]
  cases k <;> simp [isForBlock, isKind, blockKinds] <;> tauto

/-- The oldest frame for a block, of the kind it takes, leaves the Receive Queue and is used. -/
theorem takeFrame_of_waits {s : State} {k : FrameKind} {pre post : List Frame} {f : Frame} (h : Waits s k pre f post)
    (use : Frame → State → State) : takeFrame k use s = .next (use f (taken pre post s)) := by
  obtain ⟨hup, hq, hk, hpre⟩ := h
  have hf : isForBlock k f = true := isForBlock_iff.2 (Or.inl hk)
  have hnone : ∀ x ∈ pre, ¬ isForBlock k x = true := fun x hx e => hpre x hx (isForBlock_iff.1 e)
  have hfind : s.line.rxq.find? (isForBlock k) = some f := by
    rw [hq, List.find?_append, List.find?_eq_none.2 hnone, List.find?_cons_of_pos hf, Option.none_or]
  have herase : s.line.rxq.eraseP (isForBlock k) = pre ++ post := by
    rw [hq, List.eraseP_append_right _ hnone, List.eraseP_cons_of_pos hf]
  unfold takeFrame
  simp only [isUp_iff.2 hup, hfind, isKind, hk, beq_self_eq_true, if_true, herase, taken]

/-! ## The tests of an arrival (R40, R41) -/

theorem isMalformed_iff {s : State} {r : Record} : isMalformed s r = true ↔ Malformed s r := by
  simp only [isMalformed, Malformed, Bool.or_eq_true, Bool.not_eq_true', validKey_eq_false_iff, isLocal_iff,
    decide_eq_true_eq, Bool.and_eq_true, List.isEmpty_eq_false_iff, or_assoc]

theorem isForeign_iff {s : State} {r : Record} : isForeign s r = true ↔ Foreign s r := by
  simp [isForeign, Foreign, ownerOf]

theorem isStale_iff {s : State} {r : Record} : isStale s r = true ↔ Stale s r := by
  unfold isStale Stale
  split
  · rename_i e he
    simp [he]
  · rename_i he
    simp [he]

/-- The clock's raise is that of the statements. -/
theorem raiseClock_eq_raised (c : Counter) (s : State) : raiseClock c s = raised c s := by
  unfold raiseClock raised
  split <;> rfl

/-- A MALFORMED or FOREIGN arrival has no effect. -/
theorem arrive_of_refused {s : State} {r : Record} (source : Station) (h : Malformed s r ∨ Foreign s r) :
    arrive r source s = s := by
  unfold arrive
  rw [if_pos (Bool.or_eq_true_iff.2 (h.imp isMalformed_iff.2 isForeign_iff.2))]

/-- Another arrival raises the clock and goes on to the tests that follow. -/
theorem arrive_of_accepted {s : State} {r : Record} (source : Station) (hm : ¬ Malformed s r) (hf : ¬ Foreign s r) :
    arrive r source s = placeArrival r source (raised r.stamp.counter s) := by
  unfold arrive
  rw [if_neg, raiseClock_eq_raised]
  rw [Bool.or_eq_true, isMalformed_iff, isForeign_iff]
  exact fun h => h.elim hm hf

theorem placeArrival_of_stale {s : State} {r : Record} (source : Station) (h : Stale s r) :
    placeArrival r source s = s := if_pos (isStale_iff.2 h)

/-! ## A NEWS whose record arrives (R117) -/

/-- What a NEWS of a PRESENT sender brings about, but for the space test: FREE fetch slots find nothing new to take where
the arrival leaves Want List and fetch slots as they were. -/
theorem newsTaken_of_fetch_same {s t : State} {pre post : List Frame} {f : Frame} {r : Record}
    (h : NewsOf s pre f post r) (ha : arrive r f.source (taken pre post s) = t) (hc : t.ctl = s.ctl)
    (hf : t.fetch = s.fetch) : exec .newsTaken s = .next (spaceEvent (taken pre post s) t) := by
  obtain ⟨hwaits, hpresent, hparse, hlaw⟩ := h
  have hp : isPresent (taken pre post s) f.source = true := beq_iff_eq.2 hpresent
  rw [exec_newsTaken, execNewsTaken, takeFrame_of_waits hwaits]
  simp only [useNews, hp, if_true, hparse, offerArrival, ha, pumpFetch_settled hlaw hc hf]

/-- Settles O31: a header that disagrees and the first two tests leave the taken frame's removal alone; the third comes after
the clock's raise. -/
theorem arrivalsAreDropped : Obligations.ArrivalsAreDropped := by
  refine ⟨fun s pre f post hw hn => ?_, fun s pre f post r h => ⟨fun hm => ?_, fun hf => ?_, fun hm hf hs => ?_⟩⟩
  · rw [exec_newsTaken, execNewsTaken, takeFrame_of_waits hw]
    simp only [useNews, hn, ite_self]
  · rw [newsTaken_of_fetch_same h (arrive_of_refused (s := taken pre post s) _ (Or.inl hm)) rfl rfl,
      spaceEvent_of_same _ _ rfl rfl]
  · rw [newsTaken_of_fetch_same h (arrive_of_refused (s := taken pre post s) _ (Or.inr hf)) rfl rfl,
      spaceEvent_of_same _ _ rfl rfl]
  · have ha : arrive r f.source (taken pre post s) = raised r.stamp.counter (taken pre post s) := by
      rw [arrive_of_accepted (s := taken pre post s) _ hm hf,
        placeArrival_of_stale (s := raised r.stamp.counter (taken pre post s)) _ hs]
    rw [newsTaken_of_fetch_same h ha rfl rfl,
      spaceEvent_of_same (taken pre post s) (raised r.stamp.counter (taken pre post s)) rfl rfl]

/-! ## A winning arrival (R42, R43) -/

/-- A follower is taken where the record beats the slot's and its follower, if it has one (R42). -/
theorem meetSlot_of_beats {s : State} {r : Record} (i : Fin 4) {x : Slot}
    (hb : beats s r.key r.stamp x.record.stamp = true)
    (hf : ∀ g, x.follower = some g → beats s r.key r.stamp g.stamp = true) :
    meetSlot i x r s = setSlot i (some { x with follower := some r }) s := by
  unfold meetSlot
  rw [if_pos hb]
  split
  · rfl
  · rename_i g hg
    rw [if_pos (hf g hg)]

/-- Otherwise the record is dropped (R42). -/
theorem meetSlot_of_beaten {s : State} {r : Record} (i : Fin 4) {x : Slot}
    (h : beats s r.key r.stamp x.record.stamp = false ∨
      ∃ g, x.follower = some g ∧ beats s r.key r.stamp g.stamp = false) : meetSlot i x r s = s := by
  unfold meetSlot
  rcases h with hb | ⟨g, hg, hb⟩
  · simp [hb]
  · simp [hg, hb]

theorem placeArrival_of_slot {s : State} {r : Record} (source : Station) {i : Fin 4} {x : Slot} (hs : ¬ Stale s r)
    (hw : slotWithKey s r.key = some i) (hx : s.upd.slots[i] = some x) :
    placeArrival r source s = meetSlot i x r s := by
  unfold placeArrival
  rw [if_neg (by rwa [isStale_iff])]
  simp only [hw, hx]

theorem placeArrival_of_no_slot {s : State} {r : Record} (source : Station) (hs : ¬ Stale s r)
    (hw : slotWithKey s r.key = none) : placeArrival r source s = seekSlot r source s := by
  unfold placeArrival
  rw [if_neg (by rwa [isStale_iff])]
  simp only [hw]

/-- A record whose key the directory has, or has room for, claims the lowest FREE slot (R43). -/
theorem seekSlot_of_free {s : State} {r : Record} (source : Station) {i : Fin 4} (hi : LowestFree s i)
    (hr : lookup s r.key = none → s.dir.entryCount + s.dir.reservations < 1024) :
    seekSlot r source s = claimSlot i .peer r s := by
  unfold seekSlot
  rw [if_neg]
  · simp only [freeSlot_eq_some hi]
  · rw [Bool.and_eq_true, Option.isNone_iff_eq_none, dirFull_iff]
    exact fun h => Nat.not_le.2 (hr h.1) h.2

/-- A follower is nothing that the space test watches (R67). -/
theorem spaceView_follower {s : State} {i : Fin 4} {x : Slot} (hx : s.upd.slots[i] = some x) (r : Record) :
    spaceView (setSlot i (some { x with follower := some r }) s) = spaceView s := by
  unfold spaceView
  refine congrArg₂ Prod.mk rfl (congrArg₂ Prod.mk (List.map_congr_left fun j _ => ?_) rfl)
  simp only [setSlot_upd, slots_set_eq]
  split
  · rename_i hij
    subst hij
    rw [hx]
    rfl
  · rfl

/-- Settles O32. -/
theorem arrivalsAreAdmitted : Obligations.ArrivalsAreAdmitted := by
  intro s pre f post r h hm hf hs t
  have ha : arrive r f.source (taken pre post s) = placeArrival r f.source t :=
    arrive_of_accepted (s := taken pre post s) _ hm hf
  refine ⟨fun i x hx hk hfirst => ?_, fun i hother hi hr => ?_⟩
  · have hmeet : placeArrival r f.source t = meetSlot i x r t :=
      placeArrival_of_slot (s := t) _ hs (slotWithKey_eq_some hx hk hfirst) hx
    refine ⟨fun hb hg => ?_, fun hb => ?_⟩
    · have hset := meetSlot_of_beats (s := t) i hb hg
      rw [newsTaken_of_fetch_same h ((ha.trans hmeet).trans hset) rfl rfl,
        spaceEvent_same (o := taken pre post s) (spaceView_follower (s := t) hx r).symm]
      rfl
    · rw [newsTaken_of_fetch_same h ((ha.trans hmeet).trans (meetSlot_of_beaten (s := t) i hb)) rfl rfl,
        spaceEvent_of_same (taken pre post s) t rfl rfl]
  · have hseek : placeArrival r f.source t = claimSlot i .peer r t :=
      (placeArrival_of_no_slot (s := t) _ hs (slotWithKey_eq_none hother)).trans (seekSlot_of_free (s := t) _ hi hr)
    rw [claimSlot_eq] at hseek
    rw [newsTaken_of_fetch_same h (ha.trans hseek) rfl rfl,
      spaceEvent_of_claimed (i := i) (show (taken pre post s).upd.slots[i] = none from hi.1) getElem_set_slot]
    rfl

end Sys2Proof.Proofs
end

