-- ==== Sys2Proof/Proofs/Commit.lean ====
section
/-! PROOFS. An update's commit (R47 to R50): the program's verify, the directory's side, the Want List's pruning, the slot's
release, each said once; then the whole event. -/

namespace Sys2Proof.Proofs
open Sys2Proof Sys2Proof.Machine Sys2Proof.Stated

/-! ## The program and its verify (R60) -/

/-- Flash after the program, with the request over, as the statement has it. -/
theorem clearOp_programAppend (loc : Loc) (opening : Option Opening) (image bits : List Byte) (s : State) :
    clearOp (programAppend loc opening image bits 0 s) = endOp (flashAfter loc opening image bits s) s := by
  unfold programAppend flashAfter
  cases opening with
  | none => rfl
  | some o =>
    simp only [clearOp, programFlash, endOp, granuleAddr, headerAddr]

theorem length_openingRecord (o : Opening) : (openingRecord o).length = 12 := by
  simp [openingRecord, openingHead, be16, be32]

/-- Bytes 3 to 14 of the header granule are the opening record. -/
theorem getD_openingGranule (o : Opening) {i : Nat} (hi : i < 12) :
    (openingGranule o).getD (3 + i) 0 = (openingRecord o).getD i 0 := by
  have hg : openingGranule o = [0xFF, 0xFF, 0xFF] ++ (openingRecord o ++ [0xFF]) := by
    simp [openingGranule, openingRecord]
  have hl := length_openingRecord o
  rw [hg, List.getD_append_right _ _ _ _ (by simp), List.getD_append _ _ _ _ (by simp; omega)]
  simp

/-- A program that reads back passes the verify. -/
theorem verifies_of_readsBack {m : Memory} {loc : Loc} {opening : Option Opening} {image : List Byte}
    (h : ReadsBack m loc opening image) : verifies m loc opening image = true := by
  obtain ⟨himage, hopening⟩ := h
  unfold verifies
  rw [Bool.and_eq_true, beq_iff_eq]
  refine ⟨(readBytes_eq_iff ..).2 himage, ?_⟩
  split
  · rename_i o
    rw [beq_iff_eq, ← length_openingRecord o, readBytes_eq_iff, length_openingRecord]
    intro i hi
    rw [← getD_openingGranule o hi, headerAddr_eq, Nat.add_assoc]
    exact hopening o rfl (3 + i) (by omega) (by omega)
  · rfl

/-! ## The directory's side (R20, R21, R24) -/

theorem commitEntry_entries (e : Entry) (s : State) : (commitEntry e s).dir.entries = putEntry s.dir.entries e := by
  rw [commitEntry_dir]; cases lookup s e.key <;> rfl

theorem commitEntry_clock (e : Entry) (s : State) : (commitEntry e s).dir.clock = s.dir.clock := by
  rw [commitEntry_dir]; cases lookup s e.key <;> rfl

theorem commitEntry_reservations (e : Entry) (s : State) :
    (commitEntry e s).dir.reservations = s.dir.reservations := by
  rw [commitEntry_dir]; cases lookup s e.key <;> rfl

theorem commitEntry_entryCount (e : Entry) (s : State) :
    (commitEntry e s).dir.entryCount = if lookup s e.key = none then s.dir.entryCount + 1 else s.dir.entryCount := by
  rw [commitEntry_dir]; cases lookup s e.key <;> rfl

theorem commitEntry_sharedCount (e : Entry) (s : State) :
    (commitEntry e s).dir.sharedCount =
      if lookup s e.key = none ∧ isLocal s e.key = false then s.dir.sharedCount + 1 else s.dir.sharedCount := by
  rw [commitEntry_dir]
  cases lookup s e.key <;> cases hl : isLocal s e.key <;> simp [Directory.insert, Directory.replace]

/-- The fold that leaves a bucket's check when the entry of a key is replaced, none when there is no such entry (R24). -/
def oldFold (s : State) (k : Key) : BitVec 16 :=
  match lookup s k with
  | some old => entryFold k old.stamp
  | none => 0

theorem commitEntry_checks (e : Entry) (s : State) (b : Bucket) :
    (commitEntry e s).dir.checks[b.toNat]'b.isLt =
      if b = bucketOf e.key ∧ isLocal s e.key = false then
        (s.dir.checks[b.toNat]'b.isLt) ^^^ oldFold s e.key ^^^ entryFold e.key e.stamp
      else s.dir.checks[b.toNat]'b.isLt := by
  have hd := commitEntry_dir e s
  unfold oldFold
  cases hk : lookup s e.key with
  | none =>
    simp only [hk] at hd
    by_cases hl : isLocal s e.key = true
    · simp [hd, Directory.insert, hl]
    · simp [hd, Directory.insert, hl, getElem_xorCheck]
  | some old =>
    have hkey : old.key = e.key := (mem_of_lookup hk).2
    simp only [hk] at hd
    by_cases hl : isLocal s e.key = true
    · simp [hd, Directory.replace, hl]
    · simp only [hd, Directory.replace, hl, Bool.not_false, if_true, getElem_xorCheck, hkey, and_true]
      split <;> rfl

theorem lookup_commitEntry {e : Entry} {s : State} (hv : validKey e.key = true) (k : Key) :
    lookup (commitEntry e s) k = if k = e.key then some e else lookup s k := by
  unfold lookup
  rw [commitEntry_entries, find_putEntry]
  by_cases hk : k = e.key
  · rw [if_pos hk, if_pos hk, if_pos (hk ▸ hv)]
  · rw [if_neg hk, if_neg hk]

/-- What decides a lookup is the directory alone. -/
theorem lookup_congr {s t : State} (h : t.dir.entries = s.dir.entries) (k : Key) : lookup t k = lookup s k := by
  unfold lookup
  rw [h]

/-! ## The Want List's pruning (R48) -/

theorem fetchLaw_congr {s t : State} (h : FetchLaw s) (hf : t.fetch = s.fetch) (hc : t.ctl = s.ctl) : FetchLaw t where
  wanted := by rw [hf]; exact h.wanted
  held := by rw [hf]; exact h.held
  requested := by rw [hf]; exact h.requested
  distinct := by rw [hf]; exact h.distinct
  settled ha := by
    rw [hf]
    refine h.settled ?_
    simpa only [Active, Powered, hc] using ha

theorem beats_congr {s t : State} (h : t.ctl = s.ctl) (k : Key) (a b : Stamp) : beats t k a b = beats s k a b := by
  unfold beats policyOf classOf
  rw [h]

theorem isLocal_congr {s t : State} (h : t.ctl = s.ctl) (k : Key) : isLocal t k = isLocal s k := by
  unfold isLocal policyOf classOf
  rw [h]

theorem mem_of_wantOf {s : State} {k : Key} {w : Want} (h : wantOf s k = some w) : w ∈ s.fetch.wants ∧ w.key = k :=
  ⟨List.mem_of_find?_eq_some h, by simpa using List.find?_some h⟩

theorem wantOf_eq_some {s : State} {k : Key} {w : Want} (hn : (s.fetch.wants.map (·.key)).Nodup)
    (hw : w ∈ s.fetch.wants) (hk : w.key = k) : wantOf s k = some w := by
  obtain ⟨l, l', hl⟩ := List.append_of_mem hw
  exact wantOf_eq hl hn hk

/-- With no fetch slot on the key, none is freed. -/
theorem freeSlotsOfKey_of_none {s : State} {k : Key} (h : ∀ j : Fin 4, s.fetch.slots[j].key ≠ some k) :
    freeSlotsOfKey k s = s := by
  have hj (j : Fin 4) : (if s.fetch.slots[j].key = some k then freeFetchSlot j s else s) = s := if_neg (h j)
  unfold freeSlotsOfKey slotNumbers
  simp only [List.foldl_cons, List.foldl_nil, hj]

/-- A WAITING entry pruned leaves fetch slots and line as they were. -/
theorem pruneWant_of_waiting {s : State} {k : Key} {st : Stamp} (hl : FetchLaw s)
    (h : ∀ w ∈ s.fetch.wants, w.key = k ∧ beats s k w.stamp st = false → w.requested = false) :
    (pruneWant k st s).fetch.slots = s.fetch.slots ∧ (pruneWant k st s).line = s.line := by
  unfold pruneWant
  split
  · rename_i w hw
    obtain ⟨hmem, hkey⟩ := mem_of_wantOf hw
    split
    · exact ⟨rfl, rfl⟩
    · rename_i hb
      have hidle := h w hmem ⟨hkey, Bool.not_eq_true _ ▸ hb⟩
      rw [freeSlotsOfKey_of_none]
      · exact ⟨rfl, rfl⟩
      · intro j hj
        obtain ⟨v, hv, hvk, hreq, -⟩ := hl.held j k hj
        have hvw : v = w := List.inj_on_of_nodup_map hl.wanted hv hmem (hvk.trans hkey.symm)
        rw [hvw, hidle] at hreq
        cases hreq
  · exact ⟨rfl, rfl⟩

/-- A REQUESTED entry pruned frees the fetch slot that holds its key, whose request is given up. -/
theorem pruneWant_of_requested {s : State} {k : Key} {st : Stamp} (hl : FetchLaw s) {w : Want} (hw : w ∈ s.fetch.wants)
    (hk : w.key = k) (hb : beats s k w.stamp st = false) {j : Fin 4} (hj : s.fetch.slots[j].key = some k) :
    (pruneWant k st s).fetch.slots = s.fetch.slots.set j .free ∧
      (pruneWant k st s).line = givenUp (.fetch j) s.line := by
  unfold pruneWant
  simp only [wantOf_eq_some hl.wanted hw hk, hb, Bool.false_eq_true, if_false]
  rw [freeSlotsOfKey_eq hj fun i hi => hl.distinct i j k hi hj]
  exact ⟨rfl, rfl⟩

/-! ## The event and the release (R49, R50) -/

/-- The port after a commit's event. -/
def committedHost (x : Slot) (s : State) : HostPort :=
  match x.origin with
  | .host ticket => s.host.post (.writeDone ticket x.record.key .committed)
  | .peer =>
    if (classOf s x.record.key).notify then s.host.post (.keyChanged x.record.key x.record.stamp.origin) else s.host

theorem reportCommit_eq (x : Slot) (s : State) : reportCommit x s = { s with host := committedHost x s } := by
  unfold reportCommit committedHost
  cases x.origin with
  | host ticket => rfl
  | peer => dsimp only; split <;> rfl

theorem committedHost_congr {s t : State} (x : Slot) (hc : t.ctl = s.ctl) (hh : t.host = s.host) :
    committedHost x t = committedHost x s := by
  unfold committedHost classOf
  rw [hc, hh]

/-- A slot released whose follower's key has its entry: the reservation becomes the entry, and nothing new is reserved. -/
theorem releaseSlot_of_entry {s : State} (i : Fin 4) {x : Slot} (h : ∀ f, x.follower = some f → lookup s f.key ≠ none) :
    releaseSlot i x s =
      { s with
        dir := { s.dir with reservations := if x.reserved then s.dir.reservations - 1 else s.dir.reservations }
        upd :=
          { s.upd with
            slots := s.upd.slots.set i (afterCommit x s.upd.nextReady)
            nextReady := if x.follower = none then s.upd.nextReady else s.upd.nextReady + 1 } } := by
  rw [releaseSlot_eq]
  unfold afterCommit peerSlot
  cases hf : x.follower with
  | none => rfl
  | some f =>
    have hne := h f hf
    have hsome : (lookup s f.key).isNone = false := by
      rw [← Bool.not_eq_true, Option.isNone_iff_eq_none]
      exact hne
    simp only [hne, if_false, hsome, Option.map_some, reduceCtorEq]

/-- A commit, as an update of what the directory event and the pruning leave (R47 to R50). -/
theorem commitSlot_eq {s : State} (i : Fin 4) {x : Slot} (loc : Loc) (hv : validKey x.record.key = true)
    (hf : ∀ f, x.follower = some f → f.key = x.record.key) :
    commitSlot i x loc s =
      { pruneWant x.record.key x.record.stamp (commitEntry (entryOf x.record loc) s) with
        host := committedHost x s
        dir :=
          { (commitEntry (entryOf x.record loc) s).dir with
            reservations := if x.reserved then s.dir.reservations - 1 else s.dir.reservations }
        upd :=
          { s.upd with
            slots := s.upd.slots.set i (afterCommit x s.upd.nextReady)
            nextReady := if x.follower = none then s.upd.nextReady else s.upd.nextReady + 1 } } := by
  obtain ⟨l, hl⟩ := commitEntry_rest (entryOf x.record loc) s
  have hctl : (commitEntry (entryOf x.record loc) s).ctl = s.ctl := by rw [hl]
  have hhost : (commitEntry (entryOf x.record loc) s).host = s.host := by rw [hl]
  have hupd : (commitEntry (entryOf x.record loc) s).upd = s.upd := by rw [hl]
  unfold commitSlot
  rw [reportCommit_eq, committedHost_congr x ((pruneWant_ctl ..).trans hctl) ((pruneWant_host ..).trans hhost),
    releaseSlot_of_entry]
  · simp only [pruneWant_dir, pruneWant_upd, hupd, commitEntry_reservations]
  · intro f hxf
    rw [lookup_congr (s := commitEntry (entryOf x.record loc) s)]
    · rw [hf f hxf, lookup_commitEntry hv, if_pos (show x.record.key = (entryOf x.record loc).key from rfl)]
      exact Option.some_ne_none _
    · simp only [pruneWant_dir]

/-! ## What the whole event leaves -/

theorem liveOf_closeIfFull (v : Nat) (s : State) (n : Nat) : liveOf (closeIfFull v s) n = liveOf s n := by
  unfold closeIfFull
  rw [liveOf_modifySector]
  unfold liveOf
  cases s.store.sectors[n]? with
  | none => rfl
  | some x => dsimp only; split <;> [split <;> rfl; rfl]

/-- The state in which a slot commits: the program over, its sector FULL if used up (R60). -/
def verified (loc : Loc) (m : Memory) (s : State) : State := closeIfFull loc.sector (endOp m s)

theorem endUpdate_of_softWait {s : State} (i : Fin 4) (loc : Loc) (opening : Option Opening) (image bits : List Byte)
    (hw : s.ctl.softWait = true) :
    endUpdate i loc opening image bits s = endOp (flashAfter loc opening image bits s) s := by
  unfold endUpdate
  rw [clearOp_programAppend, if_pos hw]

theorem endUpdate_of_readsBack {s : State} {i : Fin 4} {x : Slot} {loc : Loc} {opening : Option Opening}
    {image bits : List Byte} (hw : s.ctl.softWait = false) (hx : s.upd.slots[i] = some x)
    (h : ReadsBack (flashAfter loc opening image bits s) loc opening image) :
    endUpdate i loc opening image bits s =
      offerCommitNews x
        (pumpFetch (settleStore s (commitSlot i x loc (verified loc (flashAfter loc opening image bits s) s)))) := by
  have hv : verifies (endOp (flashAfter loc opening image bits s) s).flash loc opening image = true :=
    verifies_of_readsBack h
  unfold endUpdate
  rw [clearOp_programAppend]
  simp only [hw, Bool.false_eq_true, if_false, hx, hv, if_true]
  rfl

/-- The state a passed program leaves before FREE fetch slots and a NEWS have their turn. -/
def afterUpdate (i : Fin 4) (x : Slot) (loc : Loc) (m : Memory) (s : State) : State :=
  settleStore s (commitSlot i x loc (verified loc m s))

section afterUpdate
variable {s : State} {i : Fin 4} {x : Slot} (loc : Loc) (m : Memory)

/-- With a valid key and a follower of the same key, the directory is that of the directory event, but for the reservation
given up. -/
theorem afterUpdate_dir (hv : validKey x.record.key = true) (hf : ∀ f, x.follower = some f → f.key = x.record.key) :
    (afterUpdate i x loc m s).dir =
      { (commitEntry (entryOf x.record loc) (verified loc m s)).dir with
        reservations := if x.reserved then s.dir.reservations - 1 else s.dir.reservations } := by
  obtain ⟨-, -, hdir, -⟩ := settleStore_facts s (commitSlot i x loc (verified loc m s))
  rw [afterUpdate, hdir, commitSlot_eq i loc hv hf]
  rfl

theorem afterUpdate_slots (hv : validKey x.record.key = true) (hf : ∀ f, x.follower = some f → f.key = x.record.key) :
    (afterUpdate i x loc m s).upd.slots = s.upd.slots.set i (afterCommit x s.upd.nextReady) := by
  obtain ⟨hslots, -⟩ := settleStore_facts s (commitSlot i x loc (verified loc m s))
  rw [afterUpdate, hslots, commitSlot_eq i loc hv hf]
  rfl

theorem afterUpdate_host (hv : validKey x.record.key = true) (hf : ∀ f, x.follower = some f → f.key = x.record.key) :
    (afterUpdate i x loc m s).host = committedHost x s ∨
      (afterUpdate i x loc m s).host = (committedHost x s).post (.storeAlert .spaceLow) := by
  obtain ⟨-, hhost, -⟩ := settleStore_facts s (commitSlot i x loc (verified loc m s))
  rw [commitSlot_eq i loc hv hf] at hhost
  rw [afterUpdate, commitSlot_eq i loc hv hf]
  exact hhost

/-- Flash, the store's request and the live counts. -/
theorem afterUpdate_store (hv : validKey x.record.key = true) (hf : ∀ f, x.follower = some f → f.key = x.record.key) :
    (afterUpdate i x loc m s).flash = m ∧ (afterUpdate i x loc m s).store.op = none ∧
      ∀ n, liveOf (afterUpdate i x loc m s) n = liveOf (commitEntry (entryOf x.record loc) (verified loc m s)) n := by
  obtain ⟨l, hl⟩ := commitEntry_rest (entryOf x.record loc) (verified loc m s)
  obtain ⟨-, -, -, hflash, -⟩ := settleStore_facts s (commitSlot i x loc (verified loc m s))
  obtain ⟨-, -, -, -, -, -, -, -, hop⟩ := settleStore_rest s (commitSlot i x loc (verified loc m s))
  have hstore : (commitSlot i x loc (verified loc m s)).store =
      (commitEntry (entryOf x.record loc) (verified loc m s)).store := by
    rw [commitSlot_eq i loc hv hf]
    exact (pruneWant_rest ..).1
  refine ⟨?_, ?_, fun n => ?_⟩
  · rw [afterUpdate, hflash, commitSlot_eq i loc hv hf]
    simp only [pruneWant_flash]
    rw [hl]
    rfl
  · rw [afterUpdate, hop, hstore, hl]
    rfl
  · rw [afterUpdate, liveOf_settleStore]
    unfold liveOf
    rw [hstore]

/-- The other blocks are as the pruning of the Want List leaves them. -/
theorem afterUpdate_rest (hv : validKey x.record.key = true) (hf : ∀ f, x.follower = some f → f.key = x.record.key) :
    ∃ u, u.fetch = s.fetch ∧ u.line = s.line ∧ u.ctl = s.ctl ∧
      (afterUpdate i x loc m s).fetch = (pruneWant x.record.key x.record.stamp u).fetch ∧
      (afterUpdate i x loc m s).line = (pruneWant x.record.key x.record.stamp u).line ∧
      (afterUpdate i x loc m s).ctl = s.ctl ∧ (afterUpdate i x loc m s).cfg = s.cfg ∧
      (afterUpdate i x loc m s).memb = s.memb ∧ (afterUpdate i x loc m s).summ = s.summ ∧
      (afterUpdate i x loc m s).recon = s.recon ∧ (afterUpdate i x loc m s).resp = s.resp := by
  obtain ⟨l, hl⟩ := commitEntry_rest (entryOf x.record loc) (verified loc m s)
  obtain ⟨hctl, hcfg, hmemb, hsumm, hrecon, hresp, hline, hfetch, -⟩ :=
    settleStore_rest s (commitSlot i x loc (verified loc m s))
  rw [commitSlot_eq i loc hv hf] at hctl hcfg hmemb hsumm hrecon hresp hline hfetch
  obtain ⟨-, pmemb, precon, presp, -⟩ :=
    pruneWant_rest x.record.key x.record.stamp (commitEntry (entryOf x.record loc) (verified loc m s))
  refine ⟨commitEntry (entryOf x.record loc) (verified loc m s), by rw [hl]; rfl, by rw [hl]; rfl, by rw [hl]; rfl, ?_⟩
  rw [afterUpdate, commitSlot_eq i loc hv hf]
  refine ⟨hfetch, hline, ?_, ?_, ?_, ?_, ?_, ?_⟩
  · rw [hctl, pruneWant_ctl, hl]; rfl
  · rw [hcfg, pruneWant_cfg, hl]; rfl
  · rw [hmemb, pmemb, hl]; rfl
  · rw [hsumm, pruneWant_summ, hl]; rfl
  · rw [hrecon, precon, hl]; rfl
  · rw [hresp, presp, hl]; rfl

end afterUpdate

/-- Only a local commit of a shared class offers its NEWS (R49). -/
theorem offerCommitNews_of_none {x : Slot} {s : State} (h : x.origin = .peer ∨ isLocal s x.record.key = true) :
    offerCommitNews x s = s := by
  unfold offerCommitNews
  rcases h with h | h
  · rw [h]
  · cases x.origin with
    | peer => rfl
    | host ticket => exact if_pos h

theorem offerCommitNews_of_shared {x : Slot} {s : State} {ticket : Byte} (ho : x.origin = .host ticket)
    (hl : isLocal s x.record.key = false) : offerCommitNews x s = offerNews x.record s := by
  unfold offerCommitNews
  rw [ho]
  exact if_neg (by rw [hl]; exact Bool.false_ne_true)

theorem exec_updateProgramDone_of_append {s : State} {i : Fin 4} {loc : Loc} {opening : Option Opening}
    {image : List Byte} (h : s.store.op = some (.append (.slot i) loc opening image)) (bits : List Byte) :
    exec (.updateProgramDone bits) s = .next (endUpdate i loc opening image bits s) := by
  rw [exec_updateProgramDone, execUpdateProgramDone]
  simp only [h]

/-- Settles O48: the program's end is `endUpdate_of_readsBack`, and each part of the commit its own lemma. -/
theorem updatesCommit : Obligations.UpdatesCommit := by
  intro s i x loc opening image bits hop hx m
  refine ⟨fun hw => ?_, fun hw hback hdir hfetch hlt hf => ?_⟩
  · rw [exec_updateProgramDone_of_append hop, endUpdate_of_softWait i loc opening image bits hw]
  intro k new beaten
  have hv : validKey k = true := (hdir.slots i x hx).1
  have hexec : exec (.updateProgramDone bits) s = .next (offerCommitNews x (pumpFetch (afterUpdate i x loc m s))) := by
    rw [exec_updateProgramDone_of_append hop, endUpdate_of_readsBack hw hx hback]
    rfl
  obtain ⟨hflash, hopNone, hlive⟩ := afterUpdate_store (s := s) (i := i) loc m hv hf
  obtain ⟨u, hufetch, huline, huctl, htfetch, htline, htctl, hrest⟩ := afterUpdate_rest (s := s) (i := i) loc m hv hf
  have hlaw : FetchLaw u := fetchLaw_congr hfetch hufetch huctl
  have hlocal : isLocal (pumpFetch (afterUpdate i x loc m s)) k = isLocal s k :=
    isLocal_congr ((pumpFetch_ctl _).trans htctl) k
  refine ⟨afterUpdate i x loc m s, fun h => ?_, fun ticket ho hl => ?_, hflash, hopNone, fun k' => ?_, ?_, ?_, ?_, ?_,
    fun b => ?_, fun n => ?_, afterUpdate_slots loc m hv hf, afterUpdate_host loc m hv hf, ?_, fun h => ?_,
    fun j w hmem hbeaten hj => ?_, htctl, hrest⟩
  · rw [hexec, offerCommitNews_of_none (h.imp id hlocal.trans)]
  · rw [hexec, offerCommitNews_of_shared ho (hlocal.trans hl)]
  · rw [lookup_congr (s := commitEntry new (verified loc m s)) (by rw [afterUpdate_dir loc m hv hf])]
    exact lookup_commitEntry (s := verified loc m s) (e := new) hv k'
  · rw [afterUpdate_dir loc m hv hf]
    exact commitEntry_clock new (verified loc m s)
  · rw [afterUpdate_dir loc m hv hf]
    exact commitEntry_entryCount new (verified loc m s)
  · rw [afterUpdate_dir loc m hv hf]
    exact commitEntry_sharedCount new (verified loc m s)
  · rw [afterUpdate_dir loc m hv hf]
  · simp only [afterUpdate_dir loc m hv hf]
    exact commitEntry_checks new (verified loc m s) b
  · rw [hlive, liveOf_commitEntry, verified, liveOf_closeIfFull]
    · rfl
    · simpa [verified, closeIfFull, endOp, entryOf] using hlt
  · rw [htfetch, pruneWant_wants _ _ _ hlaw.wanted, hufetch]
    simp only [beats_congr huctl]
    rfl
  · rw [htfetch, htline, ← huline, ← hufetch]
    refine pruneWant_of_waiting hlaw fun w hw hb => h w (hufetch ▸ hw) ⟨hb.1, ?_⟩
    rw [← beats_congr huctl]
    exact hb.2
  · rw [htfetch, htline, ← huline, ← hufetch]
    refine pruneWant_of_requested hlaw (hufetch ▸ hmem) hbeaten.1 ?_ (hufetch ▸ hj)
    rw [beats_congr huctl]
    exact hbeaten.2

end Sys2Proof.Proofs
end

