-- ==== Sys2Proof/Proofs/ScanA.lean ====
section
/-! PROOFS. The start-up scan's walks (R13, R77): the granules they reach, the images they find, where they end. -/

namespace Sys2Proof.Proofs
open Sys2Proof Sys2Proof.Machine Sys2Proof.Stated

/-! ## Walks from granule to granule -/

/-- The granules a walk reaches, from granule 1 by a step that may end it. -/
inductive Walks (next : Nat → Option Nat) : Nat → Prop where
  | first : Walks next 1
  | step (g h : Nat) : Walks next g → next g = some h → Walks next h

theorem Walks.pos {next : Nat → Option Nat} (hn : ∀ g h, next g = some h → g < h) {g : Nat} (w : Walks next g) :
    1 ≤ g := by
  induction w with
  | first => exact le_rfl
  | step g h _ hs ih => exact ih.trans (hn g h hs).le

/-- A granule reached below another has a next one, which is not above it: a walk reaches its granules in order. -/
theorem Walks.next_le {next : Nat → Option Nat} (hn : ∀ g h, next g = some h → g < h) {g h : Nat} (wg : Walks next g)
    (wh : Walks next h) (hlt : g < h) : ∃ k, next g = some k ∧ k ≤ h := by
  induction h using Nat.strong_induction_on generalizing g with
  | _ h ih =>
    cases wh with
    | first => exact absurd (wg.pos hn) (by omega)
    | step f _ wf hf =>
      have hfh := hn f h hf
      rcases Nat.lt_trichotomy g f with hgf | rfl | hfg
      · obtain ⟨k, hk, hle⟩ := ih f hfh wg wf hgf
        exact ⟨k, hk, by omega⟩
      · exact ⟨h, hf, le_rfl⟩
      · obtain ⟨k, hk, hle⟩ := ih g hlt wf wg hfg
        rw [hf] at hk
        cases hk
        omega

/-- A walk ends in one granule. -/
theorem Walks.end_unique {next : Nat → Option Nat} (hn : ∀ g h, next g = some h → g < h) {g h : Nat} (wg : Walks next g)
    (wh : Walks next h) (eg : next g = none) (eh : next h = none) : g = h := by
  rcases Nat.lt_trichotomy g h with hlt | rfl | hlt
  · obtain ⟨k, hk, -⟩ := wg.next_le hn wh hlt
    rw [eg] at hk
    cases hk
  · rfl
  · obtain ⟨k, hk, -⟩ := wh.next_le hn wg hlt
    rw [eh] at hk
    cases hk

/-- In a sector with content the granule after an image; none where no image is read (R77). -/
def afterImage (m : Memory) (i g : Nat) : Option Nat :=
  match readImage m { sector := i, granule := g } with
  | .image r => some (g + imageLen r.value.length)
  | .blank => none
  | .bad => none

/-- In a sector read for the clock alone the next granule, where no image is read (log 31). -/
def afterGranule (m : Memory) (i g : Nat) : Option Nat :=
  match readImage m { sector := i, granule := g } with
  | .image r => some (g + imageLen r.value.length)
  | .blank => some (g + 1)
  | .bad => some (g + 1)

theorem imageLen_pos (n : Nat) : 1 ≤ imageLen n := by
  unfold imageLen
  omega

theorem afterImage_eq_some {m : Memory} {i g h : Nat} :
    afterImage m i g = some h ↔
      ∃ r, readImage m { sector := i, granule := g } = .image r ∧ h = g + imageLen r.value.length := by
  unfold afterImage
  split
  · rename_i r hr
    simp [hr, eq_comm]
  · rename_i hr
    simp [hr]
  · rename_i hr
    simp [hr]

theorem afterImage_eq_none {m : Memory} {i g : Nat} :
    afterImage m i g = none ↔ ∀ r, readImage m { sector := i, granule := g } ≠ .image r := by
  unfold afterImage
  split
  · rename_i r hr
    simp [hr]
  · rename_i hr
    simp [hr]
  · rename_i hr
    simp [hr]

theorem lt_afterImage {m : Memory} {i : Nat} : ∀ g h, afterImage m i g = some h → g < h := by
  intro g h hs
  obtain ⟨r, -, rfl⟩ := afterImage_eq_some.1 hs
  have := imageLen_pos r.value.length
  omega

theorem afterGranule_of_image {m : Memory} {i g : Nat} {r : Record}
    (h : readImage m { sector := i, granule := g } = .image r) :
    afterGranule m i g = some (g + imageLen r.value.length) := by
  simp only [afterGranule, h]

theorem afterGranule_of_none {m : Memory} {i g : Nat} (h : ∀ r, readImage m { sector := i, granule := g } ≠ .image r) :
    afterGranule m i g = some (g + 1) := by
  unfold afterGranule
  split
  · rename_i r hr
    exact absurd hr (h r)
  · rfl
  · rfl

theorem lt_afterGranule {m : Memory} {i : Nat} : ∀ g h, afterGranule m i g = some h → g < h := by
  intro g h hs
  by_cases hi : ∃ r, readImage m { sector := i, granule := g } = .image r
  · obtain ⟨r, hr⟩ := hi
    rw [afterGranule_of_image hr] at hs
    cases hs
    have := imageLen_pos r.value.length
    omega
  · rw [afterGranule_of_none fun r hr => hi ⟨r, hr⟩] at hs
    cases hs
    omega

theorem reached_iff {m : Memory} {i g : Nat} : Reached m i g ↔ Walks (afterImage m i) g := by
  constructor <;> intro h
  · induction h with
    | first => exact .first
    | after g r _ hr ih => exact .step g _ ih (afterImage_eq_some.2 ⟨r, hr, rfl⟩)
  · induction h with
    | first => exact .first
    | step g h _ hs ih =>
      obtain ⟨r, hr, rfl⟩ := afterImage_eq_some.1 hs
      exact .after g r ih hr

theorem readThrough_iff {m : Memory} {i g : Nat} : ReadThrough m i g ↔ Walks (afterGranule m i) g := by
  constructor <;> intro h
  · induction h with
    | first => exact .first
    | after g r _ hr ih => exact .step g _ ih (afterGranule_of_image hr)
    | past g _ hr ih => exact .step g _ ih (afterGranule_of_none hr)
  · induction h with
    | first => exact .first
    | step g h _ hs ih =>
      by_cases hi : ∃ r, readImage m { sector := i, granule := g } = .image r
      · obtain ⟨r, hr⟩ := hi
        rw [afterGranule_of_image hr] at hs
        cases hs
        exact .after g r ih hr
      · have hr : ∀ r, readImage m { sector := i, granule := g } ≠ .image r := fun r hr => hi ⟨r, hr⟩
        rw [afterGranule_of_none hr] at hs
        cases hs
        exact .past g ih hr

/-! ## The images found -/

/-- No image begins beyond granule 255 (log 7). -/
theorem granule_le_of_image {m : Memory} {l : Loc} {r : Record} (h : readImage m l = .image r) : l.granule ≤ 255 := by
  by_contra hc
  unfold readImage at h
  rw [if_pos (Or.inr (Nat.not_le.1 hc))] at h
  cases h

theorem eq_image {a b : Record} (h : ImageRead.image a = .image b) : a = b := by
  cases h
  rfl

/-- From a granule that a walk reaches, the granules it still reaches: that one and those from the next. -/
theorem Walks.from_iff {next : Nat → Option Nat} (hn : ∀ g h, next g = some h → g < h) {g h : Nat} (wg : Walks next g)
    (hs : next g = some h) (x : Nat) : (g ≤ x ∧ Walks next x) ↔ x = g ∨ (h ≤ x ∧ Walks next x) := by
  constructor
  · rintro ⟨hle, wx⟩
    rcases hle.lt_or_eq with hlt | rfl
    · obtain ⟨k, hk, hkx⟩ := wg.next_le hn wx hlt
      rw [hs] at hk
      cases hk
      exact Or.inr ⟨hkx, wx⟩
    · exact Or.inl rfl
  · rintro (rfl | ⟨hle, wx⟩)
    · exact ⟨le_rfl, wg⟩
    · exact ⟨(hn g h hs).le.trans hle, wx⟩

/-- From its last granule a walk reaches no other. -/
theorem Walks.from_end_iff {next : Nat → Option Nat} (hn : ∀ g h, next g = some h → g < h) {g : Nat} (wg : Walks next g)
    (hs : next g = none) (x : Nat) : (g ≤ x ∧ Walks next x) ↔ x = g := by
  constructor
  · rintro ⟨hle, wx⟩
    rcases hle.lt_or_eq with hlt | rfl
    · obtain ⟨k, hk, -⟩ := wg.next_le hn wx hlt
      rw [hs] at hk
      cases hk
    · rfl
  · rintro rfl
    exact ⟨le_rfl, wg⟩

/-- An image of a sector at a granule that a walk reaches from another on. -/
def FoundFrom (next : Nat → Option Nat) (m : Memory) (i g : Nat) (c : Loc × Record) : Prop :=
  c.1.sector = i ∧ (g ≤ c.1.granule ∧ Walks next c.1.granule) ∧ readImage m c.1 = .image c.2

section FoundFrom
variable {next : Nat → Option Nat} {m : Memory} {i g : Nat} {c : Loc × Record}

theorem not_foundFrom_beyond (h : 255 < g) : ¬ FoundFrom next m i g c := by
  rintro ⟨-, ⟨hle, -⟩, hr⟩
  have := granule_le_of_image hr
  omega

/-- At a granule with an image: it, and those from the next granule. -/
theorem foundFrom_of_image (hn : ∀ g h, next g = some h → g < h) (wg : Walks next g) {h : Nat} (hs : next g = some h)
    {r : Record} (hr : readImage m { sector := i, granule := g } = .image r) :
    FoundFrom next m i g c ↔ c = ({ sector := i, granule := g }, r) ∨ FoundFrom next m i h c := by
  obtain ⟨⟨sector, granule⟩, q⟩ := c
  unfold FoundFrom
  rw [wg.from_iff hn hs]
  constructor
  · rintro ⟨rfl, rfl | hx, hq⟩
    · exact Or.inl (by rw [eq_image (hr.symm.trans hq)])
    · exact Or.inr ⟨rfl, hx, hq⟩
  · rintro (he | ⟨rfl, hx, hq⟩)
    · cases he
      exact ⟨rfl, Or.inl rfl, hr⟩
    · exact ⟨rfl, Or.inr hx, hq⟩

/-- At a granule without one: those from the next granule. -/
theorem foundFrom_of_none (hn : ∀ g h, next g = some h → g < h) (wg : Walks next g) {h : Nat} (hs : next g = some h)
    (hr : ∀ r, readImage m { sector := i, granule := g } ≠ .image r) :
    FoundFrom next m i g c ↔ FoundFrom next m i h c := by
  obtain ⟨⟨sector, granule⟩, q⟩ := c
  unfold FoundFrom
  rw [wg.from_iff hn hs]
  constructor
  · rintro ⟨rfl, rfl | hx, hq⟩
    · exact absurd hq (hr q)
    · exact ⟨rfl, hx, hq⟩
  · rintro ⟨rfl, hx, hq⟩
    exact ⟨rfl, Or.inr hx, hq⟩

/-- Where the walk ends no image is found. -/
theorem not_foundFrom_end (hn : ∀ g h, next g = some h → g < h) (wg : Walks next g) (hs : next g = none)
    (hr : ∀ r, readImage m { sector := i, granule := g } ≠ .image r) : ¬ FoundFrom next m i g c := by
  obtain ⟨⟨sector, granule⟩, q⟩ := c
  unfold FoundFrom
  rw [wg.from_end_iff hn hs]
  rintro ⟨rfl, rfl, hq⟩
  exact hr q hq

end FoundFrom

theorem foundFrom_one {next : Nat → Option Nat} (hn : ∀ g h, next g = some h → g < h) {m : Memory} {i : Nat}
    {c : Loc × Record} : FoundFrom next m i 1 c ↔
      c.1.sector = i ∧ Walks next c.1.granule ∧ readImage m c.1 = .image c.2 := by
  unfold FoundFrom
  exact and_congr_right' (and_congr_left' (and_iff_right_of_imp fun w => w.pos hn))

/-- The images R77 reads from a granule that the walk reaches, with rounds enough for the sector's end. -/
theorem mem_imagesFrom {m : Memory} {i n g : Nat} (hg : Walks (afterImage m i) g) (hn : 256 ≤ n + g) {c : Loc × Record} :
    c ∈ (imagesFrom m i n g).images ↔ FoundFrom (afterImage m i) m i g c := by
  induction n generalizing g with
  | zero => exact iff_of_false List.not_mem_nil (not_foundFrom_beyond (by omega))
  | succ n ih =>
    unfold imagesFrom
    split
    · exact iff_of_false List.not_mem_nil (not_foundFrom_beyond ‹_›)
    · split
      · rename_i hr
        have hnone : ∀ r, readImage m { sector := i, granule := g } ≠ .image r := by simp [hr]
        exact iff_of_false List.not_mem_nil (not_foundFrom_end lt_afterImage hg (afterImage_eq_none.2 hnone) hnone)
      · rename_i hr
        have hnone : ∀ r, readImage m { sector := i, granule := g } ≠ .image r := by simp [hr]
        exact iff_of_false List.not_mem_nil (not_foundFrom_end lt_afterImage hg (afterImage_eq_none.2 hnone) hnone)
      · rename_i r hr
        have hs : afterImage m i g = some (g + imageLen r.value.length) := afterImage_eq_some.2 ⟨r, hr, rfl⟩
        have hpos := imageLen_pos r.value.length
        rw [foundFrom_of_image lt_afterImage hg hs hr, ← ih (.step g _ hg hs) (by omega)]
        exact List.mem_cons

/-- The images read through a sector from a granule that the walk reaches, with rounds enough for the sector's end. -/
theorem mem_imagesThrough_iff {m : Memory} {i n g : Nat} (hg : Walks (afterGranule m i) g) (hn : 256 ≤ n + g)
    {c : Loc × Record} : c ∈ imagesThrough m i n g ↔ FoundFrom (afterGranule m i) m i g c := by
  induction n generalizing g with
  | zero => exact iff_of_false List.not_mem_nil (not_foundFrom_beyond (by omega))
  | succ n ih =>
    have passed (hnone : ∀ r, readImage m { sector := i, granule := g } ≠ .image r) :
        c ∈ imagesThrough m i n (g + 1) ↔ FoundFrom (afterGranule m i) m i g c := by
      have hs := afterGranule_of_none hnone
      rw [foundFrom_of_none lt_afterGranule hg hs hnone, ih (.step g _ hg hs) (by omega)]
    unfold imagesThrough
    split
    · rename_i hr
      exact passed (by simp [hr])
    · rename_i hr
      exact passed (by simp [hr])
    · rename_i r hr
      have hs := afterGranule_of_image hr
      have hpos := imageLen_pos r.value.length
      rw [foundFrom_of_image lt_afterGranule hg hs hr, ← ih (.step g _ hg hs) (by omega)]
      exact List.mem_cons

/-- The images of a sector are those the scan reads there (R77). -/
theorem mem_imagesOf {m : Memory} {i : Nat} {c : Loc × Record} :
    c ∈ (imagesOf m i).images ↔ c.1.sector = i ∧ ImageAt m c.1 c.2 := by
  rw [imagesOf, mem_imagesFrom .first (by decide), foundFrom_one lt_afterImage, ImageAt]
  refine and_congr_right fun h => ?_
  rw [reached_iff, h]

/-- The images of a sector read for the clock alone (R13, log 31). -/
theorem mem_imagesThrough_one {m : Memory} {i : Nat} {c : Loc × Record} :
    c ∈ imagesThrough m i Config.imageGranules 1 ↔
      c.1.sector = i ∧ ReadThrough m i c.1.granule ∧ readImage m c.1 = .image c.2 := by
  rw [mem_imagesThrough_iff .first (by decide), foundFrom_one lt_afterGranule, readThrough_iff]

/-- A sector's images are found in the order of their granules (R77). -/
theorem pairwise_imagesFrom (m : Memory) (i n g : Nat) :
    (imagesFrom m i n g).images.Pairwise (fun a b => a.1.granule < b.1.granule) ∧
      ∀ a ∈ (imagesFrom m i n g).images, g ≤ a.1.granule := by
  induction n generalizing g with
  | zero => exact ⟨.nil, fun _ h => absurd h List.not_mem_nil⟩
  | succ n ih =>
    unfold imagesFrom
    split
    · exact ⟨.nil, fun _ h => absurd h List.not_mem_nil⟩
    · split
      · exact ⟨.nil, fun _ h => absurd h List.not_mem_nil⟩
      · exact ⟨.nil, fun _ h => absurd h List.not_mem_nil⟩
      · rename_i r _
        obtain ⟨hp, hge⟩ := ih (g + imageLen r.value.length)
        have hpos := imageLen_pos r.value.length
        refine ⟨List.pairwise_cons.2 ⟨fun b hb => ?_, hp⟩, fun a ha => ?_⟩
        · have := hge b hb
          dsimp only
          omega
        · rcases List.mem_cons.1 ha with rfl | ha
          · exact le_rfl
          · have := hge a ha
            omega

/-! ## Where the images end -/

/-- The images end at a granule with no image, and are torn exactly where it is one of the sector's and not blank (R77). -/
theorem imagesFrom_ends {m : Memory} {i n g : Nat} (hg : Walks (afterImage m i) g) (hn : 256 ≤ n + g) :
    ∃ e, Walks (afterImage m i) (e + 1) ∧ (∀ r, readImage m { sector := i, granule := e + 1 } ≠ .image r) ∧
      (imagesFrom m i n g).used = e ∧
      ((imagesFrom m i n g).torn = false ↔ 255 ≤ e ∨ readImage m { sector := i, granule := e + 1 } = .blank) := by
  obtain ⟨e, rfl⟩ : ∃ e, g = e + 1 := ⟨g - 1, by have := hg.pos lt_afterImage; omega⟩
  have beyond (h : 255 ≤ e) : ∀ r, readImage m { sector := i, granule := e + 1 } ≠ .image r := fun r hr => by
    have : e + 1 ≤ 255 := granule_le_of_image hr
    omega
  induction n generalizing e with
  | zero =>
    have h : 255 ≤ e := by omega
    exact ⟨e, hg, beyond h, rfl, iff_of_true rfl (Or.inl h)⟩
  | succ n ih =>
    unfold imagesFrom
    split
    · rename_i h
      have h : 255 ≤ e := Nat.lt_succ_iff.1 h
      exact ⟨e, hg, beyond h, rfl, iff_of_true rfl (Or.inl h)⟩
    · rename_i h
      have h : ¬ 255 ≤ e := fun h' => h (Nat.lt_succ_iff.2 h')
      split
      · rename_i hr
        exact ⟨e, hg, by simp [hr], rfl, iff_of_true rfl (Or.inr hr)⟩
      · rename_i hr
        exact ⟨e, hg, by simp [hr], rfl, by simp [hr, h]⟩
      · rename_i r hr
        have hs : afterImage m i (e + 1) = some (e + imageLen r.value.length + 1) :=
          afterImage_eq_some.2 ⟨r, hr, by omega⟩
        have hpos := imageLen_pos r.value.length
        have heq : e + 1 + imageLen r.value.length = e + imageLen r.value.length + 1 := by omega
        simp only [heq]
        refine ih (e + imageLen r.value.length) (.step _ _ hg hs) (by omega) fun h' q hq => ?_
        have : e + imageLen r.value.length + 1 ≤ 255 := granule_le_of_image hq
        omega

end Sys2Proof.Proofs
end

