-- ==== Sys2Proof/Proofs/ScanB.lean ====
section
/-! PROOFS. The start-up scan's rebuild (R13, R24, R76 to R78): the sector table from the headers, the order of the sectors,
the candidates and the one kept for each key, the clock, the checks, the sector left OPEN. -/

namespace Sys2Proof.Proofs
open Sys2Proof Sys2Proof.Machine Sys2Proof.Stated

/-! ## The table after the headers (R76) -/

/-- The highest erase count that a header shows. -/
def shownHighest (m : Memory) : BitVec 16 := largest (sectorNumbers.flatMap fun i => countsIn (headerOf m i))

theorem getElem?_headerTable {m : Memory} {i : Nat} {x : Sector} :
    (headerTable m)[i]? = some x ↔ i < 64 ∧ x = classify (shownHighest m) (headerOf m i) := by
  unfold headerTable sectorNumbers shownHighest
  rw [List.getElem?_map]
  by_cases hi : i < 64
  · rw [List.getElem?_range hi]
    simp [hi, eq_comm, sectorNumbers]
  · rw [List.getElem?_eq_none (by simpa using hi)]
    simp [hi]

theorem classify_of_retired {h : List Byte} (q : BitVec 16) (hr : retiredSet h = true) :
    classify q h =
      { state := .retired, seq := none, eraseCount := (shownCount h).getD q, used := 0, live := 0,
        reclaim := reclaimSet h } := by
  simp only [classify, hr, if_true]

/-- A header marked for erasure, by its opening record. -/
theorem classify_of_erase {h : List Byte} (q : BitVec 16) (hr : retiredSet h = false) (he : eraseSet h = true) :
    classify q h =
      { state := .erasing
        seq :=
          match readOpening h with
          | .present o => some o.seq
          | _ => none
        eraseCount := (shownCount h).getD q, used := 255, live := 0, reclaim := reclaimSet h } := by
  simp only [classify, hr, he, Bool.false_eq_true, if_false, if_true]
  cases readOpening h <;> rfl

theorem classify_of_present {h : List Byte} {o : Opening} (q : BitVec 16) (hr : retiredSet h = false)
    (he : eraseSet h = false) (ho : readOpening h = .present o) :
    classify q h =
      { state := .full, seq := some o.seq, eraseCount := (shownCount h).getD q, used := 255, live := 0,
        reclaim := reclaimSet h } := by
  simp only [classify, hr, he, ho, Bool.false_eq_true, if_false]

theorem classify_of_torn {h : List Byte} (q : BitVec 16) (hr : retiredSet h = false) (he : eraseSet h = false)
    (ho : readOpening h = .torn) :
    classify q h =
      { state := .full, seq := none, eraseCount := (shownCount h).getD q, used := 255, live := 0,
        reclaim := reclaimSet h } := by
  simp only [classify, hr, he, ho, Bool.false_eq_true, if_false]

theorem classify_of_blank {h : List Byte} (q : BitVec 16) (hr : retiredSet h = false) (he : eraseSet h = false)
    (ho : readOpening h = .blank) :
    classify q h =
      { state := .erased, seq := none, eraseCount := (shownCount h).getD q, used := 0, live := 0,
        reclaim := reclaimSet h } := by
  simp only [classify, hr, he, ho, Bool.false_eq_true, if_false]

/-- The five kinds of header (R76). -/
inductive HeaderKind (h : List Byte) : Prop where
  | retired (hr : retiredSet h = true)
  | erase (hr : retiredSet h = false) (he : eraseSet h = true)
  | present (hr : retiredSet h = false) (he : eraseSet h = false) (o : Opening) (ho : readOpening h = .present o)
  | torn (hr : retiredSet h = false) (he : eraseSet h = false) (ho : readOpening h = .torn)
  | blank (hr : retiredSet h = false) (he : eraseSet h = false) (ho : readOpening h = .blank)

theorem headerKind (h : List Byte) : HeaderKind h := by
  cases hr : retiredSet h with
  | true => exact .retired hr
  | false =>
    cases he : eraseSet h with
    | true => exact .erase hr he
    | false =>
      cases ho : readOpening h with
      | present o => exact .present hr he o ho
      | torn => exact .torn hr he ho
      | blank => exact .blank hr he ho

theorem classify_eraseCount (q : BitVec 16) (h : List Byte) : (classify q h).eraseCount = (shownCount h).getD q := by
  cases headerKind h with
  | retired hr => rw [classify_of_retired q hr]
  | erase hr he => rw [classify_of_erase q hr he]
  | present hr he o ho => rw [classify_of_present q hr he ho]
  | torn hr he ho => rw [classify_of_torn q hr he ho]
  | blank hr he ho => rw [classify_of_blank q hr he ho]

theorem classify_reclaim (q : BitVec 16) (h : List Byte) : (classify q h).reclaim = reclaimSet h := by
  cases headerKind h with
  | retired hr => rw [classify_of_retired q hr]
  | erase hr he => rw [classify_of_erase q hr he]
  | present hr he o ho => rw [classify_of_present q hr he ho]
  | torn hr he ho => rw [classify_of_torn q hr he ho]
  | blank hr he ho => rw [classify_of_blank q hr he ho]

/-- The sector's entry has content exactly where its header says so. -/
theorem hasContent_classify {m : Memory} {i : Nat} (hi : i < 64) (q : BitVec 16) :
    hasContent (classify q (headerOf m i)) = true ↔ ∃ o, Content m i o := by
  unfold Content
  cases headerKind (headerOf m i) with
  | retired hr => simp [classify_of_retired q hr, hasContent, hr]
  | erase hr he => simp [classify_of_erase q hr he, hasContent, he]
  | present hr he o ho => simp [classify_of_present q hr he ho, hasContent, hr, he, ho, hi]
  | torn hr he ho => simp [classify_of_torn q hr he ho, hasContent, ho]
  | blank hr he ho => simp [classify_of_blank q hr he ho, hasContent, ho]

/-! ## The order of the sectors (R77) -/

theorem mem_scanOrder {m : Memory} {i : Nat} : i ∈ scanOrder (headerTable m) ↔ ∃ o, Content m i o := by
  rw [(scanOrder_spec _).1]
  constructor
  · rintro ⟨x, hx, hc⟩
    obtain ⟨hi, rfl⟩ := getElem?_headerTable.1 hx
    exact (hasContent_classify hi _).1 hc
  · rintro ⟨o, ho⟩
    exact ⟨_, getElem?_headerTable.2 ⟨ho.1, rfl⟩, (hasContent_classify ho.1 _).2 ⟨o, ho⟩⟩

/-- The table's entry of a sector with content. -/
theorem getElem?_headerTable_of_content {m : Memory} {i : Nat} {o : Opening} (h : Content m i o) :
    ∃ x, (headerTable m)[i]? = some x ∧ x.seq = some o.seq ∧ x.reclaim = reclaimSet (headerOf m i) := by
  obtain ⟨hi, hr, he, ho⟩ := h
  refine ⟨_, getElem?_headerTable.2 ⟨hi, rfl⟩, ?_, classify_reclaim _ _⟩
  rw [classify_of_present _ hr he ho]

theorem pairwise_scanOrder (m : Memory) : (scanOrder (headerTable m)).Pairwise (SectorBefore m) := by
  refine (scanOrder_spec (headerTable m)).2.imp_of_mem fun {i j} hi hj hij => ?_
  obtain ⟨o, ho⟩ := mem_scanOrder.1 hi
  obtain ⟨p, hp⟩ := mem_scanOrder.1 hj
  obtain ⟨x, hx, hxs, -⟩ := getElem?_headerTable_of_content ho
  obtain ⟨y, hy, hys, -⟩ := getElem?_headerTable_of_content hp
  have h := hij x y hx hy
  rw [hxs, hys] at h
  exact ⟨o, p, ho, hp, h⟩

theorem content_unique {m : Memory} {i : Nat} {o p : Opening} (ho : Content m i o) (hp : Content m i p) : o = p := by
  obtain ⟨-, -, -, ho⟩ := ho
  obtain ⟨-, -, -, hp⟩ := hp
  rw [ho] at hp
  cases hp
  rfl

theorem sectorBefore_asymm {m : Memory} {i j : Nat} (h : SectorBefore m i j) : ¬ SectorBefore m j i := by
  obtain ⟨o, p, ho, hp, hlt⟩ := h
  rintro ⟨p', o', hp', ho', hgt⟩
  cases content_unique ho ho'
  cases content_unique hp hp'
  rcases hlt with hlt | ⟨hoe, hlt⟩
  · rcases hgt with hgt | ⟨hpe, -⟩
    · omega
    · rw [hpe] at hlt
      omega
  · rcases hgt with hgt | ⟨-, hgt⟩
    · rw [hoe] at hgt
      omega
    · omega

/-! ## The candidates (R77) -/

/-- The images of the sectors with content, in the order in which the scan finds them. -/
def foundImages (m : Memory) : List (Loc × Record) :=
  (scanOrder (headerTable m)).flatMap fun i => (imagesOf m i).images

theorem mem_foundImages {m : Memory} {c : Loc × Record} :
    c ∈ foundImages m ↔ (∃ o, Content m c.1.sector o) ∧ ImageAt m c.1 c.2 := by
  simp only [foundImages, List.mem_flatMap, mem_scanOrder, mem_imagesOf]
  constructor
  · rintro ⟨i, hi, rfl, hc⟩
    exact ⟨hi, hc⟩
  · rintro ⟨hi, hc⟩
    exact ⟨c.1.sector, hi, rfl, hc⟩

theorem pairwise_foundImages (m : Memory) : (foundImages m).Pairwise fun a b => FoundBefore m a.1 b.1 := by
  unfold foundImages
  rw [List.pairwise_flatMap]
  refine ⟨fun i _ => ?_, (pairwise_scanOrder m).imp fun {i j} hij a ha b hb => ?_⟩
  · refine (pairwise_imagesFrom m i _ 1).1.imp_of_mem fun {a b} ha hb hab => Or.inr ⟨?_, hab⟩
    rw [(mem_imagesOf.1 ha).1, (mem_imagesOf.1 hb).1]
  · rw [← (mem_imagesOf.1 ha).1, ← (mem_imagesOf.1 hb).1] at hij
    exact Or.inl hij

theorem candidate_iff {m : Memory} {l : Loc} {r : Record} :
    Candidate m l r ↔ validKey r.key = true ∧ (l, r) ∈ foundImages m := by
  rw [mem_foundImages, validKey_iff, Candidate, and_assoc]

/-- An entry kept is a candidate's that no other of its key beats, the first found of those with its stamp. -/
theorem kept_candidate {s : State} {m : Memory} {e : Entry} (h : Kept s (foundImages m) e) :
    ∃ l r, Candidate m l r ∧ e = entryOf r l ∧
      ∀ l' r', Candidate m l' r' → r'.key = r.key →
        beats s r.key r'.stamp r.stamp = false ∧ (r'.stamp = r.stamp → l' = l ∨ FoundBefore m l l') := by
  obtain ⟨before, ⟨l, r⟩, after, hlist, rfl, hvalid, hbefore, hafter⟩ := h
  have hmem : (l, r) ∈ foundImages m := by
    rw [hlist]
    exact List.mem_append_right _ List.mem_cons_self
  refine ⟨l, r, candidate_iff.2 ⟨hvalid, hmem⟩, rfl, fun l' r' hc hk => ?_⟩
  have hin := (candidate_iff.1 hc).2
  rw [hlist] at hin
  rcases List.mem_append.1 hin with hin | hin
  · -- Found before: the one kept beats it.
    have hb : beats s r.key r.stamp r'.stamp = true := hbefore (l', r') hin hk
    have hlost : beats s r.key r'.stamp r.stamp = false := (beatsIsAStrictOrder _ _ _ r.stamp).2.1 hb
    refine ⟨hlost, fun hst => ?_⟩
    rw [hst] at hb hlost
    rw [hb] at hlost
    cases hlost
  · rcases List.mem_cons.1 hin with heq | hin
    · cases heq
      exact ⟨(beatsIsAStrictOrder _ _ r.stamp r.stamp).1, fun _ => Or.inl rfl⟩
    · refine ⟨hafter (l', r') hin hk, fun _ => Or.inr ?_⟩
      have hp := pairwise_foundImages m
      rw [hlist] at hp
      exact List.rel_of_pairwise_cons (List.pairwise_append.1 hp).2.1 hin

/-! ## The largest of what flash shows (R13, R76) -/

/-- The largest of a list is the largest of what the list holds. -/
theorem largest_of_mem {n : Nat} {l : List (BitVec n)} {p : BitVec n → Prop} (h : ∀ d, d ∈ l ↔ p d) :
    Largest p (largest l) := by
  obtain ⟨hle, hmem⟩ := largest_spec l
  refine ⟨fun d hd => hle d ((h d).2 hd), hmem.imp (h _).1 ?_⟩
  rintro ⟨h0, rfl⟩
  exact ⟨h0, fun d hd => List.not_mem_nil ((h d).2 hd)⟩

theorem mem_countsIn {h : List Byte} {c : BitVec 16} :
    c ∈ countsIn h ↔ (∃ o, readOpening h = .present o ∧ c = o.eraseCount) ∨ readEraseCount h = .present c := by
  unfold countsIn
  rw [List.mem_append]
  refine or_congr ?_ ?_
  · cases readOpening h <;> simp
  · cases readEraseCount h <;> simp [eq_comm]

theorem largest_countShown (m : Memory) : Largest (CountShown m) (shownHighest m) :=
  largest_of_mem fun c => by simp [sectorNumbers, mem_countsIn, CountShown]

theorem largest_seqShown (m : Memory) : Largest (SeqShown m) (largest (scanSeqs m)) := by
  refine largest_of_mem fun q => ?_
  simp only [scanSeqs, sectorNumbers, List.mem_filterMap, List.mem_range, SeqShown]
  refine exists_congr fun i => ?_
  rw [exists_and_left]
  refine and_congr_right' ?_
  cases readOpening (headerOf m i) <;> simp [eq_comm]

/-- The images of a sector that count for the clock (R13, R77). -/
theorem mem_clockImages {m : Memory} {i : Nat} (hi : i < 64) (q : BitVec 16) {c : Loc × Record} :
    c ∈ clockImages m i (classify q (headerOf m i)) ↔
      c.1.sector = i ∧
        (((∃ o, Content m i o) ∧ ImageAt m c.1 c.2) ∨
          (ForClockAlone m i ∧ ReadThrough m i c.1.granule ∧ readImage m c.1 = .image c.2)) := by
  unfold clockImages
  by_cases hc : ∃ o, Content m i o
  · have alone : ¬ ForClockAlone m i := by
      obtain ⟨o, -, hr, he, ho⟩ := hc
      simp [ForClockAlone, hr, he, ho]
    rw [if_pos ((hasContent_classify hi q).2 hc), mem_imagesOf]
    simp [hc, alone]
  · rw [if_neg (mt (hasContent_classify hi q).1 hc)]
    cases headerKind (headerOf m i) with
    | retired hr => simp [classify_of_retired q hr, mem_imagesThrough_one, hc, ForClockAlone, hi, hr]
    | erase hr he => simp [classify_of_erase q hr he, mem_imagesThrough_one, hc, ForClockAlone, hi, he]
    | present hr he o ho => exact absurd ⟨o, hi, hr, he, ho⟩ hc
    | torn hr he ho => simp [classify_of_torn q hr he ho, hc, ForClockAlone, hr, he, ho]
    | blank hr he ho => simp [classify_of_blank q hr he ho, mem_imagesThrough_one, hc, ForClockAlone, hi, ho]

/-- The counters found are the opening records' clocks and those of the images that count (R13). -/
theorem mem_scanCounters_iff {m : Memory} {table : List Sector} {c : Counter} :
    c ∈ scanCounters m table ↔
      ∃ i, i < 64 ∧
        ((∃ o, readOpening (headerOf m i) = .present o ∧ c = o.clock) ∨
          ∃ x, table[i]? = some x ∧ c ∈ (clockImages m i x).map fun d => d.2.stamp.counter) := by
  simp only [scanCounters, sectorNumbers, List.mem_flatMap, List.mem_range, List.mem_append]
  refine exists_congr fun i => and_congr_right' (or_congr ?_ ?_)
  · cases readOpening (headerOf m i) <;> simp
  · cases table[i]? <;> simp

theorem mem_scanCounters {m : Memory} {c : Counter} : c ∈ scanCounters m (headerTable m) ↔ ClockSource m c := by
  have entry {i : Nat} (hi : i < 64) : (headerTable m)[i]? = some (classify (shownHighest m) (headerOf m i)) :=
    getElem?_headerTable.2 ⟨hi, rfl⟩
  rw [mem_scanCounters_iff]
  constructor
  · rintro ⟨i, hi, ⟨o, ho, hco⟩ | ⟨x, hx, hc⟩⟩
    · exact Or.inl ⟨i, o, hi, ho, hco⟩
    · obtain ⟨-, rfl⟩ := getElem?_headerTable.1 hx
      obtain ⟨⟨l, r⟩, hmem, rfl⟩ := List.mem_map.1 hc
      obtain ⟨rfl, ⟨hcon, him⟩ | ⟨hal, hrt, hr⟩⟩ := (mem_clockImages hi _).1 hmem
      · exact Or.inr (Or.inl ⟨l, r, hcon, him, rfl⟩)
      · exact Or.inr (Or.inr ⟨l, r, hal, hrt, hr, rfl⟩)
  · rintro (⟨i, o, hi, ho, rfl⟩ | ⟨l, r, hcon, him, rfl⟩ | ⟨l, r, hal, hrt, hr, rfl⟩)
    · exact ⟨i, hi, Or.inl ⟨o, ho, rfl⟩⟩
    · have hi : l.sector < 64 := hcon.elim fun _ h => h.1
      exact ⟨l.sector, hi, Or.inr ⟨_, entry hi,
        List.mem_map.2 ⟨(l, r), (mem_clockImages hi _).2 ⟨rfl, Or.inl ⟨hcon, him⟩⟩, rfl⟩⟩⟩
    · exact ⟨l.sector, hal.1, Or.inr ⟨_, entry hal.1,
        List.mem_map.2 ⟨(l, r), (mem_clockImages hal.1 _).2 ⟨rfl, Or.inr ⟨hal, hrt, hr⟩⟩, rfl⟩⟩⟩

/-! ## The bucket checks (R24, R29) -/

/-- A bucket's check is the XOR of the folds of its shared entries. -/
theorem checksOf_bucket (s : State) (entries : List Entry) (b : Bucket) :
    (checksOf s entries)[b.toNat]'b.isLt =
      (entries.filter fun e => bucketOf e.key == b && !isLocal s e.key).foldl
        (fun c e => c ^^^ entryFold e.key e.stamp) 0 := by
  have key (v : Vector (BitVec 16) 64) :
      (entries.foldl (fun v e => if isLocal s e.key then v else xorCheck v e.key (entryFold e.key e.stamp)) v)[b.toNat]'b.isLt =
        (entries.filter fun e => bucketOf e.key == b && !isLocal s e.key).foldl
          (fun c e => c ^^^ entryFold e.key e.stamp) (v[b.toNat]'b.isLt) := by
    induction entries generalizing v with
    | nil => rfl
    | cons e l ih =>
      rw [List.foldl_cons, ih, List.filter_cons]
      by_cases hl : isLocal s e.key = true
      · simp [hl]
      · by_cases hb : bucketOf e.key = b
        · simp [hl, hb, getElem_xorCheck]
        · simp [hl, hb, getElem_xorCheck, Ne.symm hb]
  unfold checksOf
  rw [key, Vector.getElem_replicate]

/-! ## The sector left OPEN (R78) -/

/-- The last sector of the scan's order is the one that every other with content comes before. -/
theorem getLast?_scanOrder {m : Memory} {i : Nat} :
    (scanOrder (headerTable m)).getLast? = some i ↔
      (∃ o, Content m i o) ∧ ∀ j o, Content m j o → j ≠ i → SectorBefore m j i := by
  have hp := pairwise_scanOrder m
  constructor
  · intro h
    obtain ⟨ys, hys⟩ := List.getLast?_eq_some_iff.1 h
    refine ⟨mem_scanOrder.1 (List.mem_of_getLast? h), fun j o hj hne => ?_⟩
    have hmem : j ∈ scanOrder (headerTable m) := mem_scanOrder.2 ⟨o, hj⟩
    rw [hys] at hp hmem
    rcases List.mem_append.1 hmem with hmem | hmem
    · exact (List.pairwise_append.1 hp).2.2 j hmem i List.mem_cons_self
    · exact absurd (List.mem_singleton.1 hmem) hne
  · rintro ⟨hi, hlast⟩
    have hmem : i ∈ scanOrder (headerTable m) := mem_scanOrder.2 hi
    obtain ⟨l, hl⟩ : ∃ l, (scanOrder (headerTable m)).getLast? = some l :=
      ⟨_, List.getLast?_eq_some_getLast (List.ne_nil_of_mem hmem)⟩
    obtain ⟨ys, hys⟩ := List.getLast?_eq_some_iff.1 hl
    obtain ⟨o, ho⟩ := mem_scanOrder.1 (List.mem_of_getLast? hl)
    by_contra hne
    have hli : l ≠ i := fun e => hne (e ▸ hl)
    rw [hys] at hp hmem
    rcases List.mem_append.1 hmem with hmem | hmem
    · exact sectorBefore_asymm (hlast l o ho hli) ((List.pairwise_append.1 hp).2.2 i hmem l List.mem_cons_self)
    · exact hli (List.mem_singleton.1 hmem).symm

/-- The sector's images end at a blank granule within it, behind so many used ones (R77). -/
theorem imagesOf_open_iff {m : Memory} {i used : Nat} :
    ((imagesOf m i).used < 255 ∧ (imagesOf m i).torn = false ∧ (imagesOf m i).used = used) ↔
      Reached m i (used + 1) ∧ used < 255 ∧ readImage m { sector := i, granule := used + 1 } = .blank := by
  obtain ⟨e, hw, hnone, hused, htorn⟩ := imagesFrom_ends (m := m) (i := i) (n := 255) .first (by decide)
  change (imagesOf m i).used = e at hused
  change (imagesOf m i).torn = false ↔ _ at htorn
  rw [hused, htorn, reached_iff]
  constructor
  · rintro ⟨hlt, hend, rfl⟩
    exact ⟨hw, hlt, hend.resolve_left (Nat.not_le.2 hlt)⟩
  · rintro ⟨hw', hlt, hblank⟩
    have hnone' : ∀ r, readImage m { sector := i, granule := used + 1 } ≠ .image r := by simp [hblank]
    have heq : e + 1 = used + 1 :=
      hw.end_unique lt_afterImage hw' (afterImage_eq_none.2 hnone) (afterImage_eq_none.2 hnone')
    cases heq
    exact ⟨hlt, Or.inr hblank, rfl⟩

/-- The sector the scan leaves OPEN is the one of R78. -/
theorem scanOpen_eq_some {m : Memory} {i used : Nat} :
    scanOpen m (headerTable m) = some (i, used) ↔ ScanOpens m i used := by
  unfold scanOpen ScanOpens
  constructor
  · intro h
    split at h
    · rename_i j hj
      split at h
      · rename_i x hx
        dsimp only at h
        split at h
        · rename_i hopen
          cases h
          obtain ⟨hcon, hlast⟩ := getLast?_scanOrder.1 hj
          obtain ⟨hlt, htorn, hmark⟩ := hopen
          obtain ⟨-, rfl⟩ := getElem?_headerTable.1 hx
          rw [classify_reclaim] at hmark
          exact ⟨hcon, hlast, hmark, imagesOf_open_iff.1 ⟨hlt, htorn, rfl⟩⟩
        · cases h
      · cases h
    · cases h
  · rintro ⟨⟨o, hcon⟩, hlast, hmark, hends⟩
    obtain ⟨hlt, htorn, hused⟩ := imagesOf_open_iff.2 hends
    obtain ⟨x, hx, -, hxr⟩ := getElem?_headerTable_of_content hcon
    simp only [getLast?_scanOrder.2 ⟨⟨o, hcon⟩, hlast⟩, hx]
    rw [if_pos ⟨hlt, htorn, hxr.trans hmark⟩, hused]

theorem finishSector_of_opens {m : Memory} {i used : Nat} (entries : List Entry) (x : Sector) (h : ScanOpens m i used) :
    finishSector entries (scanOpen m (headerTable m)) i x =
      { x with live := liveIn entries i, state := .openForAppend, used := used } := by
  rw [scanOpen_eq_some.2 h]
  simp [finishSector]

theorem finishSector_of_not_opens {m : Memory} {i : Nat} (entries : List Entry) (x : Sector)
    (h : ∀ used, ¬ ScanOpens m i used) :
    finishSector entries (scanOpen m (headerTable m)) i x = { x with live := liveIn entries i } := by
  unfold finishSector
  split
  · rename_i j used hj
    rw [if_neg]
    rintro rfl
    exact h used (scanOpen_eq_some.1 hj)
  · rfl

theorem finishSector_fields (entries : List Entry) (opened : Option (Nat × Nat)) (i : Nat) (x : Sector) :
    (finishSector entries opened i x).live = liveIn entries i ∧
      (finishSector entries opened i x).eraseCount = x.eraseCount ∧
      (finishSector entries opened i x).reclaim = x.reclaim := by
  unfold finishSector
  split
  · dsimp only
    split <;> exact ⟨rfl, rfl, rfl⟩
  · exact ⟨rfl, rfl, rfl⟩

/-- A sector's entry after the scan is what its header and images make of it (R76, R78). -/
theorem sectorIs_finishSector {m : Memory} {i : Nat} (entries : List Entry) (q : BitVec 16) :
    SectorIs m i (finishSector entries (scanOpen m (headerTable m)) i (classify q (headerOf m i))) := by
  refine ⟨((finishSector_fields ..).2.2).trans (classify_reclaim ..), ?_⟩
  have closed (hno : ¬ ∃ o, Content m i o) := finishSector_of_not_opens (m := m) (i := i) entries
    (classify q (headerOf m i)) fun used h => hno h.1
  cases headerKind (headerOf m i) with
  | retired hr =>
    rw [if_pos hr, closed (fun ⟨_, _, h, _⟩ => by rw [hr] at h; cases h), classify_of_retired q hr]
    exact ⟨rfl, rfl, rfl⟩
  | erase hr he =>
    rw [if_neg (by simp [hr]), if_pos he, closed (fun ⟨_, _, _, h, _⟩ => by rw [he] at h; cases h),
      classify_of_erase q hr he]
    exact ⟨rfl, rfl, rfl⟩
  | present hr he o ho =>
    rw [if_neg (by simp [hr]), if_neg (by simp [he])]
    simp only [ho]
    refine ⟨?_, fun used h => ?_, fun h => ?_⟩
    · by_cases h : ∃ used, ScanOpens m i used
      · obtain ⟨used, h⟩ := h
        rw [finishSector_of_opens entries _ h, classify_of_present q hr he ho]
      · rw [finishSector_of_not_opens entries _ fun used hu => h ⟨used, hu⟩, classify_of_present q hr he ho]
    · rw [finishSector_of_opens entries _ h]
      exact ⟨rfl, rfl⟩
    · rw [finishSector_of_not_opens entries _ h, classify_of_present q hr he ho]
      exact ⟨rfl, rfl⟩
  | torn hr he ho =>
    rw [if_neg (by simp [hr]), if_neg (by simp [he])]
    simp only [ho]
    rw [closed (fun ⟨_, _, _, _, h⟩ => by rw [ho] at h; cases h), classify_of_torn q hr he ho]
    exact ⟨rfl, rfl, rfl⟩
  | blank hr he ho =>
    rw [if_neg (by simp [hr]), if_neg (by simp [he])]
    simp only [ho]
    rw [closed (fun ⟨_, _, _, _, h⟩ => by rw [ho] at h; cases h), classify_of_blank q hr he ho]
    exact ⟨rfl, rfl, rfl⟩

/-- A sector's erase count after the scan (R76). -/
theorem countIs_finishSector (m : Memory) (i : Nat) (entries : List Entry) (opened : Option (Nat × Nat)) (q : BitVec 16) :
    CountIs m i q (finishSector entries opened i (classify q (headerOf m i))).eraseCount := by
  rw [(finishSector_fields ..).2.1, classify_eraseCount]
  unfold CountIs shownCount
  cases readOpening (headerOf m i) <;> cases readEraseCount (headerOf m i) <;> rfl

end Sys2Proof.Proofs
end

