-- ==== Sys2Proof/Proofs/ScanC.lean ====
section
/-! PROOFS. The end of the start-up scan (R78, R158, R163), concluded: what it rebuilds, compaction's first run, and a blank
store. -/

namespace Sys2Proof.Proofs
open Sys2Proof Sys2Proof.Machine Sys2Proof.Stated

/-! ## The station at the scan's end -/

/-- The station as it enters LISTENING, before compaction's first run (R78, R163). -/
def scanned (s : State) : State :=
  { s with
    ctl := { s.ctl with st := .listening, listeningSince := some s.now }
    host := s.host.post (.stationState .listening)
    dir := (scan s).dir
    store :=
      { s.store with sectors := (scan s).store.sectors, highestSeq := (scan s).store.highestSeq, low := false }
    line := { s.line with phase := .settling, quietSince := s.now } }

theorem scanned_sectors (s : State) : (scanned s).store.sectors = (scan s).store.sectors := by
  rw [scanned]

theorem enterListening_scan (s : State) : enterStation .listening (startListening (scan s)) = scanned s := by
  rw [scanned, scan_eq]
  generalize scan s = u
  rfl

theorem exec_startUpScanEnd_of_scanning {s : State} (hp : Powered s) (hst : s.ctl.st = .starting)
    (hw : s.ctl.softWait = false) (hf : s.ctl.force ≠ none) :
    exec .startUpScanEnd s = .next (advanceWalk (nextRun (scanned s))) := by
  rw [exec_startUpScanEnd, execStartUpScanEnd, if_pos (isScanning_iff.2 ⟨hp, hst, hw, hf⟩), enterListening_scan]

/-- The entries the scan keeps (R77). -/
def keptEntries (s : State) : List Entry := (foundImages s.flash).foldl (keepCandidate s) []

theorem scan_dir (s : State) :
    (scan s).dir =
      { entries := keptEntries s
        checks := checksOf s (keptEntries s)
        clock := largest (scanCounters s.flash (headerTable s.flash))
        entryCount := (keptEntries s).length
        sharedCount := (keptEntries s).countP fun e => !isLocal s e.key
        reservations := 0 } := by
  simp only [scan, keptEntries, foundImages]

theorem scan_sectors (s : State) :
    (scan s).store.sectors =
      (headerTable s.flash).mapIdx (finishSector (keptEntries s) (scanOpen s.flash (headerTable s.flash))) := by
  simp only [scan, keptEntries, foundImages]

theorem scan_highestSeq (s : State) : (scan s).store.highestSeq = largest (scanSeqs s.flash) := by
  simp only [scan]

theorem length_scan_sectors (s : State) : (scan s).store.sectors.length = 64 := by
  rw [scan_sectors, List.length_mapIdx, length_headerTable]

/-- A sector's entry at the scan's end: what its header shows, finished by what the scan found. -/
theorem getElem?_scan_sectors {s : State} {i : Nat} {x : Sector} (h : (scan s).store.sectors[i]? = some x) :
    x = finishSector (keptEntries s) (scanOpen s.flash (headerTable s.flash)) i
      (classify (shownHighest s.flash) (headerOf s.flash i)) := by
  rw [scan_sectors, List.getElem?_mapIdx, Option.map_eq_some_iff] at h
  obtain ⟨y, hy, rfl⟩ := h
  obtain ⟨-, rfl⟩ := getElem?_headerTable.1 hy
  rfl

/-! ## The directory it leaves -/

theorem scan_entries (s : State) : (scan s).dir.entries = keptEntries s := by
  rw [scan_dir]

theorem pairwise_scan_entries (s : State) : (scan s).dir.entries.Pairwise fun a b => a.key.toNat < b.key.toNat := by
  rw [scan_entries]
  exact (foldl_keepCandidate s _).1

theorem kept_of_mem_scan_entries {s : State} {e : Entry} (h : e ∈ (scan s).dir.entries) :
    Kept s (foundImages s.flash) e := by
  rw [scan_entries] at h
  exact (foldl_keepCandidate s _).2.1 e h

/-- Every key with a candidate has an entry (R77). -/
theorem exists_scan_entry {s : State} {l : Loc} {r : Record} (h : Candidate s.flash l r) :
    ∃ e ∈ (scan s).dir.entries, e.key = r.key := by
  obtain ⟨hkey, hmem⟩ := candidate_iff.1 h
  rw [scan_entries]
  exact (foldl_keepCandidate s _).2.2 (l, r) hmem hkey

theorem scan_entryCount (s : State) : (scan s).dir.entryCount = (scan s).dir.entries.length := by
  rw [scan_dir]

theorem scan_sharedCount (s : State) :
    (scan s).dir.sharedCount = (scan s).dir.entries.countP fun e => !isLocal s e.key := by
  rw [scan_dir]

theorem scan_reservations (s : State) : (scan s).dir.reservations = 0 := by
  rw [scan_dir]

/-- The rebuilt checks are the folds of the buckets of the rebuilt directory (R24, R29). -/
theorem scan_checks (s : State) (b : Bucket) :
    (scan s).dir.checks[b.toNat]'b.isLt = bucketFold { s with dir := (scan s).dir } b := by
  have hchecks : (scan s).dir.checks = checksOf s (scan s).dir.entries := by rw [scan_dir]
  generalize (scan s).dir = d at hchecks ⊢
  have hlocal (k : Key) : isLocal { s with dir := d } k = isLocal s k := rfl
  simp only [hchecks, checksOf_bucket, bucketFold, hlocal]

theorem largest_scan_clock (s : State) : Largest (ClockSource s.flash) (scan s).dir.clock := by
  rw [scan_dir]
  exact largest_of_mem fun c => mem_scanCounters

theorem largest_scan_highestSeq (s : State) : Largest (SeqShown s.flash) (scan s).store.highestSeq := by
  rw [scan_highestSeq]
  exact largest_seqShown _

/-! ## A blank store (R158) -/

/-- Of nothing the largest is 0. -/
theorem eq_zero_of_largest {n : Nat} {p : BitVec n → Prop} {c : BitVec n} (h : Largest p c) (hp : ∀ d, ¬ p d) : c = 0 := by
  rcases h.2 with hc | ⟨h0, -⟩
  · exact absurd hc (hp c)
  · exact h0

theorem readBytes_nil (a n : Nat) : Memory.readBytes [] a n = List.replicate n 0xFF := by
  unfold Memory.readBytes
  simp [Memory.read, blankByte]

theorem headerOf_nil (i : Nat) : headerOf [] i = List.replicate 16 0xFF := readBytes_nil _ _

theorem readOpening_nil (i : Nat) : readOpening (headerOf [] i) = .blank := by
  rw [headerOf_nil]
  decide

theorem readEraseCount_nil (i : Nat) : readEraseCount (headerOf [] i) = .blank := by
  rw [headerOf_nil]
  decide

/-- Blank flash holds no image. -/
theorem readImage_nil (l : Loc) (r : Record) : readImage [] l ≠ .image r := by
  unfold readImage
  split
  · exact ImageRead.noConfusion
  · rw [readBytes_nil, parseImage, if_pos (by rw [List.take_replicate]; decide)]
    exact ImageRead.noConfusion

theorem not_content_nil (i : Nat) (o : Opening) : ¬ Content [] i o := by
  rintro ⟨-, -, -, h⟩
  rw [readOpening_nil] at h
  cases h

theorem scanOrder_nil : scanOrder (headerTable []) = [] :=
  List.eq_nil_iff_forall_not_mem.2 fun i h => (mem_scanOrder.1 h).elim (not_content_nil i)

theorem scanOpen_nil : scanOpen [] (headerTable []) = none := by
  unfold scanOpen
  rw [scanOrder_nil]
  rfl

theorem foundImages_nil : foundImages [] = [] := by
  unfold foundImages
  rw [scanOrder_nil]
  rfl

theorem shownHighest_nil : shownHighest [] = 0 := by
  refine eq_zero_of_largest (largest_countShown []) ?_
  rintro c ⟨i, -, ⟨o, ho, -⟩ | hc⟩
  · rw [readOpening_nil] at ho
    cases ho
  · rw [readEraseCount_nil] at hc
    cases hc

theorem largest_scanSeqs_nil : largest (scanSeqs []) = 0 := by
  refine eq_zero_of_largest (largest_seqShown []) ?_
  rintro q ⟨i, o, -, ho, -⟩
  rw [readOpening_nil] at ho
  cases ho

theorem largest_scanCounters_nil : largest (scanCounters [] (headerTable [])) = 0 := by
  refine eq_zero_of_largest (largest_of_mem fun c => mem_scanCounters) ?_
  rintro c (⟨i, o, -, ho, -⟩ | ⟨l, r, ⟨o, ho⟩, -⟩ | ⟨l, r, -, -, hr, -⟩)
  · rw [readOpening_nil] at ho
    cases ho
  · exact not_content_nil _ _ ho
  · exact readImage_nil l r hr

/-- The entry of an erased sector of a new part. -/
def newSector : Sector := { state := .erased, seq := none, eraseCount := 0, used := 0, live := 0, reclaim := false }

theorem headerTable_nil : headerTable [] = List.replicate 64 newSector := by
  refine List.ext_getElem? fun i => Option.ext fun x => ?_
  have hblank : classify 0 (List.replicate 16 0xFF) = newSector := by decide
  rw [getElem?_headerTable, shownHighest_nil, headerOf_nil, hblank, List.getElem?_replicate]
  simp [eq_comm]

theorem keptEntries_nil {s : State} (h : s.flash = []) : keptEntries s = [] := by
  rw [keptEntries, h, foundImages_nil, List.foldl_nil]

theorem scan_dir_nil {s : State} (h : s.flash = []) :
    (scan s).dir =
      { entries := [], checks := Vector.replicate 64 0, clock := 0, entryCount := 0, sharedCount := 0
        reservations := 0 } := by
  rw [scan_dir, keptEntries_nil h, h, largest_scanCounters_nil]
  rfl

theorem scan_sectors_nil {s : State} (h : s.flash = []) : (scan s).store.sectors = List.replicate 64 newSector := by
  rw [scan_sectors, keptEntries_nil h, h, scanOpen_nil, headerTable_nil]
  refine List.ext_getElem? fun i => ?_
  rw [List.getElem?_mapIdx, List.getElem?_replicate]
  split <;> rfl

theorem scan_highestSeq_nil {s : State} (h : s.flash = []) : (scan s).store.highestSeq = 0 := by
  rw [scan_highestSeq, h, largest_scanSeqs_nil]

/-- With every sector erased there is nothing to take up and no trigger: compaction is idle (R68, R75). -/
theorem nextRun_of_new {u : State} (h : u.store.sectors = List.replicate 64 newSector) : nextRun u = setComp .idle u := by
  have hstate (n : Nat) (x : Sector) (hx : u.store.sectors[n]? = some x) : x = newSector := by
    rw [h] at hx
    exact List.eq_of_mem_replicate (List.mem_of_getElem? hx)
  rw [nextRun_of_no_erasing fun n x hx => by rw [hstate n x hx]; decide, testTrigger, if_neg]
  have hfull : fullWithDead (setComp .idle u) = false := by
    change u.store.sectors.any _ = false
    rw [h]
    decide
  simp [trigger, hfull]

/-! ## The obligation -/

/-- Settles O21: the images found are the candidates, of which `Kept` names the one kept for each key; the sector table is
the headers' with the scan's finish; and blank flash shows no record of any kind. -/
theorem scanRebuildsTheStation : Obligations.ScanRebuildsTheStation := by
  refine ⟨fun s hp hst hw hf => ?_, fun u => ⟨fun v x hx he hbelow => ?_, fun h => ?_⟩, fun s hp hst hw hf hflash => ?_⟩
  · refine ⟨(scan s).dir, (scan s).store.sectors, (scan s).store.highestSeq, shownHighest s.flash,
      by rw [exec_startUpScanEnd_of_scanning hp hst hw hf, scanned], pairwise_scan_entries s,
      fun e he => kept_candidate (kept_of_mem_scan_entries he), fun l r hc => exists_scan_entry hc, scan_entryCount s,
      scan_sharedCount s, scan_reservations s, scan_checks s, largest_scan_clock s, largest_scan_highestSeq s,
      largest_countShown s.flash, length_scan_sectors s, fun i x hx => ?_⟩
    rw [getElem?_scan_sectors hx, scan_entries]
    exact ⟨sectorIs_finishSector .., countIs_finishSector .., (finishSector_fields ..).1.trans (liveIn_eq ..)⟩
  · exact nextRun_of_erasing hx he fun n y hn hy => hbelow n y hn hy
  · exact nextRun_of_no_erasing fun n x hx => h x (List.mem_of_getElem? hx)
  · rw [exec_startUpScanEnd_of_scanning hp hst hw hf,
      nextRun_of_new ((scanned_sectors s).trans (scan_sectors_nil hflash)), advanceWalk_of_idle (by rw [setComp_store])]
    simp only [scanned, setComp, scan_dir_nil hflash, scan_sectors_nil hflash, scan_highestSeq_nil hflash]
    rfl

end Sys2Proof.Proofs
end

