-- ==== Sys2Proof/Proofs/Entries.lean ====
section
/-! PROOFS. The Record Directory as a list (R15, R24, R26): what putting an entry does to its length, its shared count and
its bucket folds; so a commit, and a copy's move, keep the directory's law. -/

namespace Sys2Proof.Proofs
open Sys2Proof Sys2Proof.Machine

/-! ## An entry put, as a permutation -/

/-- An entry of a new key comes in beside the others. -/
theorem perm_putEntry_of_new {l : List Entry} {e : Entry} (h : ∀ d ∈ l, d.key ≠ e.key) :
    (putEntry l e).Perm (e :: l) := by
  induction l with
  | nil => exact .refl _
  | cons a l ih =>
    have ha : e.key ≠ a.key := (h a List.mem_cons_self).symm
    rw [putEntry, if_neg ha]
    split
    · exact .refl _
    · exact ((ih fun d hd => h d (List.mem_cons_of_mem a hd)).cons a).trans (.swap e a l)

/-- An entry of a key that is there takes the old one's place. -/
theorem perm_putEntry_of_old {l : List Entry} {old e : Entry} (hs : l.Pairwise fun a b => a.key.toNat < b.key.toNat)
    (ho : old ∈ l) (hk : old.key = e.key) : (old :: putEntry l e).Perm (e :: l) := by
  induction l with
  | nil => cases ho
  | cons a l ih =>
    obtain ⟨ha, hs⟩ := List.pairwise_cons.1 hs
    unfold putEntry
    rcases List.mem_cons.1 ho with rfl | ho
    · rw [if_neg (by rw [hk]; omega), if_pos hk.symm]
      exact .swap e old l
    · have hlt := ha old ho
      rw [hk] at hlt
      rw [if_neg (by omega), if_neg (by intro h; rw [h] at hlt; omega)]
      exact ((List.Perm.swap a old _).trans ((ih hs ho).cons a)).trans (.swap e a l)

/-! ## The fold of a bucket (R24) -/

/-- The XOR of the folds of a bucket's shared entries, for any list of entries. -/
def foldOf (s : State) (b : Bucket) (l : List Entry) : BitVec 16 :=
  (l.filter fun e => bucketOf e.key == b && !isLocal s e.key).foldl (fun c e => c ^^^ entryFold e.key e.stamp) 0

/-- What an entry adds to the fold of a bucket. -/
def foldShare (s : State) (b : Bucket) (e : Entry) : BitVec 16 :=
  if bucketOf e.key == b && !isLocal s e.key then entryFold e.key e.stamp else 0

theorem bucketFold_eq (s : State) (b : Bucket) : bucketFold s b = foldOf s b s.dir.entries := rfl

theorem foldl_xor (l : List Entry) (c : BitVec 16) :
    l.foldl (fun c e => c ^^^ entryFold e.key e.stamp) c =
      c ^^^ l.foldl (fun c e => c ^^^ entryFold e.key e.stamp) 0 := by
  induction l generalizing c with
  | nil => exact BitVec.xor_zero.symm
  | cons e l ih =>
    rw [List.foldl_cons, List.foldl_cons, ih, ih (0 ^^^ _), BitVec.xor_assoc, BitVec.xor_assoc]
    exact congrArg (c ^^^ ·) BitVec.zero_xor.symm

theorem foldOf_cons (s : State) (b : Bucket) (e : Entry) (l : List Entry) :
    foldOf s b (e :: l) = foldShare s b e ^^^ foldOf s b l := by
  unfold foldOf foldShare
  rw [List.filter_cons]
  split
  · rw [List.foldl_cons, foldl_xor]
    exact congrArg (· ^^^ _) BitVec.zero_xor
  · exact BitVec.zero_xor.symm

theorem foldOf_perm (s : State) (b : Bucket) {l l' : List Entry} (h : l.Perm l') : foldOf s b l = foldOf s b l' := by
  induction h with
  | nil => rfl
  | cons a _ ih => rw [foldOf_cons, foldOf_cons, ih]
  | swap a c l =>
    simp only [foldOf_cons]
    rw [← BitVec.xor_assoc, ← BitVec.xor_assoc, BitVec.xor_comm (foldShare s b c)]
  | trans _ _ ih ih' => exact ih.trans ih'

theorem foldOf_putEntry_of_new (s : State) (b : Bucket) {l : List Entry} {e : Entry} (h : ∀ d ∈ l, d.key ≠ e.key) :
    foldOf s b (putEntry l e) = foldOf s b l ^^^ foldShare s b e := by
  rw [foldOf_perm s b (perm_putEntry_of_new h), foldOf_cons, BitVec.xor_comm]

theorem foldOf_putEntry_of_old (s : State) (b : Bucket) {l : List Entry} {old e : Entry}
    (hs : l.Pairwise fun a b => a.key.toNat < b.key.toNat) (ho : old ∈ l) (hk : old.key = e.key) :
    foldOf s b (putEntry l e) = foldOf s b l ^^^ foldShare s b old ^^^ foldShare s b e := by
  have h := foldOf_perm s b (perm_putEntry_of_old hs ho hk)
  rw [foldOf_cons, foldOf_cons] at h
  calc foldOf s b (putEntry l e)
      = foldShare s b old ^^^ (foldShare s b old ^^^ foldOf s b (putEntry l e)) := by
        rw [← BitVec.xor_assoc, BitVec.xor_self, BitVec.zero_xor]
    _ = foldShare s b old ^^^ (foldShare s b e ^^^ foldOf s b l) := by rw [h]
    _ = foldOf s b l ^^^ foldShare s b old ^^^ foldShare s b e := by
        rw [BitVec.xor_comm (foldShare s b e), ← BitVec.xor_assoc, BitVec.xor_comm (foldShare s b old)]

/-! ## What the class table decides -/

/-- With the same class table in force, a key's class is the same. -/
theorem classOf_congr {s t : State} (h : t.ctl.force = s.ctl.force) (k : Key) : classOf t k = classOf s k := by
  unfold classOf
  rw [h]

theorem isLocal_of_force {s t : State} (h : t.ctl.force = s.ctl.force) (k : Key) : isLocal t k = isLocal s k := by
  unfold isLocal policyOf
  rw [classOf_congr h]

theorem beats_of_force {s t : State} (h : t.ctl.force = s.ctl.force) (k : Key) (a b : Stamp) :
    beats t k a b = beats s k a b := by
  unfold beats policyOf
  rw [classOf_congr h]

theorem foldOf_of_force {s t : State} (h : t.ctl.force = s.ctl.force) (b : Bucket) (l : List Entry) :
    foldOf t b l = foldOf s b l := by
  unfold foldOf
  simp only [isLocal_of_force h]

/-! ## Commits keep the directory's law -/

theorem lookup_eq_none_iff {s : State} {k : Key} (hv : validKey k = true) :
    lookup s k = none ↔ ∀ d ∈ s.dir.entries, d.key ≠ k := by
  unfold lookup
  simp [hv]

theorem directoryLaw_commitEntry {s : State} {e : Entry} (h : DirectoryLaw s) (hv : validKey e.key = true) :
    DirectoryLaw (commitEntry e s) := by
  obtain ⟨l, hl⟩ := commitEntry_rest e s
  have hforce : (commitEntry e s).ctl.force = s.ctl.force := by rw [hl]
  have hslots : (commitEntry e s).upd = s.upd := by rw [hl]
  have hentries := commitEntry_entries e s
  have hlocal (k : Key) := isLocal_of_force hforce k
  obtain ⟨hascending, hmem⟩ := putEntry_spec e h.ascending
  refine ⟨by rw [hentries]; exact hascending, fun d hd => ?_, ?_, ?_, fun b => ?_, by rw [hslots]; exact h.slots⟩
  · rw [hentries, hmem] at hd
    rcases hd with rfl | ⟨hd, -⟩
    · exact hv
    · exact h.valid d hd
  · rw [commitEntry_entryCount, hentries]
    split
    · rename_i hn
      rw [(perm_putEntry_of_new ((lookup_eq_none_iff hv).1 hn)).length_eq, List.length_cons, h.count]
    · rename_i hn
      obtain ⟨old, ho⟩ := Option.ne_none_iff_exists'.1 hn
      obtain ⟨hold, hk⟩ := mem_of_lookup ho
      have hlen := (perm_putEntry_of_old h.ascending hold hk).length_eq
      rw [List.length_cons, List.length_cons] at hlen
      rw [h.count]
      omega
  · rw [commitEntry_sharedCount, hentries]
    simp only [hlocal]
    cases hn : lookup s e.key with
    | none =>
      rw [(perm_putEntry_of_new ((lookup_eq_none_iff hv).1 hn)).countP_eq, List.countP_cons, h.shared]
      cases isLocal s e.key <;> simp
    | some old =>
      obtain ⟨hold, hk⟩ := mem_of_lookup hn
      have hcount := (perm_putEntry_of_old h.ascending hold hk).countP_eq fun d => !isLocal s d.key
      rw [List.countP_cons, List.countP_cons, hk] at hcount
      simp only [reduceCtorEq, false_and, if_false]
      rw [h.shared]
      omega
  · rw [commitEntry_checks, bucketFold_eq, foldOf_of_force hforce, hentries, h.checks b, bucketFold_eq, oldFold]
    cases hn : lookup s e.key with
    | none =>
      rw [foldOf_putEntry_of_new s b ((lookup_eq_none_iff hv).1 hn), foldShare]
      by_cases hb : bucketOf e.key = b <;> cases isLocal s e.key <;> simp [hb, eq_comm (a := b)]
    | some old =>
      obtain ⟨hold, hk⟩ := mem_of_lookup hn
      rw [foldOf_putEntry_of_old s b h.ascending hold hk, foldShare, foldShare, hk]
      by_cases hb : bucketOf e.key = b <;> cases isLocal s e.key <;> simp [hb, eq_comm (a := b)]

/-- What a copy's commit makes of the entries: nothing, or the location of the copied entry moves (R22). -/
theorem commitCopy_cases (c : CopySlot) (loc : Loc) (s : State) :
    commitCopy c loc s = s ∨
      ∃ e, lookup s c.record.key = some e ∧ e.loc = c.source ∧ e.stamp = c.record.stamp ∧
        commitCopy c loc s =
          addLive loc.sector e.imageLen
            (subLive c.source.sector e.imageLen
              { s with dir := { s.dir with entries := putEntry s.dir.entries { e with loc := loc } } }) := by
  unfold commitCopy
  cases hl : lookup s c.record.key with
  | none => exact .inl rfl
  | some e =>
    dsimp only
    split
    · rename_i h
      exact .inr ⟨e, rfl, h.1, h.2, rfl⟩
    · exact .inl rfl

/-- An entry replaced by one of the same key and stamp leaves counts and checks true. -/
theorem directoryLaw_moved {s t : State} {old new : Entry} (h : DirectoryLaw s) (ho : old ∈ s.dir.entries)
    (hk : old.key = new.key) (hst : old.stamp = new.stamp) (he : t.dir.entries = putEntry s.dir.entries new)
    (hd : t.dir = { s.dir with entries := t.dir.entries }) (hu : t.upd = s.upd) (hf : t.ctl.force = s.ctl.force) :
    DirectoryLaw t := by
  have hperm := perm_putEntry_of_old h.ascending ho hk
  obtain ⟨hascending, hmem⟩ := putEntry_spec new h.ascending
  have hcount : t.dir.entryCount = s.dir.entryCount := by rw [hd]
  have hshared : t.dir.sharedCount = s.dir.sharedCount := by rw [hd]
  have hchecks : t.dir.checks = s.dir.checks := by rw [hd]
  refine ⟨by rw [he]; exact hascending, fun d hin => ?_, ?_, ?_, fun b => ?_, by rw [hu]; exact h.slots⟩
  · rw [he, hmem] at hin
    rcases hin with rfl | ⟨hin, -⟩
    · exact hk ▸ h.valid old ho
    · exact h.valid d hin
  · have hlen := hperm.length_eq
    rw [List.length_cons, List.length_cons] at hlen
    rw [hcount, h.count, he]
    omega
  · have hc := hperm.countP_eq fun d => !isLocal s d.key
    rw [List.countP_cons, List.countP_cons, hk] at hc
    simp only [isLocal_of_force hf]
    rw [hshared, h.shared, he]
    omega
  · have hshare : foldShare s b old = foldShare s b new := by rw [foldShare, foldShare, hk, hst]
    simp only [hchecks]
    rw [bucketFold_eq, foldOf_of_force hf, he, foldOf_putEntry_of_old s b h.ascending ho hk, hshare, BitVec.xor_assoc,
      BitVec.xor_self, BitVec.xor_zero]
    exact h.checks b

theorem directoryLaw_commitCopy {s : State} (c : CopySlot) (loc : Loc) (h : DirectoryLaw s) :
    DirectoryLaw (commitCopy c loc s) := by
  rcases commitCopy_cases c loc s with hc | ⟨e, hl, -, -, hc⟩
  · rwa [hc]
  · rw [hc]
    exact directoryLaw_moved (new := { e with loc := loc }) h (mem_of_lookup hl).1 rfl rfl rfl rfl rfl rfl

end Sys2Proof.Proofs
end

