-- ==== Sys2Proof/Proofs/Records.lean ====
section
/-! PROOFS. The laws of the directory and the update slots (R15, R16, R24, R26, R33): `KeepsRecords s t` says that all that
they ask is kept from s to t, and composes; the operations on a slot's record, reservation and follower each keep it. -/

namespace Sys2Proof.Proofs
open Sys2Proof Sys2Proof.Machine Sys2Proof.Stated

/-! ## The slots' law, slot by slot -/

/-- What the slots' law asks of one slot (R16, R33). -/
structure SlotSound (s : State) (x : Slot) : Prop where
  valid : validKey x.record.key = true
  reserved : x.reserved = (lookup s x.record.key).isNone
  follower : ∀ f, x.follower = some f → f.key = x.record.key ∧ beats s f.key f.stamp x.record.stamp = true

/-- The slots' law, but for the scan. -/
structure SlotsSound (s : State) : Prop where
  each : ∀ (i : Fin 4) (x : Slot), s.upd.slots[i] = some x → SlotSound s x
  distinct : ∀ (i j : Fin 4) (x y : Slot), s.upd.slots[i] = some x → s.upd.slots[j] = some y →
    x.record.key = y.record.key → i = j
  count : s.dir.reservations = slotNumbers.countP (isReserved s)

theorem slotLaw_iff {s : State} : SlotLaw s ↔ SlotsSound s ∧ ScanLaw s := by
  constructor
  · rintro ⟨hvalid, hdistinct, hreserved, hcount, hfollower, hscan⟩
    exact ⟨⟨fun i x hx => ⟨hvalid i x hx, hreserved i x hx, fun f => hfollower i x f hx⟩, hdistinct, hcount⟩, hscan⟩
  · rintro ⟨⟨heach, hdistinct, hcount⟩, hscan⟩
    exact ⟨fun i x hx => (heach i x hx).valid, hdistinct, fun i x hx => (heach i x hx).reserved, hcount,
      fun i x f hx => (heach i x hx).follower f, hscan⟩

/-! ## Counting reservations (R26) -/

/-- The reservations that a slot's contents hold: 1 or 0. -/
def reservation : Option Slot → Nat
  | some x => x.reserved.toNat
  | none => 0

theorem countP_isReserved (s : State) :
    slotNumbers.countP (isReserved s) =
      reservation s.upd.slots[(0 : Fin 4)] + reservation s.upd.slots[(1 : Fin 4)] +
        reservation s.upd.slots[(2 : Fin 4)] + reservation s.upd.slots[(3 : Fin 4)] := by
  have one (i : Fin 4) : (if isReserved s i = true then 1 else 0) = reservation s.upd.slots[i] := by
    unfold isReserved reservation
    cases s.upd.slots[i] with
    | none => rfl
    | some x => cases hr : x.reserved <;> simp [hr]
  simp only [slotNumbers, List.countP_cons, List.countP_nil, one]
  omega

/-- One slot's contents exchanged. -/
theorem countP_isReserved_set {s t : State} {i : Fin 4} {x : Option Slot} (hu : t.upd.slots = s.upd.slots.set i x) :
    slotNumbers.countP (isReserved t) + reservation s.upd.slots[i] =
      slotNumbers.countP (isReserved s) + reservation x := by
  simp only [countP_isReserved, hu, slots_set_eq]
  fin_cases i <;> simp <;> omega

/-! ## The relation -/

/-- From s to t the directory's law, the slots' law and the directory's capacity are kept. -/
structure KeepsRecords (s t : State) : Prop where
  directory : DirectoryLaw s → DirectoryLaw t
  slots : SlotsSound s → SlotsSound t
  capacity : SlotsSound s → CapacityLaw s → CapacityLaw t

namespace KeepsRecords

theorem refl (s : State) : KeepsRecords s s := ⟨id, id, fun _ => id⟩

theorem trans {s t u : State} (h : KeepsRecords s t) (k : KeepsRecords t u) : KeepsRecords s u where
  directory := k.directory ∘ h.directory
  slots := k.slots ∘ h.slots
  capacity hs hc := k.capacity (h.slots hs) (h.capacity hs hc)

end KeepsRecords

/-- An effect that is guarded. -/
theorem keepsRecords_ite {p : Prop} [Decidable p] {s t u : State} (ht : p → KeepsRecords s t)
    (hu : ¬ p → KeepsRecords s u) : KeepsRecords s (if p then t else u) := by
  split
  · exact ht ‹_›
  · exact hu ‹_›

theorem keepsRecords_guard {p : Prop} [Decidable p] {s t : State} (h : p → KeepsRecords s t) :
    KeepsRecords s (if p then t else s) := keepsRecords_ite h fun _ => .refl s

theorem keepsRecords_fold {α : Type} {f : State → α → State} (hf : ∀ s a, KeepsRecords s (f s a)) (l : List α)
    (s : State) : KeepsRecords s (l.foldl f s) := by
  induction l generalizing s with
  | nil => exact .refl s
  | cons a l ih => exact (hf s a).trans (ih _)

/-! ## What the laws do not look at -/

/-- What the laws read of a slot: its record, reservation and follower. -/
def heldBy (x : Slot) : Record × Bool × Option Record := (x.record, x.reserved, x.follower)

/-- The directory but for its clock, what each slot holds, and the class table are as they were. -/
structure SameRecords (s t : State) : Prop where
  dir : t.dir = { s.dir with clock := t.dir.clock }
  slots : ∀ i : Fin 4, (t.upd.slots[i]).map heldBy = (s.upd.slots[i]).map heldBy
  force : t.ctl.force = s.ctl.force

namespace SameRecords
variable {s t : State} (h : SameRecords s t)
include h

theorem entries_eq : t.dir.entries = s.dir.entries := by rw [h.dir]

theorem checks_eq : t.dir.checks = s.dir.checks := by rw [h.dir]

theorem lookup_eq (k : Key) : lookup t k = lookup s k := lookup_congr h.entries_eq k

/-- A busy slot was busy before, with the same record, reservation and follower. -/
theorem busy_before {i : Fin 4} {y : Slot} (hy : t.upd.slots[i] = some y) :
    ∃ x, s.upd.slots[i] = some x ∧ x.record = y.record ∧ x.reserved = y.reserved ∧ x.follower = y.follower := by
  have hi := h.slots i
  rw [hy, Option.map_some, eq_comm, Option.map_eq_some_iff] at hi
  obtain ⟨x, hx, hheld⟩ := hi
  simp only [heldBy, Prod.mk.injEq] at hheld
  obtain ⟨hrecord, hreserved, hfollower⟩ := hheld
  exact ⟨x, hx, hrecord, hreserved, hfollower⟩

theorem countP_eq : slotNumbers.countP (isReserved t) = slotNumbers.countP (isReserved s) := by
  have one (i : Fin 4) : isReserved t i = isReserved s i := by
    have hi := h.slots i
    unfold isReserved
    cases hs : s.upd.slots[i] <;> cases ht : t.upd.slots[i] <;> simp_all [heldBy]
  rw [funext one]

theorem directoryLaw (hs : DirectoryLaw s) : DirectoryLaw t where
  ascending := by rw [h.dir]; exact hs.ascending
  valid := by rw [h.dir]; exact hs.valid
  count := by rw [h.dir]; exact hs.count
  shared := by simp only [isLocal_of_force h.force]; rw [h.dir]; exact hs.shared
  checks b := by
    rw [bucketFold_eq, foldOf_of_force h.force, h.entries_eq]
    simp only [h.checks_eq]
    exact hs.checks b
  slots i y hy := by
    obtain ⟨x, hx, hrecord, -, hfollower⟩ := h.busy_before hy
    have hvalid := hs.slots i x hx
    rw [slotKeysValid, hrecord, hfollower] at hvalid
    exact hvalid

theorem slotsSound (hs : SlotsSound s) : SlotsSound t where
  each i y hy := by
    obtain ⟨x, hx, hrecord, hreserved, hfollower⟩ := h.busy_before hy
    obtain ⟨hv, hr, hf⟩ := hs.each i x hx
    refine ⟨hrecord ▸ hv, ?_, fun f hyf => ?_⟩
    · rw [h.lookup_eq, ← hrecord, ← hreserved, hr]
    · rw [beats_of_force h.force, ← hrecord]
      exact hf f (hfollower.trans hyf)
  distinct i j y z hy hz hk := by
    obtain ⟨x, hx, hrecord, -⟩ := h.busy_before hy
    obtain ⟨w, hw, hrecord', -⟩ := h.busy_before hz
    exact hs.distinct i j x w hx hw (by rw [hrecord, hrecord', hk])
  count := by
    rw [h.countP_eq, h.dir]
    exact hs.count

theorem keeps : KeepsRecords s t where
  directory := h.directoryLaw
  slots := h.slotsSound
  capacity _ hc := by
    unfold CapacityLaw
    rw [h.dir]
    exact hc

end SameRecords

/-- Directory, slots and class table as they were. -/
theorem keepsRecords_of_fields {s t : State} (hd : t.dir = s.dir) (hu : t.upd.slots = s.upd.slots)
    (hf : t.ctl.force = s.ctl.force) : KeepsRecords s t :=
  SameRecords.keeps ⟨by rw [hd], fun i => by rw [hu], hf⟩

theorem keepsRecords_of_offers {s t : State} (h : Offers s t) : KeepsRecords s t :=
  keepsRecords_of_fields h.dir (by rw [h.upd]) (by rw [h.ctl])

theorem keepsRecords_of_withdraws {s t : State} (h : Withdraws s t) : KeepsRecords s t :=
  keepsRecords_of_fields h.dir (by rw [h.upd]) (by rw [h.ctl])

theorem keepsRecords_raiseClock (c : Counter) (s : State) : KeepsRecords s (raiseClock c s) :=
  keepsRecords_guard fun _ => SameRecords.keeps ⟨rfl, fun _ => rfl, rfl⟩

/-- A busy slot changed but for its record, reservation and follower. -/
theorem keepsRecords_of_slot_same {s t : State} {i : Fin 4} {x y : Slot} (hx : s.upd.slots[i] = some x)
    (hd : t.dir = s.dir) (hu : t.upd.slots = s.upd.slots.set i (some y)) (hh : heldBy y = heldBy x)
    (hf : t.ctl.force = s.ctl.force) : KeepsRecords s t := by
  refine SameRecords.keeps ⟨by rw [hd], fun j => ?_, hf⟩
  rw [hu, slots_set_eq]
  split
  · rename_i hij
    subst hij
    rw [hx, Option.map_some, Option.map_some, hh]
  · rfl

/-! ## One slot's contents exchanged -/

/-- The directory's law reads only the keys of a slot. -/
theorem directoryLaw_of_slot {s t : State} {i : Fin 4} {x : Option Slot} (h : DirectoryLaw s)
    (hd : t.dir = { s.dir with reservations := t.dir.reservations }) (hu : t.upd.slots = s.upd.slots.set i x)
    (hf : t.ctl.force = s.ctl.force) (hx : ∀ y, x = some y → slotKeysValid y) : DirectoryLaw t where
  ascending := by rw [hd]; exact h.ascending
  valid := by rw [hd]; exact h.valid
  count := by rw [hd]; exact h.count
  shared := by simp only [isLocal_of_force hf]; rw [hd]; exact h.shared
  checks b := by
    have hchecks : t.dir.checks = s.dir.checks := by rw [hd]
    have hentries : t.dir.entries = s.dir.entries := by rw [hd]
    rw [bucketFold_eq, foldOf_of_force hf, hentries]
    simp only [hchecks]
    exact h.checks b
  slots j y hy := by
    rw [hu, slots_set_eq] at hy
    split at hy
    · exact hx y hy
    · exact h.slots j y hy

/-- A slot stays sound while the directory finds its key as before. -/
theorem slotSound_congr {s t : State} {x : Slot} (h : SlotSound s x) (hf : t.ctl.force = s.ctl.force)
    (hl : (lookup t x.record.key).isNone = (lookup s x.record.key).isNone) : SlotSound t x where
  valid := h.valid
  reserved := by rw [hl, h.reserved]
  follower f hxf := by
    rw [beats_of_force hf]
    exact h.follower f hxf

/-- One slot's contents exchanged for sound ones, of a key that no other slot holds; the reservations follow. -/
theorem slotsSound_of_slot {s t : State} {i : Fin 4} {x : Option Slot} (h : SlotsSound s)
    (hu : t.upd.slots = s.upd.slots.set i x) (hf : t.ctl.force = s.ctl.force)
    (hl : ∀ (j : Fin 4) (y : Slot), i ≠ j → s.upd.slots[j] = some y →
      (lookup t y.record.key).isNone = (lookup s y.record.key).isNone)
    (hx : ∀ y, x = some y → SlotSound t y)
    (hk : ∀ (j : Fin 4) (y z : Slot), i ≠ j → x = some y → s.upd.slots[j] = some z → y.record.key ≠ z.record.key)
    (hr : t.dir.reservations + reservation s.upd.slots[i] = s.dir.reservations + reservation x) : SlotsSound t where
  each j y hy := by
    rw [hu, slots_set_eq] at hy
    split at hy
    · exact hx y hy
    · exact slotSound_congr (h.each j y hy) hf (hl j y ‹_› hy)
  distinct j k y z hy hz hkey := by
    rw [hu, slots_set_eq] at hy hz
    split at hy <;> split at hz
    · rename_i hj hk
      exact hj.symm.trans hk
    · exact absurd hkey (hk k y z ‹_› hy hz)
    · exact absurd hkey.symm (hk j z y ‹_› hz hy)
    · exact h.distinct j k y z hy hz hkey
  count := by
    have hc := countP_isReserved_set hu
    have hs := h.count
    omega

/-- A busy slot's reservation is among those counted. -/
theorem reservation_le {s : State} (h : SlotsSound s) {i : Fin 4} {x : Slot} (hx : s.upd.slots[i] = some x) :
    x.reserved.toNat ≤ s.dir.reservations := by
  have hc := countP_isReserved_set (s := s) (t := setSlot i none s) (i := i) (x := none) rfl
  rw [hx] at hc
  have hs := h.count
  simp only [reservation] at hc
  omega

/-! ## Claims, followers, releases -/

/-- A record of a new key is given a slot, with room in the directory if it needs a new entry (R38, R43). -/
theorem keepsRecords_claimSlot {s : State} {i : Fin 4} (o : Origin) {r : Record} (hi : s.upd.slots[i] = none)
    (hv : validKey r.key = true) (hk : ∀ (j : Fin 4) (y : Slot), s.upd.slots[j] = some y → y.record.key ≠ r.key)
    (hroom : lookup s r.key = none → dirFull s = false) : KeepsRecords s (claimSlot i o r s) := by
  rw [claimSlot_eq]
  refine ⟨fun h => ?_, fun h => ?_, fun _ hc => ?_⟩
  · refine directoryLaw_of_slot (i := i) h rfl rfl rfl ?_
    rintro _ ⟨⟩
    exact ⟨hv, fun f hf => by cases hf⟩
  · refine slotsSound_of_slot h rfl rfl (fun j y _ _ => rfl) ?_ ?_ ?_
    · rintro _ ⟨⟩
      exact ⟨hv, rfl, fun f hf => by cases hf⟩
    · rintro j _ z - ⟨⟩ hz
      exact (hk j z hz).symm
    · rw [hi]
      cases lookup s r.key <;> rfl
  · unfold CapacityLaw at hc ⊢
    dsimp only
    split
    · rename_i hn
      have hfull := hroom hn
      rw [← Bool.not_eq_true, dirFull_iff] at hfull
      omega
    · exact hc

/-- A busy slot takes a follower of its key that beats its record (R42). -/
theorem keepsRecords_follow {s : State} {i : Fin 4} {x : Slot} {r : Record} (hx : s.upd.slots[i] = some x)
    (hv : validKey r.key = true) (hk : r.key = x.record.key) (hb : beats s r.key r.stamp x.record.stamp = true) :
    KeepsRecords s (setSlot i (some { x with follower := some r }) s) := by
  refine ⟨fun h => ?_, fun h => ?_, fun _ hc => hc⟩
  · refine directoryLaw_of_slot (i := i) h rfl rfl rfl ?_
    rintro _ ⟨⟩
    refine ⟨(h.slots i x hx).1, ?_⟩
    rintro _ ⟨⟩
    exact hv
  · refine slotsSound_of_slot h rfl rfl (fun j y _ _ => rfl) ?_ ?_ ?_
    · rintro _ ⟨⟩
      refine ⟨(h.each i x hx).valid, (h.each i x hx).reserved, ?_⟩
      rintro _ ⟨⟩
      exact ⟨hk, hb⟩
    · rintro j _ z hij ⟨⟩ hz hkey
      exact hij (h.distinct i j x z hx hz hkey)
    · rw [hx]
      rfl

/-- What a released slot holds: its follower, with the reservation that the key needs as before, or nothing. -/
def afterRelease (x : Slot) (ready : Nat) : Option Slot := x.follower.map fun f => peerSlot f x.reserved ready

/-- A sound slot released: the follower takes over the key, and with it the reservation; with none it is given back
(R50, R51). -/
theorem releaseSlot_fields {s : State} (i : Fin 4) {x : Slot} (h : SlotSound s x)
    (hle : x.reserved.toNat ≤ s.dir.reservations) :
    (releaseSlot i x s).dir.reservations + x.reserved.toNat =
        s.dir.reservations + reservation (afterRelease x s.upd.nextReady) ∧
      (releaseSlot i x s).upd.slots = s.upd.slots.set i (afterRelease x s.upd.nextReady) := by
  rw [releaseSlot_eq]
  unfold afterRelease
  cases hf : x.follower with
  | none =>
    refine ⟨?_, rfl⟩
    cases hr : x.reserved <;> simp_all [reservation]
  | some f =>
    have hreserved : x.reserved = (lookup s f.key).isNone := by rw [h.reserved, (h.follower f hf).1]
    refine ⟨?_, by rw [hreserved]; rfl⟩
    cases hl : lookup s f.key <;> simp_all [reservation, peerSlot]

theorem slotsSound_releaseSlot {s : State} {i : Fin 4} {x : Slot} (hx : s.upd.slots[i] = some x) (h : SlotsSound s) :
    SlotsSound (releaseSlot i x s) := by
  have hsound := h.each i x hx
  obtain ⟨hreservations, hslots⟩ := releaseSlot_fields i hsound (reservation_le h hx)
  have found (k : Key) : lookup (releaseSlot i x s) k = lookup s k := lookup_congr (by rw [releaseSlot_eq]) k
  have follows {y : Slot} (hy : afterRelease x s.upd.nextReady = some y) :
      y.record.key = x.record.key ∧ y.reserved = x.reserved ∧ y.follower = none := by
    obtain ⟨f, hf, rfl⟩ := Option.map_eq_some_iff.1 hy
    exact ⟨(hsound.follower f hf).1, rfl, rfl⟩
  refine slotsSound_of_slot h hslots (by rw [releaseSlot_ctl]) (fun j y _ _ => by rw [found]) (fun y hy => ?_)
    (fun j y z hij hy hz hkey => ?_) (by rw [hx]; exact hreservations)
  · obtain ⟨hkey, hreserved, hfollower⟩ := follows hy
    refine ⟨hkey ▸ hsound.valid, by rw [found, hkey, hreserved, hsound.reserved], fun f hf => ?_⟩
    rw [hfollower] at hf
    cases hf
  · exact hij (h.distinct i j x z hx hz ((follows hy).1.symm.trans hkey))

/-- A busy slot released: what its follower needs is what the slot gives up (R50, R51). -/
theorem keepsRecords_releaseSlot {s : State} {i : Fin 4} {x : Slot} (hx : s.upd.slots[i] = some x) :
    KeepsRecords s (releaseSlot i x s) where
  directory h := by
    rw [releaseSlot_eq]
    refine directoryLaw_of_slot (i := i) h rfl rfl rfl fun y hy => ?_
    cases hf : x.follower with
    | none => rw [hf] at hy; cases hy
    | some f =>
      rw [hf] at hy
      cases hy
      exact ⟨(h.slots i x hx).2 f hf, fun g hg => by cases hg⟩
  slots := slotsSound_releaseSlot hx
  capacity h hc := by
    obtain ⟨hreservations, -⟩ := releaseSlot_fields i (h.each i x hx) (reservation_le h hx)
    have hcount : (releaseSlot i x s).dir.entryCount = s.dir.entryCount := by rw [releaseSlot_eq]
    have hheld : reservation (afterRelease x s.upd.nextReady) ≤ x.reserved.toNat := by
      unfold afterRelease
      cases x.follower with
      | none => exact Nat.zero_le _
      | some f => exact le_rfl
    unfold CapacityLaw at hc ⊢
    rw [hcount]
    omega

theorem validKey_of_lookup {s : State} {k : Key} {e : Entry} (h : lookup s k = some e) : validKey k = true := by
  by_contra hv
  rw [lookup_of_invalid (Bool.not_eq_true _ ▸ hv)] at h
  cases h

theorem lookup_of_putEntry {s t : State} {e : Entry} (h : t.dir.entries = putEntry s.dir.entries e)
    (hv : validKey e.key = true) (k : Key) : lookup t k = if k = e.key then some e else lookup s k := by
  unfold lookup
  rw [h, find_putEntry]
  by_cases hk : k = e.key
  · rw [if_pos hk, if_pos hk, if_pos (hk ▸ hv)]
  · rw [if_neg hk, if_neg hk]

theorem keepsRecords_reportCommit (x : Slot) (s : State) : KeepsRecords s (reportCommit x s) := by
  rw [reportCommit_eq]
  exact keepsRecords_of_fields rfl rfl rfl

theorem directoryLaw_commitSlot {s : State} {i : Fin 4} {x : Slot} (hx : s.upd.slots[i] = some x) (loc : Loc)
    (h : DirectoryLaw s) : DirectoryLaw (commitSlot i x loc s) := by
  have committed := directoryLaw_commitEntry (e := entryOf x.record loc) h (h.slots i x hx).1
  have pruned := (keepsRecords_of_withdraws
    (withdraws_pruneWant x.record.key x.record.stamp (commitEntry (entryOf x.record loc) s))).directory committed
  obtain ⟨l, hl⟩ := commitEntry_rest (entryOf x.record loc) s
  refine (keepsRecords_releaseSlot ?_).directory ((keepsRecords_reportCommit ..).directory pruned)
  rw [reportCommit_upd, pruneWant_upd, hl]
  exact hx

/-- What of a commit the laws read, for a slot that is sound (R47, R50). -/
theorem commitSlot_fields {s : State} (i : Fin 4) {x : Slot} (loc : Loc) (h : SlotSound s x) :
    (commitSlot i x loc s).dir.entries = putEntry s.dir.entries (entryOf x.record loc) ∧
      (commitSlot i x loc s).dir.entryCount = s.dir.entryCount + x.reserved.toNat ∧
      (commitSlot i x loc s).dir.reservations = s.dir.reservations - x.reserved.toNat ∧
      (commitSlot i x loc s).upd.slots = s.upd.slots.set i (afterCommit x s.upd.nextReady) ∧
      (commitSlot i x loc s).ctl = s.ctl := by
  obtain ⟨l, hl⟩ := commitEntry_rest (entryOf x.record loc) s
  have hcount := commitEntry_entryCount (entryOf x.record loc) s
  have hreserved : x.reserved = (lookup s (entryOf x.record loc).key).isNone := h.reserved
  rw [commitSlot_eq i loc h.valid fun f hf => (h.follower f hf).1]
  refine ⟨commitEntry_entries .., ?_, ?_, rfl, ?_⟩
  · refine hcount.trans ?_
    rw [hreserved]
    cases lookup s (entryOf x.record loc).key <;> rfl
  · cases hr : x.reserved <;> rfl
  · exact (pruneWant_ctl ..).trans (by rw [hl])

theorem slotsSound_commitSlot {s : State} {i : Fin 4} {x : Slot} (hx : s.upd.slots[i] = some x) (loc : Loc)
    (h : SlotsSound s) : SlotsSound (commitSlot i x loc s) := by
  have hsound := h.each i x hx
  obtain ⟨hentries, -, hreservations, hslots, hctl⟩ := commitSlot_fields i loc hsound
  have found := lookup_of_putEntry hentries hsound.valid
  have follows {y : Slot} (hy : afterCommit x s.upd.nextReady = some y) :
      y.record.key = x.record.key ∧ y.reserved = false ∧ y.follower = none := by
    obtain ⟨f, hf, rfl⟩ := Option.map_eq_some_iff.1 hy
    exact ⟨(hsound.follower f hf).1, rfl, rfl⟩
  refine slotsSound_of_slot h hslots (by rw [hctl]) (fun j y hij hy => ?_) (fun y hy => ?_)
    (fun j y z hij hy hz hkey => ?_) ?_
  · rw [found, if_neg]
    exact fun hkey => hij (h.distinct i j x y hx hy hkey.symm)
  · obtain ⟨hkey, hreserved, hfollower⟩ := follows hy
    refine ⟨hkey ▸ hsound.valid, ?_, fun f hf => ?_⟩
    · rw [found, if_pos (show y.record.key = (entryOf x.record loc).key from hkey), hreserved]
      rfl
    · rw [hfollower] at hf
      cases hf
  · exact hij (h.distinct i j x z hx hz ((follows hy).1.symm.trans hkey))
  · have hle := reservation_le h hx
    have hnone : reservation (afterCommit x s.upd.nextReady) = 0 := by
      unfold afterCommit
      cases x.follower <;> rfl
    rw [hx, hreservations, hnone]
    simp only [reservation]
    omega

/-- A slot's commit: its reservation becomes the entry, which its follower's key then has (R47, R50). -/
theorem keepsRecords_commitSlot {s : State} {i : Fin 4} {x : Slot} (hx : s.upd.slots[i] = some x) (loc : Loc) :
    KeepsRecords s (commitSlot i x loc s) where
  directory := directoryLaw_commitSlot hx loc
  slots := slotsSound_commitSlot hx loc
  capacity h hc := by
    obtain ⟨-, hcount, hreservations, -⟩ := commitSlot_fields i loc (h.each i x hx)
    have hle := reservation_le h hx
    unfold CapacityLaw at hc ⊢
    rw [hcount, hreservations]
    omega

/-- A copy's commit leaves every key found or not found as before (R22). -/
theorem keepsRecords_commitCopy (c : CopySlot) (loc : Loc) (s : State) : KeepsRecords s (commitCopy c loc s) := by
  refine ⟨directoryLaw_commitCopy c loc, fun h => ?_, fun _ hc => ?_⟩
  all_goals rcases commitCopy_cases c loc s with hcopy | ⟨e, hl, -, -, hcopy⟩ <;> rw [hcopy]
  · exact h
  · have hkey := (mem_of_lookup hl).2
    have found (k : Key) : (lookup (addLive loc.sector e.imageLen (subLive c.source.sector e.imageLen
        { s with dir := { s.dir with entries := putEntry s.dir.entries { e with loc := loc } } })) k).isNone =
        (lookup s k).isNone := by
      rw [lookup_of_putEntry (s := s) (e := { e with loc := loc }) rfl (hkey ▸ validKey_of_lookup hl)]
      split
      · rename_i hk
        rw [hk, hkey, hl]
        rfl
      · rfl
    exact ⟨fun i x hx => slotSound_congr (h.each i x hx) rfl (found _), h.distinct, h.count⟩
  · exact hc
  · exact hc

end Sys2Proof.Proofs
end

