-- ==== Sys2Proof/Proofs/RecordsOps.lean ====
section
/-! PROOFS. The laws of the directory and the update slots, continued: failures, compaction, local admission, arrivals. -/

namespace Sys2Proof.Proofs
open Sys2Proof Sys2Proof.Machine Sys2Proof.Stated

/-! ## Failures (R46, R51, R63) -/

theorem keepsRecords_post (e : Event) (s : State) : KeepsRecords s (post e s) := keepsRecords_of_fields rfl rfl rfl

theorem keepsRecords_complete (r : Reply) (s : State) : KeepsRecords s (complete r s) :=
  keepsRecords_of_fields rfl rfl rfl

theorem keepsRecords_setDiverged (r : DivReason) (s : State) : KeepsRecords s (setDiverged r s) := by
  cases r
  · rw [setDiverged_directory]; exact keepsRecords_of_fields rfl rfl rfl
  · rw [setDiverged_store]; exact keepsRecords_of_fields rfl rfl rfl

theorem keepsRecords_reportWrite (w : WriteResult) (s : State) (i : Fin 4) : KeepsRecords s (reportWrite w s i) := by
  unfold reportWrite
  split
  · split
    · exact keepsRecords_post ..
    · exact .refl s
  · exact .refl s

theorem keepsRecords_releaseAt (s : State) (i : Fin 4) : KeepsRecords s (releaseAt s i) := by
  unfold releaseAt
  split
  · exact keepsRecords_releaseSlot ‹_›
  · exact .refl s

theorem keepsRecords_failSlots (w : WriteResult) (l : List (Fin 4)) (s : State) : KeepsRecords s (failSlots w l s) :=
  ((keepsRecords_fold (keepsRecords_reportWrite w) l s).trans
    (keepsRecords_guard fun _ => keepsRecords_setDiverged ..)).trans (keepsRecords_fold keepsRecords_releaseAt l _)

theorem keepsRecords_failStoreWait (s : State) : KeepsRecords s (failStoreWait s) := keepsRecords_failSlots ..

/-- A slot woken holds what it held (R63). -/
theorem heldBy_wakeSlot (x : Slot) : heldBy (wakeSlot x) = heldBy x := by
  unfold wakeSlot
  split <;> rfl

theorem keepsRecords_wakeStoreWait (s : State) : KeepsRecords s (wakeStoreWait s) := by
  refine SameRecords.keeps ⟨rfl, fun i => ?_, rfl⟩
  simp only [wakeStoreWait, Fin.getElem_fin, Vector.getElem_map, Option.map_map]
  exact congrArg (Option.map · _) (funext heldBy_wakeSlot)

/-! ## Compaction and space -/

theorem keepsRecords_testTrigger (s : State) : KeepsRecords s (testTrigger s) := by
  obtain ⟨hupd, -, hdir, -⟩ := testTrigger_facts s
  refine keepsRecords_of_fields hdir (by rw [hupd]) ?_
  unfold testTrigger beginCompaction
  split
  · split
    · rfl
    · split <;> rfl
  · rfl

theorem keepsRecords_settleStore (old s : State) : KeepsRecords s (settleStore old s) := by
  obtain ⟨hslots, -, hdir, -⟩ := settleStore_facts old s
  exact keepsRecords_of_fields hdir hslots (by rw [(settleStore_rest old s).1])

theorem keepsRecords_spaceTest (s : State) : KeepsRecords s (spaceTest s) :=
  keepsRecords_ite (fun _ => keepsRecords_of_fields rfl rfl rfl) fun _ => keepsRecords_of_fields rfl rfl rfl

theorem keepsRecords_spaceEvent (old s : State) : KeepsRecords s (spaceEvent old s) :=
  keepsRecords_ite (fun _ => .refl s) fun _ => keepsRecords_spaceTest s

theorem keepsRecords_advanceWalk (s : State) : KeepsRecords s (advanceWalk s) := by
  obtain ⟨hslots, -, hdir, -⟩ := advanceWalk_facts s
  refine keepsRecords_of_fields hdir hslots ?_
  unfold advanceWalk
  split
  · split
    · rfl
    · split <;> rfl
  · split <;> rfl
  all_goals rfl

theorem keepsRecords_nextRun (s : State) : KeepsRecords s (nextRun s) := by
  unfold nextRun
  split
  · exact keepsRecords_of_fields rfl rfl rfl
  · exact KeepsRecords.trans (t := setComp .idle s) (keepsRecords_of_fields rfl rfl rfl) (keepsRecords_testTrigger _)

theorem keepsRecords_stallCompaction (v c : Nat) (s : State) : KeepsRecords s (stallCompaction v c s) := by
  refine KeepsRecords.trans ?_ (keepsRecords_failStoreWait _)
  exact keepsRecords_of_fields rfl rfl rfl

/-! ## Local admission and arrivals (R34 to R44) -/

/-- The slot chosen is FREE (R33). -/
theorem free_of_freeSlot {s : State} {i : Fin 4} (h : freeSlot s = some i) : s.upd.slots[i] = none := by
  simpa [freeSlot] using List.find?_some h

theorem key_ne_of_slotWithKey {s : State} {k : Key} (h : slotWithKey s k = none) (j : Fin 4) (y : Slot)
    (hy : s.upd.slots[j] = some y) : y.record.key ≠ k := by
  intro hk
  have := slotWithKey_isSome.2 ⟨j, y, hy, hk⟩
  rw [h] at this
  cases this

/-- What the checks of R34 leave of an admission: a valid key, no slot busy with it, and room for a new one. -/
theorem key_of_admissionRefusal_none {s : State} {k : Key} {tomb : Bool} {len : Nat}
    (h : admissionRefusal s k tomb len = none) :
    validKey k = true ∧ slotWithKey s k = none ∧ (lookup s k = none → dirFull s = false) := by
  simp only [admissionRefusal, admissionChecks, Option.map_eq_none_iff, List.find?_eq_none, List.mem_cons,
    forall_eq_or_imp] at h
  obtain ⟨-, -, -, hvalid, -, -, -, -, hslot, hfull, -⟩ := h
  refine ⟨by simpa using hvalid, by simpa using hslot, fun hn => ?_⟩
  simpa [hn] using hfull

theorem keepsRecords_admitLocal {s : State} {i : Fin 4} {k : Key} (tomb : Bool) (value : List Byte)
    (hi : s.upd.slots[i] = none) (hv : validKey k = true) (hk : slotWithKey s k = none)
    (hroom : lookup s k = none → dirFull s = false) : KeepsRecords s (admitLocal i k tomb value s) := by
  refine KeepsRecords.trans (KeepsRecords.trans ?_ (keepsRecords_claimSlot _ ?_ ?_ ?_ ?_)) (keepsRecords_complete ..)
  · exact SameRecords.keeps ⟨rfl, fun _ => rfl, rfl⟩
  · exact hi
  · exact hv
  · exact key_ne_of_slotWithKey hk
  · exact hroom

theorem keepsRecords_localAdmission (k : Key) (tomb : Bool) (value : List Byte) (s : State) :
    KeepsRecords s (localAdmission k tomb value s) := by
  unfold localAdmission
  split
  · exact keepsRecords_complete ..
  · rename_i hn
    obtain ⟨hv, hk, hroom⟩ := key_of_admissionRefusal_none hn
    split
    · exact keepsRecords_admitLocal tomb value (free_of_freeSlot ‹_›) hv hk hroom
    · exact keepsRecords_complete ..

theorem keepsRecords_meetSlot {s : State} {i : Fin 4} {x : Slot} {r : Record} (hx : s.upd.slots[i] = some x)
    (hv : validKey r.key = true) (hk : x.record.key = r.key) : KeepsRecords s (meetSlot i x r s) := by
  refine keepsRecords_guard fun hb => ?_
  have follows := keepsRecords_follow hx hv hk.symm hb
  split
  · exact follows
  · exact keepsRecords_guard fun _ => follows

theorem keepsRecords_seekSlot {s : State} {r : Record} (source : Station) (hv : validKey r.key = true)
    (hk : slotWithKey s r.key = none) : KeepsRecords s (seekSlot r source s) := by
  refine keepsRecords_ite (fun _ => keepsRecords_setDiverged ..) fun hfull => ?_
  split
  · refine keepsRecords_claimSlot _ (free_of_freeSlot ‹_›) hv (key_ne_of_slotWithKey hk) fun hn => ?_
    simpa [hn] using hfull
  · exact keepsRecords_of_withdraws (withdraws_wantAdd ..)

theorem keepsRecords_placeArrival {s : State} {r : Record} (source : Station) (hv : validKey r.key = true) :
    KeepsRecords s (placeArrival r source s) := by
  refine keepsRecords_ite (fun _ => .refl s) fun _ => ?_
  split
  · rename_i i hi
    obtain ⟨y, hy, hk⟩ := holdsKey_iff.1 (List.find?_some hi)
    split
    · rename_i x hx
      rw [hx] at hy
      cases hy
      exact keepsRecords_meetSlot hx hv hk
    · exact .refl s
  · exact keepsRecords_seekSlot source hv ‹_›

theorem keepsRecords_arrive (r : Record) (source : Station) (s : State) : KeepsRecords s (arrive r source s) := by
  refine keepsRecords_ite (fun _ => .refl s) fun h => ?_
  refine (keepsRecords_raiseClock _ s).trans (keepsRecords_placeArrival source ?_)
  by_contra hv
  simp [isMalformed, hv] at h

theorem keepsRecords_offerArrival (r : Record) (source : Station) (s : State) :
    KeepsRecords s (offerArrival r source s) :=
  (keepsRecords_arrive ..).trans (keepsRecords_of_offers (offers_pumpFetch _))

theorem keepsRecords_offerCommitNews (x : Slot) (s : State) : KeepsRecords s (offerCommitNews x s) := by
  unfold offerCommitNews
  split
  · exact keepsRecords_ite (fun _ => .refl s) fun _ => keepsRecords_of_offers (offers_offerNews ..)
  · exact .refl s

end Sys2Proof.Proofs
end

