-- ==== Sys2Proof/Proofs/RecordsSteps.lean ====
section
/-! PROOFS. The laws of the directory and the update slots, continued: the meanings of the commands. -/

namespace Sys2Proof.Proofs
open Sys2Proof Sys2Proof.Machine

/-- A command's meaning answers with a next state, and keeps the laws of directory and slots. -/
def AnswersWithRecords (s : State) (o : Host.Outcome State Fault Refusal) : Prop := ∃ t, o = .next t ∧ KeepsRecords s t

theorem answersWithRecords_next {s t : State} (h : KeepsRecords s t) : AnswersWithRecords s (.next t) := ⟨t, rfl, h⟩

/-- A guarded change outside directory, slots and class table. -/
theorem answersWithRecords_guard {p : Prop} [Decidable p] {s t : State} (hd : t.dir = s.dir)
    (hu : t.upd.slots = s.upd.slots) (hf : t.ctl.force = s.ctl.force) :
    AnswersWithRecords s (.next (if p then t else s)) :=
  answersWithRecords_next (keepsRecords_guard fun _ => keepsRecords_of_fields hd hu hf)

/-! ## Host commands -/

theorem answersWithRecords_immediate {f : State → State} {s : State} (h : KeepsRecords s (f s)) :
    AnswersWithRecords s (immediate f s) := answersWithRecords_next (keepsRecords_guard fun _ => h)

theorem keepsRecords_openTxn (k : TxnKind) (out : List Byte) (s : State) : KeepsRecords s (openTxn k out s) :=
  keepsRecords_of_fields rfl rfl rfl

theorem answersWithRecords_requestCommand {serve : State → State} {s : State} (h : ∀ t, KeepsRecords t (serve t)) :
    AnswersWithRecords s (requestCommand serve s) := by
  have accepted : KeepsRecords s (accept s) := keepsRecords_of_fields rfl rfl rfl
  exact answersWithRecords_immediate (keepsRecords_ite (fun _ => keepsRecords_openTxn ..) fun _ => accepted.trans (h _))

theorem keepsRecords_takeEvent (s : State) : KeepsRecords s (takeEvent s) := by
  unfold takeEvent
  split <;> exact keepsRecords_of_fields rfl rfl rfl

theorem answersWithRecords_transactionEnd (clocked : Nat) (s : State) :
    AnswersWithRecords s (execTransactionEnd clocked s) := by
  refine answersWithRecords_next ?_
  split <;> exact keepsRecords_of_fields rfl rfl rfl

theorem answersWithRecords_ackDiverged (s : State) : AnswersWithRecords s (execAckDiverged s) := by
  unfold execAckDiverged
  refine answersWithRecords_immediate ?_
  exact keepsRecords_of_fields rfl rfl rfl

theorem keepsRecords_serveRead (key : Key) (s : State) : KeepsRecords s (serveRead key s) := by
  unfold serveRead
  split
  · exact keepsRecords_complete ..
  · refine keepsRecords_ite (fun _ => ?_) fun _ => keepsRecords_complete ..
    split <;> exact keepsRecords_of_fields rfl rfl rfl

theorem keepsRecords_serveList (start : Key) (s : State) : KeepsRecords s (serveList start s) := by
  unfold serveList
  split <;> exact keepsRecords_complete ..

theorem keepsRecords_servePeers (s : State) : KeepsRecords s (servePeers s) := by
  unfold servePeers
  split <;> exact keepsRecords_complete ..

theorem keepsRecords_expireSummary (s : State) : KeepsRecords s (expireSummary s) :=
  KeepsRecords.trans (keepsRecords_of_fields (t := { s with summ := { timer := some s.now } }) rfl rfl rfl)
    (keepsRecords_of_offers (offers_offerSummary _))

theorem keepsRecords_serveSync (s : State) : KeepsRecords s (serveSync s) := by
  unfold serveSync
  split
  case h_5 => exact (keepsRecords_complete ..).trans (keepsRecords_expireSummary _)
  all_goals exact keepsRecords_complete ..

theorem keepsRecords_serveProgram (offset : Byte) (given : List Byte) (s : State) :
    KeepsRecords s (serveProgram offset given s) := by
  unfold serveProgram
  split
  · exact keepsRecords_complete ..
  · exact keepsRecords_ite (fun _ => keepsRecords_complete ..) fun _ => keepsRecords_of_fields rfl rfl rfl

theorem keepsRecords_serveLock (s : State) : KeepsRecords s (serveLock s) := by
  unfold serveLock
  split
  · exact keepsRecords_complete ..
  · split <;> exact keepsRecords_of_fields rfl rfl rfl

theorem answersWithRecords_admission (k : Key) (tomb : Bool) (value : List Byte) (s : State) :
    AnswersWithRecords s (requestCommand (fun t => spaceEvent t (localAdmission k tomb value t)) s) :=
  answersWithRecords_requestCommand fun _ => (keepsRecords_localAdmission ..).trans (keepsRecords_spaceEvent ..)

/-! ## The configuration area and the resets -/

theorem keepsRecords_softResetStart (erased : List (Nat × Byte)) (s : State) :
    KeepsRecords s (softResetStart erased s) := by
  obtain ⟨hdr, hur, hcr⟩ := abandonRead_fields (abandonErase erased s)
  obtain ⟨hde, hue, hce⟩ := abandonErase_fields erased s
  exact keepsRecords_ite (fun _ => .refl s) fun _ => keepsRecords_of_fields (hdr.trans hde)
    (congrArg (·.slots) (hur.trans hue)) (congrArg (·.force) (hcr.trans hce))

theorem answersWithRecords_configProgramDone (failed : List Byte) (s : State) :
    AnswersWithRecords s (execConfigProgramDone failed s) := by
  refine answersWithRecords_next ?_
  split
  · exact keepsRecords_ite (fun _ => keepsRecords_of_fields rfl rfl rfl) fun _ => keepsRecords_of_fields rfl rfl rfl
  all_goals exact .refl s

theorem answersWithRecords_lockCheckProgrammed (failed : List Byte) (s : State) :
    AnswersWithRecords s (execLockCheckProgrammed failed s) := by
  refine answersWithRecords_next ?_
  split
  · refine keepsRecords_ite (fun _ => keepsRecords_of_fields rfl rfl rfl) fun _ => ?_
    exact keepsRecords_ite (fun _ => keepsRecords_of_fields rfl rfl rfl) fun _ => keepsRecords_of_fields rfl rfl rfl
  all_goals exact .refl s

theorem answersWithRecords_lockMarkerProgrammed (failed : Byte) (s : State) :
    AnswersWithRecords s (execLockMarkerProgrammed failed s) := by
  refine answersWithRecords_next ?_
  split
  · have programmed : KeepsRecords s (programConfig .marker [failed] 0 s) := keepsRecords_of_fields rfl rfl rfl
    refine keepsRecords_ite (fun _ => programmed) fun _ => ?_
    exact keepsRecords_ite (fun _ => programmed.trans (keepsRecords_softResetStart ..)) fun _ =>
      programmed.trans (keepsRecords_complete ..)
  all_goals exact .refl s

theorem cutOp_ctl (cut : Cut) (s : State) : (cutOp cut s).ctl = s.ctl := by
  unfold cutOp
  split
  · exact (programAppend_fields ..).2.2
  all_goals rfl

theorem cutErase_ctl (cut : Cut) (s : State) : (cutErase cut s).ctl = s.ctl := by
  obtain ⟨-, -, hc⟩ := abandonErase_fields cut.erased s
  unfold cutErase
  split
  · split
    case h_4 => rfl
    all_goals exact hc
  · rfl

theorem cutConfig_ctl (cut : Cut) (s : State) : (cutConfig cut s).ctl = s.ctl := by
  unfold cutConfig
  split <;> rfl

theorem keepsRecords_stopAll (cut : Cut) (s : State) : KeepsRecords s (stopAll cut s) := by
  obtain ⟨hd, hu⟩ := stopAll_fields cut s
  have hc : (cutConfig cut (cutErase cut (cutOp cut s))).ctl = s.ctl :=
    (cutConfig_ctl cut _).trans ((cutErase_ctl cut _).trans (cutOp_ctl cut s))
  exact keepsRecords_of_fields hd (congrArg (·.slots) hu) (congrArg (·.force) hc)

/-- With no entry, no busy slot and no reservation, all holds (R29, R53). -/
theorem keepsRecords_of_cleared {s t : State} (hd : t.dir = Directory.cleared) (hu : t.upd = UpdateUnit.cleared) :
    KeepsRecords s t := by
  have free (i : Fin 4) : t.upd.slots[i] = none := by rw [hu]; exact Vector.getElem_replicate ..
  refine ⟨fun _ => ⟨?_, ?_, ?_, ?_, fun b => ?_, fun i x hx => ?_⟩, fun _ => ⟨fun i x hx => ?_, fun i _ x _ hx => ?_, ?_⟩,
    fun _ _ => ?_⟩
  · rw [hd]; exact .nil
  · rw [hd]; exact fun _ he => by cases he
  · rw [hd]; rfl
  · rw [hd]; rfl
  · simp only [hd, bucketFold]
    exact Vector.getElem_replicate ..
  · rw [free i] at hx; cases hx
  · rw [free i] at hx; cases hx
  · rw [free i] at hx; cases hx
  · simp only [countP_isReserved, free, hd]
    rfl
  · unfold CapacityLaw
    rw [hd]
    decide

theorem keepsRecords_resetEnd (straps : Station) (s : State) : KeepsRecords s (resetEnd straps s) := by
  unfold resetEnd readArea
  dsimp only
  split <;> exact keepsRecords_of_cleared rfl rfl

theorem answersWithRecords_powerOnResetEnd (p : Station) (s : State) :
    AnswersWithRecords s (execPowerOnResetEnd p s) :=
  answersWithRecords_next (keepsRecords_guard fun _ => keepsRecords_ite (fun _ => keepsRecords_of_fields rfl rfl rfl)
    fun _ => KeepsRecords.trans (t := { s with ctl := { s.ctl with power := false } })
      (keepsRecords_of_fields rfl rfl rfl) (keepsRecords_resetEnd ..))

theorem answersWithRecords_pinResetEnd (p : Station) (s : State) : AnswersWithRecords s (execPinResetEnd p s) :=
  answersWithRecords_next (keepsRecords_guard fun _ => keepsRecords_ite (fun _ => keepsRecords_of_fields rfl rfl rfl)
    fun _ => KeepsRecords.trans (t := { s with ctl := { s.ctl with pin := false } })
      (keepsRecords_of_fields rfl rfl rfl) (keepsRecords_resetEnd ..))

/-! ## The listening period's end, and the line -/

theorem answersWithRecords_listeningPeriodEnd (s : State) : AnswersWithRecords s (execListeningPeriodEnd s) := by
  refine answersWithRecords_next (keepsRecords_guard fun _ => ?_)
  have active : KeepsRecords s (setStation .active { s with ctl := { s.ctl with listeningSince := none } }) :=
    keepsRecords_of_fields rfl rfl rfl
  exact ((active.trans (keepsRecords_expireSummary _)).trans (keepsRecords_of_offers
    (((offers_pumpProfile _).trans (offers_pumpReconciler _)).trans (offers_pumpFetch _)))).trans (keepsRecords_post ..)

theorem keepsRecords_setPeer (p : Station) (e : Peer) (s : State) : KeepsRecords s (setPeer p e s) :=
  keepsRecords_of_fields rfl rfl rfl

theorem keepsRecords_changePeer (p : Station) (e : Peer) (s : State) : KeepsRecords s (changePeer p e s) :=
  keepsRecords_of_fields rfl rfl rfl

theorem keepsRecords_hearPeer (p : Station) (id : Option (BitVec 32)) (s : State) :
    KeepsRecords s (hearPeer p id s) := by
  unfold hearPeer
  dsimp only
  split
  · exact keepsRecords_changePeer ..
  · exact keepsRecords_setPeer ..
  · exact keepsRecords_ite
      (fun _ => (keepsRecords_changePeer ..).trans (keepsRecords_of_withdraws (withdraws_purgePeer ..)))
      fun _ => keepsRecords_setPeer ..
  · exact keepsRecords_ite (fun _ => keepsRecords_changePeer ..) fun _ => keepsRecords_changePeer ..
  · exact keepsRecords_ite (fun _ => keepsRecords_changePeer ..) fun _ => keepsRecords_setPeer ..
  · exact keepsRecords_ite (fun _ => keepsRecords_setPeer ..) fun _ => keepsRecords_setPeer ..

theorem keepsRecords_endGood (f : Frame) (s : State) : KeepsRecords s (endGood f s) := by
  have heard : KeepsRecords s (setBase (f.source + 1) (setPhase .guardTime s)) := keepsRecords_of_fields rfl rfl rfl
  refine heard.trans (keepsRecords_ite (fun _ => ?_) fun _ => ?_)
  · exact keepsRecords_ite (fun _ => .refl _) fun _ => keepsRecords_of_fields rfl rfl rfl
  · refine ((keepsRecords_hearPeer f.source f.carriedId _).trans ?_).trans (keepsRecords_of_offers (offers_pump _))
    exact keepsRecords_guard fun _ => keepsRecords_of_fields rfl rfl rfl

theorem answersWithRecords_frameEndGood (bytes : List Byte) (s : State) :
    AnswersWithRecords s (execFrameEndGood bytes s) := by
  refine answersWithRecords_next (keepsRecords_guard fun _ => ?_)
  split
  · exact keepsRecords_endGood ..
  · exact keepsRecords_of_fields rfl rfl rfl

theorem answersWithRecords_frameStart (s : State) : AnswersWithRecords s (execFrameStart s) := by
  refine answersWithRecords_next (keepsRecords_guard fun _ => ?_)
  split <;> exact keepsRecords_of_fields rfl rfl rfl

theorem keepsRecords_beginSending (s : State) : KeepsRecords s (beginSending s) := by
  unfold beginSending
  split
  · split <;> exact keepsRecords_of_fields rfl rfl rfl
  · exact .refl s

theorem answersWithRecords_slotStart (s : State) : AnswersWithRecords s (execSlotStart s) :=
  answersWithRecords_next (keepsRecords_guard fun _ =>
    KeepsRecords.trans (t := if maySend s then beginSending s else s)
      (keepsRecords_guard fun _ => keepsRecords_beginSending s) (keepsRecords_of_fields rfl rfl rfl))

theorem answersWithRecords_collisionDetected (s : State) : AnswersWithRecords s (execCollisionDetected s) := by
  refine answersWithRecords_next ?_
  split
  · exact .refl s
  · refine keepsRecords_ite (fun _ => keepsRecords_of_fields rfl rfl rfl) fun _ => ?_
    split <;> exact keepsRecords_of_fields rfl rfl rfl

theorem keepsRecords_reportSent (r : Option Requester) (s : State) : KeepsRecords s (reportSent r s) := by
  unfold reportSent
  split
  · split <;> exact keepsRecords_of_fields rfl rfl rfl
  · split <;> exact keepsRecords_of_fields rfl rfl rfl
  · split <;> exact keepsRecords_of_fields rfl rfl rfl
  · exact .refl s
  · exact .refl s

theorem answersWithRecords_transmitEnd (s : State) : AnswersWithRecords s (execTransmitEnd s) := by
  refine answersWithRecords_next ?_
  split
  · exact .refl s
  · refine keepsRecords_ite (fun _ => keepsRecords_of_fields rfl rfl rfl) fun _ => ?_
    split
    · exact keepsRecords_of_fields rfl rfl rfl
    · refine KeepsRecords.trans ?_ (keepsRecords_reportSent ..)
      exact keepsRecords_of_fields rfl rfl rfl

theorem answersWithRecords_waitingFramePlaced (s : State) : AnswersWithRecords s (execWaitingFramePlaced s) := by
  refine answersWithRecords_next ?_
  split
  · refine keepsRecords_guard fun _ => ?_
    refine KeepsRecords.trans ?_ (keepsRecords_of_offers ((offers_placeFor ..).trans (offers_pumpResponder _)))
    exact keepsRecords_of_fields rfl rfl rfl
  · exact .refl s

/-! ## Takings -/

theorem answersWithRecords_takeFrame {k : FrameKind} {use : Frame → State → State} {s : State}
    (h : ∀ f t, KeepsRecords t (use f t)) : AnswersWithRecords s (takeFrame k use s) := by
  refine answersWithRecords_next (keepsRecords_guard fun _ => ?_)
  split
  · refine keepsRecords_guard fun _ => KeepsRecords.trans ?_ (h _ _)
    exact keepsRecords_of_fields rfl rfl rfl
  · exact .refl s

theorem keepsRecords_useNews (f : Frame) (s : State) : KeepsRecords s (useNews f s) := by
  refine keepsRecords_guard fun _ => ?_
  split
  · exact (keepsRecords_offerArrival ..).trans (keepsRecords_spaceEvent ..)
  · exact .refl s

theorem keepsRecords_settleSupply (source : Station) (echo : Byte) (key : Key) (r : Option Record) (s : State) :
    KeepsRecords s (settleSupply source echo key r s) := by
  have settled (i : Fin 4) : KeepsRecords s (removeWant key (freeFetchSlot i s)) :=
    keepsRecords_of_withdraws ((withdraws_freeFetchSlot ..).trans (withdraws_removeWant ..))
  unfold settleSupply
  split
  · rename_i i _
    split
    · exact (settled i).trans (keepsRecords_offerArrival ..)
    · exact (settled i).trans (keepsRecords_of_offers (offers_pumpFetch _))
  · split
    · exact keepsRecords_offerArrival ..
    · exact .refl s

theorem keepsRecords_useSupply (f : Frame) (s : State) : KeepsRecords s (useSupply f s) := by
  refine keepsRecords_guard fun _ => ?_
  split
  · exact (keepsRecords_settleSupply ..).trans (keepsRecords_spaceEvent ..)
  · exact .refl s

theorem keepsRecords_useSummary (f : Frame) (s : State) : KeepsRecords s (useSummary f s) := by
  refine keepsRecords_guard fun _ => ((keepsRecords_raiseClock ..).trans (keepsRecords_setPeer ..)).trans
    (keepsRecords_guard fun _ => KeepsRecords.trans ?_ (keepsRecords_of_offers (offers_pumpReconciler _)))
  exact keepsRecords_of_fields rfl rfl rfl

theorem keepsRecords_useProfile (f : Frame) (s : State) : KeepsRecords s (useProfile f s) :=
  keepsRecords_guard fun _ => ((keepsRecords_of_withdraws (withdraws_endQueryOf ..)).trans
    (keepsRecords_changePeer ..)).trans (keepsRecords_of_offers (offers_pump _))

theorem keepsRecords_compareEntry (source : Station) (b : Bucket) (s : State) (h : HeardEntry) :
    KeepsRecords s (compareEntry source b s h) := by
  unfold compareEntry
  split
  · exact keepsRecords_of_withdraws (withdraws_wantAdd ..)
  · exact .refl s

theorem keepsRecords_takePart (f : Frame) (p : Pair) (placed : Placed) (expected : Nat) (s : State) :
    KeepsRecords s (takePart f p placed expected s) := by
  refine (keepsRecords_fold (keepsRecords_compareEntry f.source p.bucket) (heardEntries (f.payload.drop 4)) s).trans
    (keepsRecords_ite (fun _ => ?_) fun _ => ?_)
  · exact (keepsRecords_of_withdraws (withdraws_finishQuery _)).trans
      (keepsRecords_of_offers ((offers_pumpReconciler _).trans (offers_pumpFetch _)))
  · refine KeepsRecords.trans ?_ (keepsRecords_of_offers (offers_pumpFetch _))
    exact keepsRecords_of_fields rfl rfl rfl

theorem keepsRecords_failedQuery (s : State) : KeepsRecords s (pumpReconciler (failBucketQuery s)) :=
  (keepsRecords_of_withdraws (withdraws_failBucketQuery s)).trans (keepsRecords_of_offers (offers_pumpReconciler _))

theorem keepsRecords_useBucketReply (f : Frame) (s : State) : KeepsRecords s (useBucketReply f s) := by
  unfold useBucketReply
  split
  · exact keepsRecords_ite (fun _ => .refl s) fun _ =>
      keepsRecords_ite (fun _ => keepsRecords_failedQuery s) fun _ => keepsRecords_takePart ..
  all_goals exact .refl s

theorem keepsRecords_acceptRequest (f : Frame) (kind : JobKind) (s : State) :
    KeepsRecords s (acceptRequest f kind s) := by
  refine keepsRecords_guard fun _ => KeepsRecords.trans ?_ (keepsRecords_of_offers (offers_pumpResponder _))
  exact keepsRecords_ite (fun _ => keepsRecords_of_fields rfl rfl rfl) fun _ =>
    keepsRecords_guard fun _ => keepsRecords_of_fields rfl rfl rfl

/-! ## Timers -/

theorem answersWithRecords_profileReplyTimeout (s : State) : AnswersWithRecords s (execProfileReplyTimeout s) :=
  answersWithRecords_next (keepsRecords_guard fun _ =>
    (keepsRecords_of_withdraws ((withdraws_query none s).trans (withdraws_dropRequest ..))).trans
      (keepsRecords_of_offers (offers_pumpProfile _)))

theorem answersWithRecords_bucketReplyTimeout (s : State) : AnswersWithRecords s (execBucketReplyTimeout s) := by
  refine answersWithRecords_next (keepsRecords_guard fun _ => ?_)
  split
  · exact keepsRecords_failedQuery s
  all_goals exact .refl s

theorem keepsRecords_countAttempt (k : Key) (s : State) : KeepsRecords s (countAttempt k s) := by
  unfold countAttempt
  split
  · exact keepsRecords_ite (fun _ => keepsRecords_of_fields rfl rfl rfl) fun _ => keepsRecords_of_fields rfl rfl rfl
  · exact .refl s

theorem answersWithRecords_fetchReplyTimeout (i : Fin 4) (s : State) :
    AnswersWithRecords s (execFetchReplyTimeout i s) := by
  refine answersWithRecords_next (keepsRecords_guard fun _ => ?_)
  split
  · exact ((keepsRecords_of_withdraws (withdraws_freeFetchSlot i s)).trans (keepsRecords_countAttempt ..)).trans
      (keepsRecords_of_offers (offers_pumpFetch _))
  all_goals exact .refl s

theorem answersWithRecords_silenceLimit (p : Station) (s : State) : AnswersWithRecords s (execSilenceLimit p s) :=
  answersWithRecords_next (keepsRecords_guard fun _ =>
    ((keepsRecords_changePeer ..).trans (keepsRecords_of_withdraws (withdraws_purgePeer ..))).trans
      (keepsRecords_of_offers (offers_pump _)))

theorem answersWithRecords_absenceLimit (p : Station) (s : State) : AnswersWithRecords s (execAbsenceLimit p s) :=
  answersWithRecords_next (keepsRecords_guard fun _ =>
    ((keepsRecords_of_withdraws ((withdraws_discardJobs p s).trans (withdraws_endQueryOf ..))).trans
      (keepsRecords_changePeer ..)).trans (keepsRecords_of_offers (offers_pump _)))

theorem answersWithRecords_duplicateMarkExpiry (p : Station) (s : State) :
    AnswersWithRecords s (execDuplicateMarkExpiry p s) :=
  answersWithRecords_next (keepsRecords_guard fun _ =>
    (keepsRecords_changePeer ..).trans (keepsRecords_of_offers (offers_pumpProfile _)))

/-! ## The arbiter -/

theorem answersWithRecords_readGrant (s : State) : AnswersWithRecords s (execReadGrant s) := by
  refine answersWithRecords_next (keepsRecords_guard fun _ => ?_)
  split <;> exact keepsRecords_of_fields rfl rfl rfl

theorem answersWithRecords_markGrant (s : State) : AnswersWithRecords s (execMarkGrant s) := by
  refine answersWithRecords_next (keepsRecords_guard fun _ => ?_)
  split <;> exact keepsRecords_of_fields rfl rfl rfl

theorem keepsRecords_setSlotPhase {s : State} {i : Fin 4} {x : Slot} (hx : s.upd.slots[i] = some x) (p : SlotPhase) :
    KeepsRecords s (setSlot i (some { x with phase := p }) s) := keepsRecords_of_slot_same hx rfl rfl rfl rfl

theorem keepsRecords_beginProgram (who : Appender) (r : Record) (loc : Loc) (opening : Option Opening) (s : State) :
    KeepsRecords s (beginProgram who r loc opening s) := by
  have used : KeepsRecords s (useGranules loc.sector (imageLen r.value.length) s) := keepsRecords_of_fields rfl rfl rfl
  have started (t : State) : KeepsRecords t (startProgramming who loc t) := by
    unfold startProgramming
    split
    · split
      · exact keepsRecords_setSlotPhase ‹_› _
      · exact .refl t
    · exact keepsRecords_of_fields rfl rfl rfl
  refine (used.trans (started _)).trans ?_
  exact keepsRecords_of_fields rfl rfl rfl

theorem keepsRecords_openAt (i : Nat) (s : State) : KeepsRecords s (openAt i s).1 := by
  have close : KeepsRecords s (closeOpen s) := by
    unfold closeOpen
    split <;> exact keepsRecords_of_fields rfl rfl rfl
  exact close.trans (keepsRecords_of_fields rfl rfl rfl)

theorem keepsRecords_takePlace (who : Appender) (r : Record) (p : Place) (s : State) :
    KeepsRecords s (takePlace who r p s) := by
  unfold takePlace
  split
  · exact keepsRecords_beginProgram ..
  · exact (keepsRecords_openAt ..).trans (keepsRecords_beginProgram ..)

theorem keepsRecords_grantSlot (i : Fin 4) (s : State) : KeepsRecords s (grantSlot i s) := by
  unfold grantSlot
  split
  · rename_i x hx
    split
    · exact keepsRecords_takePlace ..
    · refine (keepsRecords_testTrigger s).trans
        (keepsRecords_ite (fun _ => keepsRecords_setSlotPhase ?_ _) fun _ => keepsRecords_failSlots ..)
      rw [(testTrigger_facts s).1]
      exact hx
  · exact .refl s

theorem keepsRecords_grantCopy (s : State) : KeepsRecords s (grantCopy s) := by
  unfold grantCopy
  split
  · split
    · exact keepsRecords_takePlace ..
    · unfold answerCopy
      split
      · exact keepsRecords_stallCompaction ..
      all_goals exact keepsRecords_of_fields rfl rfl rfl
  · exact .refl s

theorem answersWithRecords_appendGrant (s : State) : AnswersWithRecords s (execAppendGrant s) := by
  have cause : KeepsRecords s (settleCause s) := keepsRecords_of_fields rfl rfl rfl
  refine answersWithRecords_next (keepsRecords_guard fun _ => ?_)
  split
  · exact (cause.trans (keepsRecords_grantSlot ..)).trans (keepsRecords_settleStore ..)
  · exact (cause.trans (keepsRecords_grantCopy _)).trans (keepsRecords_settleStore ..)
  · exact .refl s

/-! ## Completions -/

theorem answersWithRecords_hostReadDone (s : State) : AnswersWithRecords s (execHostReadDone s) := by
  refine answersWithRecords_next ?_
  split
  · unfold answerRead
    split
    · split <;> exact keepsRecords_of_fields rfl rfl rfl
    all_goals exact keepsRecords_of_fields rfl rfl rfl
  all_goals exact .refl s

theorem answersWithRecords_responderReadDone (s : State) : AnswersWithRecords s (execResponderReadDone s) := by
  have cleared : KeepsRecords s (clearOp s) := keepsRecords_of_fields rfl rfl rfl
  refine answersWithRecords_next ?_
  split
  · refine cleared.trans ?_
    unfold buildSupply
    split
    · refine (keepsRecords_of_offers (offers_setService ..)).trans (keepsRecords_ite
        (fun _ => keepsRecords_of_offers ((offers_placeReply _).trans (offers_pumpResponder _)))
        fun _ => keepsRecords_of_offers (offers_waitForRoom ..))
    all_goals exact .refl _
  · exact cleared
  all_goals exact .refl s

theorem keepsRecords_walkOn (found : ImageRead) (s : State) : KeepsRecords s (walkOn found s) := by
  unfold walkOn
  split
  · split
    · exact keepsRecords_ite (fun _ => keepsRecords_of_fields rfl rfl rfl) fun _ => keepsRecords_of_fields rfl rfl rfl
    all_goals exact keepsRecords_stallCompaction ..
  all_goals exact .refl s

theorem answersWithRecords_compactionReadDone (s : State) : AnswersWithRecords s (execCompactionReadDone s) := by
  have cleared : KeepsRecords s (clearOp s) := keepsRecords_of_fields rfl rfl rfl
  refine answersWithRecords_next ?_
  split
  · exact (cleared.trans (keepsRecords_walkOn ..)).trans (keepsRecords_settleStore ..)
  all_goals exact .refl s

theorem keepsRecords_endProgram (loc : Loc) (opening : Option Opening) (image failed : List Byte) (s : State) :
    KeepsRecords s (clearOp (programAppend loc opening image failed 0 s)) := by
  obtain ⟨hd, hu, hc⟩ := programAppend_fields loc opening image failed 0 s
  exact keepsRecords_of_fields hd (congrArg (·.slots) hu) (congrArg (·.force) hc)

theorem keepsRecords_modifySector (i : Nat) (f : Sector → Sector) (s : State) : KeepsRecords s (modifySector i f s) :=
  keepsRecords_of_fields rfl rfl rfl

theorem keepsRecords_passUpdate {i : Fin 4} {x : Slot} {s : State} (hx : s.upd.slots[i] = some x) (loc : Loc)
    (old : State) : KeepsRecords s (passUpdate i x loc old s) :=
  ((((keepsRecords_modifySector ..).trans (keepsRecords_commitSlot (s := closeIfFull loc.sector s) hx loc)).trans
    (keepsRecords_settleStore ..)).trans (keepsRecords_of_offers (offers_pumpFetch _))).trans
    (keepsRecords_offerCommitNews ..)

theorem keepsRecords_failUpdate {i : Fin 4} {x : Slot} {s : State} (hx : s.upd.slots[i] = some x) (loc : Loc)
    (old : State) : KeepsRecords s (failUpdate i x loc old s) := by
  refine ((keepsRecords_modifySector loc.sector closeSector s).trans
    (keepsRecords_ite (fun _ => keepsRecords_failSlots ..) fun _ => ?_)).trans (keepsRecords_settleStore ..)
  exact keepsRecords_of_slot_same (s := closeFailed loc.sector s) hx rfl rfl rfl rfl

theorem answersWithRecords_updateProgramDone (failed : List Byte) (s : State) :
    AnswersWithRecords s (execUpdateProgramDone failed s) := by
  refine answersWithRecords_next ?_
  split
  · rename_i i loc opening image _
    have ended := keepsRecords_endProgram loc opening image failed s
    have hu : (clearOp (programAppend loc opening image failed 0 s)).upd = s.upd := (programAppend_fields ..).2.1
    refine keepsRecords_ite (fun _ => ended) fun _ => ?_
    split
    · exact keepsRecords_ite (fun _ => ended.trans (keepsRecords_passUpdate (by rwa [hu]) ..)) fun _ =>
        ended.trans (keepsRecords_failUpdate (by rwa [hu]) ..)
    · exact ended
  all_goals exact .refl s

theorem answersWithRecords_copyProgramDone (failed : List Byte) (s : State) :
    AnswersWithRecords s (execCopyProgramDone failed s) := by
  refine answersWithRecords_next ?_
  split
  · rename_i loc opening image _
    have ended := keepsRecords_endProgram loc opening image failed s
    refine keepsRecords_ite (fun _ => ended) fun _ => ?_
    split
    · rename_i c _
      refine (ended.trans (keepsRecords_ite (fun _ => ?_) fun _ => ?_)).trans (keepsRecords_settleStore ..)
      · refine ((keepsRecords_modifySector ..).trans (keepsRecords_commitCopy c loc (closeIfFull loc.sector _))).trans ?_
        exact keepsRecords_of_fields rfl rfl rfl
      · exact keepsRecords_of_fields rfl rfl rfl
    · exact ended
  all_goals exact .refl s

theorem answersWithRecords_reclaimMarkDone (s : State) : AnswersWithRecords s (execReclaimMarkDone s) := by
  refine answersWithRecords_next ?_
  split
  · refine keepsRecords_ite (fun _ => keepsRecords_of_fields rfl rfl rfl) fun _ =>
      KeepsRecords.trans ?_ (keepsRecords_settleStore ..)
    exact keepsRecords_of_fields rfl rfl rfl
  all_goals exact .refl s

theorem answersWithRecords_eraseMarkDone (s : State) : AnswersWithRecords s (execEraseMarkDone s) := by
  refine answersWithRecords_next ?_
  split
  · refine keepsRecords_ite (fun _ => keepsRecords_of_fields rfl rfl rfl) fun _ =>
      KeepsRecords.trans ?_ (keepsRecords_settleStore ..)
    exact keepsRecords_of_fields rfl rfl rfl
  all_goals exact .refl s

theorem keepsRecords_retire (v : Nat) (markerFailed : Byte) (s : State) : KeepsRecords s (retire v markerFailed s) := by
  have marked : KeepsRecords s (modifySector v (fun x => { x with state := .retired, seq := none })
      (dropErase (programMark v retiredMark markerFailed s))) := keepsRecords_of_fields rfl rfl rfl
  exact ((marked.trans (keepsRecords_nextRun _)).trans (keepsRecords_guard fun _ => keepsRecords_failStoreWait _)).trans
    (keepsRecords_post ..)

theorem answersWithRecords_eraseDone (failed : List (Nat × Byte)) (markerFailed : Byte) (s : State) :
    AnswersWithRecords s (execEraseDone failed markerFailed s) := by
  refine answersWithRecords_next ?_
  split
  · rename_i e _
    have erased : KeepsRecords s { s with flash := s.flash.erase (headerAddr e.sector) failed } :=
      keepsRecords_of_fields rfl rfl rfl
    refine keepsRecords_guard fun _ => keepsRecords_ite (fun _ => keepsRecords_of_fields rfl rfl rfl) fun _ => ?_
    exact (erased.trans (keepsRecords_retire ..)).trans (keepsRecords_settleStore ..)
  · exact .refl s

theorem answersWithRecords_eraseCountProgrammed (s : State) : AnswersWithRecords s (execEraseCountProgrammed s) := by
  refine answersWithRecords_next ?_
  split
  · rename_i e _
    have counted : KeepsRecords s (dropErase (programEraseCount e.sector [] 0 s)) := keepsRecords_of_fields rfl rfl rfl
    refine keepsRecords_guard fun _ => keepsRecords_ite (fun _ => counted) fun _ => ?_
    exact (((counted.trans (keepsRecords_modifySector ..)).trans (keepsRecords_wakeStoreWait _)).trans
      (keepsRecords_nextRun _)).trans (keepsRecords_settleStore ..)
  · exact .refl s

/-! ## Every command -/

/-- Every command but the start-up scan's end keeps the laws of directory and slots. -/
theorem answersWithRecords_exec (c : Instr) (s : State) (hscan : c ≠ .startUpScanEnd) :
    AnswersWithRecords s (exec c s) := by
  cases c with
  | status => exact answersWithRecords_immediate (keepsRecords_openTxn ..)
  | getReply => exact answersWithRecords_immediate (keepsRecords_openTxn ..)
  | readEvent => exact answersWithRecords_immediate (keepsRecords_takeEvent s)
  | readProfile offset => exact answersWithRecords_immediate (keepsRecords_openTxn ..)
  | softReset erased => exact answersWithRecords_immediate (keepsRecords_softResetStart ..)
  | ackDiverged => exact answersWithRecords_ackDiverged s
  | writeRecord key value => exact answersWithRecords_admission key false value s
  | deleteRecord key => exact answersWithRecords_admission key true [] s
  | readRecord key => exact answersWithRecords_requestCommand (keepsRecords_serveRead key)
  | listKeys start => exact answersWithRecords_requestCommand (keepsRecords_serveList start)
  | readPeers => exact answersWithRecords_requestCommand keepsRecords_servePeers
  | syncNow => exact answersWithRecords_requestCommand keepsRecords_serveSync
  | programConfig offset bytes => exact answersWithRecords_requestCommand (keepsRecords_serveProgram offset bytes)
  | lockConfig => exact answersWithRecords_requestCommand keepsRecords_serveLock
  | unknownCommand code => exact answersWithRecords_immediate (keepsRecords_openTxn ..)
  | transactionEnd clocked => exact answersWithRecords_transactionEnd clocked s
  | configProgramDone failed => exact answersWithRecords_configProgramDone failed s
  | lockCheckProgrammed failed => exact answersWithRecords_lockCheckProgrammed failed s
  | lockMarkerProgrammed failed => exact answersWithRecords_lockMarkerProgrammed failed s
  | powerOnReset cut =>
    exact answersWithRecords_next ((keepsRecords_stopAll cut s).trans (keepsRecords_of_fields rfl rfl rfl))
  | powerOnResetEnd p => exact answersWithRecords_powerOnResetEnd p s
  | pinReset cut =>
    exact answersWithRecords_next ((keepsRecords_stopAll cut s).trans (keepsRecords_of_fields rfl rfl rfl))
  | pinResetEnd p => exact answersWithRecords_pinResetEnd p s
  | softResetWaitEnd p => exact answersWithRecords_next (keepsRecords_guard fun _ => keepsRecords_resetEnd p s)
  | startUpScanEnd => exact absurd rfl hscan
  | listeningPeriodEnd => exact answersWithRecords_listeningPeriodEnd s
  | settlingEnd => exact answersWithRecords_guard rfl rfl rfl
  | frameStart => exact answersWithRecords_frameStart s
  | frameEndGood bytes => exact answersWithRecords_frameEndGood bytes s
  | frameEndGarbled => exact answersWithRecords_guard rfl rfl rfl
  | guardEnd => exact answersWithRecords_guard rfl rfl rfl
  | slotStart => exact answersWithRecords_slotStart s
  | cycleEnd => exact answersWithRecords_guard rfl rfl rfl
  | collisionDetected => exact answersWithRecords_collisionDetected s
  | transmitEnd => exact answersWithRecords_transmitEnd s
  | waitingFramePlaced => exact answersWithRecords_waitingFramePlaced s
  | newsTaken => exact answersWithRecords_takeFrame keepsRecords_useNews
  | supplyTaken => exact answersWithRecords_takeFrame keepsRecords_useSupply
  | summaryTaken => exact answersWithRecords_takeFrame keepsRecords_useSummary
  | profileTaken => exact answersWithRecords_takeFrame keepsRecords_useProfile
  | bucketReplyTaken => exact answersWithRecords_takeFrame keepsRecords_useBucketReply
  | fetchTaken =>
    exact answersWithRecords_takeFrame fun f t => keepsRecords_guard fun _ => keepsRecords_acceptRequest f _ t
  | bucketQueryTaken =>
    exact answersWithRecords_takeFrame fun f t => keepsRecords_guard fun _ => keepsRecords_acceptRequest f _ t
  | profileQueryTaken =>
    exact answersWithRecords_takeFrame fun f t => keepsRecords_guard fun _ => keepsRecords_acceptRequest f _ t
  | summaryTimerExpiry => exact answersWithRecords_next (keepsRecords_guard fun _ => keepsRecords_expireSummary s)
  | profileReplyTimeout => exact answersWithRecords_profileReplyTimeout s
  | bucketReplyTimeout => exact answersWithRecords_bucketReplyTimeout s
  | fetchReplyTimeout slot => exact answersWithRecords_fetchReplyTimeout slot s
  | silenceLimit peer => exact answersWithRecords_silenceLimit peer s
  | absenceLimit peer => exact answersWithRecords_absenceLimit peer s
  | duplicateMarkExpiry peer => exact answersWithRecords_duplicateMarkExpiry peer s
  | readGrant => exact answersWithRecords_readGrant s
  | appendGrant => exact answersWithRecords_appendGrant s
  | markGrant => exact answersWithRecords_markGrant s
  | eraseGrant => exact answersWithRecords_guard rfl rfl rfl
  | eraseSuspended => exact answersWithRecords_guard rfl rfl rfl
  | eraseResume => exact answersWithRecords_guard rfl rfl rfl
  | hostReadDone => exact answersWithRecords_hostReadDone s
  | responderReadDone => exact answersWithRecords_responderReadDone s
  | compactionReadDone => exact answersWithRecords_compactionReadDone s
  | updateProgramDone failed => exact answersWithRecords_updateProgramDone failed s
  | copyProgramDone failed => exact answersWithRecords_copyProgramDone failed s
  | reclaimMarkDone => exact answersWithRecords_reclaimMarkDone s
  | eraseMarkDone => exact answersWithRecords_eraseMarkDone s
  | eraseDone failed markerFailed => exact answersWithRecords_eraseDone failed markerFailed s
  | settlingCarrier => exact answersWithRecords_guard rfl rfl rfl
  | eraseCountProgrammed => exact answersWithRecords_eraseCountProgrammed s

end Sys2Proof.Proofs
end

