-- ==== Sys2Proof/Proofs/RecordsLaws.lean ====
section
/-! PROOFS. The laws of the directory and the update slots, concluded: the start-up scan, which builds the directory anew, the
scan's own law, and every step. -/

namespace Sys2Proof.Proofs
open Sys2Proof Sys2Proof.Machine

/-! ## The start-up scan (R29, R77, R78) -/

theorem scan_upd_ctl (s : State) : (scan s).upd = s.upd ∧ (scan s).ctl = s.ctl := by
  obtain ⟨d, l, q, h⟩ := scan_shape s
  rw [h]
  exact ⟨rfl, rfl⟩

/-- What the scan keeps is ordered and valid, its counts and checks those of its entries. -/
theorem directoryLaw_scan {s : State} (h : DirectoryLaw s) : DirectoryLaw (scan s) := by
  obtain ⟨hupd, hctl⟩ := scan_upd_ctl s
  have hforce : (scan s).ctl.force = s.ctl.force := by rw [hctl]
  refine ⟨pairwise_scan_entries s, fun e he => ?_, scan_entryCount s, ?_, fun b => ?_, by rw [hupd]; exact h.slots⟩
  · obtain ⟨_, _, _, _, _, hvalid, _⟩ := kept_of_mem_scan_entries he
    exact hvalid
  · simp only [isLocal_of_force hforce]
    exact scan_sharedCount s
  · rw [scan_checks, bucketFold_eq, bucketFold_eq, foldOf_of_force hforce]
    exact foldOf_of_force (s := s) (t := { s with dir := (scan s).dir }) rfl b _

/-- With no slot busy and nothing reserved there is nothing to ask. -/
theorem slotsSound_of_free {s : State} (hu : ∀ i : Fin 4, s.upd.slots[i] = none) (hr : s.dir.reservations = 0) :
    SlotsSound s where
  each i x hx := by rw [hu i] at hx; cases hx
  distinct i _ x _ hx := by rw [hu i] at hx; cases hx
  count := by
    simp only [countP_isReserved, hu, hr]
    rfl

/-- After the rebuild the store and the station go on, and directory and slots stay (R67, R68, R78). -/
theorem keepsRecords_afterScan (s : State) :
    KeepsRecords s (advanceWalk (nextRun (enterStation .listening (startListening s)))) := by
  refine KeepsRecords.trans ?_ ((keepsRecords_nextRun _).trans (keepsRecords_advanceWalk _))
  exact keepsRecords_of_fields rfl rfl rfl

theorem directoryLaw_startUpScanEnd {s t : State} (hs : DirectoryLaw s) (h : exec .startUpScanEnd s = .next t) :
    DirectoryLaw t := by
  rw [exec_startUpScanEnd, execStartUpScanEnd, Host.Outcome.next.injEq] at h
  subst h
  split
  · exact (keepsRecords_afterScan _).directory (directoryLaw_scan hs)
  · exact hs

theorem slotsSound_startUpScanEnd {s t : State} (hs : SlotsSound s) (hscan : ScanLaw s)
    (h : exec .startUpScanEnd s = .next t) : SlotsSound t := by
  rw [exec_startUpScanEnd, execStartUpScanEnd, Host.Outcome.next.injEq] at h
  subst h
  split
  · refine (keepsRecords_afterScan _).slots (slotsSound_of_free ?_ (scan_reservations s))
    rw [(scan_upd_ctl s).1]
    exact hscan ‹_›
  · exact hs

/-! ## No slot is busy while the scan runs (R26, R78) -/

theorem scanLaw_of_keepsClock {s t : State} (h : KeepsClock s t) (hs : ScanLaw s) : ScanLaw t :=
  fun ht i => (h.scan ht).2 i (hs (h.scan ht).1 i)

theorem scanLaw_ite {p : Prop} [Decidable p] {s t : State} (ht : p → ScanLaw t) (hs : ¬ p → ScanLaw s) :
    ScanLaw (if p then t else s) := by
  split
  · exact ht ‹_›
  · exact hs ‹_›

theorem scanLaw_of_inReset {s : State} (h : inReset s = true) : ScanLaw s := fun hs => by
  rw [isScanning_of_inReset h] at hs
  cases hs

theorem scanLaw_resetEnd (p : Station) (s : State) : ScanLaw (resetEnd p s) := (clockLaw_resetEnd p s).scan

/-- The scan's end enters LISTENING (R78). -/
theorem isScanning_afterScan (s : State) :
    isScanning (advanceWalk (nextRun (enterStation .listening (startListening s)))) = false := by
  rw [← Bool.not_eq_true]
  intro h
  have hscan := (((keepsClock_nextRun _).trans (keepsClock_advanceWalk _)).scan h).1
  have hst := (isScanning_iff.1 hscan).2.1
  cases hst

theorem scanLaw_startUpScanEnd {s t : State} (hs : ScanLaw s) (h : exec .startUpScanEnd s = .next t) : ScanLaw t := by
  rw [exec_startUpScanEnd, execStartUpScanEnd, Host.Outcome.next.injEq] at h
  subst h
  refine scanLaw_ite (fun _ ht => ?_) fun _ => hs
  rw [isScanning_afterScan] at ht
  cases ht

theorem scanLaw_powerOnResetEnd {s t : State} (p : Station) (hs : ScanLaw s)
    (h : exec (.powerOnResetEnd p) s = .next t) : ScanLaw t := by
  rw [exec_powerOnResetEnd, execPowerOnResetEnd, Host.Outcome.next.injEq] at h
  subst h
  exact scanLaw_ite (fun _ => scanLaw_ite (fun hpin => scanLaw_of_inReset (Bool.or_eq_true_iff.2 (.inr hpin)))
    fun _ => scanLaw_resetEnd p _) fun _ => hs

theorem scanLaw_pinResetEnd {s t : State} (p : Station) (hs : ScanLaw s) (h : exec (.pinResetEnd p) s = .next t) :
    ScanLaw t := by
  rw [exec_pinResetEnd, execPinResetEnd, Host.Outcome.next.injEq] at h
  subst h
  exact scanLaw_ite (fun _ => scanLaw_ite (fun hpower => scanLaw_of_inReset (Bool.or_eq_true_iff.2 (.inl hpower)))
    fun _ => scanLaw_resetEnd p _) fun _ => hs

theorem scanLaw_softResetWaitEnd {s t : State} (p : Station) (hs : ScanLaw s)
    (h : exec (.softResetWaitEnd p) s = .next t) : ScanLaw t := by
  rw [exec_softResetWaitEnd, execSoftResetWaitEnd, Host.Outcome.next.injEq] at h
  subst h
  exact scanLaw_ite (fun _ => scanLaw_resetEnd p _) fun _ => hs

theorem scanLaw_exec {c : Instr} {s t : State} (hs : ScanLaw s) (h : exec c s = .next t) : ScanLaw t := by
  by_cases hscan : c = .startUpScanEnd
  · exact scanLaw_startUpScanEnd hs (hscan ▸ h)
  by_cases hpower : ∃ p, c = .powerOnResetEnd p
  · obtain ⟨p, rfl⟩ := hpower
    exact scanLaw_powerOnResetEnd p hs h
  by_cases hpin : ∃ p, c = .pinResetEnd p
  · obtain ⟨p, rfl⟩ := hpin
    exact scanLaw_pinResetEnd p hs h
  by_cases hsoft : ∃ p, c = .softResetWaitEnd p
  · obtain ⟨p, rfl⟩ := hsoft
    exact scanLaw_softResetWaitEnd p hs h
  obtain ⟨u, hu, keeps⟩ := answersKeeping_exec c s hscan fun p =>
    ⟨fun e => hpower ⟨p, e⟩, fun e => hpin ⟨p, e⟩, fun e => hsoft ⟨p, e⟩⟩
  rw [hu, Host.Outcome.next.injEq] at h
  exact h ▸ scanLaw_of_keepsClock keeps hs

/-! ## Every step -/

theorem keepsRecords_exec {c : Instr} {s t : State} (hc : c ≠ .startUpScanEnd) (h : exec c s = .next t) :
    KeepsRecords s t := by
  obtain ⟨u, hu, keeps⟩ := answersWithRecords_exec c s hc
  rw [hu, Host.Outcome.next.injEq] at h
  exact h ▸ keeps

theorem directoryLaw_exec {c : Instr} {s t : State} (hs : DirectoryLaw s) (h : exec c s = .next t) :
    DirectoryLaw t := by
  by_cases hc : c = .startUpScanEnd
  · exact directoryLaw_startUpScanEnd hs (hc ▸ h)
  · exact (keepsRecords_exec hc h).directory hs

theorem slotLaw_exec {c : Instr} {s t : State} (hs : SlotLaw s) (h : exec c s = .next t) : SlotLaw t := by
  rw [slotLaw_iff] at hs ⊢
  refine ⟨?_, scanLaw_exec hs.2 h⟩
  by_cases hc : c = .startUpScanEnd
  · exact slotsSound_startUpScanEnd hs.1 hs.2 (hc ▸ h)
  · exact (keepsRecords_exec hc h).slots hs.1

/-- What every command keeps and the passing of time and the queue's rest do not touch, every step keeps. -/
theorem step_keeps {P : State → Prop} (hexec : ∀ (c : Instr) (s t : State), P s → exec c s = .next t → P t)
    (hpending : ∀ (s : State) (l : List Instr), P s → P { s with pending := l }) (htick : ∀ s, P s → P (tick s))
    {s t : State} (hs : P s) (h : step s = .next t) : P t := by
  unfold step at h
  split at h
  · exact hexec _ _ _ (hpending s _ hs) h
  · rw [Host.Outcome.next.injEq] at h
    exact h ▸ htick s hs

/-- Settles O54: `KeepsRecords` for every command but the scan's end, whose directory meets the law by itself. -/
theorem stepsKeepDirectoryLaw : Obligations.StepsKeepDirectoryLaw := by
  intro s t hs h
  exact step_keeps (fun _ _ _ => directoryLaw_exec)
    (fun s l => (keepsRecords_of_fields (s := s) (t := { s with pending := l }) rfl rfl rfl).directory)
    (fun s => (keepsRecords_of_fields (s := s) (t := tick s) rfl rfl rfl).directory) hs h

/-- Settles O56: `KeepsRecords` again, with the scan's own law from `KeepsClock`; at the scan's end no slot is busy. -/
theorem stepsKeepSlotLaw : Obligations.StepsKeepSlotLaw := by
  refine ⟨fun s t hs h => ?_, fun c s t hs hcap hc h => ?_⟩
  · refine step_keeps (fun _ _ _ => slotLaw_exec) (fun s l hs => ?_) (fun s hs => ?_) hs h
    · exact ⟨hs.valid, hs.distinct, hs.reserved, hs.count, hs.follower, hs.scan⟩
    · exact ⟨hs.valid, hs.distinct, hs.reserved, hs.count, hs.follower, hs.scan⟩
  · exact (keepsRecords_exec hc h).capacity (slotLaw_iff.1 hs).1 hcap

end Sys2Proof.Proofs
end

