-- ==== Sys2Proof/Proofs/Copies.lean ====
section
/-! PROOFS. The end of a copy's program (R22, R60, R72): the verify, the entry that moves, and the copy that fails. -/

namespace Sys2Proof.Proofs
open Sys2Proof Sys2Proof.Machine Sys2Proof.Stated

/-! ## The verify (R60) -/

/-- A program that passes the verify reads back. -/
theorem readsBack_of_verifies {m : Memory} {loc : Loc} {opening : Option Opening} {image : List Byte}
    (h : verifies m loc opening image = true) : ReadsBack m loc opening image := by
  unfold verifies at h
  rw [Bool.and_eq_true, beq_iff_eq] at h
  obtain ⟨himage, hopening⟩ := h
  refine ⟨(readBytes_eq_iff ..).1 himage, ?_⟩
  rintro o rfl i hlow hhigh
  dsimp only at hopening
  rw [beq_iff_eq, ← length_openingRecord o, readBytes_eq_iff, length_openingRecord] at hopening
  obtain ⟨j, rfl⟩ := Nat.exists_eq_add_of_le hlow
  rw [getD_openingGranule o (by omega), ← hopening j (by omega), headerAddr_eq, Nat.add_assoc]

theorem verifies_iff {m : Memory} {loc : Loc} {opening : Option Opening} {image : List Byte} :
    verifies m loc opening image = true ↔ ReadsBack m loc opening image :=
  ⟨readsBack_of_verifies, verifies_of_readsBack⟩

/-! ## The program's end -/

theorem exec_copyProgramDone_of_append {s : State} {loc : Loc} {opening : Option Opening} {image : List Byte}
    (h : s.store.op = some (.append .copy loc opening image)) (bits : List Byte) :
    exec (.copyProgramDone bits) s = .next (endCopy loc opening image bits s) := by
  rw [exec_copyProgramDone, execCopyProgramDone]
  simp only [h]

/-- Under a soft reset's wait flash alone changes (R157). -/
theorem endCopy_of_softWait {s : State} (loc : Loc) (opening : Option Opening) (image bits : List Byte)
    (hw : s.ctl.softWait = true) :
    endCopy loc opening image bits s = endOp (flashAfter loc opening image bits s) s := by
  unfold endCopy
  rw [clearOp_programAppend, if_pos hw]

theorem endCopy_of_verify {s : State} {c : CopySlot} (loc : Loc) (opening : Option Opening) (image bits : List Byte)
    (hw : s.ctl.softWait = false) (hc : s.upd.copy = some c) :
    endCopy loc opening image bits s =
      settleStore s
        (if verifies (flashAfter loc opening image bits s) loc opening image then
           passCopy c loc (endOp (flashAfter loc opening image bits s) s)
         else failCopy c loc (endOp (flashAfter loc opening image bits s) s)) := by
  unfold endCopy
  rw [clearOp_programAppend]
  simp only [hw, Bool.false_eq_true, if_false, hc]
  rfl

/-! ## The copy's commit (R22, R72) -/

/-- An entry's new location, put or mapped over an ordered directory: the same. -/
theorem putEntry_moved {l : List Entry} {e : Entry} (hs : l.Pairwise fun a b => a.key.toNat < b.key.toNat) (he : e ∈ l)
    (loc : Loc) : putEntry l { e with loc := loc } = l.map fun d => if d.key = e.key then { d with loc := loc } else d := by
  rw [putEntry_eq_map (e := { e with loc := loc }) hs he rfl]
  refine List.map_congr_left fun d hd => ?_
  by_cases hk : d.key = e.key
  · rw [if_pos hk, if_pos hk, eq_of_key_eq hs hd he hk]
  · rw [if_neg hk, if_neg hk]

/-- The entry still locates the victim image with the copied stamp: its location moves, and the live granules with it. -/
theorem commitCopy_of_located {s : State} {c : CopySlot} {e : Entry} (loc : Loc)
    (hs : s.dir.entries.Pairwise fun a b => a.key.toNat < b.key.toNat) (hl : lookup s c.record.key = some e)
    (he : e.loc = c.source) (hst : e.stamp = c.record.stamp) :
    commitCopy c loc s =
      withSector loc.sector (fun y => { y with live := y.live + e.imageLen })
        (withSector c.source.sector (fun y => { y with live := y.live - e.imageLen })
          { s with
            dir :=
              { s.dir with entries := s.dir.entries.map fun d => if d.key = e.key then { d with loc := loc } else d } }) := by
  unfold commitCopy
  simp only [hl]
  rw [if_pos ⟨he, hst⟩, putEntry_moved hs (mem_of_lookup hl).1]
  rfl

/-- The copy is dead on arrival. -/
theorem commitCopy_of_dead {s : State} {c : CopySlot} (loc : Loc)
    (h : ∀ e, lookup s c.record.key = some e → e.loc = c.source → e.stamp ≠ c.record.stamp) : commitCopy c loc s = s := by
  unfold commitCopy
  cases hl : lookup s c.record.key with
  | none => rfl
  | some e => exact if_neg fun hboth => h e hl hboth.1 hboth.2

theorem closeIfFull_eq (i : Nat) (s : State) : closeIfFull i s = withSector i fullIfUsed s := rfl

/-- Settles O50: the verify decides between `passCopy`, whose commit moves the entry or finds it gone, and `failCopy`. -/
theorem copiesCommit : Obligations.CopiesCommit := by
  intro s c loc opening image bits hop hc m free
  rw [exec_copyProgramDone_of_append hop]
  refine ⟨fun hw => ?_, fun hw hback hlaw => ?_, fun hw hback => ?_⟩
  · rw [endCopy_of_softWait loc opening image bits hw]
  · rw [endCopy_of_verify loc opening image bits hw hc, if_pos (verifies_iff.2 hback), passCopy, closeIfFull_eq]
    refine ⟨fun e hl he hst => ?_, fun hdead => ?_⟩
    · rw [commitCopy_of_located (s := withSector loc.sector fullIfUsed (endOp m s)) loc hlaw.ascending hl he hst]
      rfl
    · rw [commitCopy_of_dead (s := withSector loc.sector fullIfUsed (endOp m s)) loc hdead]
  · rw [endCopy_of_verify loc opening image bits hw hc, if_neg (by rwa [verifies_iff])]
    rfl

end Sys2Proof.Proofs
end

