-- ==== Sys2Proof/Proofs/Reports.lean ====
section
/-! PROOFS. LIST_KEYS, READ_PEERS and SYNC_NOW (R19, R120, R121, R174 to R176): refused, or complete at their acceptance. -/

namespace Sys2Proof.Proofs
open Sys2Proof Sys2Proof.Machine Sys2Proof.Stated

/-! ## Refused and served (R154) -/

theorem complete_accept (r : Reply) (s : State) : complete r (accept s) = answered r s := rfl

theorem notServing_of_starting {s : State} (h : s.ctl.st = .starting) : notServing s = some .starting := by
  unfold notServing
  rw [h]

theorem notServing_of_unconfigured {s : State} (h : s.ctl.st = .unconfigured) :
    notServing s = some .notConfigured := by
  unfold notServing
  rw [h]

theorem notServing_of_serving {s : State} (h : Serving s) : notServing s = none := by
  unfold notServing
  rcases h with h | h | h <;> rw [h]

/-! ## LIST_KEYS and READ_PEERS (R174, R175) -/

theorem serveList_of_refused {s : State} {c : ResultCode} (k : Key) (h : notServing s = some c) :
    serveList k s = complete (.code c) s := by
  unfold serveList
  rw [h]

theorem servePeers_of_refused {s : State} {c : ResultCode} (h : notServing s = some c) :
    servePeers s = complete (.code c) s := by
  unfold servePeers
  rw [h]

theorem serveList_of_serving {s : State} (k : Key) (h : Serving s) :
    serveList k s =
      complete
        (.keys (((entriesFrom s k).take 32).map listEntry) (decide (32 < (entriesFrom s k).length))) s := by
  unfold serveList
  rw [notServing_of_serving h]

theorem servePeers_of_serving {s : State} (h : Serving s) :
    servePeers s = complete (.peers (s.memb.peers.toList.map listPeer)) s := by
  unfold servePeers
  rw [notServing_of_serving h]

/-! ## SYNC_NOW (R120, R121, R176) -/

theorem serveSync_of_starting {s : State} (h : s.ctl.st = .starting) : serveSync s = complete (.code .starting) s := by
  unfold serveSync
  rw [h]

theorem serveSync_of_unconfigured {s : State} (h : s.ctl.st = .unconfigured) :
    serveSync s = complete (.code .notConfigured) s := by
  unfold serveSync
  rw [h]

theorem serveSync_of_listening {s : State} (h : s.ctl.st = .listening) : serveSync s = complete (.code .notActive) s := by
  unfold serveSync
  rw [h]

theorem serveSync_of_mute {s : State} (h : s.ctl.st = .mute) : serveSync s = complete (.code .muted) s := by
  unfold serveSync
  rw [h]

theorem serveSync_of_active {s : State} (h : s.ctl.st = .active) :
    serveSync s = expireSummary (complete (.code .done) s) := by
  unfold serveSync
  rw [h]

/-- A SUMMARY is absorbed by a queued one, or refused when the free places are all owed (R121; log 9). -/
theorem offerSummary_of_no_place {s : State}
    (h : (∃ t ∈ s.line.txq, t.kind = .summary) ∨ 16 ≤ s.line.txq.length + s.line.waiting.length) :
    offerSummary s = s := by
  unfold offerSummary
  by_cases hq : s.line.txq.any (fun t => t.kind == .summary) = true
  · rw [if_pos hq]
  · rw [if_neg hq]
    have hfull : 16 ≤ s.line.txq.length + s.line.waiting.length := by
      refine h.resolve_left fun ⟨t, ht, hk⟩ => hq (List.any_eq_true.2 ⟨t, ht, ?_⟩)
      rw [hk]
      rfl
    unfold placeBehind
    rw [if_neg]
    rw [placeLeft_iff]
    exact fun hleft => Nat.not_lt.2 hfull hleft.2

/-- With nobody waiting and a place free, the SUMMARY takes it (R95, R121). -/
theorem offerSummary_of_room {s : State} (hp : Active s) (hq : ∀ t ∈ s.line.txq, t.kind ≠ .summary)
    (hw : s.line.waiting = []) (hl : s.line.txq.length < 16) :
    offerSummary s = placeFrame .summary 0 Config.broadcast [] none s := by
  rw [offerSummary_of_none_waiting hw, if_neg, if_pos]
  · exact hasRoom_iff.2 ⟨⟨hp.1, .inr hp.2⟩, hw, hl⟩
  · rw [List.any_eq_true]
    exact fun ⟨t, ht, hk⟩ => hq t ht (beq_iff_eq.1 hk)

/-! ## The obligation -/

/-- A station that serves nothing yet refuses all three (R154). -/
theorem reports_refused {s : State} (hp : FreePort s) {c : Instr}
    (hc : c = .readPeers ∨ c = .syncNow ∨ ∃ k, c = .listKeys k) :
    (s.ctl.st = .starting → exec c s = .next (answered (.code .starting) s)) ∧
      (s.ctl.st = .unconfigured → exec c s = .next (answered (.code .notConfigured) s)) := by
  rcases hc with rfl | rfl | ⟨k, rfl⟩
  · rw [exec_readPeers, execReadPeers, requestCommand_free hp]
    refine ⟨fun h => ?_, fun h => ?_⟩
    · rw [servePeers_of_refused (notServing_of_starting (s := accept s) h), complete_accept]
    · rw [servePeers_of_refused (notServing_of_unconfigured (s := accept s) h), complete_accept]
  · rw [exec_syncNow, execSyncNow, requestCommand_free hp]
    refine ⟨fun h => ?_, fun h => ?_⟩
    · rw [serveSync_of_starting (s := accept s) h, complete_accept]
    · rw [serveSync_of_unconfigured (s := accept s) h, complete_accept]
  · rw [exec_listKeys, execListKeys, requestCommand_free hp]
    refine ⟨fun h => ?_, fun h => ?_⟩
    · rw [serveList_of_refused k (notServing_of_starting (s := accept s) h), complete_accept]
    · rw [serveList_of_refused k (notServing_of_unconfigured (s := accept s) h), complete_accept]

/-- An ACTIVE station's SYNC_NOW makes the summary timer expire (R176). -/
theorem exec_syncNow_of_active {s : State} (hp : FreePort s) (h : s.ctl.st = .active) :
    exec .syncNow s = .next (offerSummary { answered (.code .done) s with summ := { timer := some s.now } }) := by
  rw [exec_syncNow, execSyncNow, requestCommand_free hp, serveSync_of_active (s := accept s) h]
  rfl

/-- Settles O16: `reports_refused`, one walk for each report, and `offerSummary`'s cases for SYNC_NOW. -/
theorem reportsCompleteAtOnce : Obligations.ReportsCompleteAtOnce := by
  intro s hp
  refine ⟨fun c hc => reports_refused hp hc, fun k hs => ?_, fun hs => ?_, fun h => ?_, fun h => ?_, fun h =>
    ⟨fun hfull => ?_, exec_syncNow_of_active hp h, fun hq hw hl => ?_⟩⟩
  · rw [exec_listKeys, execListKeys, requestCommand_free hp, serveList_of_serving (s := accept s) k hs]
    rfl
  · rw [exec_readPeers, execReadPeers, requestCommand_free hp, servePeers_of_serving (s := accept s) hs]
    rfl
  · rw [exec_syncNow, execSyncNow, requestCommand_free hp, serveSync_of_listening (s := accept s) h, complete_accept]
  · rw [exec_syncNow, execSyncNow, requestCommand_free hp, serveSync_of_mute (s := accept s) h, complete_accept]
  · rw [exec_syncNow_of_active hp h, offerSummary_of_no_place]
    exact hfull
  · rw [exec_syncNow_of_active hp h, offerSummary_of_room]
    · rfl
    · exact ⟨hp.1.1, h⟩
    · exact hq
    · exact hw
    · exact hl

end Sys2Proof.Proofs
end

