-- ==== Sys2Proof/Proofs/Sending.lean ====
section
/-! PROOFS. A slot of the contention cycle (R88, R90, R95, R122): whose turn it is, which queued frame is first, and the frame
that goes on the line. -/

namespace Sys2Proof.Proofs
open Sys2Proof Sys2Proof.Machine Sys2Proof.Stated

/-! ## The first frame of the highest class (R95) -/

theorem firstOfClass_eq {s : State} {c : TxClass} {pre post : List TxFrame} {t : TxFrame} (h : FirstOf s c pre t post) :
    firstOfClass s c = some t := by
  obtain ⟨hq, hc, hpre⟩ := h
  have hnone : pre.find? (fun x => x.kind.cls == c) = none :=
    List.find?_eq_none.2 fun x hx hk => hpre x hx (beq_iff_eq.1 hk)
  rw [firstOfClass, hq, List.find?_append, hnone, Option.none_or]
  exact List.find?_cons_of_pos (p := fun x : TxFrame => x.kind.cls == c) (beq_iff_eq.2 hc)

theorem highestClass_of_empty {s : State} (h : s.line.txq = []) : highestClass s = none := by
  unfold highestClass
  rw [h]
  rfl

/-- A class is the highest when it holds a frame and no class that ranks before it does. -/
theorem find_txClasses {p : TxClass → Bool} {c : TxClass} (hc : p c = true)
    (hlow : ∀ d, rank d < rank c → p d = false) : txClasses.find? p = some c := by
  unfold txClasses
  cases c with
  | replies => rw [List.find?_cons_of_pos hc]
  | requests =>
    rw [List.find?_cons_of_neg (by simp [hlow .replies (by decide)]), List.find?_cons_of_pos hc]
  | news =>
    rw [List.find?_cons_of_neg (by simp [hlow .replies (by decide)]),
      List.find?_cons_of_neg (by simp [hlow .requests (by decide)]), List.find?_cons_of_pos hc]
  | summary =>
    rw [List.find?_cons_of_neg (by simp [hlow .replies (by decide)]),
      List.find?_cons_of_neg (by simp [hlow .requests (by decide)]),
      List.find?_cons_of_neg (by simp [hlow .news (by decide)]), List.find?_cons_of_pos hc]

theorem highestClass_eq {s : State} {t : TxFrame} (ht : t ∈ s.line.txq)
    (h : ∀ x ∈ s.line.txq, rank t.kind.cls ≤ rank x.kind.cls) : highestClass s = some t.kind.cls := by
  refine find_txClasses (List.any_eq_true.2 ⟨t, ht, beq_iff_eq.2 rfl⟩) fun d hd => ?_
  rw [List.any_eq_false]
  intro x hx hk
  have hle := h x hx
  rw [beq_iff_eq.1 hk] at hle
  omega

/-! ## The frame on the line (R90, R122) -/

theorem isPartial_eq (s : State) : (dirFull s || outOfSpace s) = Partial s := rfl

/-- A SUMMARY's payload, byte by byte as R183 lays it out. -/
theorem composeSummary_eq (s : State) :
    composeSummary s =
      be32 s.dir.clock ++ be32 (s.ctl.uniqueId.extractLsb' 0 32) ++ [if Partial s then 1 else 0, 0] ++
        be16 (BitVec.ofNat 16 s.dir.sharedCount) ++ s.dir.checks.toList.flatMap be16 := by
  unfold composeSummary summaryPayload flagByte
  rw [isPartial_eq, BitVec.setWidth_eq_extractLsb' (by omega)]

theorem composeFrame_eq (s : State) (t : TxFrame) : composeFrame t s = composed s t := by
  unfold composeFrame composed TxFrame.frame
  cases hk : t.kind with
  | summary => simp only [composeSummary_eq, if_true]
  | news => rfl
  | profileQuery => rfl
  | profile => rfl
  | bucketQuery => rfl
  | bucketReply => rfl
  | fetch => rfl
  | supply => rfl

/-! ## The slot (R88) -/

theorem exec_slotStart_of_cycle {s : State} (hup : Up s) (hp : s.line.phase = .cycle) (hs : s.line.slot < 32) :
    exec .slotStart s = .next (countSlot (if maySend s then beginSending s else s)) := by
  rw [exec_slotStart, execSlotStart, if_pos]
  simpa [isUp_iff.2 hup, hp] using hs

theorem maySend_iff {s : State} (hup : Up s) :
    maySend s = true ↔ s.ctl.st = .active ∧ s.line.deferral = 0 ∧ s.line.slot = (s.ctl.own - s.line.base).toNat := by
  rw [maySend, Bool.and_eq_true, Bool.and_eq_true, isActive_iff, beq_iff_eq, beq_iff_eq, and_assoc, ownSlot]
  exact and_congr_left' (and_iff_right hup.1)

theorem beginSending_of_empty {s : State} (h : s.line.txq = []) : beginSending s = s := by
  unfold beginSending
  rw [highestClass_of_empty h]

theorem beginSending_of_first {s : State} {pre post : List TxFrame} {t : TxFrame}
    (hf : FirstOf s t.kind.cls pre t post) (h : ∀ x ∈ s.line.txq, rank t.kind.cls ≤ rank x.kind.cls) :
    beginSending s =
      { s with line := { s.line with phase := .busy, sending := some { cls := t.kind.cls, frame := composed s t } } } := by
  have ht : t ∈ s.line.txq := by
    rw [hf.1]
    exact List.mem_append_right pre List.mem_cons_self
  unfold beginSending
  simp only [highestClass_eq ht h, firstOfClass_eq hf, composeFrame_eq]

/-- Settles O26: `maySend_iff` tells whose turn it is, and `beginSending` sends the first frame of the highest class. -/
theorem slotsStartTransmissions : Obligations.SlotsStartTransmissions := by
  intro s hup hphase hslot
  rw [exec_slotStart_of_cycle hup hphase hslot]
  refine ⟨fun h => ?_, fun pre t post hst hdef hown hf hrank => ?_⟩
  · by_cases hm : maySend s = true
    · obtain ⟨hst, hdef, hown⟩ := (maySend_iff hup).1 hm
      have hempty : s.line.txq = [] := by
        rcases h with h | h | h | h
        · exact absurd hst h
        · exact absurd hdef h
        · exact absurd hown h
        · exact h
      rw [if_pos hm, beginSending_of_empty hempty]
      rfl
    · rw [if_neg hm]
      rfl
  · rw [if_pos ((maySend_iff hup).2 ⟨hst, hdef, hown⟩), beginSending_of_first hf hrank]
    rfl

end Sys2Proof.Proofs
end

