-- ==== Sys2Proof/Proofs/Immediate.lean ====
section
/-! PROOFS. The immediate commands ACK_DIVERGED, SOFT_RESET and the unknown one (R52, R157, R169, R178), and the refusals of
local admission (R34 to R37). -/

namespace Sys2Proof.Proofs
open Sys2Proof Sys2Proof.Machine Sys2Proof.Stated

/-! ## Taking an immediate command (R169) -/

theorem immediate_of_portOpen {s : State} (h : PortOpen s) (f : State → State) : immediate f s = .next (f s) := by
  unfold immediate
  rw [if_pos (canTake_iff.2 h)]

/-! ## The soft reset's start (R79, R157) -/

/-- What an abandoned ERASE leaves of the request: only its erase-count program goes on. -/
def countingOnly : Option EraseReq → Option EraseReq
  | some e => if e.phase = .counting then some e else none
  | none => none

/-- The request performed, but for a READ. -/
def withoutRead : Option StoreOp → Option StoreOp
  | some (.read _ _) => none
  | o => o

theorem abandonErase_eq (erased : List (Nat × Byte)) (s : State) :
    abandonErase erased s =
      { s with flash := partlyErased s erased, store := { s.store with erase := countingOnly s.store.erase } } := by
  unfold abandonErase partlyErased
  cases he : s.store.erase with
  | none => simp only [countingOnly, ← he]
  | some e =>
    cases hp : e.phase with
    | waiting => simp [hp, countingOnly]
    | running => simp [hp, countingOnly, headerAddr_eq]
    | suspended => simp [hp, countingOnly, headerAddr_eq]
    | counting => simp [hp, countingOnly, ← he]

theorem abandonRead_eq (s : State) : abandonRead s = { s with store := { s.store with op := withoutRead s.store.op } } := by
  unfold abandonRead
  cases ho : s.store.op with
  | none => simp only [withoutRead, ← ho]
  | some o =>
    cases o with
    | read _ _ => rfl
    | append _ _ _ _ => simp only [withoutRead, ← ho]
    | mark _ _ => simp only [withoutRead, ← ho]

theorem softResetStart_of_running (erased : List (Nat × Byte)) {s : State} (h : s.ctl.softWait = false) :
    softResetStart erased s = waiting erased s := by
  unfold softResetStart
  rw [if_neg (by simp [h]), abandonErase_eq, abandonRead_eq]
  rfl

theorem softResetStart_of_waiting (erased : List (Nat × Byte)) {s : State} (h : s.ctl.softWait = true) :
    softResetStart erased s = s := if_pos h

/-- The bits that an abandoned ERASE had set lie in the body of its sector. -/
theorem read_partlyErased {s : State} (erased : List (Nat × Byte)) {a : Nat} (hf : FlashLaw s) (ha : ¬ erasing s a) :
    (partlyErased s erased).read a = s.flash.read a := by
  unfold partlyErased
  cases he : s.store.erase with
  | none => rfl
  | some e =>
    dsimp only
    split
    · rename_i hp
      refine Memory.read_eraseSome_outside hf erased ?_
      by_contra hin
      exact ha ⟨e, he, hp, by omega, by omega⟩
    · rfl

/-- Settles O11: each command is taken at once; SOFT_RESET starts the wait or finds it begun. -/
theorem immediateCommandsAct : Obligations.ImmediateCommandsAct := by
  intro s hp
  refine ⟨?_, fun code => ?_, fun erased h => ?_, fun erased h => ?_, fun erased a hf ha => read_partlyErased erased hf ha⟩
  · rw [exec_ackDiverged, execAckDiverged, immediate_of_portOpen hp]
    rfl
  · rw [exec_unknownCommand, execUnknownCommand, immediate_of_portOpen hp]
    rfl
  · rw [exec_softReset, execSoftReset, immediate_of_portOpen hp, softResetStart_of_running erased h]
  · rw [exec_softReset, execSoftReset, immediate_of_portOpen hp, softResetStart_of_waiting erased h]

/-! ## The refusals of local admission (R34) -/

/-- Of checks that agree one by one, the first that fails is at the same place and gives the same refusal. -/
theorem find_sameCheck {checks : List (Bool × ResultCode)} {before after : List (Prop × ResultCode)} {failed : Prop}
    {code : ResultCode} (h : List.Forall₂ SameCheck checks (before ++ (failed, code) :: after))
    (hpass : ∀ c ∈ before, ¬ c.1) (hfail : failed) : (checks.find? (·.1)).map (·.2) = some code := by
  induction before generalizing checks with
  | nil =>
    obtain ⟨b, rest, ⟨hb, hcode⟩, -, rfl⟩ := List.forall₂_cons_right_iff.1 h
    rw [List.find?_cons_of_pos (hb.2 hfail), Option.map_some, hcode]
  | cons p before ih =>
    obtain ⟨b, rest, ⟨hb, -⟩, hrest, rfl⟩ := List.forall₂_cons_right_iff.1 h
    rw [List.find?_cons_of_neg fun hp => hpass p List.mem_cons_self (hb.1 hp)]
    exact ih hrest fun c hc => hpass c (List.mem_cons_of_mem _ hc)

theorem admissionRefusal_eq_some {s : State} {k : Key} {tomb : Bool} {len : Nat} {before after : List (Prop × ResultCode)}
    {failed : Prop} {code : ResultCode} (h : Refuses s k tomb len = before ++ (failed, code) :: after)
    (hpass : ∀ c ∈ before, ¬ c.1) (hfail : failed) : admissionRefusal s k tomb len = some code :=
  find_sameCheck (h ▸ admissionChecks_refuses s k tomb len) hpass hfail

/-- A refused write or delete changes the port alone, so no space test is made. -/
theorem admission_of_refusal {s : State} {k : Key} {tomb : Bool} {value : List Byte} {code : ResultCode}
    (h : admissionRefusal s k tomb value.length = some code) :
    spaceEvent (accept s) (localAdmission k tomb value (accept s)) = answered (.code code) s := by
  have hr : admissionRefusal (accept s) k tomb value.length = some code := h
  unfold localAdmission
  simp only [hr]
  rw [complete_accept]
  exact spaceEvent_of_same (accept s) (answered (.code code) s) rfl rfl

/-- Settles O13. -/
theorem localAdmissionRefuses : Obligations.LocalAdmissionRefuses := by
  intro s k value hp
  refine ⟨fun before after failed code h hpass hfail => ?_, fun before after failed code h hpass hfail => ?_⟩
  · rw [exec_writeRecord, execWriteRecord, requestCommand_free hp,
      admission_of_refusal (admissionRefusal_eq_some h hpass hfail)]
  · rw [exec_deleteRecord, execDeleteRecord, requestCommand_free hp,
      admission_of_refusal (value := []) (admissionRefusal_eq_some h hpass hfail)]

end Sys2Proof.Proofs
end

