-- ==== Sys2Proof/Proofs/Roomless.lean ====
section
/-! PROOFS. A winning arrival that finds no room (R43, R44, R52): a full directory, or no FREE slot. -/

namespace Sys2Proof.Proofs
open Sys2Proof Sys2Proof.Machine Sys2Proof.Stated

/-- A new key meets a full directory (R43). -/
theorem seekSlot_of_full {s : State} {r : Record} (source : Station) (hl : lookup s r.key = none)
    (hfull : 1024 ≤ s.dir.entryCount + s.dir.reservations) : seekSlot r source s = setDiverged .directory s := by
  unfold seekSlot
  rw [if_pos]
  rw [Bool.and_eq_true, Option.isNone_iff_eq_none, dirFull_iff]
  exact ⟨hl, hfull⟩

/-- With room in the directory and no FREE slot, the record is noted as wanted (R44). -/
theorem seekSlot_of_busy {s : State} {r : Record} (source : Station) (hbusy : ∀ i : Fin 4, s.upd.slots[i] ≠ none)
    (hr : lookup s r.key = none → s.dir.entryCount + s.dir.reservations < 1024) :
    seekSlot r source s = wantAdd r.key r.stamp source s := by
  unfold seekSlot
  rw [if_neg]
  · simp only [Option.isNone_iff_eq_none.1 (freeSlot_isNone_iff.2 hbusy)]
  · rw [Bool.and_eq_true, Option.isNone_iff_eq_none, dirFull_iff]
    exact fun h => Nat.not_le.2 (hr h.1) h.2

/-- Neither slots nor sectors are touched when work on the line is given up or noted. -/
theorem spaceView_of_withdraws {s t : State} (h : Withdraws s t) : spaceView t = spaceView s := by
  unfold spaceView
  rw [h.upd, h.store]

theorem spaceView_pumpFetch (s : State) : spaceView (pumpFetch s) = spaceView s := by
  unfold spaceView
  rw [pumpFetch_upd, pumpFetch_store]

/-- What a NEWS of a PRESENT sender brings about, whatever becomes of its record. -/
theorem newsTaken_of_arrive {s t : State} {pre post : List Frame} {f : Frame} {r : Record} (h : NewsOf s pre f post r)
    (ha : arrive r f.source (taken pre post s) = t) :
    exec .newsTaken s = .next (spaceEvent (taken pre post s) (pumpFetch t)) := by
  obtain ⟨hwaits, hpresent, hparse, -⟩ := h
  have hp : isPresent (taken pre post s) f.source = true := beq_iff_eq.2 hpresent
  rw [exec_newsTaken, execNewsTaken, takeFrame_of_waits hwaits]
  simp only [useNews, hp, if_true, hparse, offerArrival, ha]

/-- DIVERGED DIRECTORY as the statement has it: set, and posted if it was clear (R52). -/
theorem setDiverged_directory_ite (s : State) :
    setDiverged .directory s =
      if s.upd.divDirectory then s
      else { s with upd := { s.upd with divDirectory := true }, host := s.host.post (.diverged .directory) } := by
  unfold setDiverged
  rfl

theorem spaceView_setDiverged (r : DivReason) (s : State) : spaceView (setDiverged r s) = spaceView s := by
  cases r with
  | directory => rw [setDiverged_directory]; rfl
  | store => rw [setDiverged_store]; rfl

/-- Settles O33: both cases are `seekSlot`'s, and neither is seen by the space test. -/
theorem arrivalsWithoutASlot : Obligations.ArrivalsWithoutASlot := by
  intro s pre f post r h hm hf hs hother t
  have hseek : arrive r f.source (taken pre post s) = seekSlot r f.source t :=
    (arrive_of_accepted (s := taken pre post s) _ hm hf).trans
      (placeArrival_of_no_slot (s := t) _ hs (slotWithKey_eq_none hother))
  refine ⟨fun hl hfull => ?_, fun hr hbusy => ?_⟩
  · have ha := hseek.trans (seekSlot_of_full (s := t) _ hl hfull)
    rw [newsTaken_of_fetch_same h ha (setDiverged_ctl ..) (setDiverged_fetch ..),
      spaceEvent_same (o := taken pre post s) (spaceView_setDiverged .directory t).symm, setDiverged_directory_ite]
    rfl
  · have ha := hseek.trans (seekSlot_of_busy (s := t) _ hbusy hr)
    have hview : spaceView (pumpFetch (wantAdd r.key r.stamp f.source t)) = spaceView t :=
      (spaceView_pumpFetch _).trans (spaceView_of_withdraws (withdraws_wantAdd ..))
    rw [newsTaken_of_arrive h ha, spaceEvent_same (o := taken pre post s) hview.symm]

end Sys2Proof.Proofs
end

