-- ==== Sys2Proof/Proofs/Failures.lean ====
section
/-! PROOFS. An update that ends without a commit (R46, R51, R52): one slot's failure as one update, and the verify of a
program that fails (R60). -/

namespace Sys2Proof.Proofs
open Sys2Proof Sys2Proof.Machine Sys2Proof.Stated

/-! ## One slot fails (R46, R51, R52) -/

/-- The port after a failure's WRITE_DONE, or the DIVERGED of a lost PEER update. -/
def failedHost (result : WriteResult) (x : Slot) (s : State) : HostPort :=
  match x.origin with
  | .host ticket => s.host.post (.writeDone ticket x.record.key result)
  | .peer => if s.upd.divStore then s.host else s.host.post (.diverged .store)

/-- What is reported of a busy slot before its release: WRITE_DONE, or the DIVERGED reason. -/
theorem reported_eq {s : State} {i : Fin 4} {x : Slot} (result : WriteResult) (hx : s.upd.slots[i] = some x) :
    (if [i].any (isPeerSlot s) then setDiverged .store ([i].foldl (reportWrite result) s)
     else [i].foldl (reportWrite result) s) =
      { s with
        host := failedHost result x s
        upd := { s.upd with divStore := if x.origin = .peer then true else s.upd.divStore } } := by
  cases ho : x.origin with
  | host ticket => simp [isPeerSlot, reportWrite, failedHost, hx, ho, post]
  | peer => simp [isPeerSlot, reportWrite, failedHost, hx, ho, setDiverged_store]

/-- A single slot's failure, as the statements have it. -/
theorem failSlots_single {s : State} {i : Fin 4} {x : Slot} (result : WriteResult) (hx : s.upd.slots[i] = some x) :
    failSlots result [i] s = failed result i x s := by
  unfold failSlots
  dsimp only
  rw [reported_eq result hx, List.foldl_cons, List.foldl_nil]
  unfold releaseAt
  simp only [hx]
  rw [releaseSlot_eq]
  unfold failed failedHost peerSlot lookup
  rfl

theorem inStoreWait_iff {s : State} {i : Fin 4} :
    inStoreWait s i = true ↔ ∃ x, s.upd.slots[i] = some x ∧ x.phase = .storeWait := by
  unfold inStoreWait
  cases s.upd.slots[i] with
  | none => simp
  | some x => simp

theorem filter_slotNumbers_eq (i : Fin 4) : slotNumbers.filter (· == i) = [i] := by
  revert i
  decide

/-- With one slot alone in STORE_WAIT, that one fails (R63). -/
theorem failStoreWait_single {s : State} {i : Fin 4} {x : Slot} (hx : s.upd.slots[i] = some x) (hp : x.phase = .storeWait)
    (hall : ∀ (j : Fin 4) (y : Slot), s.upd.slots[j] = some y → y.phase = .storeWait → j = i) :
    failStoreWait s = failed .storeFull i x s := by
  have hwait : ∀ j ∈ slotNumbers, inStoreWait s j = (j == i) := by
    intro j _
    rw [Bool.eq_iff_iff, inStoreWait_iff, beq_iff_eq]
    constructor
    · rintro ⟨y, hy, hyp⟩
      exact hall j y hy hyp
    · rintro rfl
      exact ⟨x, hx, hp⟩
  have hfilter : slotNumbers.filter (inStoreWait s) = [i] := by
    rw [List.filter_congr hwait, filter_slotNumbers_eq]
  rw [failStoreWait, hfilter, failSlots_single _ hx]

/-! ## A program that does not verify (R51, R60) -/

theorem endUpdate_of_not_readsBack {s : State} {i : Fin 4} {x : Slot} {loc : Loc} {opening : Option Opening}
    {image bits : List Byte} (hw : s.ctl.softWait = false) (hx : s.upd.slots[i] = some x)
    (h : ¬ ReadsBack (flashAfter loc opening image bits s) loc opening image) :
    endUpdate i loc opening image bits s =
      failUpdate i x loc s (endOp (flashAfter loc opening image bits s) s) := by
  have hv : verifies (endOp (flashAfter loc opening image bits s) s).flash loc opening image = false := by
    rw [← Bool.not_eq_true, verifies_iff]
    exact h
  unfold endUpdate
  rw [clearOp_programAppend]
  simp only [hw, Bool.false_eq_true, if_false, hx, hv]

theorem closeFailed_eq (v : Nat) (s : State) : closeFailed v s = withSector v closed s := rfl

/-- Settles O49: the sector is closed, then the slot waits again or is `failSlots_single`'s. -/
theorem updatesFailTheirVerify : Obligations.UpdatesFailTheirVerify := by
  intro s i x loc opening image bits hop hx hw hback t
  rw [exec_updateProgramDone_of_append hop, endUpdate_of_not_readsBack hw hx hback, failUpdate, closeFailed_eq]
  refine ⟨fun hr => ?_, fun hr => ?_⟩
  · rw [if_neg (by simp [hr])]
    rfl
  · rw [if_pos hr, failSlots_single (s := t) .storeFault hx]

end Sys2Proof.Proofs
end

