-- ==== Sys2Proof/Proofs/Turns.lean ====
section
/-! PROOFS. Whose turn an APPEND is (R32, R59, R64): the slot with the earliest ready position, the cause of a suspension, and
the APPEND the arbiter grants. -/

namespace Sys2Proof.Proofs
open Sys2Proof Sys2Proof.Machine Sys2Proof.Stated

/-! ## The earliest ready position (R32) -/

theorem readyPosition_eq_some {s : State} {i : Fin 4} {n : Nat} :
    readyPosition s i = some n ↔ ∃ x, s.upd.slots[i] = some x ∧ x.phase = .waitStore ∧ x.ready = n := by
  unfold readyPosition
  cases s.upd.slots[i] with
  | none => simp
  | some x => simp

theorem readyPosition_eq_none {s : State} {i : Fin 4} :
    readyPosition s i = none ↔ ∀ x, s.upd.slots[i] = some x → x.phase ≠ .waitStore := by
  unfold readyPosition
  cases s.upd.slots[i] with
  | none => simp
  | some x => simp

/-- Of the slots of a list, one has the earliest ready position, and the lowest number among equals. -/
structure FirstReady (s : State) (l : List (Fin 4)) (i : Fin 4) (n : Nat) : Prop where
  mem : i ∈ l
  position : readyPosition s i = some n
  least : ∀ j ∈ l, ∀ q, readyPosition s j = some q → n < q ∨ (n = q ∧ i ≤ j)

/-- What the search has found in a list of slots: the first ready one, or that none is. -/
def FoundReady (s : State) (l : List (Fin 4)) : Option (Fin 4 × Nat) → Prop
  | some p => FirstReady s l p.1 p.2
  | none => ∀ j ∈ l, readyPosition s j = none

/-- One more slot, with a higher number than those before it. -/
theorem foundReady_append {s : State} {l : List (Fin 4)} {b : Option (Fin 4 × Nat)} {a : Fin 4} (hb : FoundReady s l b)
    (ha : ∀ j ∈ l, j < a) : FoundReady s (l ++ [a]) (earlierReady s b a) := by
  unfold earlierReady
  cases hpos : readyPosition s a with
  | none =>
    cases b with
    | none =>
      refine List.forall_mem_append.2 ⟨hb, ?_⟩
      simpa using hpos
    | some p =>
      refine ⟨List.mem_append_left _ hb.mem, hb.position, List.forall_mem_append.2 ⟨hb.least, ?_⟩⟩
      simp [hpos]
  | some r =>
    cases b with
    | none =>
      refine ⟨by simp, hpos, List.forall_mem_append.2 ⟨fun j hj q hq => ?_, ?_⟩⟩
      · rw [hb j hj] at hq
        cases hq
      · simp [hpos]
    | some p =>
      dsimp only
      split
      · rename_i hlt
        refine ⟨by simp, hpos, List.forall_mem_append.2 ⟨fun j hj q hq => ?_, ?_⟩⟩
        · have := hb.least j hj q hq
          dsimp only
          omega
        · simp [hpos]
      · rename_i hge
        refine ⟨List.mem_append_left _ hb.mem, hb.position, List.forall_mem_append.2 ⟨hb.least, ?_⟩⟩
        have hle := (ha _ hb.mem).le
        simp only [List.mem_singleton, forall_eq, hpos, Option.some.injEq, hle, and_true]
        omega

theorem foundReady_foldl (s : State) {l : List (Fin 4)} (hl : l.Pairwise (· < ·)) :
    FoundReady s l (l.foldl (earlierReady s) none) := by
  induction l using List.reverseRecOn with
  | nil => exact List.forall_mem_nil _
  | append_singleton l a ih =>
    obtain ⟨hsorted, -, hlow⟩ := List.pairwise_append.1 hl
    rw [List.foldl_append, List.foldl_cons, List.foldl_nil]
    exact foundReady_append (ih hsorted) fun j hj => hlow j hj a (List.mem_singleton_self a)

theorem earliest_iff {s : State} {i : Fin 4} :
    (∃ x, Earliest s i x) ↔ ∃ n, FirstReady s slotNumbers i n := by
  constructor
  · rintro ⟨x, hx, hp, hleast⟩
    refine ⟨x.ready, mem_slotNumbers i, readyPosition_eq_some.2 ⟨x, hx, hp, rfl⟩, fun j _ q hq => ?_⟩
    obtain ⟨y, hy, hyp, rfl⟩ := readyPosition_eq_some.1 hq
    exact hleast j y hy hyp
  · rintro ⟨n, -, hpos, hleast⟩
    obtain ⟨x, hx, hp, rfl⟩ := readyPosition_eq_some.1 hpos
    exact ⟨x, hx, hp, fun j y hy hyp => hleast j (mem_slotNumbers j) _ (readyPosition_eq_some.2 ⟨y, hy, hyp, rfl⟩)⟩

theorem FirstReady.unique {s : State} {l : List (Fin 4)} {i j : Fin 4} {n q : Nat} (hi : FirstReady s l i n)
    (hj : FirstReady s l j q) : i = j := by
  have hij := hi.least j hj.mem q hj.position
  have hji := hj.least i hi.mem n hi.position
  omega

theorem earliestReady_eq_some {s : State} {i : Fin 4} : earliestReady s = some i ↔ ∃ x, Earliest s i x := by
  have hfound := foundReady_foldl s (l := slotNumbers) (by decide)
  rw [earliest_iff, earliestReady]
  cases hb : slotNumbers.foldl (earlierReady s) none with
  | none =>
    rw [hb] at hfound
    refine ⟨nofun, fun ⟨n, h⟩ => ?_⟩
    have hnone := hfound i h.mem
    rw [h.position] at hnone
    cases hnone
  | some p =>
    rw [hb] at hfound
    rw [Option.map_some, Option.some.injEq]
    constructor
    · rintro rfl
      exact ⟨p.2, hfound⟩
    · rintro ⟨n, h⟩
      exact hfound.unique h

theorem earliestReady_eq_none {s : State} (h : ∀ (i : Fin 4) (x : Slot), s.upd.slots[i] = some x → x.phase ≠ .waitStore) :
    earliestReady s = none := by
  cases he : earliestReady s with
  | none => rfl
  | some i =>
    obtain ⟨x, hx, hp, -⟩ := earliestReady_eq_some.1 he
    exact absurd hp (h i x hx)

/-! ## The cause of a suspension (R64) -/

theorem placedFirst_iff {s : State} {i : Fin 4} {x : Slot} (h : Earliest s i x) :
    placedFirst s i = true ↔ ∀ r rest, s.store.reads = r :: rest → x.ready < r.after := by
  have hpos : readyPosition s i = some x.ready := by
    obtain ⟨hx, hp, -⟩ := h
    exact readyPosition_eq_some.2 ⟨x, hx, hp, rfl⟩
  unfold placedFirst
  rw [hpos]
  cases s.store.reads with
  | nil => simp
  | cons r rest => simp

theorem causeSlot_eq_some {s : State} {i : Fin 4} : causeSlot s = some i ↔ ∃ x, Caused s i x := by
  unfold causeSlot Caused
  cases he : s.store.erase with
  | none => simp
  | some e =>
    by_cases howes : e.phase = .suspended ∧ e.owes = true
    · simp only [howes, beq_self_eq_true, Bool.and_self, if_true, Option.filter_eq_some_iff, earliestReady_eq_some]
      constructor
      · rintro ⟨⟨x, hx⟩, hfirst⟩
        exact ⟨x, ⟨e, rfl, howes⟩, hx, (placedFirst_iff hx).1 hfirst⟩
      · rintro ⟨x, -, hx, hfirst⟩
        exact ⟨⟨x, hx⟩, (placedFirst_iff hx).2 hfirst⟩
    · have hno : (e.phase == .suspended && e.owes) = false := by
        simpa [Bool.and_eq_false_iff] using howes
      simp only [hno, Bool.false_eq_true, if_false, reduceCtorEq, false_iff]
      rintro ⟨x, ⟨e', he', howes'⟩, -⟩
      cases he'
      exact howes howes'

theorem causeSlot_eq_none {s : State} (h : ∀ i x, ¬ Caused s i x) : causeSlot s = none := by
  cases hc : causeSlot s with
  | none => rfl
  | some i =>
    obtain ⟨x, hx⟩ := causeSlot_eq_some.1 hc
    exact absurd hx (h i x)

/-! ## The APPEND to grant (R59, R64) -/

theorem copyWaits_iff {s : State} : copyWaits s = true ↔ ∃ c, CopyWaits s c := by
  unfold copyWaits CopyWaits
  cases s.upd.copy with
  | none => simp
  | some c => simp

theorem isUrgent_iff {s : State} : isUrgent s = true ↔ erasedCount s ≤ 1 := decide_eq_true_iff

/-- The earliest update slot is next while no copy is urgent (R59). -/
theorem nextAppend_of_slot {s : State} {i : Fin 4} {x : Slot} (h : Earliest s i x)
    (hc : ∀ c, CopyWaits s c → 1 < erasedCount s) : nextAppend s = some (.slot i) := by
  unfold nextAppend
  rw [if_neg]
  · simp only [earliestReady_eq_some.2 ⟨x, h⟩]
  · rw [Bool.and_eq_true, copyWaits_iff, isUrgent_iff]
    rintro ⟨⟨c, hcw⟩, hle⟩
    exact absurd (hc c hcw) (by omega)

/-- The copy slot is next when urgent, or when no update slot waits (R59). -/
theorem nextAppend_of_copy {s : State} {c : CopySlot} (h : CopyWaits s c)
    (hu : erasedCount s ≤ 1 ∨ ∀ (i : Fin 4) (x : Slot), s.upd.slots[i] = some x → x.phase ≠ .waitStore) :
    nextAppend s = some .copy := by
  have hw : copyWaits s = true := copyWaits_iff.2 ⟨c, h⟩
  unfold nextAppend
  by_cases hle : erasedCount s ≤ 1
  · rw [if_pos (by rw [hw, isUrgent_iff.2 hle]; rfl)]
  · rw [if_neg (by simp [isUrgent_iff, hle])]
    simp only [earliestReady_eq_none (hu.resolve_left hle), hw, if_true]

theorem appendToGrant_of_turn {s : State} {who : Appender} {r : Record} {needed : Nat} (h : Turn s who r needed) :
    appendToGrant s = some who := by
  unfold appendToGrant
  rcases h with ⟨i, x, rfl, hcause, -, -⟩ | ⟨hno, hreads, ⟨i, x, rfl, hx, -, -, hc⟩ | ⟨c, rfl, hc, -, -, hu⟩⟩
  · simp only [causeSlot_eq_some.2 ⟨x, hcause⟩]
  · simp only [causeSlot_eq_none hno, hreads, List.isEmpty_nil, if_true, nextAppend_of_slot hx hc]
  · simp only [causeSlot_eq_none hno, hreads, List.isEmpty_nil, if_true, nextAppend_of_copy hc hu]

/-- What an update slot's turn says of record and ERASED sectors. -/
theorem slot_of_turn {s : State} {i : Fin 4} {r : Record} {needed : Nat} (h : Turn s (.slot i) r needed) :
    ∃ x, s.upd.slots[i] = some x ∧ r = x.record ∧ needed = 2 := by
  rcases h with ⟨j, x, hj, ⟨-, ⟨hx, -⟩, -⟩, hr, hn⟩ | ⟨-, -, ⟨j, x, hj, ⟨hx, -⟩, hr, hn, -⟩ | ⟨c, hc, -⟩⟩
  · cases hj
    exact ⟨x, hx, hr, hn⟩
  · cases hj
    exact ⟨x, hx, hr, hn⟩
  · cases hc

/-- What the copy slot's turn says of record and ERASED sectors. -/
theorem copy_of_turn {s : State} {r : Record} {needed : Nat} (h : Turn s .copy r needed) :
    ∃ c, s.upd.copy = some c ∧ r = c.record ∧ needed = 1 := by
  rcases h with ⟨j, x, hj, -⟩ | ⟨-, -, ⟨j, x, hj, -⟩ | ⟨c, -, ⟨hc, -⟩, hr, hn, -⟩⟩
  · cases hj
  · cases hj
  · exact ⟨c, hc, hr, hn⟩

theorem storeFree_iff {s : State} : storeFree s = true ↔ StoreFree s := by
  unfold storeFree eraseBusy StoreFree
  rw [Bool.and_eq_true, Option.isNone_iff_eq_none]
  refine and_congr_right fun _ => ?_
  cases s.store.erase with
  | none => simp
  | some e => cases hp : e.phase <;> simp [hp]

/-- The granted APPEND's effect, whoever placed it. -/
def grantAppend (who : Appender) (s : State) : State :=
  match who with
  | .slot i => grantSlot i s
  | .copy => grantCopy s

theorem exec_appendGrant_of_turn {s : State} {who : Appender} {r : Record} {needed : Nat} (hup : Up s)
    (hfree : StoreFree s) (h : Turn s who r needed) :
    exec .appendGrant s = .next (settleStore s (grantAppend who (settleCause s))) := by
  rw [exec_appendGrant, execAppendGrant, if_pos (by rw [isUp_iff.2 hup, storeFree_iff.2 hfree]; rfl)]
  simp only [appendToGrant_of_turn h]
  cases who <;> rfl

end Sys2Proof.Proofs
end

