-- ==== Sys2Proof/Proofs/Places.lean ====
section
/-! PROOFS. A granted APPEND (R45, R46, R61 to R63, R68, R72 to R74): the place it takes, and what it leads to without one. -/

namespace Sys2Proof.Proofs
open Sys2Proof Sys2Proof.Machine Sys2Proof.Stated

/-! ## Choosing a place (R61, R62) -/

theorem choosePlace_of_open {s : State} {n len : Nat} {x : Sector} (needed : Nat) (hlaw : StoreLaw s) (ho : OpenAt s n x)
    (hfit : len ≤ 255 - x.used) : choosePlace s len needed = some (.inside { sector := n, granule := x.used + 1 }) := by
  have hopen : openSector s = some (n, x) := openSector_eq hlaw ho
  have hfree : openFree s = 255 - x.used := by
    unfold openFree
    rw [hopen]
    rfl
  unfold choosePlace
  rw [if_pos (by rw [hfree]; exact hfit), hopen]
  rfl

/-- No OPEN sector has room for an image. -/
theorem openFree_lt {s : State} {len : Nat} (hlen : 0 < len) (h : ∀ k y, OpenAt s k y → 255 - y.used < len) :
    openFree s < len := by
  unfold openFree
  cases ho : openSector s with
  | none => exact hlen
  | some p => exact h p.1 p.2 (open_of_openSector ho)

theorem choosePlace_of_erased {s : State} {n len needed : Nat} {x : Sector} (hfull : openFree s < len)
    (hneed : needed ≤ erasedCount s) (hx : s.store.sectors[n]? = some x) (he : x.state = .erased)
    (hmin : ∀ k y, s.store.sectors[k]? = some y → y.state = .erased →
      x.eraseCount.toNat < y.eraseCount.toNat ∨ (x.eraseCount = y.eraseCount ∧ n ≤ k)) :
    choosePlace s len needed = some (.opening n) := by
  unfold choosePlace
  rw [if_neg (by omega), if_pos hneed, chooseErased_eq hx he hmin]
  rfl

theorem choosePlace_eq_none {s : State} {len needed : Nat} (hfull : openFree s < len) (hneed : erasedCount s < needed) :
    choosePlace s len needed = none := by
  unfold choosePlace
  rw [if_neg (by omega), if_neg (by omega)]

/-! ## Taking a place (R45, R61, R62) -/

theorem startProgramming_eq (who : Appender) (loc : Loc) (s : State) :
    startProgramming who loc s = { s with upd := programming who loc s.upd } := by
  unfold startProgramming programming
  cases who with
  | copy => rfl
  | slot i =>
    dsimp only
    cases hx : s.upd.slots[i] with
    | some x => rfl
    | none =>
      have hsame : s.upd.slots.set i none = s.upd.slots := by
        rw [← hx]
        exact Vector.set_getElem_self _
      simp only [Option.map_none, hsame]

/-- A program begun counts its granules as used and is the request performed. -/
theorem beginProgram_eq (who : Appender) (r : Record) (loc : Loc) (opening : Option Opening) {s : State} {x : Sector}
    (hx : s.store.sectors[loc.sector]? = some x) :
    beginProgram who r loc opening s =
      { s with
        upd := programming who loc s.upd
        store :=
          { s.store with
            sectors := s.store.sectors.set loc.sector { x with used := x.used + imageLen r.value.length }
            op := some (.append who loc opening (imageBytes r)) } } := by
  unfold beginProgram
  dsimp only
  rw [startProgramming_eq]
  unfold useGranules modifySector
  rw [modify_eq_set _ hx]

theorem closeOpen_eq {s : State} (h : StoreLaw s) :
    closeOpen s =
      { s with
        store :=
          { s.store with
            sectors :=
              s.store.sectors.map fun y =>
                if y.state = .openForAppend then { y with state := .full, used := 255 } else y } } := by
  rw [← closeOpen_map h]
  unfold closeOpen
  split <;> rfl

/-- An ERASED sector opened (R62). -/
theorem openAt_eq {s : State} {n : Nat} {x : Sector} (hlaw : StoreLaw s) (hx : s.store.sectors[n]? = some x)
    (he : x.state = .erased) :
    (openAt n s).1 =
      { s with
        store :=
          { s.store with
            sectors :=
              (s.store.sectors.map fun y =>
                  if y.state = .openForAppend then { y with state := .full, used := 255 } else y).set n
                { x with state := .openForAppend, seq := some (nextSeq s), used := 0 }
            highestSeq := nextSeq s }
        free := if s.store.highestSeq = 0xFFFFFFFF then s.free + 1 else s.free } := by
  unfold openAt
  dsimp only
  rw [closeOpen_eq hlaw]
  unfold modifySector
  rw [modify_eq_set (x := x)]
  · rw [List.getElem?_map, hx, Option.map_some, if_neg (by rw [he]; decide)]

/-- The opening record of a sector opened (R62). -/
theorem openAt_opening {s : State} {n : Nat} {x : Sector} (hx : s.store.sectors[n]? = some x) :
    (openAt n s).2 = { seq := nextSeq s, eraseCount := x.eraseCount, clock := s.dir.clock } := by
  rw [← eraseCountOf_eq hx]
  rfl

/-- An image that opens an ERASED sector is programmed at its granule 1, with the opening record (R61, R62). -/
theorem takePlace_opening {s : State} {n : Nat} {x : Sector} (who : Appender) (r : Record) (hlaw : StoreLaw s)
    (hx : s.store.sectors[n]? = some x) (he : x.state = .erased) :
    takePlace who r (.opening n) s =
      { s with
        upd := programming who { sector := n, granule := 1 } s.upd
        store :=
          { s.store with
            sectors :=
              (s.store.sectors.map fun y =>
                  if y.state = .openForAppend then { y with state := .full, used := 255 } else y).set n
                { x with state := .openForAppend, seq := some (nextSeq s), used := imageLen r.value.length }
            highestSeq := nextSeq s
            op :=
              some
                (.append who { sector := n, granule := 1 }
                  (some { seq := nextSeq s, eraseCount := x.eraseCount, clock := s.dir.clock }) (imageBytes r)) }
        free := if s.store.highestSeq = 0xFFFFFFFF then s.free + 1 else s.free } := by
  have hlt : n < s.store.sectors.length := (List.getElem?_eq_some_iff.1 hx).1
  rw [takePlace, openAt_opening hx, openAt_eq hlaw hx he,
    beginProgram_eq (x := { x with state := .openForAppend, seq := some (nextSeq s), used := 0 })]
  · simp only [List.set_set, Nat.zero_add]
  · simp [hlt]

/-- The granted APPEND takes the place chosen, whoever placed it. -/
theorem grantAppend_of_place {s : State} {who : Appender} {r : Record} {needed : Nat} {p : Place}
    (h : Turn s who r needed) (hp : choosePlace s (imageLen r.value.length) needed = some p) :
    grantAppend who (settleCause s) = takePlace who r p (settleCause s) := by
  cases who with
  | slot i =>
    obtain ⟨x, hx, rfl, rfl⟩ := slot_of_turn h
    have hx' : (settleCause s).upd.slots[i] = some x := hx
    have hp' : choosePlace (settleCause s) (imageLen x.record.value.length) 2 = some p := hp
    simp only [grantAppend, grantSlot, hx', hp']
  | copy =>
    obtain ⟨c, hc, rfl, rfl⟩ := copy_of_turn h
    have hc' : (settleCause s).upd.copy = some c := hc
    have hp' : choosePlace (settleCause s) (imageLen c.record.value.length) 1 = some p := hp
    simp only [grantAppend, grantCopy, hc', hp']

/-- Settles O43: the OPEN sector's place begins the program at once, the ERASED one's after its opening. -/
theorem appendsArePlaced : Obligations.AppendsArePlaced := by
  intro s who r needed hup hfree hturn hlaw len
  have hlaw' : StoreLaw (settleCause s) := ⟨hlaw.canonical, hlaw.opened⟩
  rw [exec_appendGrant_of_turn hup hfree hturn]
  refine ⟨fun n x ho hfit => ?_, fun n x hfull hneed hx he hmin => ?_⟩
  · rw [grantAppend_of_place hturn (choosePlace_of_open needed hlaw ho hfit), takePlace,
      beginProgram_eq (s := settleCause s) who r { sector := n, granule := x.used + 1 } none ho.1]
    rfl
  · refine ⟨nextSeq s, if s.store.highestSeq = 0xFFFFFFFF then s.free + 1 else s.free,
      fun h => ⟨if_neg h, if_neg h⟩, ?_⟩
    have hplace : choosePlace s len needed = some (.opening n) :=
      choosePlace_of_erased (openFree_lt (imageLen_pos _) hfull) hneed hx he hmin
    rw [grantAppend_of_place hturn hplace, takePlace_opening (s := settleCause s) who r hlaw' hx he]
    rfl

end Sys2Proof.Proofs
end

