-- ==== Sys2Proof/Proofs/Placeless.lean ====
section
/-! PROOFS. A granted APPEND that finds no place (R46, R63, R68, R73, R74): an update slot waits for compaction or fails, a copy
stalls compaction or is given up. -/

namespace Sys2Proof.Proofs
open Sys2Proof Sys2Proof.Machine Sys2Proof.Stated

/-! ## Compaction's conditions -/

theorem fullWithDead_iff {s : State} : fullWithDead s = true ↔ DeadGranule s := by
  unfold fullWithDead DeadGranule
  simp only [List.any_eq_true, Bool.and_eq_true, beq_iff_eq, decide_eq_true_eq]

theorem comp_ne_idle_of_compacting {s : State} (h : isCompacting s = true) : s.store.comp ≠ .idle := by
  intro hc
  unfold isCompacting at h
  rw [hc] at h
  cases h

theorem isCompacting_of_stalled {s : State} (h : isStalled s = true) : isCompacting s = false := by
  obtain ⟨v, c, hc⟩ := isStalled_iff.1 h
  unfold isCompacting
  rw [hc]

theorem isCompacting_of_idle {s : State} (h : s.store.comp = .idle) : isCompacting s = false := by
  unfold isCompacting
  rw [h]

/-- An idle compaction with few ERASED sectors and a dead granule begins (R68, R69). -/
theorem isCompacting_testTrigger {s : State} (hc : s.store.comp = .idle) (he : erasedCount s ≤ 2) (hd : DeadGranule s) :
    isCompacting (testTrigger s) = true := by
  have hdead := fullWithDead_iff.2 hd
  unfold testTrigger
  rw [if_pos]
  · exact beginCompaction_compacts hdead
  · simp [hc, trigger, he, hdead]

/-- With no dead granule compaction has nothing to free. -/
theorem testTrigger_of_no_dead {s : State} (hd : ¬ DeadGranule s) : testTrigger s = s := by
  unfold testTrigger
  rw [if_neg]
  simp only [trigger, Bool.and_eq_true, fullWithDead_iff]
  exact fun h => hd h.2.2

/-! ## An update slot without a place (R46, R63) -/

theorem answerNoPlace_of_compacting {s : State} (i : Fin 4) (x : Slot) (h : isCompacting s = true) :
    answerNoPlace i x s = setSlot i (some { x with phase := .storeWait }) s := by
  unfold answerNoPlace
  rw [testTrigger_of_not_idle (comp_ne_idle_of_compacting h)]
  exact if_pos h

theorem answerNoPlace_of_trigger {s : State} (i : Fin 4) (x : Slot) (hc : s.store.comp = .idle) (he : erasedCount s ≤ 2)
    (hd : DeadGranule s) :
    answerNoPlace i x s =
      { testTrigger s with
        upd := { s.upd with slots := s.upd.slots.set i (some { x with phase := .storeWait }) } } := by
  unfold answerNoPlace
  dsimp only
  rw [if_pos (isCompacting_testTrigger hc he hd), setSlot, (testTrigger_facts s).1]

theorem answerNoPlace_of_hopeless {s : State} {i : Fin 4} {x : Slot} (hx : s.upd.slots[i] = some x)
    (h : isStalled s = true ∨ (s.store.comp = .idle ∧ ¬ DeadGranule s)) :
    answerNoPlace i x s = failed .storeFull i x s := by
  have hstays : testTrigger s = s ∧ isCompacting s = false := by
    rcases h with h | ⟨hc, hd⟩
    · obtain ⟨v, c, hc⟩ := isStalled_iff.1 h
      exact ⟨testTrigger_of_not_idle (by rw [hc]; nofun), isCompacting_of_stalled h⟩
    · exact ⟨testTrigger_of_no_dead hd, isCompacting_of_idle hc⟩
  obtain ⟨htrigger, hidle⟩ := hstays
  unfold answerNoPlace
  rw [htrigger]
  dsimp only
  rw [if_neg (by simp [hidle]), failSlots_single _ hx]

/-! ## A copy without a place (R73, R74) -/

theorem answerCopy_of_copying {s : State} {c : CopySlot} {v cursor : Nat} (hc : s.upd.copy = some c)
    (h : s.store.comp = .copying v cursor) :
    answerCopy s =
      failStoreWait
        { s with
          store := { s.store with comp := .stalled v cursor }
          upd := { s.upd with copy := some { c with phase := .stalled } } } := by
  unfold answerCopy
  simp only [h, stallCompaction, hc, Option.map_some]

theorem answerCopy_of_closing {s : State} {v : Nat} (h : s.store.comp = .closing v) :
    answerCopy s = { s with upd := { s.upd with copy := none } } := by
  unfold answerCopy
  simp only [h]

/-! ## The grant -/

theorem grantSlot_of_no_place {s : State} {i : Fin 4} {x : Slot} (hx : s.upd.slots[i] = some x)
    (h : choosePlace s (imageLen x.record.value.length) 2 = none) : grantSlot i s = answerNoPlace i x s := by
  unfold grantSlot
  simp only [hx, h]

theorem grantCopy_of_no_place {s : State} {c : CopySlot} (hc : s.upd.copy = some c)
    (h : choosePlace s (imageLen c.record.value.length) 1 = none) : grantCopy s = answerCopy s := by
  unfold grantCopy
  simp only [hc, h]

/-- Settles O44: the cases are `answerNoPlace`'s and `answerCopy`'s. -/
theorem appendsWithoutAPlace : Obligations.AppendsWithoutAPlace := by
  intro s who r needed hup hfree hturn hlaw hfull hneed granted
  have hplace : choosePlace granted (imageLen r.value.length) needed = none :=
    choosePlace_eq_none (s := s) (openFree_lt (imageLen_pos _) hfull) hneed
  have hexec : exec .appendGrant s = .next (settleStore s (grantAppend who granted)) :=
    exec_appendGrant_of_turn hup hfree hturn
  refine ⟨fun i x hwho hx => ?_, fun c hwho hc => ?_⟩
  · subst hwho
    obtain ⟨y, hy, rfl, rfl⟩ := slot_of_turn hturn
    obtain rfl : y = x := Option.some.inj (hy.symm.trans hx)
    have hgrant : grantAppend (.slot i) granted = answerNoPlace i y granted := grantSlot_of_no_place (s := granted) hx hplace
    rw [hexec, hgrant]
    refine ⟨fun h => ?_, fun hidle hd => ?_, fun h => ?_⟩
    · rw [answerNoPlace_of_compacting (s := granted) i y h]
      rfl
    · rw [answerNoPlace_of_trigger (s := granted) i y hidle (Nat.le_of_lt hneed) hd]
    · rw [answerNoPlace_of_hopeless (s := granted) hx h]
  · subst hwho
    obtain ⟨hcopy, -⟩ := hc
    obtain ⟨d, hd, rfl, rfl⟩ := copy_of_turn hturn
    obtain rfl : d = c := Option.some.inj (hd.symm.trans hcopy)
    have hgrant : grantAppend .copy granted = answerCopy granted := grantCopy_of_no_place (s := granted) hcopy hplace
    rw [hexec, hgrant]
    refine ⟨fun v cursor hcomp => ⟨?_, fun i x hx hp hall => failStoreWait_single hx hp hall⟩, fun v hcomp => ?_⟩
    · rw [answerCopy_of_copying (s := granted) hcopy hcomp]
    · rw [answerCopy_of_closing (s := granted) hcomp]

end Sys2Proof.Proofs
end

