-- ==== Sys2Proof/Proofs/Bounds.lean ====
section
/-! PROOFS. The flash store's law (R57) and the capacities of queues and tables (R64, R86, R95, R126, R136, R147, R179):
`KeepsBounds s t` says that every part of both laws is kept from s to t, and composes; the operations on each queue and table
keep its part. -/

namespace Sys2Proof.Proofs
open Sys2Proof Sys2Proof.Machine

/-! ## The parts of the two laws -/

/-- At most one sector of a table is OPEN (R57). -/
def OpenOnce (l : List Sector) : Prop := l.countP (fun x => x.state == .openForAppend) ≤ 1

/-- An Event Queue within its capacity, with one KEY_CHANGED for a key (R179). -/
def EventsFit (l : List Event) : Prop := l.length ≤ 32 ∧ (changedKeys l).Nodup

/-- A Transmit Queue within its capacity, with one SUMMARY (R95, R121). -/
def FramesFit (l : List TxFrame) : Prop := l.length ≤ 16 ∧ l.countP (fun t => t.kind == .summary) ≤ 1

/-- A Want List within its capacity, with one entry for a key (R136). -/
def WantsFit (l : List Want) : Prop := l.length ≤ 128 ∧ (l.map (·.key)).Nodup

/-- A Reconcile Queue with one pair for a bucket (R126). -/
def PairsFit (l : List Pair) : Prop := (l.map (·.bucket)).Nodup

/-- An ERASE within its suspensions (R64). -/
def SuspensionsFit (e : Option EraseReq) : Prop := ∀ x, e = some x → x.suspensions ≤ 8

/-- From s to t every part of the store's law and of the queues' law is kept. -/
structure KeepsBounds (s t : State) : Prop where
  flash : s.flash.wf → t.flash.wf
  opened : OpenOnce s.store.sectors → OpenOnce t.store.sectors
  events : EventsFit s.host.events → EventsFit t.host.events
  received : s.line.rxq.length ≤ 4 → t.line.rxq.length ≤ 4
  frames : FramesFit s.line.txq → FramesFit t.line.txq
  jobs : s.resp.jobs.length ≤ 8 → t.resp.jobs.length ≤ 8
  wants : WantsFit s.fetch.wants → WantsFit t.fetch.wants
  pairs : PairsFit s.recon.queue → PairsFit t.recon.queue
  suspensions : SuspensionsFit s.store.erase → SuspensionsFit t.store.erase

/-- All that the two laws read of a state. -/
def bounded (s : State) :
    Memory × List Sector × List Event × List Frame × List TxFrame × List Job × List Want × List Pair × Option EraseReq :=
  (s.flash, s.store.sectors, s.host.events, s.line.rxq, s.line.txq, s.resp.jobs, s.fetch.wants, s.recon.queue,
   s.store.erase)

namespace KeepsBounds

theorem refl (s : State) : KeepsBounds s s := ⟨id, id, id, id, id, id, id, id, id⟩

theorem trans {s t u : State} (h : KeepsBounds s t) (k : KeepsBounds t u) : KeepsBounds s u where
  flash := k.flash ∘ h.flash
  opened := k.opened ∘ h.opened
  events := k.events ∘ h.events
  received := k.received ∘ h.received
  frames := k.frames ∘ h.frames
  jobs := k.jobs ∘ h.jobs
  wants := k.wants ∘ h.wants
  pairs := k.pairs ∘ h.pairs
  suspensions := k.suspensions ∘ h.suspensions

/-- Nothing that the laws read has changed. -/
theorem of_same {s t : State} (h : bounded t = bounded s) : KeepsBounds s t := by
  simp only [bounded, Prod.mk.injEq] at h
  obtain ⟨hflash, hsectors, hevents, hrxq, htxq, hjobs, hwants, hqueue, herase⟩ := h
  constructor <;> simp only [hflash, hsectors, hevents, hrxq, htxq, hjobs, hwants, hqueue, herase, imp_self]

/-- What the laws read was already as it is where a further change begins. -/
theorem after {s t u : State} (k : KeepsBounds t u) (h : bounded t = bounded s) : KeepsBounds s u := (of_same h).trans k

theorem storeLaw {s t : State} (h : KeepsBounds s t) (hs : StoreLaw s) : StoreLaw t :=
  ⟨h.flash hs.canonical, h.opened hs.opened⟩

theorem queueLaw {s t : State} (h : KeepsBounds s t) (hs : QueueLaw s) : QueueLaw t := by
  obtain ⟨hevents, hchanged⟩ := h.events ⟨hs.events, hs.changed⟩
  obtain ⟨hqueued, hsummaries⟩ := h.frames ⟨hs.queued, hs.summaries⟩
  obtain ⟨hwants, hwanted⟩ := h.wants ⟨hs.wants, hs.wanted⟩
  exact ⟨hevents, hchanged, h.received hs.received, hqueued, hsummaries, h.jobs hs.jobs, hwants, hwanted,
    h.pairs hs.pairs, h.suspensions hs.suspensions⟩

end KeepsBounds

/-- An effect that is guarded. -/
theorem keepsBounds_ite {p : Prop} [Decidable p] {s t u : State} (ht : p → KeepsBounds s t) (hu : ¬ p → KeepsBounds s u) :
    KeepsBounds s (if p then t else u) := by
  split
  · exact ht ‹_›
  · exact hu ‹_›

theorem keepsBounds_guard {p : Prop} [Decidable p] {s t : State} (h : p → KeepsBounds s t) :
    KeepsBounds s (if p then t else s) := keepsBounds_ite h fun _ => .refl s

theorem keepsBounds_fold {α : Type} {f : State → α → State} (hf : ∀ s a, KeepsBounds s (f s a)) (l : List α) (s : State) :
    KeepsBounds s (l.foldl f s) := by
  induction l generalizing s with
  | nil => exact .refl s
  | cons a l ih => exact (hf s a).trans (ih _)

/-! ## The Event Queue (R179) -/

theorem eventsFit_nil : EventsFit [] := ⟨by simp, List.nodup_nil⟩

theorem changedKeys_append (l m : List Event) : changedKeys (l ++ m) = changedKeys l ++ changedKeys m :=
  List.filterMap_append

/-- A KEY_CHANGED that takes a new origin keeps its key. -/
theorem changedKeys_coalesce (k : Key) (o : Station) (l : List Event) :
    changedKeys (l.map (coalesce k o)) = changedKeys l := by
  rw [changedKeys, List.filterMap_map]
  refine congrFun (congrArg _ (funext fun e => ?_)) l
  cases e with
  | keyChanged k' o' =>
    rw [Function.comp_apply, coalesce]
    by_cases hk : k' = k
    · rw [if_pos hk]
    · rw [if_neg hk]
  | _ => rfl

theorem mem_changedKeys {l : List Event} {k : Key} : k ∈ changedKeys l ↔ hasKeyChanged l k = true := by
  rw [hasKeyChanged, List.any_eq_true, changedKeys, List.mem_filterMap]
  refine exists_congr fun e => and_congr_right fun _ => ?_
  cases e <;> simp

/-- An event that repeats no KEY_CHANGED joins the queue, or is lost. -/
theorem eventsFit_addEvent {h : HostPort} {e : Event} (hfit : EventsFit h.events)
    (hnew : ∀ k ∈ changedKeys [e], k ∉ changedKeys h.events) : EventsFit (addEvent h e).events := by
  obtain ⟨hlen, hkeys⟩ := hfit
  unfold addEvent
  split
  · rename_i hlt
    have hlt : h.events.length < 32 := hlt
    refine ⟨?_, ?_⟩
    · dsimp only
      rw [List.length_append, List.length_singleton]
      omega
    · have hone : (changedKeys [e]).Nodup := by cases e <;> simp [changedKeys]
      dsimp only
      rw [changedKeys_append]
      exact List.nodup_append'.2 ⟨hkeys, hone, fun k hk hk' => hnew k hk' hk⟩
  · exact ⟨hlen, hkeys⟩

theorem eventsFit_post {h : HostPort} (e : Event) (hfit : EventsFit h.events) : EventsFit (h.post e).events := by
  cases e with
  | keyChanged k o =>
    unfold HostPort.post
    dsimp only
    split
    · refine ⟨?_, ?_⟩
      · dsimp only
        rw [List.length_map]
        exact hfit.1
      · dsimp only
        rw [changedKeys_coalesce]
        exact hfit.2
    · rename_i hno
      refine eventsFit_addEvent hfit fun k' hk' => ?_
      obtain rfl : k' = k := by simpa [changedKeys] using hk'
      rwa [mem_changedKeys]
  | _ => exact eventsFit_addEvent hfit (by simp [changedKeys])

theorem eventsFit_tail {e : Event} {l : List Event} (hfit : EventsFit (e :: l)) : EventsFit l :=
  ⟨Nat.le_of_succ_le hfit.1, hfit.2.sublist ((List.sublist_cons_self e l).filterMap _)⟩

theorem keepsBounds_post (e : Event) (s : State) : KeepsBounds s (post e s) :=
  { KeepsBounds.refl s with events := eventsFit_post e }

theorem keepsBounds_setDiverged (r : DivReason) (s : State) : KeepsBounds s (setDiverged r s) := by
  cases r
  · exact keepsBounds_ite (fun _ => .refl s) fun _ => (keepsBounds_post _ _).after rfl
  · exact keepsBounds_ite (fun _ => .refl s) fun _ => (keepsBounds_post _ _).after rfl

theorem keepsBounds_enterStation (q : StationState) (s : State) : KeepsBounds s (enterStation q s) :=
  (keepsBounds_post _ _).after rfl

/-! ## The sector table (R57) -/

/-- A change by which no sector becomes OPEN. -/
theorem countP_open_modify_le {f : Sector → Sector} (hf : ∀ x, (f x).state = .openForAppend → x.state = .openForAppend)
    (l : List Sector) (i : Nat) :
    (l.modify i f).countP (fun x => x.state == .openForAppend) ≤ l.countP fun x => x.state == .openForAppend := by
  induction l generalizing i with
  | nil => simp
  | cons x l ih =>
    cases i with
    | zero =>
      simp only [List.modify_zero_cons, List.countP_cons, beq_iff_eq]
      have := hf x
      split <;> split <;> simp_all
    | succ i =>
      simp only [List.modify_succ_cons, List.countP_cons]
      exact Nat.add_le_add_right (ih i) _

theorem keepsBounds_modifySector {f : Sector → Sector} (i : Nat) (s : State)
    (hf : ∀ x, (f x).state = .openForAppend → x.state = .openForAppend) : KeepsBounds s (modifySector i f s) :=
  { KeepsBounds.refl s with opened := (countP_open_modify_le hf _ i).trans }

end Sys2Proof.Proofs
end

