-- ==== Sys2Proof/Proofs/BoundsWork.lean ====
section
/-! PROOFS. The capacities, continued: frames offered to the Transmit Queue (R95), and the station's work with its peers: jobs,
pairs, Want entries (R126, R136, R147). -/

namespace Sys2Proof.Proofs
open Sys2Proof Sys2Proof.Machine

/-! ## Changes of one block -/

theorem keepsBounds_txq {q : List TxFrame} (s : State) (h : FramesFit s.line.txq → FramesFit q) :
    KeepsBounds s { s with line := { s.line with txq := q } } := { KeepsBounds.refl s with frames := h }

theorem keepsBounds_rxq {q : List Frame} (s : State) (h : s.line.rxq.length ≤ 4 → q.length ≤ 4) :
    KeepsBounds s { s with line := { s.line with rxq := q } } := { KeepsBounds.refl s with received := h }

theorem keepsBounds_resp {r : Responder} (s : State) (h : s.resp.jobs.length ≤ 8 → r.jobs.length ≤ 8) :
    KeepsBounds s { s with resp := r } := { KeepsBounds.refl s with jobs := h }

theorem keepsBounds_recon {r : Reconciler} (s : State) (h : PairsFit s.recon.queue → PairsFit r.queue) :
    KeepsBounds s { s with recon := r } := { KeepsBounds.refl s with pairs := h }

theorem keepsBounds_setWants {l : List Want} (s : State) (h : WantsFit s.fetch.wants → WantsFit l) :
    KeepsBounds s (setWants l s) := { KeepsBounds.refl s with wants := h }

theorem pairsFit_of_sublist {l m : List Pair} (h : l.Sublist m) (hm : PairsFit m) : PairsFit l := hm.sublist (h.map _)

theorem wantsFit_of_sublist {l m : List Want} (h : l.Sublist m) (hm : WantsFit m) : WantsFit l :=
  ⟨h.length_le.trans hm.1, hm.2.sublist (h.map _)⟩

/-- Frames keep their kinds. -/
theorem framesFit_map {l : List TxFrame} {f : TxFrame → TxFrame} (hf : ∀ t, (f t).kind = t.kind) (h : FramesFit l) :
    FramesFit (l.map f) := by
  refine ⟨by rw [List.length_map]; exact h.1, ?_⟩
  rw [List.countP_map]
  simpa only [Function.comp_def, hf] using h.2

theorem framesFit_of_sublist {l m : List TxFrame} (h : l.Sublist m) (hm : FramesFit m) : FramesFit l :=
  ⟨h.length_le.trans hm.1, (h.countP_le).trans hm.2⟩

/-! ## Placing frames (R95) -/

/-- A frame takes a free place; a SUMMARY only where none is queued (R121). -/
theorem keepsBounds_placeFrame {k : FrameKind} (fl : BitVec 4) (d : Byte) (p : List Byte) (r : Option Requester)
    {s : State} (hroom : s.line.txq.length < 16) (hone : k = .summary → NoSummary s) :
    KeepsBounds s (placeFrame k fl d p r s) := by
  refine { KeepsBounds.refl s with frames := fun h => ⟨?_, ?_⟩ }
  · rw [placeFrame_line, List.length_append, List.length_singleton]
    omega
  · rw [placeFrame_line, List.countP_append, List.countP_singleton]
    split
    · rename_i hk
      rw [List.countP_eq_zero.2 fun t ht => by simpa using hone (by simpa using hk) t ht]
    · exact h.2

theorem keepsBounds_placeProfileQuery {s : State} (h : s.line.txq.length < 16) : KeepsBounds s (placeProfileQuery s) := by
  unfold placeProfileQuery
  split
  · exact .after (keepsBounds_placeFrame _ _ _ _ h nofun) rfl
  · exact .refl s

theorem keepsBounds_placeBucketQuery {s : State} (h : s.line.txq.length < 16) : KeepsBounds s (placeBucketQuery s) := by
  unfold placeBucketQuery
  split
  · exact .after (keepsBounds_placeFrame _ _ _ _ h nofun) rfl
  · exact .refl s

theorem keepsBounds_placeFetch (i : Fin 4) {s : State} (h : s.line.txq.length < 16) : KeepsBounds s (placeFetch i s) := by
  unfold placeFetch
  split
  · exact .after (keepsBounds_placeFrame _ _ _ _ h nofun) rfl
  all_goals exact .refl s

/-- A reply placed ends its job, or sends it to the tail (R148). -/
theorem keepsBounds_placeReply {s : State} (h : s.line.txq.length < 16) : KeepsBounds s (placeReply s) := by
  unfold placeReply
  split
  · rename_i job rest _ hjobs _
    have ended : KeepsBounds s { s with resp := { jobs := rest, service := none } } :=
      keepsBounds_resp s fun hle => by rw [hjobs] at hle; exact Nat.le_of_succ_le hle
    split
    · exact ended.trans (keepsBounds_placeFrame _ _ _ _ h nofun)
    all_goals exact .refl s
  · rename_i job rest hjobs _
    split
    · refine KeepsBounds.trans (keepsBounds_resp s fun hle => ?_) (keepsBounds_placeFrame _ _ _ _ h nofun)
      rw [hjobs] at hle
      exact Nat.le_of_succ_le hle
    · refine KeepsBounds.trans (keepsBounds_resp s fun hle => ?_) (keepsBounds_placeFrame _ _ _ _ h nofun)
      rw [hjobs, List.length_cons] at hle
      dsimp only
      split
      · omega
      · rw [List.length_append, List.length_singleton]
        exact hle
    · exact .refl s
  · exact .refl s

theorem keepsBounds_placeFor (r : Requester) {s : State} (h : s.line.txq.length < 16) : KeepsBounds s (placeFor r s) := by
  cases r with
  | reply => exact keepsBounds_placeReply h
  | profileQuery => exact keepsBounds_placeProfileQuery h
  | bucketQuery => exact keepsBounds_placeBucketQuery h
  | fetch i => exact keepsBounds_placeFetch i h

theorem keepsBounds_waitForRoom (r : Requester) (s : State) : KeepsBounds s (waitForRoom r s) := .of_same rfl

theorem length_of_hasRoom {s : State} (h : hasRoom s = true) : s.line.txq.length < 16 := (hasRoom_iff.1 h).2.2

theorem keepsBounds_offerRequest (r : Requester) (s : State) : KeepsBounds s (offerRequest r s) :=
  keepsBounds_ite (fun h => keepsBounds_placeFor r (length_of_hasRoom h)) fun _ => keepsBounds_waitForRoom r s

theorem keepsBounds_serveJobs (n : Nat) (s : State) : KeepsBounds s (serveJobs n s) := by
  induction n generalizing s with
  | zero => exact .refl s
  | succ n ih =>
    have round (v : Option Service) : KeepsBounds s (if hasRoom (setService v s) then serveJobs n (placeReply (setService v s))
        else waitForRoom .reply (setService v s)) :=
      keepsBounds_ite (fun h => ((keepsBounds_placeReply (length_of_hasRoom h)).trans (ih _)).after rfl) fun _ => .of_same rfl
    refine keepsBounds_ite (fun _ => .refl s) fun _ => ?_
    split
    · exact .refl s
    · split
      · split
        · exact .of_same rfl
        · exact round _
      · exact round _
      · exact round _

theorem keepsBounds_pumpResponder (s : State) : KeepsBounds s (pumpResponder s) := keepsBounds_serveJobs ..

/-- A placer takes at most one place. -/
theorem length_placeFor_le (r : Requester) (s : State) : (placeFor r s).line.txq.length ≤ s.line.txq.length + 1 := by
  have placed (k : FrameKind) (fl : BitVec 4) (d : Byte) (p : List Byte) (q : Option Requester) (t : State)
      (h : t.line = s.line) : (placeFrame k fl d p q t).line.txq.length ≤ s.line.txq.length + 1 := by
    rw [placeFrame_line, List.length_append, h]
    rfl
  cases r with
  | reply =>
    simp only [placeFor, placeReply]
    split
    · split
      · exact placed _ _ _ _ _ _ rfl
      all_goals exact Nat.le_succ _
    · split
      · exact placed _ _ _ _ _ _ rfl
      · exact placed _ _ _ _ _ _ rfl
      · exact Nat.le_succ _
    · exact Nat.le_succ _
  | profileQuery =>
    simp only [placeFor, placeProfileQuery]
    split
    · exact placed _ _ _ _ _ _ rfl
    · exact Nat.le_succ _
  | bucketQuery =>
    simp only [placeFor, placeBucketQuery]
    split
    · exact placed _ _ _ _ _ _ rfl
    · exact Nat.le_succ _
  | fetch i =>
    simp only [placeFor, placeFetch]
    split
    · exact placed _ _ _ _ _ _ rfl
    all_goals exact Nat.le_succ _

/-- Waiting placers take their places where there is one for each (R95). -/
theorem keepsBounds_placeFors (l : List Requester) {s : State} (h : s.line.txq.length + l.length ≤ 16) :
    KeepsBounds s (l.foldl (fun t r => placeFor r t) s) := by
  induction l generalizing s with
  | nil => exact .refl s
  | cons r l ih =>
    rw [List.length_cons] at h
    have := length_placeFor_le r s
    exact (keepsBounds_placeFor r (by omega)).trans (ih (by omega))

theorem keepsBounds_serveWaiting {s : State} (h : s.line.txq.length + s.line.waiting.length ≤ 16) :
    KeepsBounds s (serveWaiting s) :=
  keepsBounds_ite (fun _ => .refl s) fun _ =>
    .trans (.after (keepsBounds_placeFors s.line.waiting (s := { s with line := { s.line with waiting := [] } }) h) rfl)
      (keepsBounds_pumpResponder _)

/-- The waiting placers' turn brings no SUMMARY. -/
theorem noSummary_serveWaiting {s : State} (hplace : placeLeft s = true) (h : NoSummary s) : NoSummary (serveWaiting s) := by
  by_cases hw : s.line.waiting = []
  · unfold serveWaiting
    rwa [if_pos (List.isEmpty_iff.2 hw)]
  · have hmay : mayPlace s = true := (Bool.and_eq_true_iff.1 hplace).1
    exact (placeBehind_serveWaiting id hmay hw (placeLeft_iff.1 hplace).2).2 h

/-- A frame that cannot wait comes behind the waiting placers, where a place is left (R95). -/
theorem keepsBounds_placeBehind {k : FrameKind} (fl : BitVec 4) (d : Byte) (p : List Byte) (r : Option Requester)
    {s : State} (hone : k = .summary → NoSummary s) : KeepsBounds s (placeBehind (placeFrame k fl d p r) s) := by
  refine keepsBounds_guard fun hplace => ?_
  have served : KeepsBounds s (serveWaiting s) := keepsBounds_serveWaiting (placeLeft_iff.1 hplace).2.le
  refine keepsBounds_ite (fun hroom => served.trans ?_) fun _ => served
  exact keepsBounds_placeFrame _ _ _ _ (length_of_hasRoom hroom) fun hk => noSummary_serveWaiting hplace (hone hk)

theorem keepsBounds_offerNews (r : Record) (s : State) : KeepsBounds s (offerNews r s) :=
  keepsBounds_placeBehind _ _ _ _ nofun

/-- A SUMMARY is placed only where none is queued (R121). -/
theorem keepsBounds_offerSummary (s : State) : KeepsBounds s (offerSummary s) := by
  refine keepsBounds_ite (fun _ => .refl s) fun hno => keepsBounds_placeBehind _ _ _ _ fun _ t ht hk => hno ?_
  exact List.any_eq_true.2 ⟨t, ht, beq_iff_eq.2 hk⟩

/-! ## The pump -/

theorem keepsBounds_setPeer (p : Station) (e : Peer) (s : State) : KeepsBounds s (setPeer p e s) := .of_same rfl

theorem keepsBounds_changePeer (p : Station) (e : Peer) (s : State) : KeepsBounds s (changePeer p e s) :=
  (keepsBounds_post _ _).after rfl

theorem keepsBounds_pumpProfile (s : State) : KeepsBounds s (pumpProfile s) := by
  refine keepsBounds_guard fun _ => ?_
  split
  · exact (keepsBounds_offerRequest _ _).after rfl
  · exact .refl s

theorem keepsBounds_pumpReconciler (s : State) : KeepsBounds s (pumpReconciler s) := by
  refine keepsBounds_guard fun _ => ?_
  split
  · exact keepsBounds_recon s fun _ => List.nodup_nil
  · rename_i p rest hdrop
    refine KeepsBounds.trans (keepsBounds_recon s fun hfit => ?_) (keepsBounds_offerRequest ..)
    have hsub := List.dropWhile_sublist (fun p => (peerOf s p.peer).isPartial) (l := s.recon.queue)
    rw [hdrop] at hsub
    exact pairsFit_of_sublist (l := p :: rest) hsub hfit

theorem keepsBounds_markRequested (k : Key) (s : State) : KeepsBounds s (markRequested k s) := by
  refine keepsBounds_setWants s fun h => ⟨by rw [List.length_map]; exact h.1, ?_⟩
  have hkeys : ((fun w : Want => w.key) ∘ fun w => if w.key = k then { w with requested := true } else w) = (·.key) := by
    funext w
    rw [Function.comp_apply]
    split <;> rfl
  rw [List.map_map, hkeys]
  exact h.2

theorem keepsBounds_takeWant (s : State) (i : Fin 4) : KeepsBounds s (takeWant s i) := by
  refine keepsBounds_guard fun _ => ?_
  split
  · exact (keepsBounds_markRequested _ s).trans ((keepsBounds_offerRequest ..).after rfl)
  · exact .refl s

theorem keepsBounds_pumpFetch (s : State) : KeepsBounds s (pumpFetch s) := keepsBounds_fold keepsBounds_takeWant ..

theorem keepsBounds_pump (s : State) : KeepsBounds s (pump s) :=
  (((keepsBounds_pumpResponder s).trans (keepsBounds_pumpProfile _)).trans (keepsBounds_pumpReconciler _)).trans
    (keepsBounds_pumpFetch _)

/-! ## Work withdrawn (R98, R111) -/

theorem keepsBounds_dropRequest (r : Requester) (s : State) : KeepsBounds s (dropRequest r s) :=
  { KeepsBounds.refl s with frames := framesFit_map fun t => by split <;> rfl }

theorem keepsBounds_freeFetchSlot (i : Fin 4) (s : State) : KeepsBounds s (freeFetchSlot i s) :=
  (keepsBounds_dropRequest _ _).after rfl

theorem keepsBounds_freeSlotsOfKey (k : Key) (s : State) : KeepsBounds s (freeSlotsOfKey k s) :=
  keepsBounds_fold (fun t i => keepsBounds_guard fun _ => keepsBounds_freeFetchSlot i t) ..

theorem keepsBounds_freeSlotsOfPeer (p : Station) (s : State) : KeepsBounds s (freeSlotsOfPeer p s) :=
  keepsBounds_fold (fun t i => keepsBounds_guard fun _ => keepsBounds_freeFetchSlot i t) ..

theorem keepsBounds_removeWant (k : Key) (s : State) : KeepsBounds s (removeWant k s) :=
  keepsBounds_setWants s (wantsFit_of_sublist List.filter_sublist)

theorem keepsBounds_endBucketQuery (s : State) : KeepsBounds s (endBucketQuery s) := (keepsBounds_dropRequest _ _).after rfl

theorem keepsBounds_failBucketQuery (s : State) : KeepsBounds s (failBucketQuery s) := by
  have ended := keepsBounds_endBucketQuery s
  unfold failBucketQuery
  dsimp only
  split
  · rename_i p rest hq
    refine keepsBounds_ite (fun _ => ended) fun _ => ended.trans (keepsBounds_recon _ fun hfit => ?_)
    rw [hq] at hfit
    exact pairsFit_of_sublist (List.sublist_cons_self p rest) hfit
  · exact ended

theorem keepsBounds_finishQuery (s : State) : KeepsBounds s (finishQuery s) :=
  (keepsBounds_endBucketQuery s).trans (keepsBounds_recon _ (pairsFit_of_sublist (List.tail_sublist _)))

theorem keepsBounds_endQueryOf (p : Station) (s : State) : KeepsBounds s (endQueryOf p s) := by
  unfold endQueryOf
  split
  · exact keepsBounds_guard fun _ => (keepsBounds_dropRequest _ _).after rfl
  · exact .refl s

theorem keepsBounds_endService (s : State) : KeepsBounds s (endService s) :=
  .trans (.after (keepsBounds_dropRequest .reply (setService none s)) rfl) (.of_same rfl)

theorem keepsBounds_discardJobs (p : Station) (s : State) : KeepsBounds s (discardJobs p s) :=
  (keepsBounds_guard fun _ => keepsBounds_endService s).trans (keepsBounds_resp _ (List.length_filter_le ..).trans)

theorem keepsBounds_endPairOf (p : Station) (s : State) : KeepsBounds s (endPairOf p s) := by
  unfold endPairOf
  split
  · exact .refl s
  · exact keepsBounds_guard fun _ => keepsBounds_endBucketQuery s
  · exact .refl s

theorem keepsBounds_purgePeer (p : Station) (s : State) : KeepsBounds s (purgePeer p s) := by
  have wants : KeepsBounds s (dropWantsOf p s) := keepsBounds_setWants s (wantsFit_of_sublist List.filter_sublist)
  have pairs (t : State) : KeepsBounds t (dropPairsOf p t) :=
    keepsBounds_recon t (pairsFit_of_sublist List.filter_sublist)
  exact (((wants.trans (keepsBounds_freeSlotsOfPeer p _)).trans (keepsBounds_endPairOf p _)).trans (pairs _)).trans
    (keepsBounds_discardJobs p _)

/-! ## The Want List (R137, R144) -/

/-- An entry taken from the list comes back at its tail. -/
theorem wantsFit_requeue {l : List Want} {w v : Want} (hw : w ∈ l) (hv : v.key = w.key) (h : WantsFit l) :
    WantsFit (withoutKey l w.key ++ [v]) := by
  have hsub : (withoutKey l w.key).Sublist l := List.filter_sublist
  refine ⟨?_, ?_⟩
  · have hlt : (withoutKey l w.key).length < l.length := by
      refine lt_of_le_of_ne hsub.length_le fun he => ?_
      have := List.of_mem_filter (hsub.eq_of_length he ▸ hw)
      simp at this
    have := h.1
    rw [List.length_append, List.length_singleton]
    omega
  · rw [List.map_append, List.map_singleton, hv]
    refine List.nodup_append'.2 ⟨h.2.sublist (hsub.map _), List.nodup_singleton _, fun k hk hk' => ?_⟩
    obtain ⟨x, hx, rfl⟩ := List.mem_map.1 hk
    have hne : x.key ≠ w.key := by simpa using List.of_mem_filter hx
    exact hne (List.mem_singleton.1 hk')

/-- An entry changed keeps its key. -/
theorem wantsFit_replace {l : List Want} {v : Want} (h : WantsFit l) :
    WantsFit (l.map fun x => if x.key = v.key then v else x) := by
  have hkeys : ((fun w : Want => w.key) ∘ fun x => if x.key = v.key then v else x) = (·.key) := by
    funext w
    rw [Function.comp_apply]
    split
    · exact Eq.symm ‹_›
    · rfl
  refine ⟨by rw [List.length_map]; exact h.1, ?_⟩
  rw [List.map_map, hkeys]
  exact h.2

/-- A new key's entry joins a list with room. -/
theorem wantsFit_append {l : List Want} {v : Want} (hroom : l.length < 128) (hnew : ∀ w ∈ l, w.key ≠ v.key)
    (h : WantsFit l) : WantsFit (l ++ [v]) := by
  refine ⟨?_, ?_⟩
  · rw [List.length_append, List.length_singleton]
    omega
  · rw [List.map_append, List.map_singleton]
    refine List.nodup_append'.2 ⟨h.2, List.nodup_singleton _, ?_⟩
    simpa [List.Disjoint] using hnew

theorem keepsBounds_wantAdd (k : Key) (stamp : Stamp) (source : Station) (s : State) :
    KeepsBounds s (wantAdd k stamp source s) := by
  refine keepsBounds_ite (fun _ => .refl s) fun _ => ?_
  dsimp only
  split
  · rename_i hnone
    refine keepsBounds_guard fun hroom => keepsBounds_setWants s (wantsFit_append hroom fun w hw => ?_)
    simpa using List.find?_eq_none.1 hnone w hw
  · rename_i w hfound
    obtain ⟨hmem, rfl⟩ := mem_of_wantOf hfound
    refine keepsBounds_guard fun _ => keepsBounds_ite (fun _ => ?_) fun _ =>
      keepsBounds_setWants s (wantsFit_replace (v := ⟨w.key, stamp, source, 0, false⟩))
    refine (keepsBounds_freeSlotsOfKey _ s).trans (keepsBounds_setWants _ (wantsFit_requeue ?_ rfl))
    rw [freeSlotsOfKey_wants]
    exact hmem

theorem keepsBounds_countAttempt (k : Key) (s : State) : KeepsBounds s (countAttempt k s) := by
  unfold countAttempt
  split
  · rename_i w hfound
    obtain ⟨hmem, rfl⟩ := mem_of_wantOf hfound
    exact keepsBounds_ite (fun _ => keepsBounds_setWants s (wantsFit_requeue hmem rfl)) fun _ => keepsBounds_removeWant _ s
  · exact .refl s

theorem keepsBounds_pruneWant (k : Key) (stamp : Stamp) (s : State) : KeepsBounds s (pruneWant k stamp s) := by
  unfold pruneWant
  split
  · exact keepsBounds_ite (fun _ => .refl s) fun _ => (keepsBounds_freeSlotsOfKey k s).trans (keepsBounds_removeWant k _)
  · exact .refl s

end Sys2Proof.Proofs
end

