-- ==== Sys2Proof/Proofs/BoundsStore.lean ====
section
/-! PROOFS. The flash store's law and the capacities, continued: the Update Unit's and the Flash Store's shared operations
(R46 to R51, R60 to R75), the start-up scan and what a reset stops and clears. -/

namespace Sys2Proof.Proofs
open Sys2Proof Sys2Proof.Machine

/-! ## Slots (R31 to R52) -/

theorem keepsBounds_complete (r : Reply) (s : State) : KeepsBounds s (complete r s) := .of_same rfl

theorem keepsBounds_raiseClock (c : Counter) (s : State) : KeepsBounds s (raiseClock c s) :=
  keepsBounds_guard fun _ => .of_same rfl

theorem keepsBounds_claimSlot (i : Fin 4) (o : Origin) (r : Record) (s : State) : KeepsBounds s (claimSlot i o r s) := by
  rw [claimSlot_eq]
  exact .of_same rfl

theorem keepsBounds_releaseSlot (i : Fin 4) (x : Slot) (s : State) : KeepsBounds s (releaseSlot i x s) := by
  rw [releaseSlot_eq]
  exact .of_same rfl

theorem keepsBounds_releaseAt (s : State) (i : Fin 4) : KeepsBounds s (releaseAt s i) := by
  unfold releaseAt
  split
  · exact keepsBounds_releaseSlot ..
  · exact .refl s

theorem keepsBounds_reportWrite (w : WriteResult) (s : State) (i : Fin 4) : KeepsBounds s (reportWrite w s i) := by
  unfold reportWrite
  split
  · split
    · exact keepsBounds_post ..
    · exact .refl s
  · exact .refl s

theorem keepsBounds_failSlots (w : WriteResult) (l : List (Fin 4)) (s : State) : KeepsBounds s (failSlots w l s) :=
  ((keepsBounds_fold (keepsBounds_reportWrite w) l s).trans
    (keepsBounds_guard fun _ => keepsBounds_setDiverged ..)).trans (keepsBounds_fold keepsBounds_releaseAt l _)

theorem keepsBounds_failStoreWait (s : State) : KeepsBounds s (failStoreWait s) := keepsBounds_failSlots ..

theorem keepsBounds_localAdmission (k : Key) (tomb : Bool) (value : List Byte) (s : State) :
    KeepsBounds s (localAdmission k tomb value s) := by
  unfold localAdmission
  split
  · exact keepsBounds_complete ..
  · split
    · refine KeepsBounds.trans ?_ (keepsBounds_complete ..)
      exact .after (keepsBounds_claimSlot ..) rfl
    · exact keepsBounds_complete ..

theorem keepsBounds_meetSlot (i : Fin 4) (x : Slot) (r : Record) (s : State) : KeepsBounds s (meetSlot i x r s) := by
  refine keepsBounds_guard fun _ => ?_
  split
  · exact .of_same rfl
  · exact keepsBounds_guard fun _ => .of_same rfl

theorem keepsBounds_placeArrival (r : Record) (source : Station) (s : State) :
    KeepsBounds s (placeArrival r source s) := by
  refine keepsBounds_ite (fun _ => .refl s) fun _ => ?_
  split
  · split
    · exact keepsBounds_meetSlot ..
    · exact .refl s
  · refine keepsBounds_ite (fun _ => keepsBounds_setDiverged ..) fun _ => ?_
    split
    · exact keepsBounds_claimSlot ..
    · exact keepsBounds_wantAdd ..

theorem keepsBounds_offerArrival (r : Record) (source : Station) (s : State) :
    KeepsBounds s (offerArrival r source s) :=
  .trans (keepsBounds_ite (fun _ => .refl s) fun _ => (keepsBounds_raiseClock ..).trans (keepsBounds_placeArrival ..))
    (keepsBounds_pumpFetch _)

/-! ## Commits (R47, R72) -/

theorem keepsBounds_addLive (i n : Nat) (s : State) : KeepsBounds s (addLive i n s) :=
  keepsBounds_modifySector i s fun _ => id

theorem keepsBounds_subLive (i n : Nat) (s : State) : KeepsBounds s (subLive i n s) :=
  keepsBounds_modifySector i s fun _ => id

theorem keepsBounds_commitEntry (e : Entry) (s : State) : KeepsBounds s (commitEntry e s) := by
  unfold commitEntry
  split
  · exact .after (keepsBounds_addLive ..) rfl
  · refine KeepsBounds.trans ?_ (keepsBounds_addLive ..)
    exact .after (keepsBounds_subLive ..) rfl

theorem keepsBounds_commitCopy (c : CopySlot) (loc : Loc) (s : State) : KeepsBounds s (commitCopy c loc s) := by
  unfold commitCopy
  split
  · refine keepsBounds_guard fun _ => KeepsBounds.trans ?_ (keepsBounds_addLive ..)
    exact .after (keepsBounds_subLive ..) rfl
  · exact .refl s

theorem keepsBounds_reportCommit (x : Slot) (s : State) : KeepsBounds s (reportCommit x s) := by
  unfold reportCommit
  split
  · exact keepsBounds_post ..
  · exact keepsBounds_guard fun _ => keepsBounds_post ..

theorem keepsBounds_commitSlot (i : Fin 4) (x : Slot) (loc : Loc) (s : State) : KeepsBounds s (commitSlot i x loc s) :=
  (((keepsBounds_commitEntry ..).trans (keepsBounds_pruneWant ..)).trans (keepsBounds_reportCommit ..)).trans
    (keepsBounds_releaseSlot ..)

theorem keepsBounds_offerCommitNews (x : Slot) (s : State) : KeepsBounds s (offerCommitNews x s) := by
  unfold offerCommitNews
  split
  · exact keepsBounds_ite (fun _ => .refl s) fun _ => keepsBounds_offerNews ..
  · exact .refl s

/-! ## Compaction and space (R67 to R75) -/

theorem keepsBounds_testTrigger (s : State) : KeepsBounds s (testTrigger s) := by
  refine keepsBounds_guard fun _ => ?_
  unfold beginCompaction
  split
  · exact .trans (keepsBounds_modifySector _ s (by simp)) (.of_same rfl)
  · split
    · exact .trans (keepsBounds_modifySector _ s (by simp)) (.of_same rfl)
    · exact .refl s

theorem keepsBounds_advanceWalk (s : State) : KeepsBounds s (advanceWalk s) := by
  unfold advanceWalk
  split
  · exact keepsBounds_ite (fun _ => .of_same rfl) fun _ => keepsBounds_guard fun _ => .of_same rfl
  · exact keepsBounds_guard fun _ => .of_same rfl
  all_goals exact .refl s

theorem keepsBounds_spaceTest (s : State) : KeepsBounds s (spaceTest s) :=
  keepsBounds_ite (fun _ => .after (keepsBounds_post ..) rfl) fun _ => .of_same rfl

theorem keepsBounds_spaceEvent (old s : State) : KeepsBounds s (spaceEvent old s) :=
  keepsBounds_ite (fun _ => .refl s) fun _ => keepsBounds_spaceTest s

theorem keepsBounds_settleStore (old s : State) : KeepsBounds s (settleStore old s) :=
  ((keepsBounds_testTrigger s).trans (keepsBounds_advanceWalk _)).trans (keepsBounds_spaceEvent ..)

/-- A new ERASE has met no suspension. -/
theorem keepsBounds_placeErase (v : Nat) (s : State) : KeepsBounds s (placeErase v s) :=
  { KeepsBounds.refl s with suspensions := fun _ x hx => by cases hx; exact Nat.zero_le 8 }

theorem keepsBounds_nextRun (s : State) : KeepsBounds s (nextRun s) := by
  unfold nextRun
  split
  · exact keepsBounds_placeErase ..
  · exact .after (keepsBounds_testTrigger _) rfl

theorem keepsBounds_stallCompaction (v c : Nat) (s : State) : KeepsBounds s (stallCompaction v c s) :=
  .after (keepsBounds_failStoreWait _) rfl

/-! ## The ERASE (R64) -/

/-- The ERASE changed, its suspensions no more than before, or over. -/
theorem keepsBounds_erase {s t : State} (h : bounded t = bounded { s with store := { s.store with erase := t.store.erase } })
    (he : SuspensionsFit s.store.erase → SuspensionsFit t.store.erase) : KeepsBounds s t :=
  .trans (t := { s with store := { s.store with erase := t.store.erase } })
    { KeepsBounds.refl s with suspensions := he } (.of_same h)

theorem suspensionsFit_none : SuspensionsFit none := nofun

/-- The ERASE goes on with the suspensions it has met. -/
theorem suspensionsFit_map {e : Option EraseReq} {f : EraseReq → EraseReq} (hf : ∀ x, (f x).suspensions = x.suspensions)
    (h : SuspensionsFit e) : SuspensionsFit (e.map f) := by
  intro y hy
  obtain ⟨x, hx, rfl⟩ := Option.map_eq_some_iff.1 hy
  rw [hf]
  exact h x hx

theorem keepsBounds_settleCause (s : State) : KeepsBounds s (settleCause s) :=
  keepsBounds_erase rfl (suspensionsFit_map fun _ => rfl)

theorem keepsBounds_runErase (s : State) : KeepsBounds s (runErase s) :=
  keepsBounds_erase rfl (suspensionsFit_map fun _ => rfl)

/-- A suspension is counted while one is left (R64). -/
theorem keepsBounds_suspendErase {s : State} (h : suspensionsLeft s = true) : KeepsBounds s (suspendErase s) := by
  refine keepsBounds_erase rfl fun _ y hy => ?_
  obtain ⟨x, hx, rfl⟩ := Option.map_eq_some_iff.1 hy
  rw [suspensionsLeft, hx] at h
  exact of_decide_eq_true h

theorem keepsBounds_dropErase (s : State) : KeepsBounds s (dropErase s) :=
  keepsBounds_erase rfl fun _ => suspensionsFit_none

/-! ## Programs (R55, R60, R65) -/

theorem keepsBounds_programFlash (a : Nat) (given failed : List Byte) (rest : Byte) (s : State) :
    KeepsBounds s (programFlash a given failed rest s) :=
  { KeepsBounds.refl s with flash := fun h => Memory.wf_program h .. }

theorem keepsBounds_clearOp (s : State) : KeepsBounds s (clearOp s) := .of_same rfl

theorem keepsBounds_programAppend (loc : Loc) (opening : Option Opening) (image failed : List Byte) (rest : Byte)
    (s : State) : KeepsBounds s (programAppend loc opening image failed rest s) := by
  unfold programAppend
  split
  · exact (keepsBounds_programFlash ..).trans (keepsBounds_programFlash ..)
  · exact keepsBounds_programFlash ..

theorem keepsBounds_programMark (v : Nat) (given failed : Byte) (s : State) :
    KeepsBounds s (programMark v given failed s) := keepsBounds_programFlash ..

theorem keepsBounds_programEraseCount (v : Nat) (failed : List Byte) (rest : Byte) (s : State) :
    KeepsBounds s (programEraseCount v failed rest s) := keepsBounds_programFlash ..

/-! ## The arbiter's grants (R59, R61, R62) -/

theorem keepsBounds_startProgramming (who : Appender) (loc : Loc) (s : State) :
    KeepsBounds s (startProgramming who loc s) := by
  rw [startProgramming_eq]
  exact .of_same rfl

theorem keepsBounds_beginProgram (who : Appender) (r : Record) (loc : Loc) (opening : Option Opening) (s : State) :
    KeepsBounds s (beginProgram who r loc opening s) := by
  have used : KeepsBounds s (useGranules loc.sector (imageLen r.value.length) s) :=
    keepsBounds_modifySector _ s fun _ => id
  exact (used.trans (keepsBounds_startProgramming who loc _)).trans (.of_same rfl)

/-- A table in which only one place may hold an OPEN sector. -/
theorem openOnce_of_place {l : List Sector} (j : Nat)
    (h : ∀ (k : Nat) (x : Sector), l[k]? = some x → x.state = .openForAppend → k = j) : OpenOnce l := by
  unfold OpenOnce
  induction l generalizing j with
  | nil => simp
  | cons y l ih =>
    rw [List.countP_cons]
    by_cases hy : y.state = .openForAppend
    · obtain rfl : 0 = j := h 0 y rfl hy
      have none_open : l.countP (fun x => x.state == .openForAppend) = 0 := by
        refine List.countP_eq_zero.2 fun x hx => ?_
        obtain ⟨k, hk⟩ := List.getElem?_of_mem hx
        rw [beq_iff_eq]
        exact fun ho => absurd (h (k + 1) x hk ho) (Nat.succ_ne_zero k)
      rw [none_open]
      split <;> omega
    · rw [if_neg (by simpa using hy)]
      refine ih (j - 1) fun k x hk ho => ?_
      have := h (k + 1) x hk ho
      omega

/-- The OPEN sector closed, none is OPEN. -/
theorem not_open_closeOpen {s : State} (h : OpenOnce s.store.sectors) :
    ∀ x ∈ (closeOpen s).store.sectors, x.state ≠ .openForAppend := by
  have hlaw : StoreLaw { s with flash := [] } := ⟨Memory.wf_nil, h⟩
  have hmap : (closeOpen s).store.sectors = (closeOpen { s with flash := [] }).store.sectors := by
    unfold closeOpen
    rw [show openSector { s with flash := [] } = openSector s from rfl]
    split <;> rfl
  rw [hmap, closeOpen_map hlaw]
  intro x hx
  obtain ⟨y, -, rfl⟩ := List.mem_map.1 hx
  split
  · nofun
  · assumption

/-- A sector opened is the only one OPEN (R57, R62). -/
theorem keepsBounds_openAt (i : Nat) (s : State) : KeepsBounds s (openAt i s).1 := by
  have close : KeepsBounds s (closeOpen s) := by
    unfold closeOpen
    split
    · exact keepsBounds_modifySector _ s (by simp [closeSector])
    · exact .refl s
  refine { close with opened := fun h => openOnce_of_place i fun k x hk ho => ?_ }
  by_contra hne
  have hk' : (closeOpen s).store.sectors[k]? = some x := by
    have hmod : ((closeOpen s).store.sectors.modify i _)[k]? = some x := hk
    rwa [List.getElem?_modify_ne _ _ (Ne.symm hne)] at hmod
  exact not_open_closeOpen h x (List.mem_of_getElem? hk') ho

theorem keepsBounds_takePlace (who : Appender) (r : Record) (p : Place) (s : State) :
    KeepsBounds s (takePlace who r p s) := by
  unfold takePlace
  split
  · exact keepsBounds_beginProgram ..
  · exact (keepsBounds_openAt ..).trans (keepsBounds_beginProgram ..)

theorem keepsBounds_grantSlot (i : Fin 4) (s : State) : KeepsBounds s (grantSlot i s) := by
  unfold grantSlot
  split
  · split
    · exact keepsBounds_takePlace ..
    · exact (keepsBounds_testTrigger s).trans
        (keepsBounds_ite (fun _ => .of_same rfl) fun _ => keepsBounds_failSlots ..)
  · exact .refl s

theorem keepsBounds_grantCopy (s : State) : KeepsBounds s (grantCopy s) := by
  unfold grantCopy
  split
  · split
    · exact keepsBounds_takePlace ..
    · unfold answerCopy
      split
      · exact keepsBounds_stallCompaction ..
      · exact .of_same rfl
      all_goals exact .refl s
  · exact .refl s

/-! ## The start-up scan (R76 to R78) -/

/-- A header alone opens no sector. -/
theorem classify_not_open (n : BitVec 16) (h : List Byte) : (classify n h).state ≠ .openForAppend := by
  unfold classify
  dsimp only
  split
  · nofun
  · split
    · dsimp only
      split <;> nofun
    · dsimp only
      split <;> nofun
    · split <;> nofun

theorem not_open_headerTable (m : Memory) : ∀ x ∈ headerTable m, x.state ≠ .openForAppend := by
  intro x hx
  obtain ⟨i, -, rfl⟩ := List.mem_map.1 hx
  exact classify_not_open _ _

/-- Finishing the table opens at most the one sector found (R78). -/
theorem openOnce_finish (entries : List Entry) (opened : Option (Nat × Nat)) {table : List Sector}
    (h : ∀ x ∈ table, x.state ≠ .openForAppend) : OpenOnce (table.mapIdx (finishSector entries opened)) := by
  refine openOnce_of_place ((opened.map (·.1)).getD 0) fun k x hk ho => ?_
  rw [List.getElem?_mapIdx, Option.map_eq_some_iff] at hk
  obtain ⟨y, hy, rfl⟩ := hk
  have hclosed := h y (List.mem_of_getElem? hy)
  unfold finishSector at ho
  split at ho
  · split at ho
    · exact Eq.symm ‹_›
    · exact absurd ho hclosed
  · exact absurd ho hclosed

theorem keepsBounds_scan (s : State) : KeepsBounds s (scan s) := by
  have hopen : OpenOnce (scan s).store.sectors := by
    rw [scan_sectors]
    exact openOnce_finish _ _ (not_open_headerTable s.flash)
  obtain ⟨d, l, q, hscan⟩ := scan_shape s
  rw [hscan] at hopen ⊢
  exact { KeepsBounds.refl s with opened := fun _ => hopen }

/-! ## Resets and MUTE (R79, R153, R156, R157) -/

theorem keepsBounds_abandonErase (erased : List (Nat × Byte)) (s : State) : KeepsBounds s (abandonErase erased s) := by
  have partly (e : EraseReq) : KeepsBounds s
      { s with store := { s.store with erase := none }, flash := s.flash.eraseSome (headerAddr e.sector) erased } :=
    { KeepsBounds.refl s with flash := fun h => Memory.wf_eraseSome h .., suspensions := fun _ => suspensionsFit_none }
  unfold abandonErase
  split
  · split
    · exact keepsBounds_dropErase s
    · exact partly _
    · exact partly _
    · exact .refl s
  · exact .refl s

theorem keepsBounds_softResetStart (erased : List (Nat × Byte)) (s : State) :
    KeepsBounds s (softResetStart erased s) := by
  have abandoned : KeepsBounds s (abandonRead (abandonErase erased s)) := by
    refine (keepsBounds_abandonErase erased s).trans ?_
    unfold abandonRead
    split
    · exact keepsBounds_clearOp _
    all_goals exact .refl _
  exact keepsBounds_ite (fun _ => .refl s) fun _ => abandoned.trans (.of_same rfl)

theorem keepsBounds_cutOp (cut : Cut) (s : State) : KeepsBounds s (cutOp cut s) := by
  unfold cutOp
  split
  · exact (keepsBounds_programAppend ..).trans (keepsBounds_clearOp _)
  · exact (keepsBounds_programMark ..).trans (keepsBounds_clearOp _)
  · exact keepsBounds_clearOp s
  · exact .refl s

theorem keepsBounds_cutErase (cut : Cut) (s : State) : KeepsBounds s (cutErase cut s) := by
  unfold cutErase
  split
  · split
    case h_4 => exact (keepsBounds_programEraseCount ..).trans (keepsBounds_dropErase _)
    all_goals exact keepsBounds_abandonErase ..
  · exact .refl s

theorem keepsBounds_cutConfig (cut : Cut) (s : State) : KeepsBounds s (cutConfig cut s) := by
  unfold cutConfig
  split
  · exact .of_same rfl
  · exact .refl s

theorem keepsBounds_stopAll (cut : Cut) (s : State) : KeepsBounds s (stopAll cut s) :=
  (((keepsBounds_cutOp cut s).trans (keepsBounds_cutErase cut _)).trans (keepsBounds_cutConfig cut _)).trans
    (.of_same rfl)

/-- What a reset clears is empty (R156). -/
theorem keepsBounds_clearRam (s : State) : KeepsBounds s (clearRam s) where
  flash := id
  opened _ := Nat.zero_le 1
  events _ := eventsFit_nil
  received _ := Nat.zero_le 4
  frames _ := ⟨Nat.zero_le 16, Nat.zero_le 1⟩
  jobs _ := Nat.zero_le 8
  wants _ := ⟨Nat.zero_le 128, List.nodup_nil⟩
  pairs _ := List.nodup_nil
  suspensions _ := suspensionsFit_none

theorem keepsBounds_resetEnd (straps : Station) (s : State) : KeepsBounds s (resetEnd straps s) := by
  refine (keepsBounds_clearRam s).trans ?_
  unfold resetEnd readArea
  dsimp only
  split
  · exact .of_same rfl
  · exact .after (keepsBounds_enterStation ..) rfl

theorem keepsBounds_enterMute (s : State) : KeepsBounds s (enterMute s) := by
  refine KeepsBounds.trans ?_ (keepsBounds_enterStation ..)
  exact { KeepsBounds.refl s with
    frames := fun _ => ⟨Nat.zero_le 16, Nat.zero_le 1⟩
    jobs := fun _ => Nat.zero_le 8
    wants := fun _ => ⟨Nat.zero_le 128, List.nodup_nil⟩
    pairs := fun _ => List.nodup_nil }

end Sys2Proof.Proofs
end

