-- ==== Sys2Proof/Proofs/BoundsSteps.lean ====
section
/-! PROOFS. The flash store's law and the capacities, concluded: the meanings of the commands, and every step. -/

namespace Sys2Proof.Proofs
open Sys2Proof Sys2Proof.Machine

/-- A command's meaning answers with a next state, and keeps the store's law and the capacities. -/
def AnswersBounded (s : State) (o : Host.Outcome State Fault Refusal) : Prop := ∃ t, o = .next t ∧ KeepsBounds s t

theorem answersBounded_next {s t : State} (h : KeepsBounds s t) : AnswersBounded s (.next t) := ⟨t, rfl, h⟩

/-- A guarded change outside what the laws read. -/
theorem answersBounded_guard {p : Prop} [Decidable p] {s t : State} (h : bounded t = bounded s) :
    AnswersBounded s (.next (if p then t else s)) := answersBounded_next (keepsBounds_guard fun _ => .of_same h)

/-! ## Host commands -/

theorem answersBounded_immediate {f : State → State} {s : State} (h : KeepsBounds s (f s)) :
    AnswersBounded s (immediate f s) := answersBounded_next (keepsBounds_guard fun _ => h)

theorem keepsBounds_openTxn (k : TxnKind) (out : List Byte) (s : State) : KeepsBounds s (openTxn k out s) := .of_same rfl

theorem answersBounded_requestCommand {serve : State → State} {s : State} (h : ∀ t, KeepsBounds t (serve t)) :
    AnswersBounded s (requestCommand serve s) :=
  answersBounded_immediate (keepsBounds_ite (fun _ => keepsBounds_openTxn ..) fun _ => .after (h (accept s)) rfl)

/-- An event read leaves the queue (R180). -/
theorem keepsBounds_takeEvent (s : State) : KeepsBounds s (takeEvent s) := by
  unfold takeEvent
  split
  · exact .of_same rfl
  · rename_i e rest hevents
    exact { KeepsBounds.refl s with events := fun h => by rw [hevents] at h; exact eventsFit_tail h }

theorem endTxn_events (t : Transaction) (clocked : Nat) (h : HostPort) : (endTxn t clocked h).events = h.events := by
  unfold endTxn
  split
  · rfl
  · rfl
  · split <;> rfl
  · split <;> rfl

theorem answersBounded_transactionEnd (clocked : Nat) (s : State) : AnswersBounded s (execTransactionEnd clocked s) := by
  refine answersBounded_next ?_
  split
  · exact { KeepsBounds.refl s with events := fun h => by rw [endTxn_events]; exact h }
  · exact .refl s

theorem answersBounded_admission (k : Key) (tomb : Bool) (value : List Byte) (s : State) :
    AnswersBounded s (requestCommand (fun t => spaceEvent t (localAdmission k tomb value t)) s) :=
  answersBounded_requestCommand fun _ => (keepsBounds_localAdmission ..).trans (keepsBounds_spaceEvent ..)

theorem keepsBounds_serveRead (key : Key) (s : State) : KeepsBounds s (serveRead key s) := by
  unfold serveRead
  split
  · exact keepsBounds_complete ..
  · refine keepsBounds_ite (fun _ => ?_) fun _ => keepsBounds_complete ..
    split
    · exact keepsBounds_complete ..
    · exact .of_same rfl

theorem keepsBounds_serveList (start : Key) (s : State) : KeepsBounds s (serveList start s) := by
  unfold serveList
  split <;> exact keepsBounds_complete ..

theorem keepsBounds_servePeers (s : State) : KeepsBounds s (servePeers s) := by
  unfold servePeers
  split <;> exact keepsBounds_complete ..

theorem keepsBounds_expireSummary (s : State) : KeepsBounds s (expireSummary s) :=
  .after (keepsBounds_offerSummary _) rfl

theorem keepsBounds_serveSync (s : State) : KeepsBounds s (serveSync s) := by
  unfold serveSync
  split
  case h_5 => exact (keepsBounds_complete ..).trans (keepsBounds_expireSummary _)
  all_goals exact keepsBounds_complete ..

theorem keepsBounds_serveProgram (offset : Byte) (given : List Byte) (s : State) :
    KeepsBounds s (serveProgram offset given s) := by
  unfold serveProgram
  split
  · exact keepsBounds_complete ..
  · exact keepsBounds_ite (fun _ => keepsBounds_complete ..) fun _ => .of_same rfl

theorem keepsBounds_serveLock (s : State) : KeepsBounds s (serveLock s) := by
  unfold serveLock
  split
  · exact keepsBounds_complete ..
  · split
    · exact keepsBounds_complete ..
    · exact .of_same rfl

/-! ## The configuration area and the resets -/

theorem answersBounded_configProgramDone (failed : List Byte) (s : State) :
    AnswersBounded s (execConfigProgramDone failed s) := by
  refine answersBounded_next ?_
  split
  · exact keepsBounds_ite (fun _ => .of_same rfl) fun _ => .of_same rfl
  all_goals exact .refl s

theorem answersBounded_lockCheckProgrammed (failed : List Byte) (s : State) :
    AnswersBounded s (execLockCheckProgrammed failed s) := by
  refine answersBounded_next ?_
  split
  · exact keepsBounds_ite (fun _ => .of_same rfl) fun _ =>
      keepsBounds_ite (fun _ => .of_same rfl) fun _ => .of_same rfl
  all_goals exact .refl s

theorem answersBounded_lockMarkerProgrammed (failed : Byte) (s : State) :
    AnswersBounded s (execLockMarkerProgrammed failed s) := by
  refine answersBounded_next ?_
  split
  · exact keepsBounds_ite (fun _ => .of_same rfl) fun _ =>
      keepsBounds_ite (fun _ => .after (keepsBounds_softResetStart ..) rfl) fun _ => .of_same rfl
  all_goals exact .refl s

theorem answersBounded_powerOnResetEnd (p : Station) (s : State) : AnswersBounded s (execPowerOnResetEnd p s) :=
  answersBounded_next (keepsBounds_guard fun _ =>
    keepsBounds_ite (fun _ => .of_same rfl) fun _ => .after (keepsBounds_resetEnd ..) rfl)

theorem answersBounded_pinResetEnd (p : Station) (s : State) : AnswersBounded s (execPinResetEnd p s) :=
  answersBounded_next (keepsBounds_guard fun _ =>
    keepsBounds_ite (fun _ => .of_same rfl) fun _ => .after (keepsBounds_resetEnd ..) rfl)

theorem keepsBounds_startListening (s : State) : KeepsBounds s (startListening s) := .of_same rfl

theorem answersBounded_startUpScanEnd (s : State) : AnswersBounded s (execStartUpScanEnd s) := by
  refine answersBounded_next (keepsBounds_guard fun _ => ?_)
  have listening : KeepsBounds s (enterStation .listening (startListening (scan s))) :=
    ((keepsBounds_scan s).trans (keepsBounds_startListening _)).trans (keepsBounds_enterStation ..)
  exact (listening.trans (keepsBounds_nextRun _)).trans (keepsBounds_advanceWalk _)

theorem answersBounded_listeningPeriodEnd (s : State) : AnswersBounded s (execListeningPeriodEnd s) := by
  refine answersBounded_next (keepsBounds_guard fun _ => ?_)
  have active : KeepsBounds s (setStation .active { s with ctl := { s.ctl with listeningSince := none } }) := .of_same rfl
  exact ((((active.trans (keepsBounds_expireSummary _)).trans (keepsBounds_pumpProfile _)).trans
    (keepsBounds_pumpReconciler _)).trans (keepsBounds_pumpFetch _)).trans (keepsBounds_post ..)

/-! ## The line -/

theorem keepsBounds_hearPeer (p : Station) (id : Option (BitVec 32)) (s : State) : KeepsBounds s (hearPeer p id s) := by
  unfold hearPeer
  dsimp only
  split
  · exact keepsBounds_changePeer ..
  · exact keepsBounds_setPeer ..
  · exact keepsBounds_ite (fun _ => (keepsBounds_changePeer ..).trans (keepsBounds_purgePeer ..)) fun _ =>
      keepsBounds_setPeer ..
  · exact keepsBounds_ite (fun _ => keepsBounds_changePeer ..) fun _ => keepsBounds_changePeer ..
  · exact keepsBounds_ite (fun _ => keepsBounds_changePeer ..) fun _ => keepsBounds_setPeer ..
  · exact keepsBounds_ite (fun _ => keepsBounds_setPeer ..) fun _ => keepsBounds_setPeer ..

/-- A frame is received where the Receive Queue has room (R86). -/
theorem keepsBounds_receive (f : Frame) (s : State) : KeepsBounds s (receive f s) := by
  refine keepsBounds_guard fun hroom => keepsBounds_rxq s fun _ => ?_
  have hlt : s.line.rxq.length < 4 := of_decide_eq_true (Bool.and_eq_true_iff.1 hroom).2
  rw [List.length_append, List.length_singleton]
  omega

theorem keepsBounds_endGood (f : Frame) (s : State) : KeepsBounds s (endGood f s) := by
  have heard : KeepsBounds s (setBase (f.source + 1) (setPhase .guardTime s)) := .of_same rfl
  refine heard.trans (keepsBounds_ite (fun _ => ?_) fun _ => ?_)
  · exact keepsBounds_ite (fun _ => .refl _) fun _ => keepsBounds_enterMute _
  · exact ((keepsBounds_hearPeer ..).trans (keepsBounds_receive ..)).trans (keepsBounds_pump _)

theorem answersBounded_frameEndGood (bytes : List Byte) (s : State) : AnswersBounded s (execFrameEndGood bytes s) := by
  refine answersBounded_next (keepsBounds_guard fun _ => ?_)
  split
  · exact keepsBounds_endGood ..
  · exact .of_same rfl

theorem answersBounded_frameStart (s : State) : AnswersBounded s (execFrameStart s) := by
  refine answersBounded_next (keepsBounds_guard fun _ => ?_)
  split <;> exact .of_same rfl

theorem keepsBounds_beginSending (s : State) : KeepsBounds s (beginSending s) := by
  unfold beginSending
  split
  · split
    · exact .of_same rfl
    · exact .refl s
  · exact .refl s

theorem answersBounded_slotStart (s : State) : AnswersBounded s (execSlotStart s) :=
  answersBounded_next (keepsBounds_guard fun _ =>
    (keepsBounds_guard fun _ => keepsBounds_beginSending s).trans (.of_same rfl))

/-- The first frame of a class, changed in its own kind or removed. -/
theorem framesFit_editFirst {c : TxClass} {f : TxFrame → Option TxFrame} (hf : ∀ t u, f t = some u → u.kind = t.kind)
    {l : List TxFrame} (h : FramesFit l) : FramesFit (editFirst c f l) := by
  have hle : (editFirst c f l).length ≤ l.length ∧
      (editFirst c f l).countP (fun t => t.kind == .summary) ≤ l.countP fun t => t.kind == .summary := by
    clear h
    induction l with
    | nil => exact ⟨le_rfl, le_rfl⟩
    | cons t l ih =>
      obtain ⟨hlen, hcount⟩ := ih
      unfold editFirst
      split
      · split
        · rename_i u hu
          exact ⟨le_rfl, by rw [List.countP_cons, List.countP_cons, hf t u hu]⟩
        · exact ⟨Nat.le_succ _, (List.sublist_cons_self t l).countP_le⟩
      · refine ⟨Nat.succ_le_succ hlen, ?_⟩
        rw [List.countP_cons, List.countP_cons]
        exact Nat.add_le_add_right hcount _
  exact ⟨hle.1.trans h.1, hle.2.trans h.2⟩

theorem collide_kind (t u : TxFrame) (h : collide t = some u) : u.kind = t.kind := by
  unfold collide at h
  split at h
  · cases h
    rfl
  · cases h

theorem answersBounded_collisionDetected (s : State) : AnswersBounded s (execCollisionDetected s) := by
  refine answersBounded_next ?_
  split
  · exact .refl s
  · refine keepsBounds_ite (fun _ => .of_same rfl) fun _ => ?_
    split
    · exact .of_same rfl
    · exact { KeepsBounds.refl s with frames := framesFit_editFirst collide_kind }

theorem keepsBounds_reportSent (r : Option Requester) (s : State) : KeepsBounds s (reportSent r s) := by
  unfold reportSent
  split
  · split <;> exact .of_same rfl
  · split <;> exact .of_same rfl
  · split <;> exact .of_same rfl
  · exact .refl s
  · exact .refl s

theorem answersBounded_transmitEnd (s : State) : AnswersBounded s (execTransmitEnd s) := by
  refine answersBounded_next ?_
  split
  · exact .refl s
  · refine keepsBounds_ite (fun _ => .of_same rfl) fun _ => ?_
    split
    · exact .of_same rfl
    · refine KeepsBounds.trans ?_ (keepsBounds_reportSent ..)
      exact { KeepsBounds.refl s with frames := framesFit_editFirst (f := fun _ => none) nofun }

theorem answersBounded_waitingFramePlaced (s : State) : AnswersBounded s (execWaitingFramePlaced s) := by
  refine answersBounded_next ?_
  split
  · refine keepsBounds_guard fun hroom => KeepsBounds.trans ?_ (keepsBounds_pumpResponder _)
    exact .after (keepsBounds_placeFor _ (of_decide_eq_true (Bool.and_eq_true_iff.1 hroom).2)) rfl
  · exact .refl s

/-! ## Takings -/

theorem answersBounded_takeFrame {k : FrameKind} {use : Frame → State → State} {s : State}
    (h : ∀ f t, KeepsBounds t (use f t)) : AnswersBounded s (takeFrame k use s) := by
  refine answersBounded_next (keepsBounds_guard fun _ => ?_)
  split
  · refine keepsBounds_guard fun _ => KeepsBounds.trans (keepsBounds_rxq s ?_) (h _ _)
    exact List.eraseP_sublist.length_le.trans
  · exact .refl s

theorem keepsBounds_useNews (f : Frame) (s : State) : KeepsBounds s (useNews f s) := by
  refine keepsBounds_guard fun _ => ?_
  split
  · exact (keepsBounds_offerArrival ..).trans (keepsBounds_spaceEvent ..)
  · exact .refl s

theorem keepsBounds_settleSupply (source : Station) (echo : Byte) (key : Key) (r : Option Record) (s : State) :
    KeepsBounds s (settleSupply source echo key r s) := by
  have settled (i : Fin 4) : KeepsBounds s (removeWant key (freeFetchSlot i s)) :=
    (keepsBounds_freeFetchSlot i s).trans (keepsBounds_removeWant ..)
  unfold settleSupply
  split
  · split
    · exact (settled _).trans (keepsBounds_offerArrival ..)
    · exact (settled _).trans (keepsBounds_pumpFetch _)
  · split
    · exact keepsBounds_offerArrival ..
    · exact .refl s

theorem keepsBounds_useSupply (f : Frame) (s : State) : KeepsBounds s (useSupply f s) := by
  refine keepsBounds_guard fun _ => ?_
  split
  · exact (keepsBounds_settleSupply ..).trans (keepsBounds_spaceEvent ..)
  · exact .refl s

/-- Only buckets that the queue does not hold are queued, each once (R125). -/
theorem keepsBounds_queuePairs (source : Station) (payload : List Byte) (s : State) :
    KeepsBounds s (queuePairs source payload s) := by
  refine keepsBounds_recon s fun hfit => ?_
  have hbuckets : ((List.range 64).map fun n => BitVec.ofNat 6 n).Nodup := by decide
  unfold PairsFit
  rw [List.map_append, List.map_map]
  refine List.nodup_append'.2 ⟨hfit, ?_, fun b hb hb' => ?_⟩
  · exact (hbuckets.filter _).map_on fun _ _ _ _ => id
  · obtain ⟨c, hc, rfl⟩ := List.mem_map.1 hb'
    obtain ⟨p, hp, hpb⟩ := List.mem_map.1 hb
    unfold differingBuckets at hc
    have hnew := (Bool.and_eq_true_iff.1 (List.mem_filter.1 hc).2).2
    rw [Bool.not_eq_true', List.any_eq_false] at hnew
    exact hnew p hp (beq_iff_eq.2 hpb)

theorem keepsBounds_useSummary (f : Frame) (s : State) : KeepsBounds s (useSummary f s) :=
  keepsBounds_guard fun _ => ((keepsBounds_raiseClock ..).trans (keepsBounds_setPeer ..)).trans
    (keepsBounds_guard fun _ => (keepsBounds_queuePairs ..).trans (keepsBounds_pumpReconciler _))

theorem keepsBounds_useProfile (f : Frame) (s : State) : KeepsBounds s (useProfile f s) :=
  keepsBounds_guard fun _ =>
    ((keepsBounds_endQueryOf ..).trans (keepsBounds_changePeer ..)).trans (keepsBounds_pump _)

theorem keepsBounds_takePart (f : Frame) (p : Pair) (placed : Placed) (expected : Nat) (s : State) :
    KeepsBounds s (takePart f p placed expected s) := by
  have compare (t : State) (h : HeardEntry) : KeepsBounds t (compareEntry f.source p.bucket t h) := by
    unfold compareEntry
    split
    · exact keepsBounds_wantAdd ..
    · exact .refl t
  refine (keepsBounds_fold compare (heardEntries (f.payload.drop 4)) s).trans (keepsBounds_ite (fun _ => ?_) fun _ => ?_)
  · exact ((keepsBounds_finishQuery _).trans (keepsBounds_pumpReconciler _)).trans (keepsBounds_pumpFetch _)
  · exact .after (keepsBounds_pumpFetch _) rfl

theorem keepsBounds_useBucketReply (f : Frame) (s : State) : KeepsBounds s (useBucketReply f s) := by
  unfold useBucketReply
  split
  · refine keepsBounds_ite (fun _ => .refl s) fun _ => keepsBounds_ite (fun _ => ?_) fun _ => ?_
    · exact (keepsBounds_failBucketQuery s).trans (keepsBounds_pumpReconciler _)
    · exact keepsBounds_takePart ..
  all_goals exact .refl s

/-- A job joins where the Reply Queue has room, or takes the place of the one it repeats (R147). -/
theorem keepsBounds_addJob (new : Job) (s : State) : KeepsBounds s (addJob new s) := by
  refine keepsBounds_ite (fun _ => keepsBounds_resp s fun h => ?_) fun _ =>
    keepsBounds_guard fun hroom => keepsBounds_resp s fun _ => ?_
  · dsimp only
    rw [List.length_map]
    exact h
  · dsimp only
    rw [List.length_append, List.length_singleton]
    exact hroom

theorem keepsBounds_acceptRequest (f : Frame) (kind : JobKind) (s : State) : KeepsBounds s (acceptRequest f kind s) :=
  keepsBounds_guard fun _ => (keepsBounds_addJob ..).trans (keepsBounds_pumpResponder _)

/-! ## Timers -/

theorem answersBounded_profileReplyTimeout (s : State) : AnswersBounded s (execProfileReplyTimeout s) := by
  refine answersBounded_next (keepsBounds_guard fun _ => KeepsBounds.trans ?_ (keepsBounds_pumpProfile _))
  exact .after (keepsBounds_dropRequest ..) rfl

theorem answersBounded_bucketReplyTimeout (s : State) : AnswersBounded s (execBucketReplyTimeout s) := by
  refine answersBounded_next (keepsBounds_guard fun _ => ?_)
  split
  · exact (keepsBounds_failBucketQuery s).trans (keepsBounds_pumpReconciler _)
  all_goals exact .refl s

theorem answersBounded_fetchReplyTimeout (i : Fin 4) (s : State) : AnswersBounded s (execFetchReplyTimeout i s) := by
  refine answersBounded_next (keepsBounds_guard fun _ => ?_)
  split
  · exact ((keepsBounds_freeFetchSlot i s).trans (keepsBounds_countAttempt ..)).trans (keepsBounds_pumpFetch _)
  all_goals exact .refl s

theorem answersBounded_silenceLimit (p : Station) (s : State) : AnswersBounded s (execSilenceLimit p s) :=
  answersBounded_next (keepsBounds_guard fun _ =>
    ((keepsBounds_changePeer ..).trans (keepsBounds_purgePeer ..)).trans (keepsBounds_pump _))

theorem answersBounded_absenceLimit (p : Station) (s : State) : AnswersBounded s (execAbsenceLimit p s) :=
  answersBounded_next (keepsBounds_guard fun _ =>
    (((keepsBounds_discardJobs p s).trans (keepsBounds_endQueryOf ..)).trans (keepsBounds_changePeer ..)).trans
      (keepsBounds_pump _))

theorem answersBounded_duplicateMarkExpiry (p : Station) (s : State) : AnswersBounded s (execDuplicateMarkExpiry p s) :=
  answersBounded_next (keepsBounds_guard fun _ => (keepsBounds_changePeer ..).trans (keepsBounds_pumpProfile _))

/-! ## The arbiter -/

theorem answersBounded_readGrant (s : State) : AnswersBounded s (execReadGrant s) := by
  refine answersBounded_next (keepsBounds_guard fun _ => ?_)
  split
  · exact (keepsBounds_settleCause s).trans (.of_same rfl)
  · exact .refl s

theorem answersBounded_appendGrant (s : State) : AnswersBounded s (execAppendGrant s) := by
  refine answersBounded_next (keepsBounds_guard fun _ => ?_)
  split
  · exact ((keepsBounds_settleCause s).trans (keepsBounds_grantSlot ..)).trans (keepsBounds_settleStore ..)
  · exact ((keepsBounds_settleCause s).trans (keepsBounds_grantCopy _)).trans (keepsBounds_settleStore ..)
  · exact .refl s

theorem answersBounded_markGrant (s : State) : AnswersBounded s (execMarkGrant s) := by
  refine answersBounded_next (keepsBounds_guard fun _ => ?_)
  split
  · exact .of_same rfl
  · exact .refl s

theorem answersBounded_eraseSuspended (s : State) : AnswersBounded s (execEraseSuspended s) := by
  refine answersBounded_next (keepsBounds_guard fun hguard => keepsBounds_suspendErase ?_)
  simp only [Bool.and_eq_true] at hguard
  exact hguard.1.2

/-! ## Completions -/

theorem answersBounded_hostReadDone (s : State) : AnswersBounded s (execHostReadDone s) := by
  refine answersBounded_next ?_
  split
  · refine (keepsBounds_clearOp s).trans ?_
    unfold answerRead
    split
    · split <;> exact keepsBounds_complete ..
    all_goals exact .refl _
  all_goals exact .refl s

theorem keepsBounds_buildSupply (found : ImageRead) (s : State) : KeepsBounds s (buildSupply found s) := by
  unfold buildSupply
  split
  · refine keepsBounds_ite (fun hroom => ?_) fun _ => .of_same rfl
    refine KeepsBounds.trans ?_ (keepsBounds_pumpResponder _)
    exact .after (keepsBounds_placeReply (length_of_hasRoom hroom)) rfl
  all_goals exact .refl s

theorem answersBounded_responderReadDone (s : State) : AnswersBounded s (execResponderReadDone s) := by
  refine answersBounded_next ?_
  split
  · exact (keepsBounds_clearOp s).trans (keepsBounds_buildSupply ..)
  · exact keepsBounds_clearOp s
  all_goals exact .refl s

theorem keepsBounds_walkOn (found : ImageRead) (s : State) : KeepsBounds s (walkOn found s) := by
  unfold walkOn
  split
  · split
    · exact keepsBounds_ite (fun _ => .of_same rfl) fun _ => .of_same rfl
    all_goals exact keepsBounds_stallCompaction ..
  all_goals exact .refl s

theorem answersBounded_compactionReadDone (s : State) : AnswersBounded s (execCompactionReadDone s) := by
  refine answersBounded_next ?_
  split
  · exact ((keepsBounds_clearOp s).trans (keepsBounds_walkOn ..)).trans (keepsBounds_settleStore ..)
  all_goals exact .refl s

theorem keepsBounds_closeIfFull (i : Nat) (s : State) : KeepsBounds s (closeIfFull i s) := by
  refine keepsBounds_modifySector i s fun x => ?_
  split
  · nofun
  · exact id

theorem keepsBounds_closeFailed (i : Nat) (s : State) : KeepsBounds s (closeFailed i s) :=
  keepsBounds_modifySector i s fun _ => nofun

theorem keepsBounds_passUpdate (i : Fin 4) (x : Slot) (loc : Loc) (old s : State) :
    KeepsBounds s (passUpdate i x loc old s) :=
  ((((keepsBounds_closeIfFull ..).trans (keepsBounds_commitSlot ..)).trans (keepsBounds_settleStore ..)).trans
    (keepsBounds_pumpFetch _)).trans (keepsBounds_offerCommitNews ..)

theorem keepsBounds_enterWaitStore (i : Fin 4) (x : Slot) (s : State) : KeepsBounds s (enterWaitStore i x s) := .of_same rfl

theorem keepsBounds_failUpdate (i : Fin 4) (x : Slot) (loc : Loc) (old s : State) :
    KeepsBounds s (failUpdate i x loc old s) :=
  ((keepsBounds_closeFailed loc.sector s).trans
    (keepsBounds_ite (fun _ => keepsBounds_failSlots ..) fun _ => keepsBounds_enterWaitStore ..)).trans
    (keepsBounds_settleStore ..)

theorem keepsBounds_endProgram (loc : Loc) (opening : Option Opening) (image failed : List Byte) (s : State) :
    KeepsBounds s (clearOp (programAppend loc opening image failed 0 s)) :=
  (keepsBounds_programAppend ..).trans (keepsBounds_clearOp _)

theorem answersBounded_updateProgramDone (failed : List Byte) (s : State) :
    AnswersBounded s (execUpdateProgramDone failed s) := by
  refine answersBounded_next ?_
  split
  · have ended := keepsBounds_endProgram
    refine keepsBounds_ite (fun _ => ended ..) fun _ => ?_
    split
    · exact keepsBounds_ite (fun _ => (ended ..).trans (keepsBounds_passUpdate ..)) fun _ =>
        (ended ..).trans (keepsBounds_failUpdate ..)
    · exact ended ..
  all_goals exact .refl s

theorem keepsBounds_passCopy (c : CopySlot) (loc : Loc) (s : State) : KeepsBounds s (passCopy c loc s) :=
  ((keepsBounds_closeIfFull loc.sector s).trans (keepsBounds_commitCopy c loc _)).trans (.of_same rfl)

theorem keepsBounds_failCopy (c : CopySlot) (loc : Loc) (s : State) : KeepsBounds s (failCopy c loc s) :=
  (keepsBounds_closeFailed loc.sector s).trans (.of_same rfl)

theorem answersBounded_copyProgramDone (failed : List Byte) (s : State) :
    AnswersBounded s (execCopyProgramDone failed s) := by
  refine answersBounded_next ?_
  split
  · have ended := keepsBounds_endProgram
    refine keepsBounds_ite (fun _ => ended ..) fun _ => ?_
    split
    · exact KeepsBounds.trans (keepsBounds_ite (fun _ => (ended ..).trans (keepsBounds_passCopy ..)) fun _ =>
        (ended ..).trans (keepsBounds_failCopy ..)) (keepsBounds_settleStore ..)
    · exact ended ..
  all_goals exact .refl s

theorem answersBounded_reclaimMarkDone (s : State) : AnswersBounded s (execReclaimMarkDone s) := by
  refine answersBounded_next ?_
  split
  · rename_i v _
    have marked := (keepsBounds_programMark v reclaimMark 0 s).trans (keepsBounds_clearOp _)
    refine keepsBounds_ite (fun _ => marked) fun _ => KeepsBounds.trans (marked.trans ?_) (keepsBounds_settleStore ..)
    exact .of_same rfl
  all_goals exact .refl s

theorem answersBounded_eraseMarkDone (s : State) : AnswersBounded s (execEraseMarkDone s) := by
  refine answersBounded_next ?_
  split
  · rename_i v _
    have marked := (keepsBounds_programMark v eraseMark 0 s).trans (keepsBounds_clearOp _)
    refine keepsBounds_ite (fun _ => marked) fun _ => KeepsBounds.trans (marked.trans ?_) (keepsBounds_settleStore ..)
    have erasing (t : State) : KeepsBounds t (modifySector v (fun x => { x with state := .erasing }) t) :=
      keepsBounds_modifySector v t fun _ => nofun
    exact (erasing _).trans (keepsBounds_placeErase ..)
  all_goals exact .refl s

theorem keepsBounds_retire (v : Nat) (markerFailed : Byte) (s : State) : KeepsBounds s (retire v markerFailed s) := by
  have marked : KeepsBounds s (dropErase (programMark v retiredMark markerFailed s)) :=
    (keepsBounds_programMark ..).trans (keepsBounds_dropErase _)
  have retired (t : State) : KeepsBounds t (modifySector v (fun x => { x with state := .retired, seq := none }) t) :=
    keepsBounds_modifySector v t fun _ => nofun
  exact (((marked.trans (retired _)).trans (keepsBounds_nextRun _)).trans
    (keepsBounds_guard fun _ => keepsBounds_failStoreWait _)).trans (keepsBounds_post ..)

theorem answersBounded_eraseDone (failed : List (Nat × Byte)) (markerFailed : Byte) (s : State) :
    AnswersBounded s (execEraseDone failed markerFailed s) := by
  refine answersBounded_next ?_
  split
  · rename_i e he
    have erased : KeepsBounds s { s with flash := s.flash.erase (headerAddr e.sector) failed } :=
      { KeepsBounds.refl s with flash := fun h => Memory.wf_erase h .. }
    refine keepsBounds_guard fun _ => keepsBounds_ite (fun _ => erased.trans ?_) fun _ => ?_
    · refine keepsBounds_erase rfl fun h x hx => ?_
      cases hx
      exact h e he
    · exact (erased.trans (keepsBounds_retire ..)).trans (keepsBounds_settleStore ..)
  · exact .refl s

theorem answersBounded_eraseCountProgrammed (s : State) : AnswersBounded s (execEraseCountProgrammed s) := by
  refine answersBounded_next ?_
  split
  · rename_i e _
    have counted : KeepsBounds s (dropErase (programEraseCount e.sector [] 0 s)) :=
      (keepsBounds_programEraseCount ..).trans (keepsBounds_dropErase _)
    have erased (t : State) : KeepsBounds t (modifySector e.sector erasedSector t) :=
      keepsBounds_modifySector _ t fun _ => nofun
    refine keepsBounds_guard fun _ => keepsBounds_ite (fun _ => counted) fun _ => ?_
    refine KeepsBounds.trans (counted.trans ((erased _).trans ?_)) (keepsBounds_settleStore ..)
    exact .after (keepsBounds_nextRun _) rfl
  · exact .refl s

/-! ## Every command -/

theorem answersBounded_exec (c : Instr) (s : State) : AnswersBounded s (exec c s) := by
  cases c with
  | status => exact answersBounded_immediate (keepsBounds_openTxn ..)
  | getReply => exact answersBounded_immediate (keepsBounds_openTxn ..)
  | readEvent => exact answersBounded_immediate (keepsBounds_takeEvent s)
  | readProfile offset => exact answersBounded_immediate (keepsBounds_openTxn ..)
  | softReset erased => exact answersBounded_immediate (keepsBounds_softResetStart ..)
  | ackDiverged => exact answersBounded_guard rfl
  | writeRecord key value => exact answersBounded_admission key false value s
  | deleteRecord key => exact answersBounded_admission key true [] s
  | readRecord key => exact answersBounded_requestCommand (keepsBounds_serveRead key)
  | listKeys start => exact answersBounded_requestCommand (keepsBounds_serveList start)
  | readPeers => exact answersBounded_requestCommand keepsBounds_servePeers
  | syncNow => exact answersBounded_requestCommand keepsBounds_serveSync
  | programConfig offset bytes => exact answersBounded_requestCommand (keepsBounds_serveProgram offset bytes)
  | lockConfig => exact answersBounded_requestCommand keepsBounds_serveLock
  | unknownCommand code => exact answersBounded_immediate (keepsBounds_openTxn ..)
  | transactionEnd clocked => exact answersBounded_transactionEnd clocked s
  | configProgramDone failed => exact answersBounded_configProgramDone failed s
  | lockCheckProgrammed failed => exact answersBounded_lockCheckProgrammed failed s
  | lockMarkerProgrammed failed => exact answersBounded_lockMarkerProgrammed failed s
  | powerOnReset cut => exact answersBounded_next ((keepsBounds_stopAll cut s).trans (.of_same rfl))
  | powerOnResetEnd p => exact answersBounded_powerOnResetEnd p s
  | pinReset cut => exact answersBounded_next ((keepsBounds_stopAll cut s).trans (.of_same rfl))
  | pinResetEnd p => exact answersBounded_pinResetEnd p s
  | softResetWaitEnd p => exact answersBounded_next (keepsBounds_guard fun _ => keepsBounds_resetEnd p s)
  | startUpScanEnd => exact answersBounded_startUpScanEnd s
  | listeningPeriodEnd => exact answersBounded_listeningPeriodEnd s
  | settlingEnd => exact answersBounded_guard rfl
  | frameStart => exact answersBounded_frameStart s
  | frameEndGood bytes => exact answersBounded_frameEndGood bytes s
  | frameEndGarbled => exact answersBounded_guard rfl
  | guardEnd => exact answersBounded_guard rfl
  | slotStart => exact answersBounded_slotStart s
  | cycleEnd => exact answersBounded_guard rfl
  | collisionDetected => exact answersBounded_collisionDetected s
  | transmitEnd => exact answersBounded_transmitEnd s
  | waitingFramePlaced => exact answersBounded_waitingFramePlaced s
  | newsTaken => exact answersBounded_takeFrame keepsBounds_useNews
  | supplyTaken => exact answersBounded_takeFrame keepsBounds_useSupply
  | summaryTaken => exact answersBounded_takeFrame keepsBounds_useSummary
  | profileTaken => exact answersBounded_takeFrame keepsBounds_useProfile
  | bucketReplyTaken => exact answersBounded_takeFrame keepsBounds_useBucketReply
  | fetchTaken => exact answersBounded_takeFrame fun f t => keepsBounds_guard fun _ => keepsBounds_acceptRequest f _ t
  | bucketQueryTaken =>
    exact answersBounded_takeFrame fun f t => keepsBounds_guard fun _ => keepsBounds_acceptRequest f _ t
  | profileQueryTaken =>
    exact answersBounded_takeFrame fun f t => keepsBounds_guard fun _ => keepsBounds_acceptRequest f _ t
  | summaryTimerExpiry => exact answersBounded_next (keepsBounds_guard fun _ => keepsBounds_expireSummary s)
  | profileReplyTimeout => exact answersBounded_profileReplyTimeout s
  | bucketReplyTimeout => exact answersBounded_bucketReplyTimeout s
  | fetchReplyTimeout slot => exact answersBounded_fetchReplyTimeout slot s
  | silenceLimit peer => exact answersBounded_silenceLimit peer s
  | absenceLimit peer => exact answersBounded_absenceLimit peer s
  | duplicateMarkExpiry peer => exact answersBounded_duplicateMarkExpiry peer s
  | readGrant => exact answersBounded_readGrant s
  | appendGrant => exact answersBounded_appendGrant s
  | markGrant => exact answersBounded_markGrant s
  | eraseGrant => exact answersBounded_next (keepsBounds_guard fun _ => keepsBounds_runErase s)
  | eraseSuspended => exact answersBounded_eraseSuspended s
  | eraseResume => exact answersBounded_next (keepsBounds_guard fun _ => keepsBounds_runErase s)
  | hostReadDone => exact answersBounded_hostReadDone s
  | responderReadDone => exact answersBounded_responderReadDone s
  | compactionReadDone => exact answersBounded_compactionReadDone s
  | updateProgramDone failed => exact answersBounded_updateProgramDone failed s
  | copyProgramDone failed => exact answersBounded_copyProgramDone failed s
  | reclaimMarkDone => exact answersBounded_reclaimMarkDone s
  | eraseMarkDone => exact answersBounded_eraseMarkDone s
  | eraseDone failed markerFailed => exact answersBounded_eraseDone failed markerFailed s
  | settlingCarrier => exact answersBounded_guard rfl
  | eraseCountProgrammed => exact answersBounded_eraseCountProgrammed s

theorem keepsBounds_exec {c : Instr} {s t : State} (h : exec c s = .next t) : KeepsBounds s t := by
  obtain ⟨u, hu, keeps⟩ := answersBounded_exec c s
  rw [hu, Host.Outcome.next.injEq] at h
  exact h ▸ keeps

/-! ## Every step -/

/-- Settles O52: every command keeps both parts of the store's law; an opening closes the OPEN sector first, and the scan
opens one sector at most. -/
theorem stepsKeepStoreLaw : Obligations.StepsKeepStoreLaw := by
  intro s t hs h
  exact step_keeps (fun _ _ _ hs h => (keepsBounds_exec h).storeLaw hs) (fun _ _ hs => ⟨hs.canonical, hs.opened⟩)
    (fun _ hs => ⟨hs.canonical, hs.opened⟩) hs h

/-- Settles O53: every command keeps each queue's and table's part of the law. -/
theorem stepsKeepQueueLaw : Obligations.StepsKeepQueueLaw := by
  intro s t hs h
  exact step_keeps (fun _ _ _ hs h => (keepsBounds_exec h).queueLaw hs)
    (fun s l => (KeepsBounds.of_same (s := s) (t := { s with pending := l }) rfl).queueLaw)
    (fun s => (KeepsBounds.of_same (s := s) (t := tick s) rfl).queueLaw) hs h

end Sys2Proof.Proofs
end

