-- ==== Sys2Proof/Proofs/Images.lean ====
section
/-! PROOFS. A record's image, programmed into blank granules, reads back as the record (R54, R184). -/

namespace Sys2Proof.Proofs
open Sys2Proof Sys2Proof.Machine

theorem length_imageHead (r : Record) : (imageHead r).length = 14 := rfl

theorem length_imageBytes (r : Record) : (imageBytes r).length = 16 * imageLen r.value.length := by
  have hcheck : (be16 (crc16 (imageHead r ++ r.value))).length = 2 := rfl
  unfold imageBytes
  simp only [List.length_append, List.length_replicate, length_imageHead, hcheck, Config.granuleBytes, imageLen]
  omega

/-- Blank bytes programmed in full hold what they are given. -/
theorem readBytes_program_blank {m : Memory} (h : m.wf) {a : Nat} {given : List Byte}
    (hblank : ∀ i, i < given.length → m.read (a + i) = 0xFF) :
    (m.program a given [] 0).readBytes a given.length = given := by
  refine (readBytes_eq_iff ..).2 fun i hi => ?_
  rw [Memory.read_program h, if_pos (by omega), hblank i hi, Nat.add_sub_cancel_left, List.getD_nil,
    List.getD_eq_getElem _ _ hi, List.getD_eq_getElem _ _ hi]
  exact (BitVec.allOnes_and (w := 8)).trans BitVec.or_zero

theorem readBytes_add (m : Memory) (a n k : Nat) :
    m.readBytes a (n + k) = m.readBytes a n ++ m.readBytes (a + n) k := by
  unfold Memory.readBytes
  rw [List.range_add, List.map_append, List.map_map]
  simp only [Function.comp_def, Nat.add_assoc]

/-- An image whose granules lie in the sector is read as its record, whatever follows it. -/
theorem parseImage_imageBytes {r : Record} (tail : List Byte) {room : Nat} (hlen : r.value.length ≤ 240)
    (hroom : imageLen r.value.length ≤ room) : parseImage (imageBytes r ++ tail) room = .image r := by
  have hcode : byteAt (imageBytes r ++ tail) 0 = 0x3C := rfl
  have hkey : wordAt (imageBytes r ++ tail) 1 = r.key := word16_of_bytes _
  have hcounter : longAt (imageBytes r ++ tail) 3 = r.stamp.counter := word32_of_bytes _
  have horigin : byteAt (imageBytes r ++ tail) 7 = stationByte r.stamp.origin := rfl
  have htomb : (byteAt (imageBytes r ++ tail) 8).getLsbD 0 = r.tomb := by
    have : byteAt (imageBytes r ++ tail) 8 = if r.tomb then 0xFF else 0xFE := rfl
    rw [this]
    cases r.tomb <;> rfl
  have hcount : (byteAt (imageBytes r ++ tail) 9).toNat = r.value.length := by
    have : byteAt (imageBytes r ++ tail) 9 = BitVec.ofNat 8 r.value.length := rfl
    rw [this, BitVec.toNat_ofNat, Nat.mod_eq_of_lt (by omega)]
  have hhead : (imageBytes r ++ tail).take 14 = imageHead r := rfl
  have hcheck : wordAt (imageBytes r ++ tail) 14 = crc16 (imageHead r ++ r.value) := word16_of_bytes _
  have hvalue : ((imageBytes r ++ tail).drop 16).take r.value.length = r.value := by
    have : (imageBytes r ++ tail).drop 16 = (r.value ++ _) ++ tail := rfl
    rw [this, List.append_assoc, List.take_left]
  have hwritten : ((imageBytes r ++ tail).take 16).all (· == 0xFF) = false :=
    List.all_eq_false.2 ⟨0x3C, List.mem_cons_self, by decide⟩
  unfold parseImage
  dsimp only
  rw [hcount, hvalue, hwritten, hcode, hhead, hcheck, horigin, stationOfByte_stationByte, hkey, hcounter, htomb]
  simp [Config.maxValue, hlen, hroom]

/-- Settles O6: the blank granules take the image as it is, and what is read at its boundary begins with it. -/
theorem imagesReadBack : Obligations.ImagesReadBack := by
  intro m l r hm hlen hfirst hlast hblank
  have himage := length_imageBytes r
  unfold imageLen at himage
  refine ⟨himage, ?_⟩
  have haddr : granuleAddr l = l.sector * 4096 + l.granule * 16 := rfl
  have hwhole : 256 = (imageBytes r).length + (256 - (imageBytes r).length) := by omega
  rw [← himage] at hblank
  rw [readImage, if_neg (by simp only [Config.imageGranules]; omega), haddr, hwhole, readBytes_add,
    readBytes_program_blank hm hblank]
  refine parseImage_imageBytes _ hlen ?_
  simp only [imageLen, Config.imageGranules]
  omega

end Sys2Proof.Proofs
end

