-- ==== Sys2Proof/Proofs/Stops.lean ====
section
/-! PROOFS. A power-on or pin reset stops every operation: what the cut programs and the cut erase leave in flash, and what
the cut programming leaves of the configuration area (R55, R79, R156). -/

namespace Sys2Proof.Proofs
open Sys2Proof Sys2Proof.Machine Sys2Proof.Stated

/-! ## Programs that only clear bits -/

/-- From one memory to another, bits are only cleared, and only at addresses of P. -/
structure ClearsAt (P : Nat → Prop) (m n : Memory) : Prop where
  wf : n.wf
  outside : ∀ a, ¬ P a → n.read a = m.read a
  clears : ∀ a, n.read a &&& m.read a = n.read a

namespace ClearsAt

theorem refl {P : Nat → Prop} {m : Memory} (h : m.wf) : ClearsAt P m m := ⟨h, fun _ _ => rfl, fun _ => BitVec.and_self⟩

theorem trans {P : Nat → Prop} {m n o : Memory} (h : ClearsAt P m n) (k : ClearsAt P n o) : ClearsAt P m o where
  wf := k.wf
  outside a ha := (k.outside a ha).trans (h.outside a ha)
  clears a := by rw [← k.clears a, BitVec.and_assoc, h.clears]

theorem mono {P Q : Nat → Prop} {m n : Memory} (h : ClearsAt P m n) (hPQ : ∀ a, P a → Q a) : ClearsAt Q m n where
  wf := h.wf
  outside a ha := h.outside a (mt (hPQ a) ha)
  clears := h.clears

end ClearsAt

theorem and_and_left_self (b c : Byte) : (b &&& c) &&& b = b &&& c := by
  rw [BitVec.and_comm b c, BitVec.and_assoc, BitVec.and_self]

/-- A program clears bits of the bytes it is given. -/
theorem clearsAt_program {m : Memory} (h : m.wf) (a : Nat) (given failed : List Byte) (rest : Byte) :
    ClearsAt (fun x => a ≤ x ∧ x < a + given.length) m (m.program a given failed rest) where
  wf := Memory.wf_program h ..
  outside x hx := by rw [Memory.read_program h, if_neg hx]
  clears x := by
    rw [Memory.read_program h]
    split
    · exact and_and_left_self ..
    · exact BitVec.and_self

/-- An opening record is given FFh where it programs nothing (R184). -/
theorem getD_openingGranule_blank (o : Opening) {i : Nat} (hi : i < 3 ∨ i = 15) :
    (openingGranule o).getD i 0xFF = 0xFF := by
  obtain rfl | rfl | rfl | rfl : i = 0 ∨ i = 1 ∨ i = 2 ∨ i = 15 := by omega
  all_goals rfl

theorem clearsAt_openingGranule {m : Memory} (h : m.wf) (v : Nat) (o : Opening) (failed : List Byte) (rest : Byte) :
    ClearsAt (fun a => v * 4096 + 3 ≤ a ∧ a < v * 4096 + 15) m
      (m.program (headerAddr v) (openingGranule o) failed rest) := by
  have programmed := clearsAt_program h (headerAddr v) (openingGranule o) failed rest
  refine ⟨programmed.wf, fun a ha => ?_, programmed.clears⟩
  have hlen : (openingGranule o).length = 16 := rfl
  rw [Memory.read_program h]
  split
  · rename_i hin
    rw [hlen, headerAddr_eq] at hin
    rw [headerAddr_eq, getD_openingGranule_blank o (by omega)]
    exact (congrArg _ BitVec.allOnes_or).trans BitVec.and_allOnes
  · rfl

/-! ## What a cut leaves in flash -/

/-- The addresses that an APPEND's program or a MARK in flight is changing. -/
def opInFlight (s : State) (a : Nat) : Prop :=
  (∃ who loc opening image, s.store.op = some (.append who loc opening image) ∧
    ((loc.sector * 4096 + loc.granule * 16 ≤ a ∧ a < loc.sector * 4096 + loc.granule * 16 + image.length) ∨
     (opening ≠ none ∧ loc.sector * 4096 + 3 ≤ a ∧ a < loc.sector * 4096 + 15))) ∨
  ∃ kind v, s.store.op = some (.mark kind v) ∧ a = v * 4096 + 15

/-- The addresses that the ERASE's erase-count program is changing. -/
def countInFlight (s : State) (a : Nat) : Prop :=
  ∃ e, s.store.erase = some e ∧ e.phase = .counting ∧ e.sector * 4096 ≤ a ∧ a < e.sector * 4096 + 3

theorem inFlight_iff (s : State) (a : Nat) : inFlight s a ↔ opInFlight s a ∨ erasing s a ∨ countInFlight s a := by
  unfold inFlight opInFlight countInFlight
  rw [or_assoc]

/-- An APPEND's program clears bits of the opening record, where it opens the sector, and of the image. -/
theorem clearsAt_programAppend {P : Nat → Prop} {s : State} (h : FlashLaw s) (loc : Loc) (opening : Option Opening)
    (image failed : List Byte) (rest : Byte)
    (himage : ∀ a, granuleAddr loc ≤ a ∧ a < granuleAddr loc + image.length → P a)
    (hopening : opening ≠ none → ∀ a, loc.sector * 4096 + 3 ≤ a ∧ a < loc.sector * 4096 + 15 → P a) :
    ClearsAt P s.flash (programAppend loc opening image failed rest s).flash := by
  cases opening with
  | none =>
    dsimp only [programAppend, programFlash]
    exact (clearsAt_program h _ image failed rest).mono himage
  | some o =>
    dsimp only [programAppend, programFlash]
    have opened := (clearsAt_openingGranule h loc.sector o (failed.take Config.granuleBytes) rest).mono (hopening nofun)
    exact opened.trans ((clearsAt_program opened.wf _ image (failed.drop Config.granuleBytes) rest).mono himage)

/-- Programs and marks that are cut only clear bits, of what they were given. -/
theorem clearsAt_cutOp (cut : Cut) {s : State} (h : FlashLaw s) :
    ClearsAt (opInFlight s) s.flash (cutOp cut s).flash := by
  unfold cutOp
  split
  · rename_i who loc opening image hop
    exact clearsAt_programAppend h loc opening image _ _ (fun a ha => .inl ⟨who, loc, opening, image, hop, .inl ha⟩)
      fun hopening a ha => .inl ⟨who, loc, opening, image, hop, .inr ⟨hopening, ha⟩⟩
  · rename_i kind v hop
    refine (clearsAt_program h ..).mono fun a ha => .inr ⟨kind, v, hop, ?_⟩
    rw [headerAddr_eq, List.length_singleton] at ha
    omega
  · exact .refl h
  · exact .refl h

/-- An erase that is cut sets bits of the sector's body; in its erase-count program it clears bits of the erase count. -/
structure ErasesAt (s : State) (m : Memory) : Prop where
  wf : m.wf
  outside : ∀ a, ¬ erasing s a → ¬ countInFlight s a → m.read a = s.flash.read a
  clears : ∀ a, ¬ erasing s a → m.read a &&& s.flash.read a = m.read a
  sets : ∀ a, erasing s a → m.read a ||| s.flash.read a = m.read a

theorem not_erasing {s : State} {e : EraseReq} (he : s.store.erase = some e) (hrun : e.phase ≠ .running)
    (hsusp : e.phase ≠ .suspended) (a : Nat) : ¬ erasing s a := by
  rintro ⟨e', he', hphase, -⟩
  obtain rfl : e = e' := Option.some.inj (he.symm.trans he')
  exact hphase.elim hrun hsusp

/-- Nothing of an erase is in flight. -/
theorem erasesAt_refl {s : State} (h : FlashLaw s) (hnone : ∀ a, ¬ erasing s a) : ErasesAt s s.flash :=
  ⟨h, fun _ _ _ => rfl, fun _ _ => BitVec.and_self, fun a ha => absurd ha (hnone a)⟩

theorem erasesAt_eraseSome {s : State} (h : FlashLaw s) {e : EraseReq} (he : s.store.erase = some e)
    (hphase : e.phase = .running ∨ e.phase = .suspended) (erased : List (Nat × Byte)) :
    ErasesAt s (s.flash.eraseSome (headerAddr e.sector) erased) := by
  have outside (a : Nat) (ha : ¬ erasing s a) :
      (s.flash.eraseSome (headerAddr e.sector) erased).read a = s.flash.read a := by
    refine Memory.read_eraseSome_outside h erased ?_
    by_contra hin
    rw [headerAddr_eq] at hin
    exact ha ⟨e, he, hphase, by omega, by omega⟩
  exact
    { wf := Memory.wf_eraseSome h ..
      outside := fun a ha _ => outside a ha
      clears := fun a ha => by rw [outside a ha, BitVec.and_self]
      sets := fun a _ => Memory.read_eraseSome_sets h .. }

/-- The ERASE of a cut state, abandoned. -/
theorem erasesAt_abandonErase (erased : List (Nat × Byte)) {s : State} (h : FlashLaw s) :
    ErasesAt s (abandonErase erased s).flash := by
  unfold abandonErase
  split
  · rename_i e he
    split
    case h_1 hphase => exact erasesAt_refl h (not_erasing he (by rw [hphase]; nofun) (by rw [hphase]; nofun))
    case h_2 hphase => exact erasesAt_eraseSome h he (.inl hphase) erased
    case h_3 hphase => exact erasesAt_eraseSome h he (.inr hphase) erased
    case h_4 hphase => exact erasesAt_refl h (not_erasing he (by rw [hphase]; nofun) (by rw [hphase]; nofun))
  · rename_i he
    refine erasesAt_refl h ?_
    rintro a ⟨e, he', -⟩
    rw [he] at he'
    cases he'

theorem erasesAt_cutErase (cut : Cut) {s : State} (h : FlashLaw s) : ErasesAt s (cutErase cut s).flash := by
  unfold cutErase
  split
  · rename_i e he
    split
    case h_4 hphase =>
      have counted := clearsAt_program h (headerAddr e.sector) (eraseCountBytes (nextEraseCount (eraseCountOf s e.sector)))
        cut.notYet 0xFF
      exact
        { wf := counted.wf
          outside := fun a _ ha => counted.outside a fun hin => ha ⟨e, he, hphase, hin⟩
          clears := fun a _ => counted.clears a
          sets := fun a ha => absurd ha (not_erasing he (by rw [hphase]; nofun) (by rw [hphase]; nofun) a) }
    all_goals exact erasesAt_abandonErase cut.erased h
  · rename_i he
    refine erasesAt_refl h ?_
    rintro a ⟨e, he', -⟩
    rw [he] at he'
    cases he'

/-! ## What a cut leaves of the configuration area -/

/-- The area after a programming: the bytes named are ANDed with the given ones, but for the bits that did not take (R161). -/
theorem getElem_programArea (v : Vector Byte 64) (i : Nat) (given failed : List Byte) (rest : Byte) (k : Nat) (hk : k < 64) :
    (programArea v i given failed rest)[k] =
      if i ≤ k ∧ k < i + given.length then v[k] &&& (given.getD (k - i) 0xFF ||| failed.getD (k - i) rest) else v[k] := by
  induction given generalizing v i failed with
  | nil => rw [programArea, if_neg (by simp)]
  | cons g gs ih =>
    rw [programArea, ih, Vector.getElem_setIfInBounds hk]
    by_cases hki : i = k
    · subst hki
      rw [if_neg (by omega), if_pos rfl, if_pos (by simp), Vector.getElem?_eq_getElem hk]
      cases failed <;> simp
    · rw [if_neg hki]
      by_cases hin : i + 1 ≤ k ∧ k < i + 1 + gs.length
      · rw [if_pos hin, if_pos (by simp; omega)]
        obtain ⟨n, hn⟩ : ∃ n, k - i = n + 1 := ⟨k - i - 1, by omega⟩
        rw [hn, show k - (i + 1) = n by omega]
        cases failed <;> simp
      · rw [if_neg hin, if_neg (by simp; omega)]

/-- The bytes of the area once a programming of it is cut. -/
def cutArea (cut : Cut) (c : ConfigArea) : Vector Byte 64 :=
  match c.prog with
  | some p => programArea c.bytes p.given.1 p.given.2 cut.config 0xFF
  | none => c.bytes

theorem cutArea_clears (cut : Cut) (c : ConfigArea) (i : Fin 64) : (cutArea cut c)[i] &&& c.bytes[i] = (cutArea cut c)[i] := by
  unfold cutArea
  split
  · rw [Fin.getElem_fin, getElem_programArea]
    split
    · exact and_and_left_self ..
    · exact BitVec.and_self
  · exact BitVec.and_self

theorem cutArea_outside (cut : Cut) {s : State} {i : Fin 64} (h : ¬ configInFlight s i.val) :
    (cutArea cut s.cfg)[i] = s.cfg.bytes[i] := by
  unfold cutArea
  split
  · rename_i p hp
    rw [Fin.getElem_fin, getElem_programArea, if_neg fun hin => h ⟨p, hp, hin⟩]
    rfl
  · rfl

/-! ## The state that is left -/

theorem programAppend_eq (loc : Loc) (opening : Option Opening) (image failed : List Byte) (rest : Byte) (s : State) :
    ∃ m, programAppend loc opening image failed rest s = { s with flash := m } := by
  unfold programAppend
  split <;> exact ⟨_, rfl⟩

theorem cutOp_eq_endOp (cut : Cut) (s : State) : ∃ m, cutOp cut s = endOp m s := by
  unfold cutOp
  split
  · rename_i loc opening image _
    obtain ⟨m, hm⟩ := programAppend_eq loc opening image
      (List.replicate (Config.granuleBytes * cut.whole) 0 ++ cut.notYet) 0xFF s
    exact ⟨m, by rw [hm]; rfl⟩
  · exact ⟨_, rfl⟩
  · exact ⟨_, rfl⟩
  · rename_i hop
    exact ⟨s.flash, by rw [endOp, ← hop]⟩

theorem cutOp_eq (cut : Cut) (s : State) : cutOp cut s = endOp (cutOp cut s).flash s := by
  obtain ⟨m, hm⟩ := cutOp_eq_endOp cut s
  rw [hm]
  rfl

theorem cutErase_eq_flash (cut : Cut) (s : State) :
    ∃ m, cutErase cut s = { s with flash := m, store := { s.store with erase := none } } := by
  unfold cutErase
  split
  · rename_i e he
    split
    case h_4 => exact ⟨_, rfl⟩
    all_goals
      rename_i hphase
      have hdropped : countingOnly s.store.erase = none := by
        rw [he, countingOnly, hphase]
        rfl
      exact ⟨partlyErased s cut.erased, by rw [abandonErase_eq, hdropped]⟩
  · rename_i he
    exact ⟨s.flash, by rw [← he]⟩

theorem cutErase_eq (cut : Cut) (s : State) :
    cutErase cut s = { s with flash := (cutErase cut s).flash, store := { s.store with erase := none } } := by
  obtain ⟨m, hm⟩ := cutErase_eq_flash cut s
  rw [hm]

theorem cutConfig_eq (cut : Cut) (s : State) :
    cutConfig cut s = { s with cfg := { bytes := cutArea cut s.cfg, prog := none } } := by
  unfold cutConfig cutArea
  cases hprog : s.cfg.prog with
  | some p => rfl
  | none => exact congrArg (fun c => { s with cfg := c }) (congrArg (ConfigArea.mk s.cfg.bytes) hprog)

/-- Flash once the operation and the ERASE in flight are cut. -/
def cutFlash (cut : Cut) (s : State) : Memory := (cutErase cut (cutOp cut s)).flash

/-- Everything that a reset stops, and nothing else, is over. -/
theorem stopAll_eq (cut : Cut) (s : State) :
    stopAll cut s =
      { s with
        ctl := { s.ctl with softWait := false }
        cfg := { bytes := cutArea cut s.cfg, prog := none }
        host := { s.host with txn := none }
        store := { s.store with op := none, erase := none }
        flash := cutFlash cut s
        line := { s.line with sending := none } } := by
  have hflash : (cutErase cut (cutOp cut s)).flash = cutFlash cut s := rfl
  unfold stopAll
  rw [cutConfig_eq, cutErase_eq, hflash, cutOp_eq]
  rfl

theorem erasesAt_cutFlash (cut : Cut) {s : State} (h : FlashLaw s) : ErasesAt (cutOp cut s) (cutFlash cut s) :=
  erasesAt_cutErase cut (clearsAt_cutOp cut h).wf

theorem erasing_cutOp (cut : Cut) (s : State) : erasing (cutOp cut s) = erasing s := by
  unfold erasing
  rw [cutOp_eq]
  rfl

theorem countInFlight_cutOp (cut : Cut) (s : State) : countInFlight (cutOp cut s) = countInFlight s := by
  unfold countInFlight
  rw [cutOp_eq]
  rfl

theorem cutOp_flash_of_no_op (cut : Cut) {s : State} (h : s.store.op = none) : (cutOp cut s).flash = s.flash := by
  unfold cutOp
  rw [h]

/-- Settles O19: the cut programs only clear bits and the cut erase only sets them, each where it was at work. -/
theorem resetsStopAllWork : Obligations.ResetsStopAllWork := by
  intro s cut h
  have cleared := clearsAt_cutOp cut h
  have erased := erasesAt_cutFlash cut h
  have houtside := erased.outside
  have hclears := erased.clears
  have hsets := erased.sets
  rw [erasing_cutOp] at houtside hclears hsets
  rw [countInFlight_cutOp] at houtside
  refine ⟨cutFlash cut s, cutArea cut s.cfg, ?_, erased.wf, fun a ha => ?_, fun a ha => ?_, fun hop a ha => ?_,
    cutArea_clears cut s.cfg, fun _ hi => cutArea_outside cut hi⟩
  · rintro c (rfl | rfl)
    · show Host.Outcome.next _ = _
      rw [stopAll_eq, if_pos rfl, if_neg nofun]
    · show Host.Outcome.next _ = _
      rw [stopAll_eq, if_neg nofun, if_pos rfl]
  · rw [inFlight_iff, not_or, not_or] at ha
    obtain ⟨hop, herase, hcount⟩ := ha
    rw [houtside a herase hcount, cleared.outside a hop]
  · rw [← hclears a ha, BitVec.and_assoc, cleared.clears]
  · have set := hsets a ha
    rwa [cutOp_flash_of_no_op cut hop] at set

end Sys2Proof.Proofs
end

