-- ==== Sys2Proof/Proofs/Grants.lean ====
section
/-! PROOFS. The arbiter's order: what each grant needs, and that nothing is granted out of its turn (R58, R59, R64). -/

namespace Sys2Proof.Proofs
open Sys2Proof Sys2Proof.Machine Sys2Proof.Stated

/-! ## What waits -/

theorem earliestReady_eq_none_iff {s : State} :
    earliestReady s = none ↔ ∀ (i : Fin 4) (x : Slot), s.upd.slots[i] = some x → x.phase ≠ .waitStore := by
  refine ⟨fun hnone i => readyPosition_eq_none.1 ?_, earliestReady_eq_none⟩
  have hfound := foundReady_foldl s (l := slotNumbers) (by decide)
  rw [Option.map_eq_none_iff.1 hnone] at hfound
  exact hfound i (mem_slotNumbers i)

theorem nextAppend_eq_none_iff {s : State} : nextAppend s = none ↔ NoAppend s := by
  have hcopy : copyWaits s = false ↔ ∀ c, ¬ CopyWaits s c := by
    rw [← Bool.not_eq_true, copyWaits_iff, not_exists]
  unfold nextAppend NoAppend
  rw [← hcopy, ← earliestReady_eq_none_iff]
  cases copyWaits s with
  | false => cases earliestReady s <;> simp
  | true => cases isUrgent s <;> cases earliestReady s <;> simp

theorem readOrAppendWaits_iff {s : State} : readOrAppendWaits s = true ↔ s.store.reads ≠ [] ∨ ¬ NoAppend s := by
  unfold readOrAppendWaits
  rw [Bool.or_eq_true, Bool.not_eq_true', List.isEmpty_eq_false_iff, ← nextAppend_eq_none_iff, Option.isSome_iff_ne_none]

theorem readOrAppendWaits_eq_false {s : State} (hreads : s.store.reads = []) (happend : NoAppend s) :
    readOrAppendWaits s = false := by
  rw [← Bool.not_eq_true, readOrAppendWaits_iff]
  exact fun h => h.elim (· hreads) (· happend)

theorem eraseIn_eq {s : State} {e : EraseReq} (h : s.store.erase = some e) (p : ErasePhase) :
    eraseIn s p = (e.phase == p) := by
  rw [eraseIn, h]

theorem suspensionsLeft_eq {s : State} {e : EraseReq} (h : s.store.erase = some e) :
    suspensionsLeft s = decide (e.suspensions < 8) := by
  rw [suspensionsLeft, h]

/-! ## The grants of a free store -/

section
variable {s : State} (hup : Up s) (hfree : StoreFree s)
include hup hfree

theorem exec_readGrant_of_read {r : ReadReq} {rest : List ReadReq} (hreads : s.store.reads = r :: rest)
    (hcause : ∀ i x, ¬ Caused s i x) :
    exec .readGrant s =
      .next
        { s with
          store :=
            { s.store with
              reads := rest, op := some (.read r.owner (readImage s.flash r.loc)), erase := settled s.store.erase } } := by
  rw [exec_readGrant, execReadGrant, isUp_iff.2 hup, storeFree_iff.2 hfree, causeSlot_eq_none hcause, hreads]
  rfl

/-- While a READ waits that no APPEND comes before, no APPEND is granted. -/
theorem exec_appendGrant_of_read {r : ReadReq} {rest : List ReadReq} (hreads : s.store.reads = r :: rest)
    (hcause : ∀ i x, ¬ Caused s i x) : exec .appendGrant s = .next s := by
  rw [exec_appendGrant, execAppendGrant, isUp_iff.2 hup, storeFree_iff.2 hfree, appendToGrant, causeSlot_eq_none hcause,
    hreads]
  rfl

theorem exec_markGrant_of_mark {kind : MarkKind} {v : Nat} (hreads : s.store.reads = []) (happend : NoAppend s)
    (hmark : s.store.mark = some (kind, v)) :
    exec .markGrant s = .next { s with store := { s.store with mark := none, op := some (.mark kind v) } } := by
  rw [exec_markGrant, execMarkGrant, isUp_iff.2 hup, storeFree_iff.2 hfree, readOrAppendWaits_eq_false hreads happend,
    hmark]
  rfl

theorem exec_eraseGrant_of_waiting {e : EraseReq} (hreads : s.store.reads = []) (happend : NoAppend s)
    (hmark : s.store.mark = none) (herase : s.store.erase = some e) (hphase : e.phase = .waiting) :
    exec .eraseGrant s = .next { s with store := { s.store with erase := some { e with phase := .running } } } := by
  rw [exec_eraseGrant, execEraseGrant, isUp_iff.2 hup, storeFree_iff.2 hfree, readOrAppendWaits_eq_false hreads happend,
    hmark, eraseIn_eq herase, hphase, runErase, herase]
  rfl

theorem exec_eraseResume_of_suspended {e : EraseReq} (hreads : s.store.reads = []) (happend : NoAppend s)
    (hmark : s.store.mark = none) (herase : s.store.erase = some e) (hphase : e.phase = .suspended) :
    exec .eraseResume s = .next { s with store := { s.store with erase := some { e with phase := .running } } } := by
  rw [exec_eraseResume, execEraseResume, isUp_iff.2 hup, storeFree_iff.2 hfree,
    readOrAppendWaits_eq_false hreads happend, hmark, eraseIn_eq herase, hphase, runErase, herase]
  rfl

end

/-! ## Grants out of their turn -/

/-- The APPEND that caused a suspension comes before every READ (R64). -/
theorem exec_readGrant_of_caused {s : State} {i : Fin 4} {x : Slot} (h : Caused s i x) :
    exec .readGrant s = .next s := by
  rw [exec_readGrant, execReadGrant, if_neg]
  rw [causeSlot_eq_some.2 ⟨x, h⟩]
  simp

/-- A READ or APPEND that waits comes before a MARK and before the ERASE. -/
theorem exec_of_readOrAppendWaits {s : State} (h : readOrAppendWaits s = true) :
    exec .markGrant s = .next s ∧ exec .eraseGrant s = .next s ∧ exec .eraseResume s = .next s := by
  refine ⟨?_, ?_, ?_⟩
  · rw [exec_markGrant, execMarkGrant, if_neg (by simp [h])]
  · rw [exec_eraseGrant, execEraseGrant, if_neg (by simp [h])]
  · rw [exec_eraseResume, execEraseResume, if_neg (by simp [h])]

/-- A MARK that waits comes before the ERASE. -/
theorem exec_of_markWaits {s : State} {m : MarkKind × Nat} (h : s.store.mark = some m) :
    exec .eraseGrant s = .next s ∧ exec .eraseResume s = .next s := by
  constructor
  · rw [exec_eraseGrant, execEraseGrant, if_neg (by simp [h])]
  · rw [exec_eraseResume, execEraseResume, if_neg (by simp [h])]

theorem exec_of_not_storeFree {s : State} (h : ¬ StoreFree s) {c : Instr}
    (hc : c = .readGrant ∨ c = .appendGrant ∨ c = .markGrant ∨ c = .eraseGrant ∨ c = .eraseResume) :
    exec c s = .next s := by
  have hfree : storeFree s = false := by rwa [← Bool.not_eq_true, storeFree_iff]
  rcases hc with rfl | rfl | rfl | rfl | rfl
  · rw [exec_readGrant, execReadGrant, if_neg (by simp [hfree])]
  · rw [exec_appendGrant, execAppendGrant, if_neg (by simp [hfree])]
  · rw [exec_markGrant, execMarkGrant, if_neg (by simp [hfree])]
  · rw [exec_eraseGrant, execEraseGrant, if_neg (by simp [hfree])]
  · rw [exec_eraseResume, execEraseResume, if_neg (by simp [hfree])]

/-! ## Suspensions (R64) -/

theorem exec_eraseSuspended_of_cause {s : State} {e : EraseReq} (hup : Up s) (herase : s.store.erase = some e)
    (hphase : e.phase = .running) (hwaits : readOrAppendWaits s = true) (hleft : e.suspensions < 8) :
    exec .eraseSuspended s =
      .next
        { s with
          store :=
            { s.store with
              erase := some { e with phase := .suspended, suspensions := e.suspensions + 1, owes := true } } } := by
  rw [exec_eraseSuspended, execEraseSuspended, isUp_iff.2 hup, eraseIn_eq herase, hphase, suspensionsLeft_eq herase,
    hwaits, decide_eq_true hleft, suspendErase, herase]
  rfl

theorem exec_eraseSuspended_of_no_cause {s : State} {e : EraseReq} (herase : s.store.erase = some e)
    (h : 8 ≤ e.suspensions ∨ readOrAppendWaits s = false) : exec .eraseSuspended s = .next s := by
  rw [exec_eraseSuspended, execEraseSuspended, suspensionsLeft_eq herase, if_neg]
  rcases h with hmet | hnone
  · simp [hmet]
  · simp [hnone]

/-- Settles O42: each grant's guard, read as what waits before it. -/
theorem theArbiterGrantsInOrder : Obligations.TheArbiterGrantsInOrder := by
  refine ⟨fun s hup hfree => ⟨fun r rest hreads hcause => ?_, fun i x => exec_readGrant_of_caused, fun hwaits => ?_,
    fun kind v hreads happend hmark => ?_, fun e hreads happend hmark herase => ⟨fun hphase => ?_, fun hphase => ?_⟩⟩,
    fun s hfree c => exec_of_not_storeFree hfree, fun s e hup herase hphase => ⟨fun hwaits hleft => ?_, fun h => ?_⟩⟩
  · exact ⟨exec_readGrant_of_read hup hfree hreads hcause, exec_appendGrant_of_read hup hfree hreads hcause⟩
  · exact exec_of_readOrAppendWaits (readOrAppendWaits_iff.2 hwaits)
  · exact ⟨exec_markGrant_of_mark hup hfree hreads happend hmark, exec_of_markWaits hmark⟩
  · exact exec_eraseGrant_of_waiting hup hfree hreads happend hmark herase hphase
  · exact exec_eraseResume_of_suspended hup hfree hreads happend hmark herase hphase
  · exact exec_eraseSuspended_of_cause hup herase hphase (readOrAppendWaits_iff.2 hwaits) hleft
  · exact exec_eraseSuspended_of_no_cause herase
      (h.imp_right fun ⟨hreads, happend⟩ => readOrAppendWaits_eq_false hreads happend)

end Sys2Proof.Proofs
end

