-- ==== Sys2Proof/Proofs/Compacts.lean ====
section
/-! PROOFS. What follows from changed sector states and live counts: the space test, the trigger with its choice of victim,
the walk (R67, R68, R69, R71, R73, R74). -/

namespace Sys2Proof.Proofs
open Sys2Proof Sys2Proof.Machine Sys2Proof.Stated

/-! ## The space test (R67) -/

/-- Phase and victim are the same when both are in COPYING, or both stalled, or nothing differs. -/
theorem phase_eq_iff {c d : Compaction} :
    c.phase = d.phase ↔
      (∃ v n m, c = .copying v n ∧ d = .copying v m) ∨ (∃ v n m, c = .stalled v n ∧ d = .stalled v m) ∨ c = d := by
  constructor
  · cases c <;> cases d <;> simp +contextual [Compaction.phase]
  · rintro (⟨v, n, m, rfl, rfl⟩ | ⟨v, n, m, rfl, rfl⟩ | rfl) <;> rfl

theorem map_slotNumbers_eq_iff {α : Type} {f g : Fin 4 → α} : slotNumbers.map f = slotNumbers.map g ↔ ∀ i, f i = g i := by
  rw [List.map_inj_left]
  exact forall_congr' fun i => ⟨fun h => h (mem_slotNumbers i), fun h _ => h⟩

theorem spaceView_eq_iff {old s : State} : spaceView old = spaceView s ↔ Unchanged old s := by
  unfold spaceView Unchanged
  rw [Prod.mk.injEq, Prod.mk.injEq, map_slotNumbers_eq_iff, phase_eq_iff]

theorem spaceEvent_of_changed {old s : State} (h : ¬ Unchanged old s) : spaceEvent old s = spaceTest s := by
  rw [spaceEvent, if_neg (mt spaceView_eq_iff.1 h)]

theorem outOfSpace_iff {s : State} :
    outOfSpace s = true ↔
      (∃ (i : Fin 4) (x : Slot), s.upd.slots[i] = some x ∧ x.phase = .storeWait) ∨
      (∃ v cursor, s.store.comp = .stalled v cursor) ∨ Hopeless s 16 := by
  rw [outOfSpace, Bool.or_eq_true, Bool.or_eq_true, any_inStoreWait_iff, isStalled_iff, hopeless_iff, or_assoc]

/-- The alert is posted at entering the condition. -/
theorem spaceTest_of_entering {s : State} (hout : outOfSpace s = true) (hlow : s.store.low = false) :
    spaceTest s = { s with store := { s.store with low := true }, host := s.host.post (.storeAlert .spaceLow) } := by
  rw [spaceTest, hout, hlow]
  rfl

theorem spaceTest_of_not_entering {s : State} (h : outOfSpace s = false ∨ s.store.low = true) :
    spaceTest s = { s with store := { s.store with low := outOfSpace s } } := by
  rw [spaceTest, if_neg]
  rcases h with hout | hlow
  · simp [hout]
  · simp [hlow]

/-! ## The trigger (R68, R69) -/

theorem testTrigger_of_trigger {s : State} (hidle : s.store.comp = .idle) (herased : erasedCount s ≤ 2)
    (hdead : DeadGranule s) : testTrigger s = beginCompaction s := by
  rw [testTrigger, if_pos]
  simp [hidle, trigger, herased, fullWithDead_iff.2 hdead]

theorem testTrigger_of_no_trigger {s : State} (h : s.store.comp ≠ .idle ∨ 2 < erasedCount s ∨ ¬ DeadGranule s) :
    testTrigger s = s := by
  rcases h with hcomp | herased | hdead
  · exact testTrigger_of_not_idle hcomp
  · rw [testTrigger, if_neg]
    simp [trigger, herased]
  · exact testTrigger_of_no_dead hdead

/-- The lowest-numbered marked sector is the victim, and its copying begins at once. -/
theorem beginCompaction_of_marked {s : State} {v : Nat} {x : Sector} (hx : s.store.sectors[v]? = some x)
    (hfull : x.state = .full) (hmark : x.reclaim = true)
    (hfirst : ∀ n y, n < v → s.store.sectors[n]? = some y → y.state = .full → y.reclaim = false) :
    beginCompaction s =
      { s with
        store :=
          { s.store with sectors := s.store.sectors.set v { x with state := .reclaiming }, comp := .copying v 1 } } := by
  obtain ⟨l, hl⟩ := markedFull_eq_cons hx hfull hmark hfirst
  rw [beginCompaction, hl]
  simp only [setComp, modifySector, modify_eq_set _ hx]

/-- A sector with fewer live granules, or as many and a lower sequence number, measures less. -/
theorem victimMeasure_lt {s : State} {v n : Nat} {x y : Sector} (hx : s.store.sectors[v]? = some x)
    (hy : s.store.sectors[n]? = some y)
    (h : x.live < y.live ∨ (x.live = y.live ∧ (x.seq.getD 0).toNat < (y.seq.getD 0).toNat)) :
    victimMeasure s v < victimMeasure s n := by
  rw [victimMeasure_eq hx, victimMeasure_eq hy]
  have hbound := (x.seq.getD 0).isLt
  omega

theorem chooseVictim_eq_some {s : State} {v : Nat} {x : Sector} (hx : s.store.sectors[v]? = some x) (hfull : x.state = .full)
    (hleast : ∀ n y, n ≠ v → s.store.sectors[n]? = some y → y.state = .full →
      x.live < y.live ∨ (x.live = y.live ∧ (x.seq.getD 0).toNat < (y.seq.getD 0).toNat)) :
    chooseVictim s = some v := by
  refine argmin_eq_some _ _ _ (mem_sectorsWith.2 ⟨x, hx, by simp [hfull]⟩) (sectorsWith_sorted s _) fun n hn => ?_
  obtain ⟨y, hy, hyfull⟩ := mem_sectorsWith.1 hn
  by_cases hnv : n = v
  · exact .inr ⟨by rw [hnv], hnv.ge⟩
  · exact .inl (victimMeasure_lt hx hy (hleast n y hnv hy (beq_iff_eq.1 hyfull)))

/-- With no marked sector the one that measures least is the victim, and its mark comes first. -/
theorem beginCompaction_of_unmarked {s : State} {v : Nat} {x : Sector}
    (hunmarked : ∀ y ∈ s.store.sectors, y.state = .full → y.reclaim = false) (hx : s.store.sectors[v]? = some x)
    (hfull : x.state = .full)
    (hleast : ∀ n y, n ≠ v → s.store.sectors[n]? = some y → y.state = .full →
      x.live < y.live ∨ (x.live = y.live ∧ (x.seq.getD 0).toNat < (y.seq.getD 0).toNat)) :
    beginCompaction s =
      { s with
        store :=
          { s.store with
            sectors := s.store.sectors.set v { x with state := .reclaiming, reclaim := true }
            comp := .marking v
            mark := some (.reclaimBegun, v) } } := by
  rw [beginCompaction, markedFull_eq_nil hunmarked]
  simp only [chooseVictim_eq_some hx hfull hleast, modifySector, modify_eq_set _ hx]

/-! ## The walk (R71, R73, R74) -/

theorem walkReads_iff {s : State} : walkReads s = true ↔ WalkReads s := by
  unfold walkReads WalkReads
  rw [Bool.or_eq_true, List.any_eq_true]
  refine or_congr (exists_congr fun r => and_congr_right fun _ => beq_iff_eq) ?_
  split
  · rename_i owner found hop
    rw [beq_iff_eq, hop]
    exact ⟨fun h => ⟨found, by rw [h]⟩, fun ⟨f, h⟩ => by cases h; rfl⟩
  all_goals rename_i hop; simp [hop]

/-- The walk places its next READ once the copy slot is FREE. -/
theorem advanceWalk_of_next {s : State} {v cursor : Nat} (hcomp : s.store.comp = .copying v cursor) (hlive : liveOf s v ≠ 0)
    (hcopy : s.upd.copy = none) (hreads : ¬ WalkReads s) :
    advanceWalk s =
      { s with
        store :=
          { s.store with
            reads :=
              s.store.reads ++
                [{ owner := .compaction, loc := { sector := v, granule := cursor }, after := s.upd.nextReady }] } } := by
  rw [← walkReads_iff, Bool.not_eq_true] at hreads
  rw [advanceWalk, hcomp]
  dsimp only
  rw [if_neg hlive, if_pos (by rw [hcopy, hreads]; rfl)]
  rfl

theorem advanceWalk_of_busy {s : State} {v cursor : Nat} (hcomp : s.store.comp = .copying v cursor) (hlive : liveOf s v ≠ 0)
    (hbusy : s.upd.copy ≠ none ∨ WalkReads s) : advanceWalk s = s := by
  rw [advanceWalk, hcomp]
  dsimp only
  rw [if_neg hlive, if_neg]
  rw [Bool.and_eq_true, Option.isNone_iff_eq_none, Bool.not_eq_true', ← Bool.not_eq_true, walkReads_iff]
  rintro ⟨hcopy, hreads⟩
  exact hbusy.elim (· hcopy) hreads

theorem advanceWalk_of_stalled {s : State} {v cursor : Nat} (hcomp : s.store.comp = .stalled v cursor)
    (hlive : liveOf s v ≠ 0) : advanceWalk s = s := by
  rw [advanceWalk, hcomp]
  exact if_neg hlive

theorem advanceWalk_of_no_walk {s : State}
    (h : ∀ v cursor, s.store.comp ≠ .copying v cursor ∧ s.store.comp ≠ .stalled v cursor) : advanceWalk s = s := by
  unfold advanceWalk
  split
  · exact absurd ‹_› (h _ _).1
  · exact absurd ‹_› (h _ _).2
  all_goals rfl

/-- At a live count of 0 the walk ends. -/
theorem advanceWalk_of_emptied {s : State} {v cursor : Nat} (hcomp : s.store.comp = .copying v cursor)
    (hlive : liveOf s v = 0) :
    advanceWalk s = { s with store := { s.store with comp := .closing v, mark := some (.eraseBegun, v) } } := by
  rw [advanceWalk, hcomp]
  exact if_pos hlive

theorem advanceWalk_of_stall_ended {s : State} {v cursor : Nat} (hcomp : s.store.comp = .stalled v cursor)
    (hlive : liveOf s v = 0) :
    advanceWalk s =
      { s with
        store := { s.store with comp := .closing v, mark := some (.eraseBegun, v) }
        upd := { s.upd with copy := none } } := by
  rw [advanceWalk, hcomp]
  exact if_pos hlive

/-- Settles O45, a rule for each event that compaction answers. -/
theorem compactionFollowsTheStore : Obligations.CompactionFollowsTheStore := by
  refine ⟨fun old s => ⟨rfl, fun h => spaceEvent_same (spaceView_eq_iff.2 h), spaceEvent_of_changed⟩,
    fun s => outOfSpace_iff, fun s => ⟨spaceTest_of_entering, spaceTest_of_not_entering⟩,
    fun s => ⟨testTrigger_of_no_trigger, fun hidle herased hdead => ?_⟩, fun s v cursor hlive => ⟨fun hcomp => ?_, ?_⟩,
    fun s => advanceWalk_of_no_walk, fun s v cursor hlive => ⟨fun hcomp => ?_, fun hcomp => ?_⟩⟩
  · rw [testTrigger_of_trigger hidle herased hdead]
    exact ⟨fun v x => beginCompaction_of_marked, fun v x => beginCompaction_of_unmarked⟩
  · exact ⟨advanceWalk_of_next hcomp hlive, advanceWalk_of_busy hcomp hlive⟩
  · exact fun hcomp => advanceWalk_of_stalled hcomp hlive
  · exact advanceWalk_of_emptied hcomp hlive
  · exact advanceWalk_of_stall_ended hcomp hlive

end Sys2Proof.Proofs
end

