-- ==== Sys2Proof/Proofs/Walk.lean ====
section
/-! PROOFS. The end of the walk's READ: what the image found does to the copy slot, the cursor and the next READ (R71, R73,
R74). -/

namespace Sys2Proof.Proofs
open Sys2Proof Sys2Proof.Machine Sys2Proof.Stated

/-! ## What is settled while compaction runs -/

/-- Where nothing that the space test watches has changed, only the walk goes on. -/
theorem settleStore_of_unchanged {old s : State} (hcomp : s.store.comp ≠ .idle) (h : Unchanged old (advanceWalk s)) :
    settleStore old s = advanceWalk s := by
  rw [settleStore, testTrigger_of_not_idle hcomp, spaceEvent_same (spaceView_eq_iff.2 h)]

/-- A new cursor is nothing that the space test watches. -/
theorem unchanged_of_cursor {old s : State} {v c c' : Nat} (hold : old.store.comp = .copying v c)
    (hcomp : s.store.comp = .copying v c') (hsectors : s.store.sectors = old.store.sectors)
    (hslots : s.upd.slots = old.upd.slots) : Unchanged old s :=
  ⟨by rw [hsectors], fun i => by rw [hslots], .inl ⟨v, c, c', hold, hcomp⟩⟩

theorem not_unchanged_of_stall {old s : State} {v c c' : Nat} (hold : old.store.comp = .copying v c)
    (hcomp : s.store.comp = .stalled v c') : ¬ Unchanged old s := by
  rintro ⟨-, -, hphases⟩
  rw [hold, hcomp] at hphases
  simp at hphases

theorem exec_compactionReadDone_of_read {s : State} {found : ImageRead} (hop : s.store.op = some (.read .compaction found)) :
    exec .compactionReadDone s = .next (settleStore s (walkOn found (clearOp s))) := by
  rw [exec_compactionReadDone, execCompactionReadDone, hop]

/-! ## The cases of R71 -/

/-- In CLOSING the READ only frees the store. -/
theorem settleStore_walkOn_of_closing {s : State} {v : Nat} (found : ImageRead) (hcomp : s.store.comp = .closing v) :
    settleStore s (walkOn found (clearOp s)) = endOp s.flash s := by
  have hwalk : walkOn found (clearOp s) = endOp s.flash s := by
    rw [walkOn, show (clearOp s).store.comp = .closing v from hcomp]
    rfl
  have hended : (endOp s.flash s).store.comp = .closing v := hcomp
  have hadvance : advanceWalk (endOp s.flash s) = endOp s.flash s :=
    advanceWalk_of_no_walk fun _ _ => by rw [hended]; exact ⟨nofun, nofun⟩
  rw [hwalk, settleStore_of_unchanged (by rw [hended]; nofun), hadvance]
  rw [hadvance]
  exact ⟨rfl, fun _ => rfl, .inr (.inr rfl)⟩

section
variable {s : State} {v cursor : Nat} (hcomp : s.store.comp = .copying v cursor)
include hcomp

/-- A live image goes to the copy slot, and the walk waits for it. -/
theorem settleStore_walkOn_of_live (hlive : liveOf s v ≠ 0) {r : Record}
    (himage : isLiveImage s r { sector := v, granule := cursor } = true) :
    settleStore s (walkOn (.image r) (clearOp s)) =
      { s with
        store := { s.store with op := none, comp := .copying v (cursor + imageLen r.value.length) }
        upd :=
          { s.upd with
            copy := some { phase := .waitStore, record := r, source := { sector := v, granule := cursor } } } } := by
  have hwalk :
      walkOn (.image r) (clearOp s) =
        { s with
          store := { s.store with op := none, comp := .copying v (cursor + imageLen r.value.length) }
          upd :=
            { s.upd with
              copy := some { phase := .waitStore, record := r, source := { sector := v, granule := cursor } } } } := by
    rw [walkOn, show (clearOp s).store.comp = .copying v cursor from hcomp]
    exact if_pos himage
  rw [hwalk]
  generalize ht :
    ({ s with
        store := { s.store with op := none, comp := .copying v (cursor + imageLen r.value.length) }
        upd :=
          { s.upd with
            copy := some { phase := .waitStore, record := r, source := { sector := v, granule := cursor } } } } : State) = t
  have htcomp : t.store.comp = .copying v (cursor + imageLen r.value.length) := by rw [← ht]
  have htlive : liveOf t v ≠ 0 := by rw [← ht]; exact hlive
  have hbusy : advanceWalk t = t := advanceWalk_of_busy htcomp htlive (.inl (by rw [← ht]; nofun))
  rw [settleStore_of_unchanged (by rw [htcomp]; nofun), hbusy]
  rw [hbusy]
  exact unchanged_of_cursor hcomp htcomp (by rw [← ht]) (by rw [← ht])

/-- A dead image is passed, and the next READ is placed. -/
theorem settleStore_walkOn_of_dead (hlive : liveOf s v ≠ 0) (hcopy : s.upd.copy = none)
    (hreads : ∀ r ∈ s.store.reads, r.owner ≠ .compaction) {r : Record}
    (himage : isLiveImage s r { sector := v, granule := cursor } ≠ true) :
    settleStore s (walkOn (.image r) (clearOp s)) =
      { s with
        store :=
          { s.store with
            op := none
            comp := .copying v (cursor + imageLen r.value.length)
            reads :=
              s.store.reads ++
                [{ owner := .compaction
                   loc := { sector := v, granule := cursor + imageLen r.value.length }
                   after := s.upd.nextReady }] } } := by
  have hwalk :
      walkOn (.image r) (clearOp s) = setComp (.copying v (cursor + imageLen r.value.length)) (clearOp s) := by
    rw [walkOn, show (clearOp s).store.comp = .copying v cursor from hcomp]
    exact if_neg himage
  generalize ht : setComp (.copying v (cursor + imageLen r.value.length)) (clearOp s) = t at hwalk
  have htcomp : t.store.comp = .copying v (cursor + imageLen r.value.length) := by rw [← ht]; rfl
  have htlive : liveOf t v ≠ 0 := by rw [← ht]; exact hlive
  have htcopy : t.upd.copy = none := by rw [← ht]; exact hcopy
  have htreads : ¬ WalkReads t := by
    rw [← ht]
    rintro (⟨q, hq, howner⟩ | ⟨f, hf⟩)
    · exact hreads q hq howner
    · cases hf
  have hnext := advanceWalk_of_next htcomp htlive htcopy htreads
  have hsectors : (advanceWalk t).store.sectors = s.store.sectors := by rw [hnext, ← ht]; rfl
  have hslots : (advanceWalk t).upd.slots = s.upd.slots := by rw [hnext, ← ht]; rfl
  rw [hwalk, settleStore_of_unchanged (by rw [htcomp]; nofun), hnext, ← ht]
  · rfl
  · exact unchanged_of_cursor hcomp (by rw [hnext]; exact htcomp) hsectors hslots

/-- A stall is a new phase, and the space test is made. -/
theorem settleStore_stallCompaction (hlive : liveOf s v ≠ 0) (hcopy : s.upd.copy = none) :
    settleStore s (stallCompaction v cursor (clearOp s)) =
      spaceTest (failStoreWait { s with store := { s.store with op := none, comp := .stalled v cursor } }) := by
  have hstall :
      stallCompaction v cursor (clearOp s) =
        failStoreWait { s with store := { s.store with op := none, comp := .stalled v cursor } } := by
    have hmap : s.upd.copy.map (fun c => { c with phase := .stalled }) = s.upd.copy := by rw [hcopy]; rfl
    unfold stallCompaction
    rw [clearOp_upd, hmap]
    rfl
  rw [hstall]
  generalize ht : failStoreWait { s with store := { s.store with op := none, comp := .stalled v cursor } } = t
  have htstore : t.store = { s.store with op := none, comp := .stalled v cursor } := by rw [← ht, failStoreWait_store]
  have htcomp : t.store.comp = .stalled v cursor := by rw [htstore]
  have htlive : liveOf t v ≠ 0 := by
    unfold liveOf at hlive ⊢
    rw [htstore]
    exact hlive
  rw [settleStore, testTrigger_of_not_idle (by rw [htcomp]; nofun), advanceWalk_of_stalled htcomp htlive,
    spaceEvent_of_changed (not_unchanged_of_stall hcomp htcomp)]

/-- A blank granule and one whose check fails stall compaction. -/
theorem settleStore_walkOn_of_unread (hlive : liveOf s v ≠ 0) (hcopy : s.upd.copy = none) {found : ImageRead}
    (hfound : found = .blank ∨ found = .bad) :
    settleStore s (walkOn found (clearOp s)) =
      spaceTest (failStoreWait { s with store := { s.store with op := none, comp := .stalled v cursor } }) := by
  have hwalk : walkOn found (clearOp s) = stallCompaction v cursor (clearOp s) := by
    rw [walkOn, show (clearOp s).store.comp = .copying v cursor from hcomp]
    rcases hfound with rfl | rfl <;> rfl
  rw [hwalk, settleStore_stallCompaction hcomp hlive hcopy]

end

/-- Settles O47: in each case of R71 the end of the READ is settled at once. -/
theorem theWalkReadsTheVictim : Obligations.TheWalkReadsTheVictim := by
  intro s found hop
  rw [exec_compactionReadDone_of_read hop]
  refine ⟨fun v hcomp => ?_, fun v cursor hcomp hlive hcopy hreads => ⟨?_, fun hfound => ?_⟩⟩
  · rw [settleStore_walkOn_of_closing found hcomp]
  · rintro r rfl
    refine ⟨fun ⟨e, he⟩ => ?_, fun hdead => ?_⟩
    · rw [settleStore_walkOn_of_live hcomp hlive (isLiveImage_iff.2 ⟨e, he⟩)]
      rfl
    · rw [settleStore_walkOn_of_dead hcomp hlive hcopy hreads]
      · rfl
      · refine mt isLiveImage_iff.1 ?_
        rintro ⟨e, he, hloc, hstamp⟩
        exact hdead e he hloc hstamp
  · rw [settleStore_walkOn_of_unread hcomp hlive hcopy hfound]

end Sys2Proof.Proofs
end

