-- ==== Sys2Proof/Proofs/StoreWait.lean ====
section
/-! PROOFS. The slots in STORE_WAIT fail together (R63): with none nothing happens, and none is left. -/

namespace Sys2Proof.Proofs
open Sys2Proof Sys2Proof.Machine

theorem failStoreWait_of_none_waiting {s : State}
    (h : ∀ (i : Fin 4) (x : Slot), s.upd.slots[i] = some x → x.phase ≠ .storeWait) : failStoreWait s = s := by
  have hnone : slotNumbers.filter (inStoreWait s) = [] := by
    rw [List.filter_eq_nil_iff]
    intro i _ hi
    obtain ⟨x, hx, hp⟩ := inStoreWait_iff.1 hi
    exact h i x hx hp
  rw [failStoreWait, hnone]
  rfl

theorem inStoreWait_congr {s t : State} (h : t.upd.slots = s.upd.slots) : inStoreWait t = inStoreWait s := by
  funext i
  unfold inStoreWait
  rw [h]

theorem reportWrites_slots (w : WriteResult) (l : List (Fin 4)) (s : State) :
    (l.foldl (reportWrite w) s).upd.slots = s.upd.slots := by
  induction l generalizing s with
  | nil => rfl
  | cons i l ih =>
    have hone : (reportWrite w s i).upd.slots = s.upd.slots := by
      unfold reportWrite
      split
      · split <;> rfl
      · rfl
    rw [List.foldl_cons, ih, hone]

theorem setDiverged_slots (r : DivReason) (s : State) : (setDiverged r s).upd.slots = s.upd.slots := by
  cases r with
  | store => rw [setDiverged_store]
  | directory => rw [setDiverged_directory]

/-- A released slot waits for the store as its follower, or is FREE; the other slots stay as they are. -/
theorem inStoreWait_releaseAt {s : State} {i j : Fin 4} (h : inStoreWait (releaseAt s i) j = true) :
    j ≠ i ∧ inStoreWait s j = true := by
  obtain ⟨y, hy, hp⟩ := inStoreWait_iff.1 h
  unfold releaseAt at hy
  split at hy
  · rename_i x hx
    rw [releaseSlot_eq] at hy
    dsimp only at hy
    rw [Fin.getElem_fin, Vector.getElem_set] at hy
    split at hy
    · split at hy
      · cases hy
        cases hp
      · cases hy
    · rename_i hne
      exact ⟨fun hji => hne (by rw [hji]), inStoreWait_iff.2 ⟨y, hy, hp⟩⟩
  · rename_i hfree
    refine ⟨?_, inStoreWait_iff.2 ⟨y, hy, hp⟩⟩
    rintro rfl
    rw [hfree] at hy
    cases hy

theorem inStoreWait_releaseAll {l : List (Fin 4)} {s : State} {j : Fin 4}
    (h : inStoreWait (l.foldl releaseAt s) j = true) : j ∉ l ∧ inStoreWait s j = true := by
  induction l generalizing s with
  | nil => exact ⟨List.not_mem_nil, h⟩
  | cons i l ih =>
    obtain ⟨hnotin, hstep⟩ := ih h
    obtain ⟨hne, hs⟩ := inStoreWait_releaseAt hstep
    exact ⟨List.not_mem_cons_of_ne_of_not_mem hne hnotin, hs⟩

/-- Once they have failed, no slot is in STORE_WAIT. -/
theorem none_waiting_of_failStoreWait (s : State) (i : Fin 4) (x : Slot) (hx : (failStoreWait s).upd.slots[i] = some x) :
    x.phase ≠ .storeWait := by
  intro hp
  have hwaits : inStoreWait (failStoreWait s) i = true := inStoreWait_iff.2 ⟨x, hx, hp⟩
  unfold failStoreWait failSlots at hwaits
  obtain ⟨hnotin, hreported⟩ := inStoreWait_releaseAll hwaits
  rw [List.mem_filter] at hnotin
  refine hnotin ⟨mem_slotNumbers i, ?_⟩
  rw [← hreported]
  refine (congrFun (inStoreWait_congr ?_) i).symm
  split
  · rw [setDiverged_slots, reportWrites_slots]
  · exact reportWrites_slots ..

end Sys2Proof.Proofs
end

