-- ==== Sys2Proof/Proofs/Erases.lean ====
section
/-! PROOFS. How marks and erases end: the marker programmed, the erase's verify, its count, and the next run (R63, R65, R66,
R70, R73, R75). -/

namespace Sys2Proof.Proofs
open Sys2Proof Sys2Proof.Machine Sys2Proof.Stated

/-! ## Marks (R70, R73) -/

section
variable {s : State} {v : Nat}

theorem exec_reclaimMarkDone_of_mark (hop : s.store.op = some (.mark .reclaimBegun v)) :
    exec .reclaimMarkDone s =
      .next
        (if s.ctl.softWait then endOp (programMark v 0x3F 0 s).flash s
         else
           settleStore s
             { s with
               flash := (programMark v 0x3F 0 s).flash
               store := { s.store with op := none, comp := .copying v 1 } }) := by
  rw [exec_reclaimMarkDone, execReclaimMarkDone, hop]
  rfl

theorem exec_eraseMarkDone_of_mark (hop : s.store.op = some (.mark .eraseBegun v)) :
    exec .eraseMarkDone s =
      .next
        (if s.ctl.softWait then endOp (programMark v 0xCF 0 s).flash s
         else
           settleStore s
             { s with
               flash := (programMark v 0xCF 0 s).flash
               store :=
                 { s.store with
                   op := none
                   sectors := s.store.sectors.modify v fun y => { y with state := .erasing }
                   comp := .erasing v
                   erase := some { sector := v, suspensions := 0, phase := .waiting } } }) := by
  rw [exec_eraseMarkDone, execEraseMarkDone, hop]
  rfl

end

/-! ## The erase's end (R65, R66) -/

/-- An erase that set every bit leaves its sector blank. -/
theorem isBlankSector_erase_nil {m : Memory} (h : m.wf) (base : Nat) : (m.erase base []).isBlankSector base = true := by
  refine (Memory.isBlankSector_iff (Memory.wf_erase h base []) base).2 fun n hn => ?_
  rw [Memory.read_erase_nil, if_pos (by omega)]

/-- A blank sector goes on to its erase count. -/
theorem exec_eraseDone_of_blank {s : State} {e : EraseReq} {failed : List (Nat × Byte)} (b : Byte)
    (herase : s.store.erase = some e) (hphase : e.phase = .running)
    (hblank : (s.flash.erase (e.sector * 4096) failed).isBlankSector (e.sector * 4096) = true) :
    exec (.eraseDone failed b) s =
      .next
        { s with
          flash := s.flash.erase (e.sector * 4096) failed
          store := { s.store with erase := some { e with phase := .counting } } } := by
  rw [exec_eraseDone, execEraseDone, herase]
  dsimp only
  rw [if_pos hphase, headerAddr_eq, if_pos hblank]

/-- The state in which an erase has ended. -/
def afterErase (e : EraseReq) (failed : List (Nat × Byte)) (s : State) : State :=
  { s with flash := s.flash.erase (e.sector * 4096) failed }

theorem exec_eraseDone_of_not_blank {s : State} {e : EraseReq} {failed : List (Nat × Byte)} (b : Byte)
    (herase : s.store.erase = some e) (hphase : e.phase = .running)
    (hblank : ¬ (s.flash.erase (e.sector * 4096) failed).isBlankSector (e.sector * 4096) = true) :
    exec (.eraseDone failed b) s = .next (settleStore s (retire e.sector b (afterErase e failed s))) := by
  rw [exec_eraseDone, execEraseDone, herase]
  dsimp only
  rw [if_pos hphase, headerAddr_eq, if_neg hblank]
  rfl

/-! ## The end of a run (R75) -/

/-- What the end of a run leaves: everything but the store's, and of the sectors every one that is not FULL. -/
theorem nextRun_facts (s : State) :
    (nextRun s).upd = s.upd ∧ (nextRun s).host = s.host ∧ (nextRun s).dir = s.dir ∧ (nextRun s).flash = s.flash ∧
      ∀ (n : Nat) (x : Sector), s.store.sectors[n]? = some x → x.state ≠ .full →
        (nextRun s).store.sectors[n]? = some x := by
  unfold nextRun
  split
  · exact ⟨rfl, rfl, rfl, rfl, fun _ _ hx _ => hx⟩
  · obtain ⟨hupd, hhost, hdir, hflash, -, hsectors, -⟩ := testTrigger_facts (setComp .idle s)
    exact ⟨hupd, hhost, hdir, hflash, hsectors⟩

/-! ## A retired sector (R66) -/

/-- The sector is marked and RETIRED; the run has not ended yet. -/
def sectorRetired (v : Nat) (b : Byte) (s : State) : State :=
  modifySector v (fun x => { x with state := .retired, seq := none }) (dropErase (programMark v retiredMark b s))

/-- The run has ended, and without a new one the slots in STORE_WAIT have failed. -/
def afterRetire (v : Nat) (b : Byte) (s : State) : State :=
  if (nextRun (sectorRetired v b s)).store.comp = .idle then failStoreWait (nextRun (sectorRetired v b s)) else nextRun (sectorRetired v b s)

theorem retire_eq (v : Nat) (b : Byte) (s : State) :
    retire v b s = post (.storeAlert .sectorRetired) (afterRetire v b s) := rfl

theorem afterRetire_store (v : Nat) (b : Byte) (s : State) :
    (afterRetire v b s).store = (nextRun (sectorRetired v b s)).store := by
  unfold afterRetire
  split
  · exact failStoreWait_store _
  · rfl

theorem retire_flash (v : Nat) (b : Byte) (s : State) : (retire v b s).flash = (programMark v retiredMark b s).flash := by
  obtain ⟨-, -, -, hflash, -⟩ := nextRun_facts (sectorRetired v b s)
  rw [retire_eq, post_flash, afterRetire]
  split
  · rw [failStoreWait_flash, hflash]
    rfl
  · rw [hflash]
    rfl

theorem retire_sector {v : Nat} {s : State} {x : Sector} (b : Byte) (hx : s.store.sectors[v]? = some x) :
    (retire v b s).store.sectors[v]? = some { x with state := .retired, seq := none } := by
  obtain ⟨-, -, -, -, hsectors⟩ := nextRun_facts (sectorRetired v b s)
  rw [retire_eq, post_store, afterRetire_store]
  refine hsectors _ _ ?_ nofun
  show (s.store.sectors.modify v _)[v]? = _
  rw [List.getElem?_modify_eq, hx]
  rfl

/-- Where no slot is in STORE_WAIT, only the alert is posted. -/
theorem retire_of_none_waiting {v : Nat} {s : State} (b : Byte)
    (h : ∀ (i : Fin 4) (x : Slot), s.upd.slots[i] = some x → x.phase ≠ .storeWait) :
    (retire v b s).host = s.host.post (.storeAlert .sectorRetired) ∧ (retire v b s).upd = s.upd ∧
      (retire v b s).dir = s.dir := by
  obtain ⟨hupd, hhost, hdir, -, -⟩ := nextRun_facts (sectorRetired v b s)
  have hnone : afterRetire v b s = nextRun (sectorRetired v b s) := by
    unfold afterRetire
    rw [failStoreWait_of_none_waiting (by rw [hupd]; exact h), ite_self]
  rw [retire_eq, hnone, post_host, post_upd, post_dir, hhost, hupd, hdir]
  exact ⟨rfl, rfl, rfl⟩

/-- Where no new run begins, no slot is left in STORE_WAIT. -/
theorem none_waiting_of_retire {v : Nat} {b : Byte} {s : State} (h : (retire v b s).store.comp = .idle) (i : Fin 4) (x : Slot)
    (hx : (retire v b s).upd.slots[i] = some x) : x.phase ≠ .storeWait := by
  rw [retire_eq, post_store, afterRetire_store] at h
  rw [retire_eq, post_upd, afterRetire, if_pos h] at hx
  exact none_waiting_of_failStoreWait _ i x hx

theorem read_programMark_failing {m : Memory} (h : m.wf) (v : Nat) (given failed : Byte) (a : Nat) :
    (m.program (headerAddr v + 15) [given] [failed] 0).read a =
      if a = v * 4096 + 15 then m.read a &&& (given ||| failed) else m.read a := by
  rw [Memory.read_program h, headerAddr_eq, List.length_singleton]
  by_cases ha : a = v * 4096 + 15
  · rw [if_pos ha, if_pos (by omega), ha, Nat.sub_self]
    rfl
  · rw [if_neg ha, if_neg (by omega)]

/-! ## The erase count (R63, R65) -/

section
variable {s : State} {e : EraseReq} {x : Sector}

/-- Flash with the sector's new erase count in its header. -/
def countedFlash (v : Nat) (s : State) : Memory := (programEraseCount v [] 0 s).flash

/-- The count part of the header as R65 and R184 have it. -/
theorem read_countedFlash (h : FlashLaw s) {v : Nat} (hx : s.store.sectors[v]? = some x) (a : Nat) :
    (countedFlash v s).read a =
      if v * 4096 ≤ a ∧ a < v * 4096 + 3 then
        s.flash.read a &&& (eraseCountBytes (nextEraseCount x.eraseCount)).getD (a - v * 4096) 0
      else s.flash.read a := by
  have hlen : (eraseCountBytes (nextEraseCount x.eraseCount)).length = 3 := rfl
  have hflash : countedFlash v s =
      s.flash.program (headerAddr v) (eraseCountBytes (nextEraseCount (eraseCountOf s v))) [] 0 := rfl
  rw [hflash, eraseCountOf_eq hx, Memory.read_program h, hlen, headerAddr_eq]
  split
  · have hin : a - v * 4096 < (eraseCountBytes (nextEraseCount x.eraseCount)).length := by omega
    rw [List.getD_nil, List.getD_eq_getElem _ _ hin, List.getD_eq_getElem _ _ hin]
    exact congrArg _ BitVec.or_zero
  · rfl

theorem exec_eraseCountProgrammed_of_softWait (herase : s.store.erase = some e) (hphase : e.phase = .counting)
    (hw : s.ctl.softWait = true) :
    exec .eraseCountProgrammed s =
      .next { s with flash := countedFlash e.sector s, store := { s.store with erase := none } } := by
  rw [exec_eraseCountProgrammed, execEraseCountProgrammed, herase]
  dsimp only
  rw [if_pos hphase, if_pos hw]
  rfl

/-- The sector is ERASED and the slots in STORE_WAIT are back; the run has not ended yet. -/
def sectorErased (v : Nat) (s : State) : State :=
  wakeStoreWait (modifySector v erasedSector (dropErase (programEraseCount v [] 0 s)))

theorem exec_eraseCountProgrammed_of_counting (herase : s.store.erase = some e) (hphase : e.phase = .counting)
    (hw : s.ctl.softWait = false) :
    exec .eraseCountProgrammed s = .next (settleStore s (nextRun (sectorErased e.sector s))) := by
  rw [exec_eraseCountProgrammed, execEraseCountProgrammed, herase]
  dsimp only
  rw [if_pos hphase, if_neg (by simp [hw])]
  rfl

theorem sectorErased_eq (v : Nat) (hx : s.store.sectors[v]? = some x) :
    sectorErased v s =
      { s with
        flash := countedFlash v s
        upd := { s.upd with slots := s.upd.slots.map (Option.map woken) }
        store := { s.store with sectors := s.store.sectors.set v (erasedSector x), erase := none } } := by
  have hmodify := modify_eq_set erasedSector hx
  show ({ s with
          flash := countedFlash v s
          upd := { s.upd with slots := s.upd.slots.map (Option.map wakeSlot) }
          store := { s.store with sectors := s.store.sectors.modify v erasedSector, erase := none } } : State) = _
  rw [hmodify]
  rfl

theorem sectorErased_sectors (v : Nat) (hx : s.store.sectors[v]? = some x) :
    (sectorErased v s).store.sectors = s.store.sectors.set v (erasedSector x) := by
  rw [sectorErased_eq v hx]

/-- An ERASED sector is not ERASING; of the other sectors each is what it was. -/
theorem not_erasing_of_sectorErased {v : Nat} (hx : s.store.sectors[v]? = some x) {n : Nat} {y : Sector}
    (hy : (sectorErased v s).store.sectors[n]? = some y)
    (hother : n ≠ v → s.store.sectors[n]? = some y → y.state ≠ .erasing) : y.state ≠ .erasing := by
  rw [sectorErased_sectors v hx, List.getElem?_set] at hy
  split at hy
  · split at hy
    · cases hy
      nofun
    · cases hy
  · rename_i hne
    exact hother (Ne.symm hne) hy

/-- With no other sector ERASING the run ends in IDLE. -/
theorem settleStore_of_noneErasing {v : Nat} (hx : s.store.sectors[v]? = some x) (h : NoneErasing s v) :
    settleStore s (nextRun (sectorErased v s)) =
      settleStore s
        { s with
          flash := countedFlash v s
          upd := { s.upd with slots := s.upd.slots.map (Option.map woken) }
          store :=
            { s.store with sectors := s.store.sectors.set v (erasedSector x), erase := none, comp := .idle } } := by
  rw [nextRun_of_no_erasing fun n y hy => not_erasing_of_sectorErased hx hy (h n y), settleStore_testTrigger _ _ rfl,
    sectorErased_eq v hx]
  rfl

/-- The lowest sector left ERASING is taken up. -/
theorem settleStore_of_nextErasing {v w : Nat} (hx : s.store.sectors[v]? = some x) (h : NextErasing s v w) :
    settleStore s (nextRun (sectorErased v s)) =
      settleStore s
        { s with
          flash := countedFlash v s
          upd := { s.upd with slots := s.upd.slots.map (Option.map woken) }
          store :=
            { s.store with
              sectors := s.store.sectors.set v (erasedSector x)
              erase := some { sector := w, suspensions := 0, phase := .waiting }
              comp := .erasing w } } := by
  obtain ⟨hne, ⟨y, hy, hstate⟩, hlow⟩ := h
  have hy' : (sectorErased v s).store.sectors[w]? = some y := by
    rw [sectorErased_sectors v hx, List.getElem?_set_ne hne.symm, hy]
  rw [nextRun_of_erasing hy' hstate fun n z hn hz =>
    not_erasing_of_sectorErased hx hz fun hnv => hlow n z hn hnv, sectorErased_eq v hx]
  rfl

end

/-- Settles O51: the programs are `programMark` and `programEraseCount`, the next run is settled with the event. -/
theorem marksAndErasesEnd : Obligations.MarksAndErasesEnd := by
  intro s h
  refine ⟨fun kind v hop => ?_, fun e x herase hphase hx => ⟨?_, fun bits b hunset => ?_⟩, fun e x herase hphase hx => ?_⟩
  · refine ⟨(programMark v kind.byte 0 s).flash, wf_programMark h .., fun a => ?_, ?_, ?_, ?_, ?_⟩
    · rw [read_programMark h]
      cases kind <;> rfl
    · rintro rfl hw
      rw [exec_reclaimMarkDone_of_mark hop, if_pos hw]
      rfl
    · rintro rfl hw
      rw [exec_eraseMarkDone_of_mark hop, if_pos hw]
      rfl
    · rintro rfl hw
      rw [exec_reclaimMarkDone_of_mark hop, hw]
      rfl
    · rintro rfl hw
      rw [exec_eraseMarkDone_of_mark hop, hw]
      rfl
  · have hwf := Memory.wf_erase h (e.sector * 4096) []
    exact ⟨_, hwf, Memory.read_erase_nil s.flash _, fun b =>
      exec_eraseDone_of_blank b herase hphase (isBlankSector_erase_nil h _)⟩
  · have hwf := Memory.wf_erase h (e.sector * 4096) bits
    have hblank : ¬ (s.flash.erase (e.sector * 4096) bits).isBlankSector (e.sector * 4096) = true := by
      obtain ⟨n, hn, hread⟩ := hunset
      exact fun hall => hread ((Memory.isBlankSector_iff hwf _).1 hall n hn)
    obtain ⟨hslots, hhost, hdir, hflash, hsectors, hcomp⟩ :=
      settleStore_facts s (retire e.sector b (afterErase e bits s))
    have hread (a : Nat) :=
      (congrArg (·.read a) (hflash.trans (retire_flash ..))).trans (read_programMark_failing hwf e.sector retiredMark b a)
    refine ⟨_, exec_eraseDone_of_not_blank b herase hphase hblank, hread, fun a ha => ?_,
      ⟨_, hsectors _ _ (retire_sector b hx) nofun, rfl, rfl, rfl⟩, fun hnone => ?_, fun hidle i y hy => ?_⟩
    · rw [hread, if_neg (by omega), Memory.read_erase_outside h _ ha]
    · obtain ⟨hhost', hupd', hdir'⟩ := retire_of_none_waiting (v := e.sector) (s := afterErase e bits s) b hnone
      rw [hhost'] at hhost
      exact ⟨hhost, by rw [hslots, hupd']; rfl, by rw [hdir, hdir']; rfl⟩
    · rw [hslots] at hy
      exact none_waiting_of_retire (hcomp hidle) i y hy
  · refine ⟨countedFlash e.sector s, Memory.wf_program h .., read_countedFlash h hx,
      exec_eraseCountProgrammed_of_softWait herase hphase, fun hw => ⟨fun hnone => ?_, fun v hnext => ?_⟩⟩
    · rw [exec_eraseCountProgrammed_of_counting herase hphase hw, settleStore_of_noneErasing hx hnone]
      rfl
    · rw [exec_eraseCountProgrammed_of_counting herase hphase hw, settleStore_of_nextErasing hx hnext]
      rfl

end Sys2Proof.Proofs
end

