-- ==== Sys2Proof/Proofs/Control.lean ====
section
/-! PROOFS. Station Control's law (R90, R100, R160, R166): `control` is all that the law reads of a state, and the shared
operations leave it as it is. -/

namespace Sys2Proof.Proofs
open Sys2Proof Sys2Proof.Machine

/-! ## What the law reads -/

/-- All that the control law reads of a state: Station Control, the configuration area, the transmission in progress. -/
def control (s : State) : Control × ConfigArea × Option Sending := (s.ctl, s.cfg, s.line.sending)

theorem control_of_fields {s t : State} (hctl : t.ctl = s.ctl) (hcfg : t.cfg = s.cfg) (hline : t.line = s.line) :
    control t = control s := by
  rw [control, hctl, hcfg, hline, control]

theorem control_of_offers {s t : State} (h : Offers s t) : control t = control s := by
  rw [control, h.ctl, h.cfg, h.line, control]

theorem control_of_withdraws {s t : State} (h : Withdraws s t) : control t = control s := by
  rw [control, h.ctl, h.cfg, h.line, control]

/-- What the law is of: a state with the same Station Control, area and transmission meets it too. -/
theorem controlLaw_of_control {s t : State} (hs : ControlLaw s) (h : control t = control s) : ControlLaw t := by
  simp only [control, Prod.mk.injEq] at h
  obtain ⟨hctl, hcfg, hsending⟩ := h
  obtain ⟨sends, locks, group⟩ := hs
  constructor <;> simpa only [Powered, isLocked, hctl, hcfg, hsending]

/-- An effect that is guarded. -/
theorem control_ite {p : Prop} [Decidable p] {s t u : State} (ht : p → control t = control s)
    (hu : ¬ p → control u = control s) : control (if p then t else u) = control s := by
  split
  · exact ht ‹_›
  · exact hu ‹_›

theorem control_guard {p : Prop} [Decidable p] {s t : State} (h : p → control t = control s) :
    control (if p then t else s) = control s := control_ite h fun _ => rfl

theorem control_fold {α : Type} {f : State → α → State} (hf : ∀ s a, control (f s a) = control s) (l : List α) (s : State) :
    control (l.foldl f s) = control s := by
  induction l generalizing s with
  | nil => rfl
  | cons a l ih => exact (ih _).trans (hf s a)

/-! ## Work for the line (R95, R111, R137) -/

theorem control_post (e : Event) (s : State) : control (post e s) = control s := rfl
theorem control_openTxn (k : TxnKind) (out : List Byte) (s : State) : control (openTxn k out s) = control s := rfl
theorem control_complete (r : Reply) (s : State) : control (complete r s) = control s := rfl
theorem control_placeFor (r : Requester) (s : State) : control (placeFor r s) = control s :=
  control_of_offers (offers_placeFor r s)
theorem control_placeReply (s : State) : control (placeReply s) = control s := control_of_offers (offers_placeReply s)
theorem control_offerSummary (s : State) : control (offerSummary s) = control s :=
  control_of_offers (offers_offerSummary s)
theorem control_offerNews (r : Record) (s : State) : control (offerNews r s) = control s :=
  control_of_offers (offers_offerNews r s)
theorem control_pumpResponder (s : State) : control (pumpResponder s) = control s :=
  control_of_offers (offers_pumpResponder s)
theorem control_pumpProfile (s : State) : control (pumpProfile s) = control s :=
  control_of_offers (offers_pumpProfile s)
theorem control_pumpReconciler (s : State) : control (pumpReconciler s) = control s :=
  control_of_offers (offers_pumpReconciler s)
theorem control_pumpFetch (s : State) : control (pumpFetch s) = control s := control_of_offers (offers_pumpFetch s)
theorem control_pump (s : State) : control (pump s) = control s := control_of_offers (offers_pump s)
theorem control_wantAdd (k : Key) (st : Stamp) (p : Station) (s : State) : control (wantAdd k st p s) = control s :=
  control_of_withdraws (withdraws_wantAdd k st p s)
theorem control_pruneWant (k : Key) (st : Stamp) (s : State) : control (pruneWant k st s) = control s :=
  control_of_withdraws (withdraws_pruneWant k st s)
theorem control_failBucketQuery (s : State) : control (failBucketQuery s) = control s :=
  control_of_withdraws (withdraws_failBucketQuery s)
theorem control_finishQuery (s : State) : control (finishQuery s) = control s :=
  control_of_withdraws (withdraws_finishQuery s)
theorem control_endQueryOf (p : Station) (s : State) : control (endQueryOf p s) = control s :=
  control_of_withdraws (withdraws_endQueryOf p s)
theorem control_discardJobs (p : Station) (s : State) : control (discardJobs p s) = control s :=
  control_of_withdraws (withdraws_discardJobs p s)
theorem control_purgePeer (p : Station) (s : State) : control (purgePeer p s) = control s :=
  control_of_withdraws (withdraws_purgePeer p s)

theorem control_countAttempt (k : Key) (s : State) : control (countAttempt k s) = control s := by
  unfold countAttempt
  split
  · exact control_ite (fun _ => rfl) fun _ => rfl
  · rfl

/-! ## Slots and commits (R31 to R52, R72) -/

theorem control_raiseClock (c : Counter) (s : State) : control (raiseClock c s) = control s :=
  control_guard fun _ => rfl

theorem control_setDiverged (r : DivReason) (s : State) : control (setDiverged r s) = control s := by
  cases r
  · exact control_ite (fun _ => rfl) fun _ => rfl
  · exact control_ite (fun _ => rfl) fun _ => rfl

theorem control_claimSlot (i : Fin 4) (o : Origin) (r : Record) (s : State) :
    control (claimSlot i o r s) = control s := by
  rw [claimSlot_eq]
  rfl

theorem control_releaseSlot (i : Fin 4) (x : Slot) (s : State) : control (releaseSlot i x s) = control s := by
  rw [releaseSlot_eq]
  rfl

theorem control_failSlots (w : WriteResult) (l : List (Fin 4)) (s : State) :
    control (failSlots w l s) = control s :=
  control_of_fields (failSlots_ctl ..) (failSlots_cfg ..) (failSlots_line ..)

theorem control_failStoreWait (s : State) : control (failStoreWait s) = control s := control_failSlots ..

theorem control_localAdmission (k : Key) (tomb : Bool) (value : List Byte) (s : State) :
    control (localAdmission k tomb value s) = control s := by
  unfold localAdmission
  split
  · rfl
  · split
    · exact (control_complete ..).trans (control_claimSlot ..)
    · rfl

theorem control_offerArrival (r : Record) (source : Station) (s : State) :
    control (offerArrival r source s) = control s := by
  have meet (i : Fin 4) (x : Slot) (t : State) : control (meetSlot i x r t) = control t := by
    refine control_guard fun _ => ?_
    split
    · rfl
    · exact control_guard fun _ => rfl
  have place (t : State) : control (placeArrival r source t) = control t := by
    refine control_ite (fun _ => rfl) fun _ => ?_
    split
    · split
      · exact meet ..
      · rfl
    · refine control_ite (fun _ => control_setDiverged ..) fun _ => ?_
      split
      · exact control_claimSlot ..
      · exact control_wantAdd ..
  exact (control_pumpFetch _).trans (control_ite (fun _ => rfl) fun _ => (place _).trans (control_raiseClock ..))

theorem control_commitSlot (i : Fin 4) (x : Slot) (loc : Loc) (s : State) :
    control (commitSlot i x loc s) = control s := by
  have entry (e : Entry) : control (commitEntry e s) = control s := by
    unfold commitEntry
    split <;> rfl
  have report (t : State) : control (reportCommit x t) = control t := by
    unfold reportCommit
    split
    · rfl
    · exact control_guard fun _ => rfl
  exact (control_releaseSlot ..).trans ((report _).trans ((control_pruneWant ..).trans (entry _)))

theorem control_passCopy (c : CopySlot) (loc : Loc) (s : State) : control (passCopy c loc s) = control s := by
  have commit (t : State) : control (commitCopy c loc t) = control t := by
    unfold commitCopy
    split
    · exact control_guard fun _ => rfl
    · rfl
  exact commit (closeIfFull loc.sector s)

/-! ## The flash store (R60 to R75) -/

theorem control_spaceEvent (o s : State) : control (spaceEvent o s) = control s :=
  control_ite (fun _ => rfl) fun _ => control_ite (fun _ => rfl) fun _ => rfl

theorem control_testTrigger (s : State) : control (testTrigger s) = control s := by
  refine control_guard fun _ => ?_
  unfold beginCompaction
  split
  · rfl
  · split <;> rfl

theorem control_advanceWalk (s : State) : control (advanceWalk s) = control s := by
  unfold advanceWalk
  split
  · exact control_ite (fun _ => rfl) fun _ => control_guard fun _ => rfl
  · exact control_guard fun _ => rfl
  all_goals rfl

theorem control_settleStore (o s : State) : control (settleStore o s) = control s :=
  (control_spaceEvent ..).trans ((control_advanceWalk _).trans (control_testTrigger s))

theorem control_nextRun (s : State) : control (nextRun s) = control s := by
  unfold nextRun
  split
  · rfl
  · exact control_testTrigger _

theorem control_stallCompaction (v cursor : Nat) (s : State) :
    control (stallCompaction v cursor s) = control s := control_failStoreWait _

theorem control_programAppend (loc : Loc) (opening : Option Opening) (image failed : List Byte) (rest : Byte)
    (s : State) : control (programAppend loc opening image failed rest s) = control s := by
  have program (a : Nat) (given failed : List Byte) (t : State) : control (programFlash a given failed rest t) = control t := rfl
  unfold programAppend
  split
  · exact (program ..).trans (program ..)
  · exact program ..

theorem control_takePlace (who : Appender) (r : Record) (p : Place) (s : State) :
    control (takePlace who r p s) = control s := by
  have start (loc : Loc) (t : State) : control (startProgramming who loc t) = control t := by
    unfold startProgramming
    split
    · split <;> rfl
    · rfl
  have closed : control (closeOpen s) = control s := by
    unfold closeOpen
    split <;> rfl
  unfold takePlace
  split
  · exact start ..
  · exact (start ..).trans closed

theorem control_grantSlot (i : Fin 4) (s : State) : control (grantSlot i s) = control s := by
  unfold grantSlot
  split
  · split
    · exact control_takePlace ..
    · refine control_ite (fun _ => control_testTrigger s) fun _ => ?_
      exact (control_failSlots ..).trans (control_testTrigger s)
  · rfl

theorem control_grantCopy (s : State) : control (grantCopy s) = control s := by
  unfold grantCopy
  split
  · split
    · exact control_takePlace ..
    · unfold answerCopy
      split
      · exact control_stallCompaction ..
      all_goals rfl
  · rfl

theorem control_walkOn (found : ImageRead) (s : State) : control (walkOn found s) = control s := by
  unfold walkOn
  split
  · split
    · exact control_ite (fun _ => rfl) fun _ => rfl
    · exact control_stallCompaction ..
    · exact control_stallCompaction ..
  all_goals rfl

theorem control_retire (v : Nat) (b : Byte) (s : State) : control (retire v b s) = control s :=
  (control_ite (fun _ => control_failStoreWait _) fun _ => rfl).trans (control_nextRun _)

/-! ## A soft reset's abandoning and a reset's cut (R79, R156, R157) -/

theorem control_abandonErase (erased : List (Nat × Byte)) (s : State) :
    control (abandonErase erased s) = control s := by
  unfold abandonErase
  split
  · split <;> rfl
  · rfl

theorem control_abandonRead (s : State) : control (abandonRead s) = control s := by
  unfold abandonRead
  split <;> rfl

theorem control_cutOp (cut : Cut) (s : State) : control (cutOp cut s) = control s := by
  unfold cutOp
  split
  · exact control_programAppend ..
  all_goals rfl

theorem control_cutErase (cut : Cut) (s : State) : control (cutErase cut s) = control s := by
  unfold cutErase
  split
  · split
    case h_4 => rfl
    all_goals exact control_abandonErase ..
  · rfl

end Sys2Proof.Proofs
end

