-- ==== Sys2Proof/Proofs/ControlSteps.lean ====
section
/-! PROOFS. Station Control's law (R90, R100, R160, R166), concluded: what changes Station Control, the configuration area or
the transmission in progress keeps the law, and so does every step. -/

namespace Sys2Proof.Proofs
open Sys2Proof Sys2Proof.Machine

/-- A command's meaning answers with a next state, and keeps the control law. -/
def AnswersControlled (s : State) (o : Host.Outcome State Fault Refusal) : Prop :=
  ∃ t, o = .next t ∧ (ControlLaw s → ControlLaw t)

theorem answersControlled_next {s t : State} (h : ControlLaw s → ControlLaw t) : AnswersControlled s (.next t) := ⟨t, rfl, h⟩

/-- A command that leaves all that the law reads. -/
theorem answersControlled_of_control {s t : State} (h : control t = control s) : AnswersControlled s (.next t) :=
  answersControlled_next fun hs => controlLaw_of_control hs h

theorem controlLaw_ite {p : Prop} [Decidable p] {s t : State} (hs : p → ControlLaw s) (ht : ¬ p → ControlLaw t) :
    ControlLaw (if p then s else t) := by
  split
  · exact hs ‹_›
  · exact ht ‹_›

/-- A command that has an effect only where its guard holds. -/
theorem answersControlled_guard {p : Prop} [Decidable p] {s t : State} (h : p → ControlLaw s → ControlLaw t) :
    AnswersControlled s (.next (if p then t else s)) :=
  answersControlled_next fun hs => controlLaw_ite (fun hp => h hp hs) fun _ => hs

theorem answersControlled_guard_of_control {p : Prop} [Decidable p] {s t : State} (h : p → control t = control s) :
    AnswersControlled s (.next (if p then t else s)) := answersControlled_guard fun hp hs => controlLaw_of_control hs (h hp)

/-- A station that does not drive the line meets the law with its area and its group bytes. -/
theorem controlLaw_of_silent {s : State} (hsending : s.line.sending = none)
    (hlocked : isLocked s = true → s.cfg.prog = none) (hgroup : s.ctl.groupBytes.length = 36) : ControlLaw s :=
  ⟨fun h => absurd hsending h, hlocked, hgroup⟩

/-- Whoever may not drive the line does not (R90, R100). -/
theorem sending_eq_none {s : State} (hs : ControlLaw s) (h : ¬ (Powered s ∧ (s.ctl.st = .active ∨ s.ctl.softWait = true))) :
    s.line.sending = none := by
  by_contra hsending
  exact h (hs.sending hsending)

/-! ## Host commands -/

theorem answersControlled_immediate {f : State → State} {s : State} (h : ControlLaw s → ControlLaw (f s)) :
    AnswersControlled s (immediate f s) := answersControlled_guard fun _ => h

theorem answersControlled_openTxn (k : TxnKind) (out : State → List Byte) (s : State) :
    AnswersControlled s (immediate (fun t => openTxn k (out t) t) s) :=
  answersControlled_immediate fun hs => controlLaw_of_control hs (control_openTxn ..)

theorem answersControlled_requestCommand {serve : State → State} {s : State} (h : ∀ t, ControlLaw t → ControlLaw (serve t)) :
    AnswersControlled s (requestCommand serve s) :=
  answersControlled_immediate fun hs => controlLaw_ite (fun _ => controlLaw_of_control hs rfl) fun _ =>
    h _ (controlLaw_of_control (t := accept s) hs rfl)

theorem answersControlled_report {serve : State → State} {s : State} (h : ∀ t, control (serve t) = control t) :
    AnswersControlled s (requestCommand serve s) := answersControlled_requestCommand fun t ht => controlLaw_of_control ht (h t)

theorem answersControlled_readEvent (s : State) : AnswersControlled s (execReadEvent s) := by
  refine answersControlled_immediate fun hs => controlLaw_of_control hs ?_
  unfold takeEvent
  split <;> rfl

theorem control_serveRead (key : Key) (s : State) : control (serveRead key s) = control s := by
  unfold serveRead
  split
  · rfl
  · refine control_ite (fun _ => ?_) fun _ => rfl
    split <;> rfl

theorem control_serveList (start : Key) (s : State) : control (serveList start s) = control s := by
  unfold serveList
  split <;> rfl

theorem control_servePeers (s : State) : control (servePeers s) = control s := by
  unfold servePeers
  split <;> rfl

theorem control_expireSummary (s : State) : control (expireSummary s) = control s := control_offerSummary _

theorem control_serveSync (s : State) : control (serveSync s) = control s := by
  unfold serveSync
  split
  case h_5 => exact control_expireSummary _
  all_goals rfl

theorem answersControlled_transactionEnd (clocked : Nat) (s : State) :
    AnswersControlled s (execTransactionEnd clocked s) := by
  refine answersControlled_of_control ?_
  split <;> rfl

/-! ## The configuration area (R160 to R162) -/

/-- The area's programming begins, where it is not locked. -/
theorem controlLaw_startProgram {s t : State} (hs : ControlLaw s) (hctl : t.ctl = s.ctl) (hline : t.line = s.line)
    (hlocked : isLocked t = false) : ControlLaw t := by
  obtain ⟨sends, -, group⟩ := hs
  refine ⟨?_, fun h => absurd h (by simp [hlocked]), hctl ▸ group⟩
  rw [Powered, hctl, hline]
  exact sends

/-- The area's programming ends. -/
theorem controlLaw_endProgram {s t : State} (hs : ControlLaw s) (hctl : t.ctl = s.ctl) (hline : t.line = s.line)
    (hprog : t.cfg.prog = none) : ControlLaw t := by
  obtain ⟨sends, -, group⟩ := hs
  refine ⟨?_, fun _ => hprog, hctl ▸ group⟩
  rw [Powered, hctl, hline]
  exact sends

theorem unlocked_of_configRefusal {s : State} (h : configRefusal s = none) : isLocked s = false := by
  unfold configRefusal at h
  split at h
  · cases h
  · split at h
    · rename_i hunlocked
      exact hunlocked.2
    · cases h

theorem controlLaw_serveProgram (offset : Byte) (given : List Byte) {s : State} (hs : ControlLaw s) :
    ControlLaw (serveProgram offset given s) := by
  unfold serveProgram
  split
  · exact controlLaw_of_control hs rfl
  · rename_i hfree
    exact controlLaw_ite (fun _ => controlLaw_of_control hs rfl) fun _ =>
      controlLaw_startProgram hs rfl rfl (unlocked_of_configRefusal hfree)

theorem controlLaw_serveLock {s : State} (hs : ControlLaw s) : ControlLaw (serveLock s) := by
  unfold serveLock
  split
  · exact controlLaw_of_control hs rfl
  · rename_i hfree
    split
    · exact controlLaw_of_control hs rfl
    · exact controlLaw_startProgram hs rfl rfl (unlocked_of_configRefusal hfree)

theorem length_group (area : Vector Byte 64) : (area.toList.take 36).length = 36 := by simp

/-- 36 bytes of the area are the group bytes (R160, R166). -/
theorem controlLaw_copyGroup {s : State} (hs : ControlLaw s) : ControlLaw (copyGroup s) := by
  obtain ⟨sends, locks, -⟩ := hs
  exact ⟨sends, locks, length_group _⟩

theorem isLocked_iff {s : State} : isLocked s = true ↔ s.cfg.bytes[61] ≠ 0xFF := by
  have byte : byteAt s.cfg.bytes.toList 61 = s.cfg.bytes[61] := by simp [byteAt]
  rw [isLocked, areaLocked, byte, bne_iff_ne]

/-- The check's two bytes stand behind the lock marker (R185). -/
theorem isLocked_programConfig_check (crc : BitVec 16) (failed : List Byte) (s : State) :
    isLocked (programConfig (.check crc) failed 0 s) = isLocked s := by
  rw [Bool.eq_iff_iff, isLocked_iff, isLocked_iff, programConfig_cfg]
  dsimp only
  rw [getElem_programArea, if_neg (by simp [ConfigProgram.given])]

theorem answersControlled_configProgramDone (failed : List Byte) (s : State) :
    AnswersControlled s (execConfigProgramDone failed s) := by
  refine answersControlled_next fun hs => ?_
  split
  · have ended := fun p => controlLaw_endProgram hs (t := programConfig p failed 0 s) rfl rfl rfl
    exact controlLaw_ite (fun _ => ended _) fun _ => controlLaw_copyGroup (controlLaw_of_control (ended _) rfl)
  all_goals exact hs

theorem answersControlled_lockCheckProgrammed (failed : List Byte) (s : State) :
    AnswersControlled s (execLockCheckProgrammed failed s) := by
  refine answersControlled_next fun hs => ?_
  split
  · rename_i crc hprog
    have unlocked : isLocked s = false := by
      rw [← Bool.not_eq_true]
      intro hlocked
      rw [hs.locked hlocked] at hprog
      cases hprog
    have ended : ControlLaw (programConfig (.check crc) failed 0 s) := controlLaw_endProgram hs rfl rfl rfl
    refine controlLaw_ite (fun _ => ended) fun _ => controlLaw_ite (fun _ => ?_) fun _ => controlLaw_of_control ended rfl
    exact controlLaw_startProgram hs rfl rfl ((isLocked_programConfig_check crc failed s).trans unlocked)
  all_goals exact hs

/-- Frames in flight end under the soft reset's wait (R100). -/
theorem controlLaw_softResetStart (erased : List (Nat × Byte)) {s : State} (hs : ControlLaw s) :
    ControlLaw (softResetStart erased s) := by
  refine controlLaw_ite (fun _ => hs) fun _ => ?_
  obtain ⟨sends, locks, group⟩ :=
    controlLaw_of_control hs ((control_abandonRead _).trans (control_abandonErase erased s))
  exact ⟨fun hsending => ⟨(sends hsending).1, .inr rfl⟩, locks, group⟩

theorem answersControlled_lockMarkerProgrammed (failed : Byte) (s : State) :
    AnswersControlled s (execLockMarkerProgrammed failed s) := by
  refine answersControlled_next fun hs => ?_
  split
  · have ended : ControlLaw (programConfig .marker [failed] 0 s) := controlLaw_endProgram hs rfl rfl rfl
    exact controlLaw_ite (fun _ => ended) fun _ =>
      controlLaw_ite (fun _ => controlLaw_softResetStart [] ended) fun _ => controlLaw_of_control ended rfl
  all_goals exact hs

/-! ## Resets (R156, R157) -/

/-- Every operation has stopped: the line is released (R156). -/
theorem controlLaw_stopAll (cut : Cut) {s : State} (power pin : Bool) (hs : ControlLaw s) :
    ControlLaw
      { stopAll cut s with ctl := { (stopAll cut s).ctl with power := power, pin := pin } } := by
  have kept : ControlLaw (cutErase cut (cutOp cut s)) :=
    controlLaw_of_control hs ((control_cutErase cut _).trans (control_cutOp cut s))
  have cutKept : ControlLaw (cutConfig cut (cutErase cut (cutOp cut s))) := by
    unfold cutConfig
    split
    · exact controlLaw_endProgram kept rfl rfl rfl
    · exact kept
  exact controlLaw_of_silent rfl cutKept.locked cutKept.group

/-- RAM is cleared, and the Profile Table built anew from the area (R156, R166). -/
theorem controlLaw_resetEnd (straps : Station) (s : State) : ControlLaw (resetEnd straps s) := by
  unfold resetEnd readArea
  dsimp only
  split <;> exact controlLaw_of_silent rfl (fun _ => rfl) (length_group _)

/-- One cause of a reset is over: the part is held by the other, or RAM is cleared (R156). -/
theorem controlLaw_causeOver {s u : State} {held : Bool} (p : Station) (hs : ControlLaw s) (hsilent : ¬ Powered s)
    (hcfg : u.cfg = s.cfg) (hline : u.line = s.line) (hgroup : u.ctl.groupBytes = s.ctl.groupBytes) :
    ControlLaw (if held then u else resetEnd p u) := by
  refine controlLaw_ite (fun _ => ?_) fun _ => controlLaw_resetEnd p u
  refine controlLaw_of_silent ?_ ?_ (hgroup ▸ hs.group)
  · rw [hline]
    exact sending_eq_none hs fun h => hsilent h.1
  · rw [isLocked, hcfg]
    exact hs.locked

theorem answersControlled_powerOnResetEnd (p : Station) (s : State) : AnswersControlled s (execPowerOnResetEnd p s) :=
  answersControlled_guard fun hpower hs =>
    controlLaw_causeOver p hs (fun h => by simp [h.1] at hpower) rfl rfl rfl

theorem answersControlled_pinResetEnd (p : Station) (s : State) : AnswersControlled s (execPinResetEnd p s) :=
  answersControlled_guard fun hpin hs =>
    controlLaw_causeOver p hs (fun h => by simp [h.2] at hpin) rfl rfl rfl

/-! ## Station states (R154) -/

/-- No frame is in flight while the scan runs. -/
theorem answersControlled_startUpScanEnd (s : State) : AnswersControlled s (execStartUpScanEnd s) := by
  refine answersControlled_guard fun hscan hs => ?_
  obtain ⟨-, hst, hwait, -⟩ := isScanning_iff.1 hscan
  have silent : s.line.sending = none := sending_eq_none hs fun h => by simp [hst, hwait] at h
  have listening : ControlLaw (enterStation .listening (startListening (scan s))) :=
    controlLaw_of_silent silent hs.locked hs.group
  exact controlLaw_of_control listening ((control_advanceWalk _).trans (control_nextRun _))

theorem answersControlled_listeningPeriodEnd (s : State) : AnswersControlled s (execListeningPeriodEnd s) := by
  refine answersControlled_guard fun _ hs => ?_
  have active : ControlLaw (setStation .active { s with ctl := { s.ctl with listeningSince := none } }) := by
    obtain ⟨sends, locks, group⟩ := hs
    exact ⟨fun hsending => ⟨(sends hsending).1, .inl rfl⟩, locks, group⟩
  refine controlLaw_of_control active ?_
  simp only [control_post, control_pumpFetch, control_pumpReconciler, control_pumpProfile, control_expireSummary]

/-! ## The line -/

/-- MUTE is entered when a frame is heard, so while none is sent. -/
theorem controlLaw_enterMute {s : State} (hs : ControlLaw s) (hsilent : s.line.sending = none) : ControlLaw (enterMute s) :=
  controlLaw_of_silent hsilent hs.locked hs.group

theorem control_hearPeer (p : Station) (id : Option (BitVec 32)) (s : State) : control (hearPeer p id s) = control s := by
  unfold hearPeer
  dsimp only
  split
  · rfl
  · rfl
  · exact control_ite (fun _ => control_purgePeer ..) fun _ => rfl
  · exact control_ite (fun _ => rfl) fun _ => rfl
  · exact control_ite (fun _ => rfl) fun _ => rfl
  · exact control_ite (fun _ => rfl) fun _ => rfl

theorem control_receive (f : Frame) (s : State) : control (receive f s) = control s := control_guard fun _ => rfl

theorem answersControlled_frameEndGood (bytes : List Byte) (s : State) : AnswersControlled s (execFrameEndGood bytes s) := by
  refine answersControlled_guard fun hhears hs => ?_
  have silent : s.line.sending = none := Option.isNone_iff_eq_none.1 (Bool.and_eq_true_iff.1 hhears).2
  split
  · rename_i f _
    have heard : ControlLaw (setBase (f.source + 1) (setPhase .guardTime s)) := controlLaw_of_control hs rfl
    refine controlLaw_ite (fun _ => controlLaw_ite (fun _ => heard) fun _ => controlLaw_enterMute heard silent) fun _ => ?_
    refine controlLaw_of_control heard ?_
    exact (control_pump _).trans ((control_receive ..).trans (control_hearPeer ..))
  · exact controlLaw_of_control hs rfl

theorem answersControlled_frameStart (s : State) : AnswersControlled s (execFrameStart s) := by
  refine answersControlled_guard_of_control fun _ => ?_
  split <;> rfl

/-- Only an ACTIVE station begins to send (R90). -/
theorem controlLaw_beginSending {s : State} (hs : ControlLaw s) (hsend : maySend s = true) : ControlLaw (beginSending s) := by
  have active : Active s := isActive_iff.1 (Bool.and_eq_true_iff.1 (Bool.and_eq_true_iff.1 hsend).1).1
  unfold beginSending
  split
  · split
    · exact ⟨fun _ => ⟨active.1, .inl active.2⟩, hs.locked, hs.group⟩
    · exact hs
  · exact hs

theorem answersControlled_slotStart (s : State) : AnswersControlled s (execSlotStart s) :=
  answersControlled_guard fun _ hs =>
    controlLaw_of_control (controlLaw_ite (fun hsend => controlLaw_beginSending hs hsend) fun _ => hs) rfl

/-- TXEN is released. -/
theorem controlLaw_released {s t : State} (hs : ControlLaw s) (hctl : t.ctl = s.ctl) (hcfg : t.cfg = s.cfg)
    (hsending : t.line.sending = none) : ControlLaw t := by
  refine controlLaw_of_silent hsending ?_ (hctl ▸ hs.group)
  rw [isLocked, hcfg]
  exact hs.locked

theorem answersControlled_collisionDetected (s : State) : AnswersControlled s (execCollisionDetected s) := by
  refine answersControlled_next fun hs => ?_
  split
  · exact hs
  · refine controlLaw_ite (fun _ => controlLaw_released hs rfl rfl rfl) fun _ => ?_
    split <;> exact controlLaw_released hs rfl rfl rfl

theorem control_reportSent (r : Option Requester) (s : State) : control (reportSent r s) = control s := by
  unfold reportSent
  split
  · split <;> rfl
  · split <;> rfl
  · split <;> rfl
  · rfl
  · rfl

theorem answersControlled_transmitEnd (s : State) : AnswersControlled s (execTransmitEnd s) := by
  refine answersControlled_next fun hs => ?_
  split
  · exact hs
  · refine controlLaw_ite (fun _ => controlLaw_released hs rfl rfl rfl) fun _ => ?_
    split
    · exact controlLaw_released hs rfl rfl rfl
    · refine controlLaw_of_control (s := stopSending s) (controlLaw_released hs rfl rfl rfl) ?_
      exact control_reportSent ..

theorem answersControlled_waitingFramePlaced (s : State) : AnswersControlled s (execWaitingFramePlaced s) := by
  refine answersControlled_of_control ?_
  split
  · exact control_guard fun _ => (control_pumpResponder _).trans (control_placeFor ..)
  · rfl

/-! ## Takings -/

theorem answersControlled_takeFrame {k : FrameKind} {use : Frame → State → State} {s : State}
    (h : ∀ f t, control (use f t) = control t) : AnswersControlled s (takeFrame k use s) := by
  refine answersControlled_guard_of_control fun _ => ?_
  split
  · exact control_guard fun _ => h _ _
  · rfl

theorem control_useNews (f : Frame) (s : State) : control (useNews f s) = control s := by
  refine control_guard fun _ => ?_
  split
  · exact (control_spaceEvent ..).trans (control_offerArrival ..)
  · rfl

theorem control_useSupply (f : Frame) (s : State) : control (useSupply f s) = control s := by
  have settle (source : Station) (echo : Byte) (key : Key) (r : Option Record) :
      control (settleSupply source echo key r s) = control s := by
    unfold settleSupply
    split
    · split
      · exact control_offerArrival ..
      · exact control_pumpFetch _
    · split
      · exact control_offerArrival ..
      · rfl
  refine control_guard fun _ => ?_
  split
  · exact (control_spaceEvent ..).trans (settle ..)
  · rfl

theorem control_useSummary (f : Frame) (s : State) : control (useSummary f s) = control s := by
  have raised : control (raiseClock (longAt f.payload 0) s) = control s := control_raiseClock ..
  exact control_guard fun _ => control_ite (fun _ => (control_pumpReconciler _).trans raised) fun _ => raised

theorem control_useProfile (f : Frame) (s : State) : control (useProfile f s) = control s :=
  control_guard fun _ => (control_pump _).trans (control_endQueryOf ..)

theorem control_useBucketReply (f : Frame) (s : State) : control (useBucketReply f s) = control s := by
  have compare (b : Bucket) (t : State) (h : HeardEntry) : control (compareEntry f.source b t h) = control t := by
    unfold compareEntry
    split
    · exact control_wantAdd ..
    · rfl
  have part (p : Pair) (placed : Placed) (expected : Nat) : control (takePart f p placed expected s) = control s := by
    refine Eq.trans (control_ite (fun _ => ?_) fun _ => control_pumpFetch _) (control_fold (compare p.bucket) _ s)
    exact (control_pumpFetch _).trans ((control_pumpReconciler _).trans (control_finishQuery _))
  unfold useBucketReply
  split
  · refine control_ite (fun _ => rfl) fun _ => control_ite (fun _ => ?_) fun _ => part ..
    exact (control_pumpReconciler _).trans (control_failBucketQuery s)
  all_goals rfl

theorem control_acceptRequest (f : Frame) (kind : JobKind) (s : State) : control (acceptRequest f kind s) = control s :=
  control_guard fun _ => (control_pumpResponder _).trans (control_ite (fun _ => rfl) fun _ => control_guard fun _ => rfl)

/-! ## Timers -/

theorem answersControlled_bucketReplyTimeout (s : State) : AnswersControlled s (execBucketReplyTimeout s) := by
  refine answersControlled_guard_of_control fun _ => ?_
  split
  · exact (control_pumpReconciler _).trans (control_failBucketQuery s)
  all_goals rfl

theorem answersControlled_fetchReplyTimeout (i : Fin 4) (s : State) : AnswersControlled s (execFetchReplyTimeout i s) := by
  refine answersControlled_guard_of_control fun _ => ?_
  split
  · exact (control_pumpFetch _).trans (control_countAttempt ..)
  all_goals rfl

/-! ## The arbiter and the completions -/

theorem answersControlled_readGrant (s : State) : AnswersControlled s (execReadGrant s) := by
  refine answersControlled_guard_of_control fun _ => ?_
  split <;> rfl

theorem answersControlled_appendGrant (s : State) : AnswersControlled s (execAppendGrant s) := by
  refine answersControlled_guard_of_control fun _ => ?_
  split
  · exact (control_settleStore ..).trans (control_grantSlot ..)
  · exact (control_settleStore ..).trans (control_grantCopy _)
  · rfl

theorem answersControlled_markGrant (s : State) : AnswersControlled s (execMarkGrant s) := by
  refine answersControlled_guard_of_control fun _ => ?_
  split <;> rfl

theorem answersControlled_hostReadDone (s : State) : AnswersControlled s (execHostReadDone s) := by
  refine answersControlled_of_control ?_
  split
  · unfold answerRead
    split
    · split <;> rfl
    all_goals rfl
  all_goals rfl

theorem answersControlled_responderReadDone (s : State) : AnswersControlled s (execResponderReadDone s) := by
  refine answersControlled_of_control ?_
  split
  · unfold buildSupply
    split
    · exact control_ite (fun _ => (control_pumpResponder _).trans (control_placeReply _)) fun _ => rfl
    all_goals rfl
  all_goals rfl

theorem answersControlled_compactionReadDone (s : State) : AnswersControlled s (execCompactionReadDone s) := by
  refine answersControlled_of_control ?_
  split
  · exact (control_settleStore ..).trans (control_walkOn ..)
  all_goals rfl

theorem control_passUpdate (i : Fin 4) (x : Slot) (loc : Loc) (o s : State) :
    control (passUpdate i x loc o s) = control s := by
  have news (t : State) : control (offerCommitNews x t) = control t := by
    unfold offerCommitNews
    split
    · exact control_ite (fun _ => rfl) fun _ => control_offerNews ..
    · rfl
  exact (news _).trans ((control_pumpFetch _).trans ((control_settleStore ..).trans (control_commitSlot ..)))

theorem control_failUpdate (i : Fin 4) (x : Slot) (loc : Loc) (o s : State) :
    control (failUpdate i x loc o s) = control s :=
  (control_settleStore ..).trans (control_ite (fun _ => control_failSlots ..) fun _ => rfl)

theorem answersControlled_updateProgramDone (failed : List Byte) (s : State) :
    AnswersControlled s (execUpdateProgramDone failed s) := by
  refine answersControlled_of_control ?_
  split
  · have programmed := fun loc opening image => control_programAppend loc opening image failed 0 s
    refine control_ite (fun _ => programmed ..) fun _ => ?_
    split
    · exact control_ite (fun _ => (control_passUpdate ..).trans (programmed ..)) fun _ =>
        (control_failUpdate ..).trans (programmed ..)
    · exact programmed ..
  all_goals rfl

theorem answersControlled_copyProgramDone (failed : List Byte) (s : State) :
    AnswersControlled s (execCopyProgramDone failed s) := by
  refine answersControlled_of_control ?_
  split
  · have programmed := fun loc opening image => control_programAppend loc opening image failed 0 s
    refine control_ite (fun _ => programmed ..) fun _ => ?_
    split
    · exact (control_settleStore ..).trans
        (control_ite (fun _ => (control_passCopy ..).trans (programmed ..)) fun _ => programmed ..)
    · exact programmed ..
  all_goals rfl

theorem answersControlled_reclaimMarkDone (s : State) : AnswersControlled s (execReclaimMarkDone s) := by
  refine answersControlled_of_control ?_
  split
  · exact control_ite (fun _ => rfl) fun _ => control_settleStore ..
  all_goals rfl

theorem answersControlled_eraseMarkDone (s : State) : AnswersControlled s (execEraseMarkDone s) := by
  refine answersControlled_of_control ?_
  split
  · exact control_ite (fun _ => rfl) fun _ => control_settleStore ..
  all_goals rfl

theorem answersControlled_eraseDone (failed : List (Nat × Byte)) (b : Byte) (s : State) :
    AnswersControlled s (execEraseDone failed b s) := by
  refine answersControlled_of_control ?_
  split
  · exact control_guard fun _ => control_ite (fun _ => rfl) fun _ => (control_settleStore ..).trans (control_retire ..)
  · rfl

theorem answersControlled_eraseCountProgrammed (s : State) : AnswersControlled s (execEraseCountProgrammed s) := by
  refine answersControlled_of_control ?_
  split
  · exact control_guard fun _ => control_ite (fun _ => rfl) fun _ => (control_settleStore ..).trans (control_nextRun _)
  · rfl

/-! ## Every command -/

theorem answersControlled_exec (c : Instr) (s : State) : AnswersControlled s (exec c s) := by
  cases c with
  | status => exact answersControlled_openTxn .plain statusBytes s
  | getReply => exact answersControlled_immediate fun hs => controlLaw_of_control hs (control_openTxn ..)
  | readEvent => exact answersControlled_readEvent s
  | readProfile offset => exact answersControlled_openTxn .profile (fun t => profileFrom t.ctl offset) s
  | softReset erased => exact answersControlled_immediate (controlLaw_softResetStart erased)
  | ackDiverged => exact answersControlled_guard_of_control fun _ => rfl
  | writeRecord key value =>
    exact answersControlled_report fun _ => (control_spaceEvent ..).trans (control_localAdmission ..)
  | deleteRecord key => exact answersControlled_report fun _ => (control_spaceEvent ..).trans (control_localAdmission ..)
  | readRecord key => exact answersControlled_report (control_serveRead key)
  | listKeys start => exact answersControlled_report (control_serveList start)
  | readPeers => exact answersControlled_report control_servePeers
  | syncNow => exact answersControlled_report control_serveSync
  | programConfig offset bytes => exact answersControlled_requestCommand fun _ => controlLaw_serveProgram offset bytes
  | lockConfig => exact answersControlled_requestCommand fun _ => controlLaw_serveLock
  | unknownCommand code => exact answersControlled_openTxn .plain (fun _ => []) s
  | transactionEnd clocked => exact answersControlled_transactionEnd clocked s
  | configProgramDone failed => exact answersControlled_configProgramDone failed s
  | lockCheckProgrammed failed => exact answersControlled_lockCheckProgrammed failed s
  | lockMarkerProgrammed failed => exact answersControlled_lockMarkerProgrammed failed s
  | powerOnReset cut => exact answersControlled_next (controlLaw_stopAll cut true (stopAll cut s).ctl.pin)
  | powerOnResetEnd p => exact answersControlled_powerOnResetEnd p s
  | pinReset cut => exact answersControlled_next (controlLaw_stopAll cut (stopAll cut s).ctl.power true)
  | pinResetEnd p => exact answersControlled_pinResetEnd p s
  | softResetWaitEnd p => exact answersControlled_guard fun _ _ => controlLaw_resetEnd p s
  | startUpScanEnd => exact answersControlled_startUpScanEnd s
  | listeningPeriodEnd => exact answersControlled_listeningPeriodEnd s
  | settlingEnd => exact answersControlled_guard_of_control fun _ => rfl
  | frameStart => exact answersControlled_frameStart s
  | frameEndGood bytes => exact answersControlled_frameEndGood bytes s
  | frameEndGarbled => exact answersControlled_guard_of_control fun _ => rfl
  | guardEnd => exact answersControlled_guard_of_control fun _ => rfl
  | slotStart => exact answersControlled_slotStart s
  | cycleEnd => exact answersControlled_guard_of_control fun _ => rfl
  | collisionDetected => exact answersControlled_collisionDetected s
  | transmitEnd => exact answersControlled_transmitEnd s
  | waitingFramePlaced => exact answersControlled_waitingFramePlaced s
  | newsTaken => exact answersControlled_takeFrame control_useNews
  | supplyTaken => exact answersControlled_takeFrame control_useSupply
  | summaryTaken => exact answersControlled_takeFrame control_useSummary
  | profileTaken => exact answersControlled_takeFrame control_useProfile
  | bucketReplyTaken => exact answersControlled_takeFrame control_useBucketReply
  | fetchTaken => exact answersControlled_takeFrame fun f t => control_guard fun _ => control_acceptRequest f _ t
  | bucketQueryTaken => exact answersControlled_takeFrame fun f t => control_guard fun _ => control_acceptRequest f _ t
  | profileQueryTaken => exact answersControlled_takeFrame fun f t => control_guard fun _ => control_acceptRequest f _ t
  | summaryTimerExpiry => exact answersControlled_guard_of_control fun _ => control_expireSummary s
  | profileReplyTimeout => exact answersControlled_guard_of_control fun _ => control_pumpProfile _
  | bucketReplyTimeout => exact answersControlled_bucketReplyTimeout s
  | fetchReplyTimeout slot => exact answersControlled_fetchReplyTimeout slot s
  | silenceLimit peer =>
    exact answersControlled_guard_of_control fun _ => (control_pump _).trans (control_purgePeer ..)
  | absenceLimit peer =>
    exact answersControlled_guard_of_control fun _ =>
      (control_pump _).trans ((control_endQueryOf ..).trans (control_discardJobs ..))
  | duplicateMarkExpiry peer => exact answersControlled_guard_of_control fun _ => control_pumpProfile _
  | readGrant => exact answersControlled_readGrant s
  | appendGrant => exact answersControlled_appendGrant s
  | markGrant => exact answersControlled_markGrant s
  | eraseGrant => exact answersControlled_guard_of_control fun _ => rfl
  | eraseSuspended => exact answersControlled_guard_of_control fun _ => rfl
  | eraseResume => exact answersControlled_guard_of_control fun _ => rfl
  | hostReadDone => exact answersControlled_hostReadDone s
  | responderReadDone => exact answersControlled_responderReadDone s
  | compactionReadDone => exact answersControlled_compactionReadDone s
  | updateProgramDone failed => exact answersControlled_updateProgramDone failed s
  | copyProgramDone failed => exact answersControlled_copyProgramDone failed s
  | reclaimMarkDone => exact answersControlled_reclaimMarkDone s
  | eraseMarkDone => exact answersControlled_eraseMarkDone s
  | eraseDone failed markerFailed => exact answersControlled_eraseDone failed markerFailed s
  | settlingCarrier => exact answersControlled_guard_of_control fun _ => rfl
  | eraseCountProgrammed => exact answersControlled_eraseCountProgrammed s

theorem controlLaw_exec {c : Instr} {s t : State} (hs : ControlLaw s) (h : exec c s = .next t) : ControlLaw t := by
  obtain ⟨u, hu, keeps⟩ := answersControlled_exec c s
  rw [hu, Host.Outcome.next.injEq] at h
  exact h ▸ keeps hs

/-- Settles O59: only `beginSending`, a reset's end and the area's programming touch what the law reads, each under the guard
that the law asks for. -/
theorem stepsKeepControlLaw : Obligations.StepsKeepControlLaw := by
  intro s t hs h
  exact step_keeps (fun _ _ _ => controlLaw_exec) (fun _ _ hs => controlLaw_of_control hs rfl)
    (fun _ hs => controlLaw_of_control hs rfl) hs h

end Sys2Proof.Proofs
end

