-- ==== Sys2Proof/Proofs/Frames.lean ====
section
/-! PROOFS. A frame's bytes on the line read back as the frame (R80, R84, R183). -/

namespace Sys2Proof.Proofs
open Sys2Proof Sys2Proof.Machine Sys2Proof.Stated

/-! ## Parts of a list of bytes -/

theorem wordAt_append_be16 (l : List Byte) (w : BitVec 16) : wordAt (l ++ be16 w) l.length = w := by
  have hi : byteAt (l ++ be16 w) l.length = w.extractLsb' 8 8 := by simp [byteAt, be16]
  have lo : byteAt (l ++ be16 w) (l.length + 1) = w.extractLsb' 0 8 := by simp [byteAt, be16]
  rw [wordAt, hi, lo]
  exact word16_of_bytes w

/-- The kind code and the flags are the halves of a byte (R183). -/
theorem halves_of_append (a b : BitVec 4) :
    (a ++ b : Byte).extractLsb' 4 4 = a ∧ (a ++ b : Byte).extractLsb' 0 4 = b :=
  ⟨BitVec.extractLsb'_append_eq_left, BitVec.extractLsb'_append_eq_right⟩

/-! ## The frame -/

theorem length_header (f : Frame) : f.header.length = 6 := rfl

/-- The bytes after the delimiter (R183). -/
def framedBytes (f : Frame) : List Byte := f.header ++ f.payload ++ be16 (crc16 (f.header ++ f.payload))

theorem length_framedBytes (f : Frame) : (framedBytes f).length = f.payload.length + 8 := by
  simp only [framedBytes, List.length_append, length_header]
  change 6 + f.payload.length + 2 = _
  omega

theorem wordAt_framedBytes_crc (f : Frame) :
    wordAt (framedBytes f) (f.payload.length + 6) = crc16 (f.header ++ f.payload) := by
  have hlen : (f.header ++ f.payload).length = f.payload.length + 6 := by
    rw [List.length_append, length_header, Nat.add_comm]
  rw [framedBytes, ← hlen]
  exact wordAt_append_be16 ..

theorem take_framedBytes (f : Frame) : (framedBytes f).take (f.payload.length + 6) = f.header ++ f.payload := by
  rw [framedBytes]
  exact List.take_left' (by rw [List.length_append, length_header, Nat.add_comm])

/-- The declared length is the payload's (R80). -/
theorem wordAt_framedBytes_length (f : Frame) (h : f.payload.length ≤ 256) :
    (wordAt (framedBytes f) 4).toNat = f.payload.length := by
  have declared : wordAt (framedBytes f) 4 = BitVec.ofNat 16 f.payload.length := word16_of_bytes _
  rw [declared, BitVec.toNat_ofNat]
  omega

theorem payload_framedBytes (f : Frame) : ((framedBytes f).drop 6).take f.payload.length = f.payload := by
  have after : (framedBytes f).drop 6 = f.payload ++ be16 (crc16 (f.header ++ f.payload)) := by
    rw [framedBytes, List.append_assoc]
    exact List.drop_left' (length_header f)
  rw [after]
  exact List.take_left' rfl

/-- Settles O4: each part of the bytes reads back as what was written there, and none of the tests for a garbled frame holds. -/
theorem framesAreHeardAsSent : Obligations.FramesAreHeardAsSent := by
  intro f h
  have hbytes : f.lineBytes = Config.startDelimiter :: framedBytes f := rfl
  have hsource : stationOfByte (byteAt (framedBytes f) 1) = some f.source := stationOfByte_stationByte f.source
  obtain ⟨hcode, hflags⟩ := halves_of_append f.code f.flags
  refine ⟨by rw [hbytes, List.length_cons, length_framedBytes]; omega, ?_⟩
  rw [hbytes, parseFrame]
  simp only [wordAt_framedBytes_length f h, length_framedBytes, take_framedBytes, wordAt_framedBytes_crc, hsource,
    payload_framedBytes]
  rw [if_neg (by simp [Config.maxPayload, h]), if_neg (by simp)]
  rw [show byteAt (framedBytes f) 0 = f.code ++ f.flags from rfl, hcode, hflags]
  rfl

end Sys2Proof.Proofs
end

