-- ==== Sys2Proof/Proofs/LinePhases.lean ====
section
/-! PROOFS. The line's phases (R83 to R92), a frame heard with the own number (R96, R99), and how a transmission ends (R91 to
R94, R98, R100). -/

namespace Sys2Proof.Proofs
open Sys2Proof Sys2Proof.Machine Sys2Proof.Stated

/-! ## Quiet, carrier, guard and slots (R83 to R92) -/

theorem isHearing_iff {s : State} : isHearing s = true ↔ Hearing s := by
  rw [isHearing, Bool.and_eq_true, Bool.and_eq_true, isUp_iff, beq_iff_eq, Option.isNone_iff_eq_none, and_assoc, Hearing]

/-- An event of the line that has its occasion only in one phase. -/
theorem occasion_iff {s : State} (hup : Up s) (p : LinePhase) :
    (isUp s && s.line.phase == p) = true ↔ s.line.phase = p := by
  rw [isUp_iff.2 hup, Bool.true_and, beq_iff_eq]

theorem exec_frameStart_of_guard {s : State} (hup : Up s) (hphase : s.line.phase = .guardTime) :
    exec .frameStart s = .next (setPhase .busy s) := by
  rw [exec_frameStart, execFrameStart, if_pos (isUp_iff.2 hup), hphase]

theorem exec_frameStart_of_cycle {s : State} (hup : Up s) (hphase : s.line.phase = .cycle) :
    exec .frameStart s = .next (countDeferral (setPhase .busy s)) := by
  rw [exec_frameStart, execFrameStart, if_pos (isUp_iff.2 hup), hphase]

theorem exec_cycleEnd_of_passed {s : State} (hup : Up s) (hphase : s.line.phase = .cycle) (hslot : s.line.slot = 32) :
    exec .cycleEnd s = .next (startCycle (countDeferral s)) := by
  rw [exec_cycleEnd, execCycleEnd, if_pos]
  rw [Bool.and_eq_true, occasion_iff hup, beq_iff_eq]
  exact ⟨hphase, hslot⟩

theorem exec_frameEndGarbled_of_hearing {s : State} (h : Hearing s) : exec .frameEndGarbled s = .next (endGarbled s) := by
  rw [exec_frameEndGarbled, execFrameEndGarbled, if_pos (isHearing_iff.2 h)]

theorem exec_frameEndGood_of_none {s : State} {bytes : List Byte} (h : Hearing s) (hbytes : parseFrame bytes = none) :
    exec (.frameEndGood bytes) s = .next (endGarbled s) := by
  rw [exec_frameEndGood, execFrameEndGood, if_pos (isHearing_iff.2 h), hbytes]

theorem exec_frameEndGood_of_some {s : State} {bytes : List Byte} {f : Frame} (h : Hearing s)
    (hbytes : parseFrame bytes = some f) : exec (.frameEndGood bytes) s = .next (endGood f s) := by
  rw [exec_frameEndGood, execFrameEndGood, if_pos (isHearing_iff.2 h), hbytes]

/-- Settles O23: each event has its occasion in its phase. -/
theorem linePhasesFollowTheLine : Obligations.LinePhasesFollowTheLine := by
  intro s hup
  refine ⟨fun hphase => ⟨?_, ?_⟩, fun hphase => ⟨?_, ?_⟩, fun hphase => ?_, fun hphase hslot => ?_,
    fun hphase hsending => ?_⟩
  · rw [exec_settlingCarrier, execSettlingCarrier, if_pos ((occasion_iff hup _).2 hphase), setPhase, ← hphase]
  · rw [exec_settlingEnd, execSettlingEnd, if_pos ((occasion_iff hup _).2 hphase), startCycle]
  · rw [exec_guardEnd, execGuardEnd, if_pos ((occasion_iff hup _).2 hphase), startCycle]
  · rw [exec_frameStart_of_guard hup hphase, setPhase]
  · rw [exec_frameStart_of_cycle hup hphase, setPhase, countDeferral]
  · rw [exec_cycleEnd_of_passed hup hphase hslot]
    rw [startCycle, countDeferral, ← hphase]
  · have hears : Hearing s := ⟨hup, hphase, hsending⟩
    exact ⟨exec_frameEndGarbled_of_hearing hears, fun bytes => exec_frameEndGood_of_none hears⟩

/-! ## The own number (R96, R99, R119, R133, R145, R153, R165) -/

theorem discardReads_eq (s : State) : discardReads s = { s with store := unread s.store } := by
  unfold discardReads unread
  rfl

theorem enterMute_eq (s : State) :
    enterMute s =
      { s with
        ctl := { s.ctl with st := .mute, listeningSince := none }
        host := s.host.post (.stationState .mute)
        store := unread s.store
        line := { s.line with txq := [], waiting := [] }
        summ := { timer := none }
        recon := { queue := [], phase := .idle }
        fetch := { wants := [], slots := Vector.replicate 4 .free }
        resp := { jobs := [], service := none } } := by
  rw [enterMute, discardReads_eq]
  rfl

theorem endGood_of_own {f : Frame} {s : State} (h : f.source = s.ctl.own) :
    endGood f s =
      if s.ctl.st = .mute then setBase (s.ctl.own + 1) (setPhase .guardTime s)
      else enterMute (setBase (s.ctl.own + 1) (setPhase .guardTime s)) := by
  rw [endGood, if_pos h, h]

/-- Settles O24: the base is set in any case, and the entry to MUTE comes after it, once. -/
theorem ownNumberMutes : Obligations.OwnNumberMutes := by
  intro s bytes f hears hbytes hown
  rw [exec_frameEndGood_of_some hears hbytes, endGood_of_own hown]
  refine ⟨fun hmute => ?_, fun hmute => ?_⟩
  · rw [if_pos hmute]
    rfl
  · rw [if_neg hmute, enterMute_eq]
    rfl

/-! ## The end of a transmission (R91 to R94) -/

/-- The first frame of its class is the one that is changed, or removed. -/
theorem editFirst_eq {c : TxClass} {pre post : List TxFrame} {t : TxFrame} (f : TxFrame → Option TxFrame)
    (ht : t.kind.cls = c) (hpre : ∀ x ∈ pre, x.kind.cls ≠ c) :
    editFirst c f (pre ++ t :: post) = pre ++ ((f t).toList ++ post) := by
  induction pre with
  | nil =>
    rw [List.nil_append, editFirst, if_pos ht]
    cases f t <;> rfl
  | cons x pre ih =>
    obtain ⟨hx, hpre⟩ := List.forall_mem_cons.1 hpre
    rw [List.cons_append, editFirst, if_neg hx, ih hpre, List.cons_append]

theorem exec_collisionDetected_of_first {s : State} {tx : Sending} {pre post : List TxFrame} {t : TxFrame}
    (hsending : s.line.sending = some tx) (hwait : s.ctl.softWait = false) (h : FirstOf s tx.cls pre t post) :
    exec .collisionDetected s =
      .next
        { s with
          line :=
            { s.line with
              sending := none
              base := 0
              deferral := deferralOf s.ctl.uniqueId (t.collisions + 1)
              txq := pre ++ ((collide t).toList ++ post) } } := by
  obtain ⟨hq, ht, hpre⟩ := id h
  simp only [exec_collisionDetected, execCollisionDetected, hsending, hwait, firstOfClass_eq h]
  rw [if_neg nofun, hq, editFirst_eq collide ht hpre]

/-- Settles O27: under a soft reset's wait the frame is abandoned; else the first frame of the class being sent counts the
collision. -/
theorem collisionsDefer : Obligations.CollisionsDefer := by
  intro s tx hsending
  refine ⟨fun hwait => ?_, fun pre t post hwait h => ?_⟩
  · simp only [exec_collisionDetected, execCollisionDetected, hsending, hwait, if_true]
    rfl
  · rw [exec_collisionDetected_of_first hsending hwait h]
    have field : deferralOf s.ctl.uniqueId (t.collisions + 1) = (s.ctl.uniqueId.extractLsb' (2 * t.collisions) 2).toNat := rfl
    have kept : pre ++ ((collide t).toList ++ post) =
        if t.collisions + 1 < 8 then pre ++ { t with collisions := t.collisions + 1 } :: post else pre ++ post := by
      unfold collide Config.maxCollisions
      split <;> rfl
    rw [field, kept]

theorem exec_transmitEnd_of_first {s : State} {tx : Sending} {pre post : List TxFrame} {t : TxFrame}
    (hsending : s.line.sending = some tx) (hwait : s.ctl.softWait = false) (h : FirstOf s tx.cls pre t post) :
    exec .transmitEnd s =
      .next
        (reportSent t.placer
          { s with
            line :=
              { s.line with
                sending := none, phase := .guardTime, quietSince := s.now, base := s.ctl.own + 1, txq := pre ++ post } }) := by
  obtain ⟨hq, ht, hpre⟩ := id h
  have removed : editFirst tx.cls (fun _ => none) s.line.txq = pre ++ post := by
    rw [hq, editFirst_eq _ ht hpre]
    rfl
  simp only [exec_transmitEnd, execTransmitEnd, hsending, hwait, firstOfClass_eq h]
  rw [if_neg nofun, ← removed]
  rfl

/-- Settles O28: the frame leaves the queue, and `reportSent` finds its placer's timer. -/
theorem transmissionsEnd : Obligations.TransmissionsEnd := by
  intro s tx hsending
  refine ⟨fun hwait => ?_, fun pre t post hwait h => ?_⟩
  · simp only [exec_transmitEnd, execTransmitEnd, hsending, hwait, if_true]
    rfl
  · rw [exec_transmitEnd_of_first hsending hwait h]
    refine ⟨fun hplacer => ?_, fun q p hplacer hquery hplaced => ?_, fun p n hplacer hphase => ?_,
      fun i key peer p hplacer hslot => ?_⟩
    · rw [hplacer]
      rfl
    · simp only [hplacer, reportSent, hquery, hplaced, Option.map_some]
    · simp only [hplacer, reportSent, hphase]
    · simp only [hplacer, reportSent, hslot]
      rfl

end Sys2Proof.Proofs
end

