-- ==== Sys2Proof/Proofs/Unused.lean ====
section
/-! PROOFS. Takings without a use (R81, R86, R112): a sender's state that gives its frame none, and a Receive Queue whose
oldest frame for the block is of another kind. -/

namespace Sys2Proof.Proofs
open Sys2Proof Sys2Proof.Machine Sys2Proof.Stated

/-- The use of a taken frame of each kind (R81). -/
def useOf : FrameKind → Frame → State → State
  | .summary => useSummary
  | .news => useNews
  | .profileQuery => useProfileQuery
  | .profile => useProfile
  | .bucketQuery => useBucketQuery
  | .bucketReply => useBucketReply
  | .fetch => useFetch
  | .supply => useSupply

theorem exec_takingOf (k : FrameKind) (s : State) : exec (takingOf k) s = takeFrame k (useOf k) s := by
  cases k <;> rfl

/-! ## The sender's state (R112) -/

theorem isPresent_eq_false {s : State} {p : Station} (h : (peerOf s p).state ≠ .present) : isPresent s p = false :=
  beq_eq_false_iff_ne.2 h

theorem useBucketReply_of_not_present {f : Frame} {s : State} (h : isPresent s f.source = false) :
    useBucketReply f s = s := by
  unfold useBucketReply
  split
  · exact if_pos (.inl h)
  all_goals rfl

theorem useOf_of_unused {k : FrameKind} {f : Frame} {s : State} (h : Unused k (peerOf s f.source).state) :
    useOf k f s = s := by
  cases k with
  | summary => exact if_neg fun hu => by simp [isPresent_eq_false h] at hu
  | news => exact if_neg (by simp [isPresent_eq_false h])
  | profileQuery =>
    refine if_neg ?_
    rcases h with h | h <;> rw [h] <;> nofun
  | profile => exact if_neg h
  | bucketQuery => exact if_neg fun hu => by simp [isPresent_eq_false h] at hu
  | bucketReply => exact useBucketReply_of_not_present (isPresent_eq_false h)
  | fetch => exact if_neg fun hu => by simp [isPresent_eq_false h] at hu
  | supply => exact if_neg (by simp [isPresent_eq_false h])

/-! ## The order of a block's frames (R86) -/

theorem takeFrame_of_none {s : State} {k : FrameKind} (use : Frame → State → State)
    (h : ∀ x ∈ s.line.rxq, ¬ ForBlock k x) : takeFrame k use s = .next s := by
  have hnone : s.line.rxq.find? (isForBlock k) = none :=
    List.find?_eq_none.2 fun x hx hk => h x hx (isForBlock_iff.1 hk)
  simp only [takeFrame, hnone, ite_self]

/-- The block's oldest frame is another taking's. -/
theorem takeFrame_of_other {s : State} {k : FrameKind} {pre post : List Frame} {f : Frame}
    (use : Frame → State → State) (hq : s.line.rxq = pre ++ f :: post) (hpre : ∀ x ∈ pre, ¬ ForBlock k x)
    (hf : ForBlock k f) (hk : f.kind ≠ some k) : takeFrame k use s = .next s := by
  have hnone : ∀ x ∈ pre, ¬ isForBlock k x = true := fun x hx e => hpre x hx (isForBlock_iff.1 e)
  have hfind : s.line.rxq.find? (isForBlock k) = some f := by
    rw [hq, List.find?_append, List.find?_eq_none.2 hnone, List.find?_cons_of_pos (isForBlock_iff.2 hf), Option.none_or]
  have hother : isKind k f = false := beq_eq_false_iff_ne.2 hk
  simp only [takeFrame, hfind, hother, Bool.false_eq_true, if_false, ite_self]

/-- Settles O30: a frame that waits is taken, and `useOf_of_unused`; with none in its turn the taking has no occasion. -/
theorem unusedFramesAreDiscarded : Obligations.UnusedFramesAreDiscarded := by
  refine ⟨fun s k pre f post hwaits hunused => ?_, fun s k => ⟨fun hnone => ?_, fun pre f post hq hpre hf hk => ?_⟩⟩
  · rw [exec_takingOf, takeFrame_of_waits hwaits, useOf_of_unused]
    exact hunused
  · rw [exec_takingOf, takeFrame_of_none _ hnone]
  · rw [exec_takingOf, takeFrame_of_other _ hq hpre hf hk]

end Sys2Proof.Proofs
end

