-- ==== Sys2Proof/Proofs/Placing.lean ====
section
/-! PROOFS. Placing (R95 to R98, R121, R148 to R151): what each placer puts into a free place, who waits, and the frames that
cannot wait. -/

namespace Sys2Proof.Proofs
open Sys2Proof Sys2Proof.Machine Sys2Proof.Stated

/-! ## Requests (R98) -/

theorem hasRoom_iff_room {s : State} : hasRoom s = true ↔ Room s s.line := hasRoom_iff

theorem placeFor_profileQuery {s : State} {q : ProfileQuery} (line : Line) (h : s.memb.query = some q) :
    placeFor .profileQuery { s with line := line } = queryPlaced q line s := by
  simp only [placeFor, placeProfileQuery, h]
  rfl

theorem placeFor_bucketQuery {s : State} {p : Pair} {pairs : List Pair} (line : Line) (h : s.recon.queue = p :: pairs) :
    placeFor .bucketQuery { s with line := line } = pairPlaced p line s := by
  simp only [placeFor, placeBucketQuery, h]
  rw [← h]
  rfl

theorem placeFor_fetch {s : State} {i : Fin 4} {key : Key} {peer : Station} {stamp : Stamp} (line : Line)
    (h : s.fetch.slots[i] = .waitingRoom key peer stamp) :
    placeFor (.fetch i) { s with line := line } = fetchPlaced i key peer stamp line s := by
  simp only [placeFor, placeFetch, h]
  rfl

/-! ## Replies (R148 to R151) -/

theorem placeReply_supply {s : State} (line : Line) {job : Job} {others : List Job} {key : Key} {answer : Option Record}
    (hjobs : s.resp.jobs = job :: others) (hkind : job.kind = .supply key) (hservice : s.resp.service = some (.built answer)) :
    placeReply { s with line := line } =
      { s with line := supplyPlaced job key answer line, resp := { jobs := others, service := none } } := by
  unfold placeReply
  simp only [hjobs, hservice, hkind]
  cases answer <;> rfl

theorem placeReply_profile {s : State} (line : Line) {job : Job} {others : List Job} (hjobs : s.resp.jobs = job :: others)
    (hkind : job.kind = .profile) (hservice : s.resp.service = some .ready) :
    placeReply { s with line := line } =
      { s with
        line := placed .profile 0 (stationByte job.peer) (job.echo :: profileTable s.ctl) none line
        resp := { jobs := others, service := none } } := by
  unfold placeReply
  simp only [hjobs, hservice, hkind]
  rfl

theorem placeReply_bucketReply {s : State} (line : Line) {job : Job} {others : List Job} {b : Bucket} {part : Nat}
    {resume : Option Key}
    (hjobs : s.resp.jobs = job :: others) (hkind : job.kind = .bucketReply b part resume)
    (hservice : s.resp.service = some .ready) :
    placeReply { s with line := line } =
      { s with
        line := partPlaced job b part (found s b resume) line
        resp := { jobs := jobsAfterPart job b part (found s b resume) others, service := none } } := by
  have hfound : bucketEntries { s with line := line } b resume = found s b resume := rfl
  unfold placeReply jobsAfterPart partPlaced
  simp only [hjobs, hservice, hkind, hfound, decide_eq_true_eq]
  rfl

/-! ## The freed place (R95) -/

theorem exec_waitingFramePlaced_of_placing {s : State} {r : Requester} {rest : List Requester} (hp : Placing s)
    (hwaiting : s.line.waiting = r :: rest) (hroom : s.line.txq.length < 16) :
    exec .waitingFramePlaced s =
      .next (pumpResponder (placeFor r { s with line := { s.line with waiting := rest } })) := by
  have hguard : (mayPlace s && decide (s.line.txq.length < Config.txCapacity)) = true :=
    Bool.and_eq_true_iff.2 ⟨mayPlace_iff.2 hp, decide_eq_true hroom⟩
  simp only [exec_waitingFramePlaced, execWaitingFramePlaced, hwaiting, hguard, if_true]

/-- A reply placed frees the Responder for the next job, and with none left it rests. -/
theorem exec_waitingFramePlaced_of_reply {s t : State} {rest : List Requester} (hp : Placing s)
    (hwaiting : s.line.waiting = .reply :: rest) (hroom : s.line.txq.length < 16)
    (ht : placeReply { s with line := { s.line with waiting := rest } } = t) :
    exec .waitingFramePlaced s = .next (pumpResponder t) ∧
      (t.resp.jobs = [] → exec .waitingFramePlaced s = .next t) := by
  have hexec : exec .waitingFramePlaced s = .next (pumpResponder t) := by
    rw [exec_waitingFramePlaced_of_placing hp hwaiting hroom, placeFor, ht]
  exact ⟨hexec, fun hjobs => by rw [hexec, pumpResponder_of_idle t (.inr hjobs)]⟩

theorem jobsAfterPart_of_last {job : Job} {b : Bucket} {part : Nat} {entries : List Entry} {others : List Job}
    (h : entries.length ≤ 36) : jobsAfterPart job b part entries others = others := if_pos h

/-! ## New offers (R95) -/

theorem offerRequest_of_no_room {s : State} (r : Requester) (h : ¬ Room s s.line) :
    offerRequest r s = { s with line := { s.line with waiting := s.line.waiting ++ [r] } } :=
  if_neg (mt hasRoom_iff_room.1 h)

theorem offerRequest_of_room {s : State} (r : Requester) (h : Room s s.line) : offerRequest r s = placeFor r s :=
  if_pos (hasRoom_iff_room.2 h)

/-! ## Frames that cannot wait (R121) -/

theorem placeBehind_of_no_place {s : State} (place : State → State)
    (h : ¬ Placing s ∨ 16 ≤ s.line.txq.length + s.line.waiting.length) : placeBehind place s = s := by
  refine if_neg fun hleft => ?_
  obtain ⟨hp, hlen⟩ := placeLeft_iff.1 hleft
  exact h.elim (fun hn => hn hp) fun hn => Nat.not_lt.2 hn hlen

theorem placeBehind_of_room {s : State} (place : State → State) (h : Room s s.line) : placeBehind place s = place s := by
  rw [placeBehind_of_none_waiting h.2.1, if_pos (hasRoom_iff_room.2 h)]

theorem offerSummary_of_noSummary {s : State} (h : NoSummary s) :
    offerSummary s = placeBehind (placeFrame .summary 0 Config.broadcast [] none) s := by
  refine if_neg ?_
  rw [List.any_eq_true]
  exact fun ⟨t, ht, hk⟩ => h t ht (beq_iff_eq.1 hk)

theorem offerSummary_of_queued {s : State} (h : ∃ t ∈ s.line.txq, t.kind = .summary) : offerSummary s = s := by
  obtain ⟨t, ht, hk⟩ := h
  exact if_pos (List.any_eq_true.2 ⟨t, ht, beq_iff_eq (b := FrameKind.summary).2 hk⟩)

theorem offerSummary_of_refused {s : State}
    (h : ¬ Placing s ∨ 16 ≤ s.line.txq.length + s.line.waiting.length) : offerSummary s = s := by
  unfold offerSummary
  rw [placeBehind_of_no_place _ h, ite_self]

theorem serveWaiting_of_waiting {s : State} (h : s.line.waiting ≠ []) :
    serveWaiting s = pumpResponder (placeWaiting s) := if_neg (mt List.isEmpty_iff.1 h)

/-- Settles O29: the placers by their requests and replies, and a frame that cannot wait by whether a place is left. -/
theorem waitingFramesArePlaced : Obligations.WaitingFramesArePlaced := by
  refine ⟨fun s r rest hp hwaiting hroom => ?_, fun s => ?_, fun s news => ?_⟩
  · have hexec := exec_waitingFramePlaced_of_placing hp hwaiting hroom
    refine ⟨hexec, fun i key peer stamp hr hslot hidle => ?_, fun q hr hquery hidle => ?_, fun p pairs hr hqueue hidle => ?_,
      fun job others key answer hr hjobs hkind hservice => ?_, fun job others hr hjobs hkind hservice => ?_,
      fun job others b part resume hr hjobs hkind hservice => ?_⟩
    · rw [hexec, hr, placeFor_fetch _ hslot]
      exact congrArg _ (pumpResponder_of_idle _ hidle)
    · rw [hexec, hr, placeFor_profileQuery _ hquery]
      exact congrArg _ (pumpResponder_of_idle _ hidle)
    · rw [hexec, hr, placeFor_bucketQuery _ hqueue]
      exact congrArg _ (pumpResponder_of_idle _ hidle)
    · exact exec_waitingFramePlaced_of_reply hp (hr ▸ hwaiting) hroom (placeReply_supply _ hjobs hkind hservice)
    · exact exec_waitingFramePlaced_of_reply hp (hr ▸ hwaiting) hroom (placeReply_profile _ hjobs hkind hservice)
    · obtain ⟨hnext, hlast⟩ := exec_waitingFramePlaced_of_reply hp (hr ▸ hwaiting) hroom
        (placeReply_bucketReply _ hjobs hkind hservice)
      exact ⟨hnext, fun hfound hothers => hlast ((jobsAfterPart_of_last hfound).trans hothers)⟩
  · refine ⟨fun r hno => offerRequest_of_no_room r hno, fun q hr hquery => ?_, fun p pairs hr hqueue => ?_,
      fun i key peer stamp hr hslot => ?_⟩
    · exact (offerRequest_of_room _ hr).trans (placeFor_profileQuery s.line hquery)
    · exact (offerRequest_of_room _ hr).trans (placeFor_bucketQuery s.line hqueue)
    · exact (offerRequest_of_room _ hr).trans (placeFor_fetch s.line hslot)
  · refine ⟨fun hno => ⟨placeBehind_of_no_place _ hno, offerSummary_of_refused hno⟩, offerSummary_of_queued,
      fun hr => placeBehind_of_room _ hr, fun hr hnone => ?_, fun hp hwaiting hleft => ?_⟩
    · rw [offerSummary_of_noSummary hnone, placeBehind_of_room _ hr]
      rfl
    · have hafter := serveWaiting_of_waiting hwaiting
      have behind (place : State → State) := placeBehind_serveWaiting place (mayPlace_iff.2 hp) hwaiting hleft
      rw [hafter] at behind
      refine ⟨(behind _).1, fun hnone => ?_⟩
      rw [offerSummary_of_noSummary hnone, (behind _).1]
      exact (offerSummary_of_noSummary ((behind id).2 hnone)).symm

end Sys2Proof.Proofs
end

