-- ==== Sys2Proof/Proofs/Heard.lean ====
section
/-! PROOFS. A good frame of another station (R85, R86, R103, R104, R110, R111): the withdrawal of a peer's work as one
update, and the membership effect of a frame. -/

namespace Sys2Proof.Proofs
open Sys2Proof Sys2Proof.Machine Sys2Proof.Stated

/-! ## Requests given up (R98, R111; log 22) -/

/-- A queued frame whose placer has given up reports to nobody. -/
def silenced (q : Requester → Bool) (t : TxFrame) : TxFrame := if t.placer.any q then { t with placer := none } else t

/-- Some requesters have given up: they wait no more, and their frames already placed report to nobody. -/
def abandoned (q : Requester → Bool) (l : Line) : Line :=
  { l with waiting := l.waiting.filter fun r => !q r, txq := l.txq.map (silenced q) }

theorem silenced_silenced (q r : Requester → Bool) (t : TxFrame) :
    silenced r (silenced q t) = silenced (fun x => q x || r x) t := by
  obtain ⟨kind, flags, dest, seq, payload, collisions, placer⟩ := t
  cases placer with
  | none => rfl
  | some x =>
    unfold silenced
    cases hq : q x <;> simp [hq]

theorem abandoned_abandoned (q r : Requester → Bool) (l : Line) :
    abandoned r (abandoned q l) = abandoned (fun x => q x || r x) l := by
  simp only [abandoned, List.filter_filter, List.map_map, Function.comp_def, silenced_silenced, Bool.not_or,
    Bool.and_comm]

theorem abandoned_false (l : Line) : abandoned (fun _ => false) l = l := by
  have kept : silenced (fun _ => false) = id := by
    funext t
    simp [silenced]
  simp [abandoned, kept]

theorem dropRequest_eq (r : Requester) (s : State) :
    dropRequest r s = { s with line := abandoned (fun q => q == r) s.line } := by
  have each (t : TxFrame) : (if t.placer = some r then { t with placer := none } else t) = silenced (fun q => q == r) t := by
    have heq : t.placer = some r ↔ (t.placer.any fun q => q == r) = true := by cases t.placer <;> simp
    rw [silenced]
    exact if_congr heq rfl rfl
  simp only [dropRequest, each]
  rfl

/-! ## The withdrawal of a peer's work (R111) -/

/-- The requesters of fetch slots among those listed whose FETCH is addressed to a peer. -/
def fetchesOf (s : State) (p : Station) (l : List (Fin 4)) : Requester → Bool
  | .fetch i => l.contains i && s.fetch.slots[i].peer == some p
  | _ => false

/-- A fetch slot aimed at a peer is FREE. -/
def freedOf (p : Station) (x : FetchSlot) : FetchSlot := if x.peer = some p then .free else x

/-- The slots listed that are aimed at a peer are FREE. -/
def slotsFreed (s : State) (p : Station) (l : List (Fin 4)) : Vector FetchSlot 4 :=
  Vector.ofFn fun i => if i ∈ l then freedOf p s.fetch.slots[i] else s.fetch.slots[i]

theorem getElem_slotsFreed (s : State) (p : Station) (l : List (Fin 4)) (i : Fin 4) :
    (slotsFreed s p l)[i] = if i ∈ l then freedOf p s.fetch.slots[i] else s.fetch.slots[i] := by
  rw [slotsFreed, Fin.getElem_fin, Vector.getElem_ofFn]

theorem freedOf_peer_ne (p : Station) (x : FetchSlot) : ((freedOf p x).peer == some p) = false := by
  unfold freedOf
  split
  · rfl
  · exact beq_eq_false_iff_ne.2 ‹_›

theorem freedOf_freedOf (p : Station) (x : FetchSlot) : freedOf p (freedOf p x) = freedOf p x :=
  if_neg (beq_eq_false_iff_ne.1 (freedOf_peer_ne p x))

/-- The slots listed that are aimed at a peer are freed, and their requests given up. -/
def fetchesWithdrawn (p : Station) (l : List (Fin 4)) (s : State) : State :=
  { s with
    fetch := { s.fetch with slots := slotsFreed s p l }
    line := abandoned (fetchesOf s p l) s.line }

theorem slotsFreed_eq (s : State) (p : Station) (l : List (Fin 4)) {v : Vector FetchSlot 4}
    (h : ∀ i : Fin 4, v[i] = if i ∈ l then freedOf p s.fetch.slots[i] else s.fetch.slots[i]) : v = slotsFreed s p l :=
  Vector.ext fun i hi => (h ⟨i, hi⟩).trans (getElem_slotsFreed s p l ⟨i, hi⟩).symm

theorem fetchesOf_fetch (s : State) (p : Station) (l : List (Fin 4)) (i : Fin 4) :
    fetchesOf s p l (.fetch i) = (l.contains i && s.fetch.slots[i].peer == some p) := rfl

theorem fetchesWithdrawn_of_none {p : Station} {l : List (Fin 4)} {s : State}
    (h : ∀ i ∈ l, s.fetch.slots[i].peer ≠ some p) : fetchesWithdrawn p l s = s := by
  have slots : s.fetch.slots = slotsFreed s p l := by
    refine slotsFreed_eq s p l fun i => ?_
    split
    · exact (if_neg (h i ‹_›)).symm
    · rfl
  have gone : fetchesOf s p l = fun _ => false := by
    funext r
    cases r with
    | fetch i =>
      rw [fetchesOf_fetch, Bool.and_eq_false_imp, List.contains_iff_mem]
      exact fun hi => beq_eq_false_iff_ne.2 (h i hi)
    | _ => rfl
  rw [fetchesWithdrawn, gone, abandoned_false, ← slots]

theorem freeFetchSlot_eq {p : Station} {i : Fin 4} {s : State} (h : s.fetch.slots[i].peer = some p) :
    freeFetchSlot i s = fetchesWithdrawn p [i] s := by
  have slots : s.fetch.slots.set i .free = slotsFreed s p [i] := by
    refine slotsFreed_eq s p [i] fun j => ?_
    rw [Fin.getElem_fin, Vector.getElem_set]
    by_cases hj : i = j
    · subst hj
      rw [if_pos rfl, if_pos (List.mem_singleton_self i), freedOf, if_pos h]
    · rw [if_neg (mt Fin.ext hj), if_neg fun hm => hj (List.mem_singleton.1 hm).symm]
      rfl
  have gone : (fun q => q == Requester.fetch i) = fetchesOf s p [i] := by
    funext r
    cases r with
    | fetch j =>
      rw [fetchesOf_fetch]
      by_cases hj : j = i
      · rw [hj, h]
        simp
      · simp [hj]
    | _ => rfl
  rw [freeFetchSlot, dropRequest_eq, setFetchSlot, gone, slots]
  rfl

theorem fetchesWithdrawn_fetchesWithdrawn (p : Station) (i : Fin 4) (l : List (Fin 4)) (s : State) :
    fetchesWithdrawn p l (fetchesWithdrawn p [i] s) = fetchesWithdrawn p (i :: l) s := by
  have first (j : Fin 4) : (fetchesWithdrawn p [i] s).fetch.slots[j] =
      if j ∈ [i] then freedOf p s.fetch.slots[j] else s.fetch.slots[j] := getElem_slotsFreed s p [i] j
  have slots : slotsFreed (fetchesWithdrawn p [i] s) p l = slotsFreed s p (i :: l) := by
    refine slotsFreed_eq s p (i :: l) fun j => ?_
    rw [getElem_slotsFreed, first]
    by_cases hj : j = i
    · simp [hj, freedOf_freedOf]
    · simp [hj]
  have gone : (fun r => fetchesOf s p [i] r || fetchesOf (fetchesWithdrawn p [i] s) p l r) = fetchesOf s p (i :: l) := by
    funext r
    cases r with
    | fetch j =>
      rw [fetchesOf_fetch, fetchesOf_fetch, fetchesOf_fetch, first]
      by_cases hj : j = i
      · simp [hj, freedOf_peer_ne]
      · simp [hj]
    | _ => rfl
  have line : abandoned (fetchesOf (fetchesWithdrawn p [i] s) p l) (fetchesWithdrawn p [i] s).line =
      abandoned (fetchesOf s p (i :: l)) s.line := by
    rw [← gone]
    exact abandoned_abandoned ..
  rw [fetchesWithdrawn, slots, line]
  rfl

theorem freeSlotsOfPeer_eq (p : Station) (s : State) : freeSlotsOfPeer p s = fetchesWithdrawn p slotNumbers s := by
  have key (l : List (Fin 4)) (t : State) :
      l.foldl (fun t i => if t.fetch.slots[i].peer = some p then freeFetchSlot i t else t) t = fetchesWithdrawn p l t := by
    induction l generalizing t with
    | nil => exact (fetchesWithdrawn_of_none fun j hj => absurd hj List.not_mem_nil).symm
    | cons i l ih =>
      have slot : (if t.fetch.slots[i].peer = some p then freeFetchSlot i t else t) = fetchesWithdrawn p [i] t := by
        split
        · exact freeFetchSlot_eq ‹_›
        · rename_i hpeer
          exact (fetchesWithdrawn_of_none fun j hj => List.mem_singleton.1 hj ▸ hpeer).symm
      rw [List.foldl_cons, slot, ih, fetchesWithdrawn_fetchesWithdrawn]
  exact key slotNumbers s

theorem slotsFreed_all (s : State) (p : Station) :
    slotsFreed s p slotNumbers = s.fetch.slots.map fun x => if x.peer = some p then .free else x := by
  refine (slotsFreed_eq s p slotNumbers fun i => ?_).symm
  rw [if_pos (mem_slotNumbers i), Fin.getElem_fin, Vector.getElem_map]
  rfl

theorem endPairOf_eq (p : Station) (s : State) :
    endPairOf p s =
      { s with
        recon := { s.recon with phase := if queries s p then .idle else s.recon.phase }
        line := abandoned (fun r => r == .bucketQuery && queries s p) s.line } := by
  have step : endPairOf p s = if queries s p then endBucketQuery s else s := by
    unfold endPairOf queries
    split
    · rename_i hphase
      rw [hphase]
      rfl
    · rename_i q rest hqueue hphase
      have hbusy : (s.recon.phase != .idle) = true := bne_iff_ne.2 hphase
      simp only [hqueue, hbusy, List.head?_cons, Option.any_some, Bool.true_and, beq_iff_eq]
    · rename_i hqueue _
      simp [hqueue]
  cases hq : queries s p with
  | true =>
    rw [step, hq, if_pos rfl, endBucketQuery, dropRequest_eq]
    simp only [Bool.and_true, if_true]
  | false =>
    rw [step, hq]
    simp only [Bool.and_false, abandoned_false, Bool.false_eq_true, if_false]

theorem servesPeer_eq (s : State) (p : Station) : servesPeer s p = serves s p := by
  unfold servesPeer serves
  cases s.resp.jobs <;> rfl

theorem discardJobs_eq (p : Station) (s : State) :
    discardJobs p s =
      { s with
        resp :=
          { jobs := s.resp.jobs.filter fun j => j.peer != p
            service := if serves s p then none else s.resp.service }
        store := if serves s p then unread s.store else s.store
        line := abandoned (fun r => r == .reply && serves s p) s.line } := by
  unfold discardJobs
  rw [servesPeer_eq]
  cases serves s p with
  | true =>
    rw [if_pos rfl, endService, discardReads_eq, dropRequest_eq]
    simp only [Bool.and_true, if_true]
    rfl
  | false =>
    simp only [Bool.and_false, abandoned_false, Bool.false_eq_true, if_false]

/-- A peer's work is withdrawn in one update (R111). -/
theorem purgePeer_eq (p : Station) (s : State) : purgePeer p s = withdrawn p s := by
  have gone : (fun r => (fetchesOf s p slotNumbers r || (r == .bucketQuery && queries s p)) || (r == .reply && serves s p)) =
      abandons s p := by
    funext r
    cases r with
    | fetch i =>
      have hquery : (Requester.fetch i == .bucketQuery) = false := beq_false_of_ne nofun
      have hreply : (Requester.fetch i == .reply) = false := beq_false_of_ne nofun
      simp [fetchesOf_fetch, abandons, mem_slotNumbers, hquery, hreply]
    | reply => simp [fetchesOf, abandons]
    | profileQuery => simp [fetchesOf, abandons]
    | bucketQuery => simp [fetchesOf, abandons]
  have line : abandoned (fun r => r == .reply && serves s p)
      (abandoned (fun r => r == .bucketQuery && queries s p) (abandoned (fetchesOf s p slotNumbers) s.line)) =
      abandoned (abandons s p) s.line := by
    rw [abandoned_abandoned, abandoned_abandoned, ← gone]
    simp only [Bool.or_assoc]
  rw [purgePeer, freeSlotsOfPeer_eq, endPairOf_eq, discardJobs_eq]
  exact State.ext rfl rfl rfl rfl rfl rfl rfl line rfl rfl rfl (congrArg (FetchUnit.mk _) (slotsFreed_all s p)) rfl rfl
    rfl rfl

/-! ## The membership effect (R103, R104, R110) -/

theorem carriesOther_iff {e : Peer} {id : Option (BitVec 32)} : carriesOther e id = true ↔ Differs e id := by
  cases id with
  | none => simp [carriesOther, Differs]
  | some i =>
    simp only [carriesOther, idDiffers, Differs, Option.some.injEq, exists_eq_left']
    cases e.uniqueId with
    | none => simp
    | some u => rw [bne_iff_ne, BitVec.setWidth_eq_extractLsb' (by omega)]

/-- A peer entry is replaced, and a change of its state is posted (R113). -/
def peerHeard (p : Station) (new : Peer) (s : State) : State :=
  { s with
    memb := { s.memb with peers := s.memb.peers.set p.toNat new p.isLt }
    host := if new.state = (peerOf s p).state then s.host else s.host.post (.peerState p new.state) }

theorem setPeer_eq {p : Station} {new : Peer} {s : State} (h : new.state = (peerOf s p).state) :
    setPeer p new s = peerHeard p new s := by
  rw [peerHeard, if_pos h]
  rfl

theorem changePeer_eq {p : Station} {new : Peer} {s : State} (h : new.state ≠ (peerOf s p).state) :
    changePeer p new s = peerHeard p new s := by
  rw [peerHeard, if_neg h]
  rfl

/-- A peer entry is replaced, and with a peer that leaves PRESENT the work is withdrawn (R111). -/
def peerTaken (p : Station) (new : Peer) (s : State) : State :=
  if (peerOf s p).state = .present ∧ new.state ≠ .present then withdrawn p (peerHeard p new s) else peerHeard p new s

theorem peerTaken_of_same {p : Station} {new : Peer} {s : State} (h : new.state = (peerOf s p).state) :
    setPeer p new s = peerTaken p new s := by
  rw [setPeer_eq h, peerTaken, if_neg]
  rw [h]
  exact fun ⟨hold, hnew⟩ => hnew hold

theorem peerTaken_of_change {p : Station} {new : Peer} {s : State} (h : new.state ≠ (peerOf s p).state)
    (hold : (peerOf s p).state ≠ .present) : changePeer p new s = peerTaken p new s := by
  rw [changePeer_eq h, peerTaken, if_neg fun hboth => hold hboth.1]

theorem peerTaken_of_leaving {p : Station} {new : Peer} {s : State} (hold : (peerOf s p).state = .present)
    (hnew : new.state ≠ .present) : purgePeer p (changePeer p new s) = peerTaken p new s := by
  rw [changePeer_eq (hold ▸ hnew), peerTaken, if_pos ⟨hold, hnew⟩, purgePeer_eq]

/-- A frame makes of its sender's entry what R103, R104 and R110 say. -/
theorem hearPeer_heard (p : Station) (id : Option (BitVec 32)) (s : State) :
    ∃ new, Heard s.now id (peerOf s p) new ∧ hearPeer p id s = peerTaken p new s := by
  have hother : carriesOther { peerOf s p with lastHeard := some s.now } id = true ↔ Differs (peerOf s p) id :=
    carriesOther_iff
  have hnewId : (id.isSome && id != (peerOf s p).uniqueIdLow) = true ↔ id ≠ none ∧ id ≠ (peerOf s p).uniqueIdLow := by
    rw [Bool.and_eq_true, Option.isSome_iff_ne_none, bne_iff_ne]
  unfold hearPeer
  dsimp only
  split
  case h_1 hold =>
    refine ⟨_, ?_, peerTaken_of_change ?_ ?_⟩
    · simp only [Heard, hold]
      rfl
    · simp [hold]
    · simp [hold]
  case h_2 hold =>
    refine ⟨_, ?_, peerTaken_of_same rfl⟩
    simp only [Heard, hold, Config.maxAttempts]
    cases id <;> simp
  case h_3 hold =>
    split
    next hd =>
      refine ⟨_, ?_, peerTaken_of_leaving hold nofun⟩
      simp only [Heard, hold, not_true, hother.1 hd, false_implies, true_implies, and_true]
    next hd =>
      refine ⟨_, ?_, peerTaken_of_same rfl⟩
      simp only [Heard, hold, not_false_eq_true, mt hother.2 hd, false_implies, true_implies, true_and]
  case h_4 hold =>
    split
    next hd =>
      refine ⟨_, ?_, peerTaken_of_change ?_ ?_⟩
      · simp only [Heard, hold, not_true, hother.1 hd, false_implies, true_implies, and_true]
        rfl
      · simp [rejoin, hold]
      · simp [hold]
    next hd =>
      refine ⟨_, ?_, peerTaken_of_change ?_ ?_⟩
      · simp only [Heard, hold, not_false_eq_true, mt hother.2 hd, false_implies, true_implies, true_and]
      · simp [hold]
      · simp [hold]
  case h_5 hold =>
    split
    next hd =>
      refine ⟨_, ?_, peerTaken_of_change ?_ ?_⟩
      · simp only [Heard, hold, not_true, hother.1 hd, false_implies, true_implies, and_true]
        rfl
      · simp [rejoin, hold]
      · simp [hold]
    next hd =>
      refine ⟨_, ?_, peerTaken_of_same rfl⟩
      simp only [Heard, hold, not_false_eq_true, mt hother.2 hd, false_implies, true_implies, true_and]
  case h_6 hold =>
    split
    next hd =>
      refine ⟨_, ?_, peerTaken_of_same rfl⟩
      simp only [Heard, hold, implies_true, true_and]
      exact fun hsame => absurd hsame (not_or.2 (hnewId.1 hd))
    next hd =>
      refine ⟨_, ?_, peerTaken_of_same rfl⟩
      simp only [Heard, hold, implies_true, and_true]
      exact fun hdiffers => absurd (hnewId.2 hdiffers) hd

/-! ## The Receive Queue (R85, R86) -/

theorem receive_eq (f : Frame) (s : State) :
    receive f s =
      { s with
        line :=
          { s.line with
            rxq :=
              if f.accepted s.ctl.own = true ∧ s.line.rxq.length < 4 then s.line.rxq ++ [f] else s.line.rxq } } := by
  unfold receive Config.rxCapacity
  simp only [Bool.and_eq_true, decide_eq_true_eq]
  split <;> rfl

/-- Settles O25: the line's part and the membership effect do not meet, and the frame is received after both. -/
theorem goodFramesAreHeard : Obligations.GoodFramesAreHeard := by
  intro s bytes f hears hbytes hother
  let t := setBase (f.source + 1) (setPhase .guardTime s)
  obtain ⟨new, hnew, heffect⟩ := hearPeer_heard f.source f.carriedId t
  refine ⟨new, hnew, ?_⟩
  rw [exec_frameEndGood_of_some hears hbytes, endGood, if_neg hother, heffect]
  refine congrArg (fun v => Host.Outcome.next (workOffered v)) ?_
  by_cases hleaves : (peerOf s f.source).state = .present ∧ new.state ≠ .present
  · have taken : peerTaken f.source new t = withdrawn f.source (peerHeard f.source new t) := if_pos hleaves
    rw [taken, receive_eq]
    simp only [if_pos hleaves]
    rfl
  · have taken : peerTaken f.source new t = peerHeard f.source new t := if_neg hleaves
    rw [taken, receive_eq]
    simp only [if_neg hleaves]
    rfl

end Sys2Proof.Proofs
end

