-- ==== Sys2Proof/Proofs/StoreSide.lean ====
section
/-! PROOFS. What the Update Unit and the Flash Store leave alone: `beyondStore` is all of a state that is not theirs, nor the
Record Directory's or the Host Port's, and their shared operations leave it as it is. -/

namespace Sys2Proof.Proofs
open Sys2Proof Sys2Proof.Machine

/-- All of a state beyond the host port, the directory, the Update Unit and the flash store. -/
def beyondStore (s : State) :
    Control × ConfigArea × Line × Membership × SummaryUnit × Reconciler × FetchUnit × Responder × Nat × List Instr :=
  (s.ctl, s.cfg, s.line, s.memb, s.summ, s.recon, s.fetch, s.resp, s.now, s.pending)

theorem beyondStore_ite {p : Prop} [Decidable p] {s t u : State} (ht : p → beyondStore t = beyondStore s)
    (hu : ¬ p → beyondStore u = beyondStore s) : beyondStore (if p then t else u) = beyondStore s := by
  split
  · exact ht ‹_›
  · exact hu ‹_›

theorem beyondStore_guard {p : Prop} [Decidable p] {s t : State} (h : p → beyondStore t = beyondStore s) :
    beyondStore (if p then t else s) = beyondStore s := beyondStore_ite h fun _ => rfl

theorem beyondStore_complete (r : Reply) (s : State) : beyondStore (complete r s) = beyondStore s := rfl

/-! ## Slots (R31 to R52, R72) -/

theorem beyondStore_raiseClock (c : Counter) (s : State) : beyondStore (raiseClock c s) = beyondStore s :=
  beyondStore_guard fun _ => rfl

theorem beyondStore_setDiverged (r : DivReason) (s : State) : beyondStore (setDiverged r s) = beyondStore s := by
  cases r
  · exact beyondStore_ite (fun _ => rfl) fun _ => rfl
  · exact beyondStore_ite (fun _ => rfl) fun _ => rfl

theorem beyondStore_claimSlot (i : Fin 4) (o : Origin) (r : Record) (s : State) :
    beyondStore (claimSlot i o r s) = beyondStore s := by
  rw [claimSlot_eq]
  rfl

theorem beyondStore_releaseSlot (i : Fin 4) (x : Slot) (s : State) : beyondStore (releaseSlot i x s) = beyondStore s := by
  rw [releaseSlot_eq]
  rfl

theorem beyondStore_failSlots (w : WriteResult) (l : List (Fin 4)) (s : State) :
    beyondStore (failSlots w l s) = beyondStore s := by
  simp only [beyondStore, failSlots_ctl, failSlots_cfg, failSlots_line, failSlots_memb, failSlots_summ, failSlots_recon,
    failSlots_fetch, failSlots_resp, failSlots_now, failSlots_pending]

theorem beyondStore_failStoreWait (s : State) : beyondStore (failStoreWait s) = beyondStore s := beyondStore_failSlots ..

theorem beyondStore_localAdmission (k : Key) (tomb : Bool) (value : List Byte) (s : State) :
    beyondStore (localAdmission k tomb value s) = beyondStore s := by
  unfold localAdmission
  split
  · rfl
  · split
    · exact (beyondStore_complete ..).trans (beyondStore_claimSlot ..)
    · rfl

theorem beyondStore_meetSlot (i : Fin 4) (x : Slot) (r : Record) (s : State) :
    beyondStore (meetSlot i x r s) = beyondStore s := by
  refine beyondStore_guard fun _ => ?_
  split
  · rfl
  · exact beyondStore_guard fun _ => rfl

theorem beyondStore_commitEntry (e : Entry) (s : State) : beyondStore (commitEntry e s) = beyondStore s := by
  unfold commitEntry
  split <;> rfl

theorem beyondStore_reportCommit (x : Slot) (s : State) : beyondStore (reportCommit x s) = beyondStore s := by
  unfold reportCommit
  split
  · rfl
  · exact beyondStore_guard fun _ => rfl

theorem beyondStore_passCopy (c : CopySlot) (loc : Loc) (s : State) : beyondStore (passCopy c loc s) = beyondStore s := by
  have commit (t : State) : beyondStore (commitCopy c loc t) = beyondStore t := by
    unfold commitCopy
    split
    · exact beyondStore_guard fun _ => rfl
    · rfl
  exact commit (closeIfFull loc.sector s)

/-! ## The flash store (R60 to R75) -/

theorem beyondStore_spaceEvent (o s : State) : beyondStore (spaceEvent o s) = beyondStore s :=
  beyondStore_ite (fun _ => rfl) fun _ => beyondStore_ite (fun _ => rfl) fun _ => rfl

theorem beyondStore_testTrigger (s : State) : beyondStore (testTrigger s) = beyondStore s := by
  refine beyondStore_guard fun _ => ?_
  unfold beginCompaction
  split
  · rfl
  · split <;> rfl

theorem beyondStore_advanceWalk (s : State) : beyondStore (advanceWalk s) = beyondStore s := by
  unfold advanceWalk
  split
  · exact beyondStore_ite (fun _ => rfl) fun _ => beyondStore_guard fun _ => rfl
  · exact beyondStore_guard fun _ => rfl
  all_goals rfl

theorem beyondStore_settleStore (o s : State) : beyondStore (settleStore o s) = beyondStore s :=
  (beyondStore_spaceEvent ..).trans ((beyondStore_advanceWalk _).trans (beyondStore_testTrigger s))

theorem beyondStore_nextRun (s : State) : beyondStore (nextRun s) = beyondStore s := by
  unfold nextRun
  split
  · rfl
  · exact beyondStore_testTrigger _

theorem beyondStore_programAppend (loc : Loc) (opening : Option Opening) (image failed : List Byte) (rest : Byte)
    (s : State) : beyondStore (programAppend loc opening image failed rest s) = beyondStore s := by
  have program (a : Nat) (given failed : List Byte) (t : State) :
      beyondStore (programFlash a given failed rest t) = beyondStore t := rfl
  unfold programAppend
  split
  · exact (program ..).trans (program ..)
  · exact program ..

theorem beyondStore_takePlace (who : Appender) (r : Record) (p : Place) (s : State) :
    beyondStore (takePlace who r p s) = beyondStore s := by
  have start (loc : Loc) (t : State) : beyondStore (startProgramming who loc t) = beyondStore t := by
    unfold startProgramming
    split
    · split <;> rfl
    · rfl
  have closed : beyondStore (closeOpen s) = beyondStore s := by
    unfold closeOpen
    split <;> rfl
  unfold takePlace
  split
  · exact start ..
  · exact (start ..).trans closed

theorem beyondStore_grantSlot (i : Fin 4) (s : State) : beyondStore (grantSlot i s) = beyondStore s := by
  unfold grantSlot
  split
  · split
    · exact beyondStore_takePlace ..
    · refine beyondStore_ite (fun _ => beyondStore_testTrigger s) fun _ => ?_
      exact (beyondStore_failSlots ..).trans (beyondStore_testTrigger s)
  · rfl

theorem beyondStore_grantCopy (s : State) : beyondStore (grantCopy s) = beyondStore s := by
  unfold grantCopy
  split
  · split
    · exact beyondStore_takePlace ..
    · unfold answerCopy
      split
      · exact beyondStore_failStoreWait _
      all_goals rfl
  · rfl

theorem beyondStore_walkOn (found : ImageRead) (s : State) : beyondStore (walkOn found s) = beyondStore s := by
  unfold walkOn
  split
  · split
    · exact beyondStore_ite (fun _ => rfl) fun _ => rfl
    · exact beyondStore_failStoreWait _
    · exact beyondStore_failStoreWait _
  all_goals rfl

theorem beyondStore_retire (v : Nat) (b : Byte) (s : State) : beyondStore (retire v b s) = beyondStore s :=
  (beyondStore_ite (fun _ => beyondStore_failStoreWait _) fun _ => rfl).trans (beyondStore_nextRun _)

/-! ## What a reset abandons or cuts off (R79, R156, R157) -/

theorem beyondStore_abandonErase (erased : List (Nat × Byte)) (s : State) :
    beyondStore (abandonErase erased s) = beyondStore s := by
  unfold abandonErase
  split
  · split <;> rfl
  · rfl

theorem beyondStore_abandonRead (s : State) : beyondStore (abandonRead s) = beyondStore s := by
  unfold abandonRead
  split <;> rfl

theorem beyondStore_cutOp (cut : Cut) (s : State) : beyondStore (cutOp cut s) = beyondStore s := by
  unfold cutOp
  split
  · exact beyondStore_programAppend ..
  all_goals rfl

theorem beyondStore_cutErase (cut : Cut) (s : State) : beyondStore (cutErase cut s) = beyondStore s := by
  unfold cutErase
  split
  · split
    case h_4 => rfl
    all_goals exact beyondStore_abandonErase ..
  · rfl

end Sys2Proof.Proofs
end

