-- ==== Sys2Proof/Proofs/Peers.lean ====
section
/-! PROOFS. The peer law (R101, R105, R126, R136): `KeepsPeers s t` says that no peer entry has changed its state from s to t and
the law is kept, and composes; `peerLaw_peerTaken` is the one lemma about an entry that does change its state. -/

namespace Sys2Proof.Proofs
open Sys2Proof Sys2Proof.Machine Sys2Proof.Stated

/-! ## What the law reads -/

/-- All that the peer law reads of a state: the own number, the peer table with its query, the pairs, the Want entries. -/
def concern (s : State) : Station × Membership × List Pair × List Want :=
  (s.ctl.own, s.memb, s.recon.queue, s.fetch.wants)

/-- From s to t every peer entry keeps its state, and the peer law is kept. -/
structure KeepsPeers (s t : State) : Prop where
  own : t.ctl.own = s.ctl.own
  states : ∀ p, (peerOf t p).state = (peerOf s p).state
  law : PeerLaw s → PeerLaw t

theorem KeepsPeers.refl (s : State) : KeepsPeers s s := ⟨rfl, fun _ => rfl, id⟩

theorem KeepsPeers.trans {s t u : State} (h : KeepsPeers s t) (k : KeepsPeers t u) : KeepsPeers s u :=
  ⟨k.own.trans h.own, fun p => (k.states p).trans (h.states p), k.law ∘ h.law⟩

/-- Whatever t works on was worked on before, or concerns a peer in the right state. -/
theorem keepsPeers_of_work {s t : State} (own : t.ctl.own = s.ctl.own)
    (states : ∀ p, (peerOf t p).state = (peerOf s p).state)
    (wants : ∀ w ∈ t.fetch.wants, (∃ v ∈ s.fetch.wants, v.source = w.source) ∨ (peerOf s w.source).state = .present)
    (pairs : ∀ q ∈ t.recon.queue, (∃ v ∈ s.recon.queue, v.peer = q.peer) ∨ (peerOf s q.peer).state = .present)
    (query : ∀ q, t.memb.query = some q →
      (∃ v, s.memb.query = some v ∧ v.peer = q.peer) ∨ (peerOf s q.peer).state = .joining) : KeepsPeers s t := by
  refine ⟨own, states, fun hs => ⟨fun w hw => ?_, fun q hq => ?_, fun q hq => ?_, ?_⟩⟩
  · obtain ⟨v, hv, hsource⟩ | hpresent := wants w hw
    · exact (states _).trans (hsource ▸ hs.wants v hv)
    · exact (states _).trans hpresent
  · obtain ⟨v, hv, hpeer⟩ | hpresent := pairs q hq
    · exact (states _).trans (hpeer ▸ hs.pairs v hv)
    · exact (states _).trans hpresent
  · obtain ⟨v, hv, hpeer⟩ | hjoining := query q hq
    · exact (states _).trans (hpeer ▸ hs.query v hv)
    · exact (states _).trans hjoining
  · exact own ▸ (states _).trans hs.own

theorem keepsPeers_of_concern {s t : State} (h : concern t = concern s) : KeepsPeers s t := by
  simp only [concern, Prod.mk.injEq] at h
  obtain ⟨hown, hmemb, hqueue, hwants⟩ := h
  have states (p : Station) : peerOf t p = peerOf s p := peerOf_congr (congrArg _ hmemb) p
  exact keepsPeers_of_work hown (fun p => congrArg _ (states p)) (fun w hw => .inl ⟨w, hwants ▸ hw, rfl⟩)
    (fun q hq => .inl ⟨q, hqueue ▸ hq, rfl⟩) fun q hq => .inl ⟨q, hmemb ▸ hq, rfl⟩

/-- What the law reads was already as it is where a further change begins. -/
theorem KeepsPeers.after {s t u : State} (k : KeepsPeers t u) (h : concern t = concern s) : KeepsPeers s u :=
  (keepsPeers_of_concern h).trans k

/-- A state with the same own number, peers, pairs and Want entries meets the law too. -/
theorem peerLaw_of_concern {s t : State} (hs : PeerLaw s) (h : concern t = concern s) : PeerLaw t :=
  (keepsPeers_of_concern h).law hs

theorem concern_of_beyondStore {s t : State} (h : beyondStore t = beyondStore s) : concern t = concern s := by
  simp only [beyondStore, Prod.mk.injEq] at h
  obtain ⟨hctl, -, -, hmemb, -, hrecon, hfetch, -⟩ := h
  rw [concern, hctl, hmemb, hrecon, hfetch, concern]

theorem keepsPeers_of_beyondStore {s t : State} (h : beyondStore t = beyondStore s) : KeepsPeers s t :=
  keepsPeers_of_concern (concern_of_beyondStore h)

theorem keepsPeers_ite {p : Prop} [Decidable p] {s t u : State} (ht : p → KeepsPeers s t) (hu : ¬ p → KeepsPeers s u) :
    KeepsPeers s (if p then t else u) := by
  split
  · exact ht ‹_›
  · exact hu ‹_›

theorem keepsPeers_guard {p : Prop} [Decidable p] {s t : State} (h : p → KeepsPeers s t) :
    KeepsPeers s (if p then t else s) := keepsPeers_ite h fun _ => .refl s

/-! ## Changes of one block -/

theorem keepsPeers_fetch {f : FetchUnit} {s : State}
    (h : ∀ w ∈ f.wants, (∃ v ∈ s.fetch.wants, v.source = w.source) ∨ (peerOf s w.source).state = .present) :
    KeepsPeers s { s with fetch := f } :=
  keepsPeers_of_work rfl (fun _ => rfl) h (fun q hq => .inl ⟨q, hq, rfl⟩) fun q hq => .inl ⟨q, hq, rfl⟩

theorem keepsPeers_fewerWants {l : List Want} {s : State} (h : l ⊆ s.fetch.wants) : KeepsPeers s (setWants l s) :=
  keepsPeers_fetch fun w hw => .inl ⟨w, h hw, rfl⟩

theorem keepsPeers_recon {r : Reconciler} {s : State}
    (h : ∀ q ∈ r.queue, (∃ v ∈ s.recon.queue, v.peer = q.peer) ∨ (peerOf s q.peer).state = .present) :
    KeepsPeers s { s with recon := r } :=
  keepsPeers_of_work rfl (fun _ => rfl) (fun w hw => .inl ⟨w, hw, rfl⟩) h fun q hq => .inl ⟨q, hq, rfl⟩

theorem keepsPeers_fewerPairs {r : Reconciler} {s : State} (h : r.queue ⊆ s.recon.queue) :
    KeepsPeers s { s with recon := r } := keepsPeers_recon fun q hq => .inl ⟨q, h hq, rfl⟩

theorem keepsPeers_query {query : Option ProfileQuery} {s : State}
    (h : ∀ q, query = some q → (∃ v, s.memb.query = some v ∧ v.peer = q.peer) ∨ (peerOf s q.peer).state = .joining) :
    KeepsPeers s { s with memb := { s.memb with query := query } } :=
  keepsPeers_of_work rfl (fun _ => rfl) (fun w hw => .inl ⟨w, hw, rfl⟩) (fun q hq => .inl ⟨q, hq, rfl⟩) h

theorem keepsPeers_queryOver (s : State) : KeepsPeers s { s with memb := { s.memb with query := none } } :=
  keepsPeers_query nofun

/-- A peer entry changes in anything but its state. -/
theorem keepsPeers_setPeer {p : Station} {e : Peer} {s : State} (h : e.state = (peerOf s p).state) :
    KeepsPeers s (setPeer p e s) := by
  refine keepsPeers_of_work rfl (fun q => ?_) (fun w hw => .inl ⟨w, hw, rfl⟩) (fun q hq => .inl ⟨q, hq, rfl⟩)
    fun q hq => .inl ⟨q, hq, rfl⟩
  rw [peerOf_setPeer]
  split
  next hp => exact hp ▸ h
  next => rfl

/-! ## Offers (R95, R105, R128, R139) -/

theorem keepsPeers_placeFor (r : Requester) (s : State) : KeepsPeers s (placeFor r s) := by
  cases r with
  | reply =>
    refine keepsPeers_of_concern ?_
    simp only [placeFor, concern, placeReply_ctl, placeReply_memb, placeReply_recon, placeReply_fetch]
  | profileQuery =>
    simp only [placeFor, placeProfileQuery]
    split
    · rename_i q hq
      refine (keepsPeers_query (fun v hv => .inl ⟨q, hq, ?_⟩)).trans (keepsPeers_of_concern rfl)
      exact Option.some.inj hv ▸ rfl
    · exact .refl s
  | bucketQuery =>
    simp only [placeFor, placeBucketQuery]
    split <;> exact keepsPeers_of_concern rfl
  | fetch i =>
    simp only [placeFor, placeFetch]
    split <;> exact keepsPeers_of_concern rfl

theorem keepsPeers_offerRequest (r : Requester) (s : State) : KeepsPeers s (offerRequest r s) :=
  keepsPeers_ite (fun _ => keepsPeers_placeFor r s) fun _ => keepsPeers_of_concern rfl

theorem keepsPeers_pumpResponder (s : State) : KeepsPeers s (pumpResponder s) := by
  refine keepsPeers_of_concern ?_
  simp only [concern, pumpResponder_ctl, pumpResponder_memb, pumpResponder_recon, pumpResponder_fetch]

theorem keepsPeers_serveWaiting (s : State) : KeepsPeers s (serveWaiting s) := by
  have turns (l : List Requester) (t : State) : KeepsPeers t (l.foldl (fun t r => placeFor r t) t) := by
    induction l generalizing t with
    | nil => exact .refl t
    | cons r l ih => exact (keepsPeers_placeFor r t).trans (ih _)
  have placed : KeepsPeers s (placeWaiting s) :=
    (turns s.line.waiting { s with line := { s.line with waiting := [] } }).after rfl
  exact keepsPeers_ite (fun _ => .refl s) fun _ => placed.trans (keepsPeers_pumpResponder _)

/-- A frame that cannot wait concerns nobody. -/
theorem keepsPeers_placeBehind (k : FrameKind) (fl : BitVec 4) (d : Byte) (p : List Byte) (r : Option Requester) (s : State) :
    KeepsPeers s (placeBehind (placeFrame k fl d p r) s) :=
  keepsPeers_guard fun _ => keepsPeers_ite (fun _ => (keepsPeers_serveWaiting s).trans (keepsPeers_of_concern rfl))
    fun _ => keepsPeers_serveWaiting s

theorem keepsPeers_offerSummary (s : State) : KeepsPeers s (offerSummary s) :=
  keepsPeers_ite (fun _ => .refl s) fun _ => keepsPeers_placeBehind ..

theorem keepsPeers_offerNews (r : Record) (s : State) : KeepsPeers s (offerNews r s) := keepsPeers_placeBehind ..

theorem joining_of_mayQuery {s : State} {p : Station} (h : mayQuery s p = true) : (peerOf s p).state = .joining :=
  beq_iff_eq.1 (Bool.and_eq_true_iff.1 h).1

theorem keepsPeers_pumpProfile (s : State) : KeepsPeers s (pumpProfile s) := by
  refine keepsPeers_guard fun _ => ?_
  split
  · rename_i p hp
    have joining : (peerOf s p).state = .joining := joining_of_mayQuery (List.find?_some hp)
    have counted : KeepsPeers s (setPeer p { peerOf s p with attempts := (peerOf s p).attempts + 1 } s) :=
      keepsPeers_setPeer rfl
    refine (counted.trans (keepsPeers_query fun q hq => .inr ?_)).trans (keepsPeers_offerRequest ..)
    rw [counted.states, ← Option.some.inj hq]
    exact joining
  · exact .refl s

theorem keepsPeers_pumpReconciler (s : State) : KeepsPeers s (pumpReconciler s) := by
  refine keepsPeers_guard fun _ => ?_
  split
  · exact keepsPeers_fewerPairs (List.nil_subset _)
  · rename_i p rest hrest
    have left : p :: rest ⊆ s.recon.queue := hrest ▸ (List.dropWhile_suffix _).subset
    refine (keepsPeers_recon fun q hq => .inl ?_).trans (keepsPeers_offerRequest ..)
    obtain rfl | hq := List.mem_cons.1 hq
    · exact ⟨p, left List.mem_cons_self, rfl⟩
    · exact ⟨q, left (List.mem_cons_of_mem _ hq), rfl⟩

/-- Every Want entry has the source of one there was. -/
theorem source_of_offers {s t : State} (h : Offers s t) {w : Want} (hw : w ∈ t.fetch.wants) :
    ∃ v ∈ s.fetch.wants, v.source = w.source := by
  have asks : (w.key, w.stamp, w.source) ∈ s.fetch.wants.map fun w => (w.key, w.stamp, w.source) :=
    h.wants ▸ List.mem_map_of_mem hw
  obtain ⟨v, hv, hasks⟩ := List.mem_map.1 asks
  simp only [Prod.mk.injEq] at hasks
  exact ⟨v, hv, hasks.2.2⟩

theorem keepsPeers_pumpFetch (s : State) : KeepsPeers s (pumpFetch s) := by
  refine keepsPeers_of_work (congrArg _ (pumpFetch_ctl s)) (fun p => congrArg _ (peerOf_congr ?_ p))
    (fun w hw => .inl (source_of_offers (offers_pumpFetch s) hw)) (fun q hq => .inl ⟨q, ?_, rfl⟩)
    fun q hq => .inl ⟨q, ?_, rfl⟩
  · rw [pumpFetch_memb]
  · rwa [pumpFetch_recon] at hq
  · rwa [pumpFetch_memb] at hq

theorem keepsPeers_pump (s : State) : KeepsPeers s (pump s) :=
  (keepsPeers_pumpResponder s).trans ((keepsPeers_pumpProfile _).trans ((keepsPeers_pumpReconciler _).trans
    (keepsPeers_pumpFetch _)))

/-! ## Work added and given up (R111, R131, R132, R137, R144) -/

theorem keepsPeers_dropRequest (r : Requester) (s : State) : KeepsPeers s (dropRequest r s) := keepsPeers_of_concern rfl

theorem keepsPeers_freeFetchSlot (i : Fin 4) (s : State) : KeepsPeers s (freeFetchSlot i s) := keepsPeers_of_concern rfl

theorem concern_freeSlotsOfKey (k : Key) (s : State) : concern (freeSlotsOfKey k s) = concern s := by
  have slots (l : List (Fin 4)) (t : State) :
      concern (l.foldl (fun t i => if t.fetch.slots[i].key = some k then freeFetchSlot i t else t) t) = concern t := by
    induction l generalizing t with
    | nil => rfl
    | cons i l ih =>
      rw [List.foldl_cons, ih]
      split <;> rfl
  exact slots slotNumbers s

theorem keepsPeers_freeSlotsOfKey (k : Key) (s : State) : KeepsPeers s (freeSlotsOfKey k s) :=
  keepsPeers_of_concern (concern_freeSlotsOfKey k s)

theorem withoutKey_subset (l : List Want) (k : Key) : withoutKey l k ⊆ l := List.filter_subset_self l

theorem keepsPeers_removeWant (k : Key) (s : State) : KeepsPeers s (removeWant k s) :=
  keepsPeers_fewerWants (withoutKey_subset ..)

/-- A PRESENT peer's record may be wanted (R136). -/
theorem keepsPeers_wantAdd (k : Key) (st : Stamp) {p : Station} {s : State} (hp : (peerOf s p).state = .present) :
    KeepsPeers s (wantAdd k st p s) := by
  have added (t : State) (l : List Want) (ht : (peerOf t p).state = .present) (hl : l ⊆ t.fetch.wants) :
      KeepsPeers t
        (setWants (l ++ [{ key := k, stamp := st, source := p, attempts := 0, requested := false }]) t) := by
    refine keepsPeers_fetch fun w hw => ?_
    obtain hw | hw := List.mem_append.1 hw
    · exact .inl ⟨w, hl hw, rfl⟩
    · exact .inr (List.mem_singleton.1 hw ▸ ht)
  refine keepsPeers_ite (fun _ => .refl s) fun _ => ?_
  dsimp only
  split
  · exact keepsPeers_guard fun _ => added s _ hp (List.Subset.refl _)
  · refine keepsPeers_guard fun _ => keepsPeers_ite (fun _ => ?_) fun _ => keepsPeers_fetch fun w hw => ?_
    · have freed := keepsPeers_freeSlotsOfKey k s
      exact freed.trans (added _ _ ((freed.states p).trans hp) (withoutKey_subset ..))
    · obtain ⟨v, hv, rfl⟩ := List.mem_map.1 hw
      split
      · exact .inr hp
      · exact .inl ⟨v, hv, rfl⟩

theorem keepsPeers_pruneWant (k : Key) (st : Stamp) (s : State) : KeepsPeers s (pruneWant k st s) := by
  unfold pruneWant
  split
  · exact keepsPeers_ite (fun _ => .refl s) fun _ => (keepsPeers_freeSlotsOfKey k s).trans (keepsPeers_removeWant ..)
  · exact .refl s

theorem keepsPeers_countAttempt (k : Key) (s : State) : KeepsPeers s (countAttempt k s) := by
  unfold countAttempt
  split
  · rename_i w hw
    refine keepsPeers_ite (fun _ => keepsPeers_fetch fun v hv => .inl ?_) fun _ => keepsPeers_removeWant ..
    obtain hv | hv := List.mem_append.1 hv
    · exact ⟨v, withoutKey_subset _ _ hv, rfl⟩
    · exact ⟨w, List.mem_of_find?_eq_some hw, List.mem_singleton.1 hv ▸ rfl⟩
  · exact .refl s

theorem keepsPeers_endBucketQuery (s : State) : KeepsPeers s (endBucketQuery s) := keepsPeers_of_concern rfl

theorem keepsPeers_failBucketQuery (s : State) : KeepsPeers s (failBucketQuery s) := by
  unfold failBucketQuery
  dsimp only
  split
  · rename_i p rest hqueue
    refine keepsPeers_ite (fun _ => keepsPeers_endBucketQuery s) fun _ => ?_
    refine (keepsPeers_endBucketQuery s).trans (keepsPeers_fewerPairs ?_)
    rw [hqueue]
    exact List.subset_cons_self p rest
  · exact keepsPeers_endBucketQuery s

theorem keepsPeers_finishQuery (s : State) : KeepsPeers s (finishQuery s) :=
  (keepsPeers_endBucketQuery s).trans (keepsPeers_fewerPairs (List.tail_subset _))

theorem keepsPeers_endQueryOf (p : Station) (s : State) : KeepsPeers s (endQueryOf p s) := by
  unfold endQueryOf
  split
  · exact keepsPeers_guard fun _ => (keepsPeers_queryOver s).trans (keepsPeers_dropRequest ..)
  · exact .refl s

theorem keepsPeers_discardJobs (p : Station) (s : State) : KeepsPeers s (discardJobs p s) := by
  refine keepsPeers_of_concern ?_
  rw [discardJobs_eq]
  rfl

/-! ## A peer entry that changes its state (R102, R111) -/

theorem ne_own {s : State} (hs : PeerLaw s) {p : Station} (h : (peerOf s p).state ≠ .absent) : p ≠ s.ctl.own :=
  fun he => h (he ▸ hs.own)

theorem queryPeer_ne {s : State} (hs : PeerLaw s) {p : Station} (h : (peerOf s p).state ≠ .joining) (q : ProfileQuery)
    (hq : s.memb.query = some q) : q.peer ≠ p := fun he => h (he ▸ hs.query q hq)

theorem peerOf_peerTaken (p q : Station) (new : Peer) (s : State) :
    peerOf (peerTaken p new s) q = if p = q then new else peerOf s q := by
  rw [← peerOf_setPeer]
  unfold peerTaken
  split <;> rfl

/-- Work is left only with peers that are PRESENT still, and a query only to one that is JOINING still. -/
theorem peerLaw_peerTaken {s : State} {p : Station} {new : Peer} (hs : PeerLaw s) (hown : p ≠ s.ctl.own)
    (hquery : new.state = .joining ∨ ∀ q, s.memb.query = some q → q.peer ≠ p) : PeerLaw (peerTaken p new s) := by
  have others {q : Station} (h : p ≠ q) : peerOf (peerTaken p new s) q = peerOf s q := by
    rw [peerOf_peerTaken, if_neg h]
  have present {q : Station} (hq : (peerOf s q).state = .present) (hleft : p ≠ q ∨ new.state = .present) :
      (peerOf (peerTaken p new s) q).state = .present := by
    rw [peerOf_peerTaken]
    split
    next hp => exact hleft.resolve_left fun hne => hne hp
    next => exact hq
  have own : (peerOf (peerTaken p new s) (peerTaken p new s).ctl.own).state = .absent := by
    have kept : (peerTaken p new s).ctl.own = s.ctl.own := by
      unfold peerTaken
      split <;> rfl
    rw [kept, others hown]
    exact hs.own
  have query (q : ProfileQuery) (hq : (peerTaken p new s).memb.query = some q) :
      (peerOf (peerTaken p new s) q.peer).state = .joining := by
    have asked : s.memb.query = some q := by
      rw [← hq]
      unfold peerTaken
      split <;> rfl
    rw [peerOf_peerTaken]
    split
    next hp => exact hquery.resolve_right fun hne => hne q asked hp.symm
    next => exact hs.query q asked
  by_cases hleaves : (peerOf s p).state = .present ∧ new.state ≠ .present
  · have taken : peerTaken p new s = withdrawn p (peerHeard p new s) := if_pos hleaves
    refine ⟨fun w hw => ?_, fun q hq => ?_, query, own⟩
    · rw [taken] at hw
      obtain ⟨hw, hne⟩ := List.mem_filter.1 hw
      exact present (hs.wants w hw) (.inl (bne_iff_ne.1 hne).symm)
    · rw [taken] at hq
      obtain ⟨hq, hne⟩ := List.mem_filter.1 hq
      exact present (hs.pairs q hq) (.inl (bne_iff_ne.1 hne).symm)
  · have taken : peerTaken p new s = peerHeard p new s := if_neg hleaves
    have stays {q : Station} (hq : (peerOf s q).state = .present) : p ≠ q ∨ new.state = .present := by
      by_contra hboth
      obtain ⟨hp, hnew⟩ := not_or.1 hboth
      exact hleaves ⟨not_not.1 hp ▸ hq, hnew⟩
    refine ⟨fun w hw => ?_, fun q hq => ?_, query, own⟩
    · rw [taken] at hw
      exact present (hs.wants w hw) (stays (hs.wants w hw))
    · rw [taken] at hq
      exact present (hs.pairs q hq) (stays (hs.pairs q hq))

theorem peerLaw_changePeer {s : State} {p : Station} {new : Peer} (hs : PeerLaw s) (hchanged : new.state ≠ (peerOf s p).state)
    (hpresent : (peerOf s p).state ≠ .present) (habsent : (peerOf s p).state ≠ .absent)
    (hquery : new.state = .joining ∨ ∀ q, s.memb.query = some q → q.peer ≠ p) : PeerLaw (changePeer p new s) := by
  rw [peerTaken_of_change hchanged hpresent]
  exact peerLaw_peerTaken hs (ne_own hs habsent) hquery

/-- A good frame leaves a JOINING peer JOINING (R103, R105). -/
theorem joining_of_heard {now : Nat} {id : Option (BitVec 32)} {old new : Peer} (h : Heard now id old new)
    (hold : old.state = .joining) : new.state = .joining := by
  simp only [Heard, hold] at h
  rw [h]

theorem peerLaw_hearPeer {s : State} {p : Station} (id : Option (BitVec 32)) (hs : PeerLaw s) (hown : p ≠ s.ctl.own) :
    PeerLaw (hearPeer p id s) := by
  obtain ⟨new, hnew, heffect⟩ := hearPeer_heard p id s
  rw [heffect]
  refine peerLaw_peerTaken hs hown ?_
  by_cases hold : (peerOf s p).state = .joining
  · exact .inl (joining_of_heard hnew hold)
  · exact .inr (queryPeer_ne hs hold)

/-- A station without work or peers meets the law. -/
theorem peerLaw_of_idle {s : State} (hpeers : ∀ p, (peerOf s p).state = .absent) (hquery : s.memb.query = none)
    (hqueue : s.recon.queue = []) (hwants : s.fetch.wants = []) : PeerLaw s := by
  refine ⟨?_, ?_, ?_, hpeers _⟩
  · simp [hwants]
  · simp [hqueue]
  · simp [hquery]

end Sys2Proof.Proofs
end

