-- ==== Sys2Proof/Proofs/PeersSteps.lean ====
section
/-! PROOFS. The peer law (R101, R105, R126, R136), concluded: the meanings of the commands, and every step. -/

namespace Sys2Proof.Proofs
open Sys2Proof Sys2Proof.Machine Sys2Proof.Stated

/-- A command's meaning answers with a next state, and keeps the peer law. -/
def AnswersPeered (s : State) (o : Host.Outcome State Fault Refusal) : Prop := ∃ t, o = .next t ∧ (PeerLaw s → PeerLaw t)

theorem answersPeered_next {s t : State} (h : PeerLaw s → PeerLaw t) : AnswersPeered s (.next t) := ⟨t, rfl, h⟩

theorem answersPeered_of_keeps {s t : State} (h : KeepsPeers s t) : AnswersPeered s (.next t) := answersPeered_next h.law

/-- A command that leaves all that the law reads. -/
theorem answersPeered_of_concern {s t : State} (h : concern t = concern s) : AnswersPeered s (.next t) :=
  answersPeered_of_keeps (keepsPeers_of_concern h)

theorem answersPeered_of_beyondStore {s t : State} (h : beyondStore t = beyondStore s) : AnswersPeered s (.next t) :=
  answersPeered_of_keeps (keepsPeers_of_beyondStore h)

/-- A command that has an effect only where its guard holds. -/
theorem answersPeered_guard {p : Prop} [Decidable p] {s t : State} (h : p → PeerLaw s → PeerLaw t) :
    AnswersPeered s (.next (if p then t else s)) := by
  refine answersPeered_next fun hs => ?_
  split
  · exact h ‹_› hs
  · exact hs

theorem answersPeered_guard_of_keeps {p : Prop} [Decidable p] {s t : State} (h : p → KeepsPeers s t) :
    AnswersPeered s (.next (if p then t else s)) := answersPeered_guard fun hp => (h hp).law

theorem answersPeered_guard_of_concern {p : Prop} [Decidable p] {s t : State} (h : p → concern t = concern s) :
    AnswersPeered s (.next (if p then t else s)) := answersPeered_guard_of_keeps fun hp => keepsPeers_of_concern (h hp)

theorem concern_ite {p : Prop} [Decidable p] {s t u : State} (ht : p → concern t = concern s)
    (hu : ¬ p → concern u = concern s) : concern (if p then t else u) = concern s := by
  split
  · exact ht ‹_›
  · exact hu ‹_›

/-! ## Host commands -/

theorem answersPeered_immediate {f : State → State} {s : State} (h : KeepsPeers s (f s)) :
    AnswersPeered s (immediate f s) := answersPeered_guard_of_keeps fun _ => h

theorem answersPeered_requestCommand {serve : State → State} {s : State} (h : ∀ t, KeepsPeers t (serve t)) :
    AnswersPeered s (requestCommand serve s) :=
  answersPeered_immediate (keepsPeers_ite (fun _ => keepsPeers_of_concern rfl) fun _ => (h (accept s)).after rfl)

theorem answersPeered_report {serve : State → State} {s : State} (h : ∀ t, concern (serve t) = concern t) :
    AnswersPeered s (requestCommand serve s) := answersPeered_requestCommand fun t => keepsPeers_of_concern (h t)

theorem answersPeered_readEvent (s : State) : AnswersPeered s (execReadEvent s) := by
  refine answersPeered_immediate (keepsPeers_of_concern ?_)
  unfold takeEvent
  split <;> rfl

/-- A write or delete, with its space test. -/
theorem answersPeered_admission (k : Key) (tomb : Bool) (value : List Byte) (s : State) :
    AnswersPeered s (requestCommand (fun t => spaceEvent t (localAdmission k tomb value t)) s) :=
  answersPeered_requestCommand fun _ => keepsPeers_of_beyondStore
    ((beyondStore_spaceEvent ..).trans (beyondStore_localAdmission ..))

theorem concern_serveRead (key : Key) (s : State) : concern (serveRead key s) = concern s := by
  unfold serveRead
  split
  · rfl
  · refine concern_ite (fun _ => ?_) fun _ => rfl
    split <;> rfl

theorem concern_serveList (start : Key) (s : State) : concern (serveList start s) = concern s := by
  unfold serveList
  split <;> rfl

theorem concern_servePeers (s : State) : concern (servePeers s) = concern s := by
  unfold servePeers
  split <;> rfl

theorem keepsPeers_expireSummary (s : State) : KeepsPeers s (expireSummary s) :=
  (keepsPeers_offerSummary { s with summ := { timer := some s.now } }).after rfl

theorem keepsPeers_serveSync (s : State) : KeepsPeers s (serveSync s) := by
  unfold serveSync
  split
  case h_5 => exact (keepsPeers_expireSummary (complete (.code .done) s)).after rfl
  all_goals exact keepsPeers_of_concern rfl

theorem concern_serveProgram (offset : Byte) (given : List Byte) (s : State) :
    concern (serveProgram offset given s) = concern s := by
  unfold serveProgram
  split
  · rfl
  · exact concern_ite (fun _ => rfl) fun _ => rfl

theorem concern_serveLock (s : State) : concern (serveLock s) = concern s := by
  unfold serveLock
  split
  · rfl
  · split <;> rfl

theorem answersPeered_transactionEnd (clocked : Nat) (s : State) : AnswersPeered s (execTransactionEnd clocked s) := by
  refine answersPeered_of_concern ?_
  split <;> rfl

/-! ## The configuration area and the resets -/

theorem concern_softResetStart (erased : List (Nat × Byte)) (s : State) : concern (softResetStart erased s) = concern s := by
  have abandoned : concern (abandonRead (abandonErase erased s)) = concern s :=
    concern_of_beyondStore ((beyondStore_abandonRead _).trans (beyondStore_abandonErase erased s))
  exact concern_ite (fun _ => rfl) fun _ => abandoned

theorem answersPeered_configProgramDone (failed : List Byte) (s : State) :
    AnswersPeered s (execConfigProgramDone failed s) := by
  refine answersPeered_of_concern ?_
  split
  · exact concern_ite (fun _ => rfl) fun _ => rfl
  all_goals rfl

theorem answersPeered_lockCheckProgrammed (failed : List Byte) (s : State) :
    AnswersPeered s (execLockCheckProgrammed failed s) := by
  refine answersPeered_of_concern ?_
  split
  · exact concern_ite (fun _ => rfl) fun _ => concern_ite (fun _ => rfl) fun _ => rfl
  all_goals rfl

theorem answersPeered_lockMarkerProgrammed (failed : Byte) (s : State) :
    AnswersPeered s (execLockMarkerProgrammed failed s) := by
  refine answersPeered_of_concern ?_
  split
  · exact concern_ite (fun _ => rfl) fun _ => concern_ite (fun _ => concern_softResetStart [] _) fun _ => rfl
  all_goals rfl

theorem concern_stopAll (cut : Cut) (s : State) : concern (stopAll cut s) = concern s := by
  have stopped : concern (cutErase cut (cutOp cut s)) = concern s :=
    concern_of_beyondStore ((beyondStore_cutErase cut _).trans (beyondStore_cutOp cut s))
  have area (t : State) : concern (cutConfig cut t) = concern t := by
    unfold cutConfig
    split <;> rfl
  exact (area _).trans stopped

/-- RAM is cleared: every entry is ABSENT, and no work is left (R102, R156). -/
theorem peerLaw_resetEnd (straps : Station) (s : State) : PeerLaw (resetEnd straps s) := by
  have cleared : (resetEnd straps s).memb = Membership.cleared ∧ (resetEnd straps s).recon = Reconciler.cleared ∧
      (resetEnd straps s).fetch = FetchUnit.cleared := by
    unfold resetEnd readArea
    dsimp only
    split <;> exact ⟨rfl, rfl, rfl⟩
  obtain ⟨hmemb, hrecon, hfetch⟩ := cleared
  refine peerLaw_of_idle (fun p => ?_) (by rw [hmemb]; rfl) (by rw [hrecon]; rfl) (by rw [hfetch]; rfl)
  simp only [peerOf, hmemb, Membership.cleared, Vector.getElem_replicate]
  rfl

/-- One cause of a reset is over: the part is held by the other, or RAM is cleared (R156). -/
theorem peerLaw_causeOver {s t : State} {held : Bool} (straps : Station) (hs : PeerLaw s) (h : concern t = concern s) :
    PeerLaw (if held then t else resetEnd straps t) := by
  split
  · exact (keepsPeers_of_concern h).law hs
  · exact peerLaw_resetEnd straps t

theorem answersPeered_powerOnResetEnd (p : Station) (s : State) : AnswersPeered s (execPowerOnResetEnd p s) :=
  answersPeered_guard fun _ hs => peerLaw_causeOver p hs rfl

theorem answersPeered_pinResetEnd (p : Station) (s : State) : AnswersPeered s (execPinResetEnd p s) :=
  answersPeered_guard fun _ hs => peerLaw_causeOver p hs rfl

theorem answersPeered_startUpScanEnd (s : State) : AnswersPeered s (execStartUpScanEnd s) :=
  answersPeered_guard_of_concern fun _ =>
    (concern_of_beyondStore ((beyondStore_advanceWalk _).trans (beyondStore_nextRun _))).trans rfl

theorem answersPeered_listeningPeriodEnd (s : State) : AnswersPeered s (execListeningPeriodEnd s) := by
  refine answersPeered_guard_of_keeps fun _ => ?_
  have offered (t : State) : KeepsPeers t (pumpFetch (pumpReconciler (pumpProfile (expireSummary t)))) :=
    (keepsPeers_expireSummary t).trans ((keepsPeers_pumpProfile _).trans ((keepsPeers_pumpReconciler _).trans
      (keepsPeers_pumpFetch _)))
  have posted (t : State) : KeepsPeers t (post (.stationState .active) t) := keepsPeers_of_concern rfl
  exact ((offered _).trans (posted _)).after rfl

/-! ## The line -/

theorem answersPeered_frameStart (s : State) : AnswersPeered s (execFrameStart s) := by
  refine answersPeered_guard_of_concern fun _ => ?_
  split <;> rfl

/-- In MUTE there is no work left with anybody (R133, R145). -/
theorem keepsPeers_enterMute (s : State) : KeepsPeers s (enterMute s) :=
  keepsPeers_of_work rfl (fun _ => rfl) nofun nofun fun q hq => .inl ⟨q, hq, rfl⟩

theorem keepsPeers_receive (f : Frame) (s : State) : KeepsPeers s (receive f s) :=
  keepsPeers_guard fun _ => keepsPeers_of_concern rfl

theorem peerLaw_endGood {f : Frame} {s : State} (hs : PeerLaw s) : PeerLaw (endGood f s) := by
  have heard : KeepsPeers s (setBase (f.source + 1) (setPhase .guardTime s)) := keepsPeers_of_concern rfl
  unfold endGood
  dsimp only
  split
  · exact (keepsPeers_ite (fun _ => heard) fun _ => heard.trans (keepsPeers_enterMute _)).law hs
  · rename_i hother
    have effect := peerLaw_hearPeer (p := f.source) f.carriedId (heard.law hs) hother
    exact ((keepsPeers_receive f _).trans (keepsPeers_pump _)).law effect

theorem answersPeered_frameEndGood (bytes : List Byte) (s : State) : AnswersPeered s (execFrameEndGood bytes s) := by
  refine answersPeered_guard fun _ hs => ?_
  split
  · exact peerLaw_endGood hs
  · exact peerLaw_of_concern hs rfl

theorem answersPeered_slotStart (s : State) : AnswersPeered s (execSlotStart s) := by
  have sending : concern (beginSending s) = concern s := by
    unfold beginSending
    split
    · split <;> rfl
    · rfl
  have counted (t : State) : concern (countSlot t) = concern t := rfl
  exact answersPeered_guard_of_concern fun _ => (counted _).trans (concern_ite (fun _ => sending) fun _ => rfl)

theorem answersPeered_collisionDetected (s : State) : AnswersPeered s (execCollisionDetected s) := by
  refine answersPeered_of_concern ?_
  split
  · rfl
  · refine concern_ite (fun _ => rfl) fun _ => ?_
    split <;> rfl

theorem keepsPeers_reportSent (r : Option Requester) (s : State) : KeepsPeers s (reportSent r s) := by
  unfold reportSent
  split
  · split
    · rename_i q hq
      exact keepsPeers_query fun v hv => .inl ⟨q, hq, Option.some.inj hv ▸ rfl⟩
    · exact .refl s
  · split <;> exact keepsPeers_of_concern rfl
  · split <;> exact keepsPeers_of_concern rfl
  · exact .refl s
  · exact .refl s

theorem answersPeered_transmitEnd (s : State) : AnswersPeered s (execTransmitEnd s) := by
  refine answersPeered_of_keeps ?_
  split
  · exact .refl s
  · refine keepsPeers_ite (fun _ => keepsPeers_of_concern rfl) fun _ => ?_
    split
    · exact keepsPeers_of_concern rfl
    · exact (keepsPeers_reportSent ..).after rfl

theorem answersPeered_waitingFramePlaced (s : State) : AnswersPeered s (execWaitingFramePlaced s) := by
  refine answersPeered_of_keeps ?_
  split
  · exact keepsPeers_guard fun _ => ((keepsPeers_placeFor ..).trans (keepsPeers_pumpResponder _)).after rfl
  · exact .refl s

/-! ## Takings -/

theorem answersPeered_takeFrame {k : FrameKind} {use : Frame → State → State} {s : State}
    (h : ∀ f t, PeerLaw t → PeerLaw (use f t)) : AnswersPeered s (takeFrame k use s) := by
  refine answersPeered_guard fun _ hs => ?_
  split
  · split
    · exact h _ _ (peerLaw_of_concern hs rfl)
    · exact hs
  · exact hs

theorem answersPeered_taking {k : FrameKind} {use : Frame → State → State} {s : State}
    (h : ∀ f t, KeepsPeers t (use f t)) : AnswersPeered s (takeFrame k use s) := answersPeered_takeFrame fun f t => (h f t).law

/-- An arrival from a PRESENT peer, which may be wanted from it (R44). -/
theorem keepsPeers_offerArrival (r : Record) {source : Station} {s : State} (hp : (peerOf s source).state = .present) :
    KeepsPeers s (offerArrival r source s) := by
  have place (t : State) (ht : (peerOf t source).state = .present) : KeepsPeers t (placeArrival r source t) := by
    refine keepsPeers_ite (fun _ => .refl t) fun _ => ?_
    split
    · split
      · exact keepsPeers_of_beyondStore (beyondStore_meetSlot ..)
      · exact .refl t
    · refine keepsPeers_ite (fun _ => keepsPeers_of_beyondStore (beyondStore_setDiverged ..)) fun _ => ?_
      split
      · exact keepsPeers_of_beyondStore (beyondStore_claimSlot ..)
      · exact keepsPeers_wantAdd _ _ ht
  have clocked := keepsPeers_of_beyondStore (beyondStore_raiseClock r.stamp.counter s)
  have arrived : KeepsPeers s (arrive r source s) :=
    keepsPeers_ite (fun _ => .refl s) fun _ => clocked.trans (place _ ((clocked.states source).trans hp))
  exact arrived.trans (keepsPeers_pumpFetch _)

theorem present_of_isPresent {s : State} {p : Station} (h : isPresent s p = true) : (peerOf s p).state = .present :=
  beq_iff_eq.1 h

theorem keepsPeers_useNews (f : Frame) (s : State) : KeepsPeers s (useNews f s) := by
  refine keepsPeers_guard fun hp => ?_
  split
  · exact (keepsPeers_offerArrival _ (present_of_isPresent hp)).trans (keepsPeers_of_beyondStore (beyondStore_spaceEvent ..))
  · exact .refl s

theorem keepsPeers_settleSupply {source : Station} (echo : Byte) (key : Key) (r : Option Record) {s : State}
    (hp : (peerOf s source).state = .present) : KeepsPeers s (settleSupply source echo key r s) := by
  have settled (i : Fin 4) : KeepsPeers s (removeWant key (freeFetchSlot i s)) :=
    (keepsPeers_freeFetchSlot i s).trans (keepsPeers_removeWant key _)
  unfold settleSupply
  split
  · rename_i i _
    split
    · exact (settled i).trans (keepsPeers_offerArrival _ (((settled i).states source).trans hp))
    · exact (settled i).trans (keepsPeers_pumpFetch _)
  · split
    · exact keepsPeers_offerArrival _ hp
    · exact .refl s

theorem keepsPeers_useSupply (f : Frame) (s : State) : KeepsPeers s (useSupply f s) := by
  refine keepsPeers_guard fun hp => ?_
  split
  · exact (keepsPeers_settleSupply _ _ _ (present_of_isPresent hp)).trans
      (keepsPeers_of_beyondStore (beyondStore_spaceEvent ..))
  · exact .refl s

/-- The differing buckets are the PRESENT sender's (R125). -/
theorem keepsPeers_queuePairs {source : Station} (payload : List Byte) {s : State}
    (hp : (peerOf s source).state = .present) : KeepsPeers s (queuePairs source payload s) := by
  refine keepsPeers_recon fun q hq => ?_
  obtain hq | hq := List.mem_append.1 hq
  · exact .inl ⟨q, hq, rfl⟩
  · obtain ⟨b, -, rfl⟩ := List.mem_map.1 hq
    exact .inr hp

theorem keepsPeers_useSummary (f : Frame) (s : State) : KeepsPeers s (useSummary f s) := by
  refine keepsPeers_guard fun hused => ?_
  have hp := present_of_isPresent hused.1
  have clocked := keepsPeers_of_beyondStore (beyondStore_raiseClock (longAt f.payload 0) s)
  have recorded := clocked.trans (keepsPeers_setPeer (p := f.source)
    (e := { peerOf s f.source with lastClock := some (longAt f.payload 0), isPartial := (byteAt f.payload 8).getLsbD 0 })
    (clocked.states f.source).symm)
  refine keepsPeers_ite (fun _ => ?_) fun _ => recorded
  exact recorded.trans ((keepsPeers_queuePairs _ ((recorded.states f.source).trans hp)).trans (keepsPeers_pumpReconciler _))

/-- The query to the sender has ended before it leaves JOINING (R105, R106). -/
theorem peerLaw_useProfile {f : Frame} {s : State} (hs : PeerLaw s) : PeerLaw (useProfile f s) := by
  unfold useProfile
  split
  · rename_i hjoining
    have ended := keepsPeers_endQueryOf f.source s
    have joins : (peerOf (endQueryOf f.source s) f.source).state = .joining := (ended.states _).trans hjoining
    refine (keepsPeers_pump _).law (peerLaw_changePeer (ended.law hs) ?_ ?_ ?_ (.inr (endQueryOf_query_ne f.source s)))
    · rw [joins, profiled]
      dsimp only
      split <;> nofun
    · rw [joins]
      nofun
    · rw [joins]
      nofun
  · exact hs

theorem keepsPeers_takePart {f : Frame} (p : Pair) (placed : Placed) (expected : Nat) {s : State}
    (hp : (peerOf s f.source).state = .present) : KeepsPeers s (takePart f p placed expected s) := by
  have compared (l : List HeardEntry) (t : State) (ht : (peerOf t f.source).state = .present) :
      KeepsPeers t (l.foldl (compareEntry f.source p.bucket) t) := by
    induction l generalizing t with
    | nil => exact .refl t
    | cons h l ih =>
      have first : KeepsPeers t (compareEntry f.source p.bucket t h) := by
        unfold compareEntry
        split
        · exact keepsPeers_wantAdd _ _ ht
        · exact .refl t
      exact first.trans (ih _ ((first.states _).trans ht))
  have all := compared (heardEntries (f.payload.drop 4)) s hp
  refine keepsPeers_ite (fun _ => ?_) fun _ => ?_
  · exact all.trans ((keepsPeers_finishQuery _).trans ((keepsPeers_pumpReconciler _).trans (keepsPeers_pumpFetch _)))
  · exact all.trans ((keepsPeers_pumpFetch _).after rfl)

theorem keepsPeers_useBucketReply (f : Frame) (s : State) : KeepsPeers s (useBucketReply f s) := by
  unfold useBucketReply
  split
  · refine keepsPeers_ite (fun _ => .refl s) fun hmatches => keepsPeers_ite (fun _ => ?_) fun _ => ?_
    · exact (keepsPeers_failBucketQuery s).trans (keepsPeers_pumpReconciler _)
    · refine keepsPeers_takePart _ _ _ (present_of_isPresent ?_)
      exact Bool.not_eq_false _ ▸ fun hp => hmatches (.inl hp)
  all_goals exact .refl s

theorem keepsPeers_acceptRequest (f : Frame) (kind : JobKind) (s : State) : KeepsPeers s (acceptRequest f kind s) := by
  have added (job : Job) : KeepsPeers s (addJob job s) :=
    keepsPeers_ite (fun _ => keepsPeers_of_concern rfl) fun _ => keepsPeers_guard fun _ => keepsPeers_of_concern rfl
  exact keepsPeers_guard fun _ => (added _).trans (keepsPeers_pumpResponder _)

/-! ## Timers -/

theorem answersPeered_profileReplyTimeout (s : State) : AnswersPeered s (execProfileReplyTimeout s) :=
  answersPeered_guard_of_keeps fun _ =>
    ((keepsPeers_queryOver s).trans (keepsPeers_dropRequest .profileQuery _)).trans (keepsPeers_pumpProfile _)

theorem answersPeered_bucketReplyTimeout (s : State) : AnswersPeered s (execBucketReplyTimeout s) := by
  refine answersPeered_guard_of_keeps fun _ => ?_
  split
  · exact (keepsPeers_failBucketQuery s).trans (keepsPeers_pumpReconciler _)
  all_goals exact .refl s

theorem answersPeered_fetchReplyTimeout (i : Fin 4) (s : State) : AnswersPeered s (execFetchReplyTimeout i s) := by
  refine answersPeered_guard_of_keeps fun _ => ?_
  split
  · exact (keepsPeers_freeFetchSlot i s).trans ((keepsPeers_countAttempt ..).trans (keepsPeers_pumpFetch _))
  all_goals exact .refl s

/-- A PRESENT peer turns SILENT, and the work with it is withdrawn (R108, R111). -/
theorem answersPeered_silenceLimit (p : Station) (s : State) : AnswersPeered s (execSilenceLimit p s) := by
  refine answersPeered_guard fun hlimit hs => (keepsPeers_pump _).law ?_
  have hpresent := present_of_isPresent (Bool.and_eq_true_iff.1 hlimit).2
  rw [peerTaken_of_leaving hpresent]
  · exact peerLaw_peerTaken hs (ne_own hs (by simp [hpresent])) (.inr (queryPeer_ne hs (by simp [hpresent])))
  · nofun

theorem mayVanish_iff {s : State} {p : Station} :
    mayVanish s p = true ↔ (peerOf s p).state ≠ .absent ∧ (peerOf s p).state ≠ .present := by
  unfold mayVanish
  cases (peerOf s p).state <;> simp

/-- A peer that is not PRESENT turns ABSENT, and its query has ended (R109). -/
theorem answersPeered_absenceLimit (p : Station) (s : State) : AnswersPeered s (execAbsenceLimit p s) := by
  refine answersPeered_guard fun hlimit hs => (keepsPeers_pump _).law ?_
  obtain ⟨habsent, hpresent⟩ := mayVanish_iff.1 (Bool.and_eq_true_iff.1 hlimit).2
  have ended := (keepsPeers_discardJobs p s).trans (keepsPeers_endQueryOf p _)
  rw [← ended.states p] at habsent hpresent
  exact peerLaw_changePeer (ended.law hs) (Ne.symm habsent) hpresent habsent (.inr (endQueryOf_query_ne p _))

/-- A DUPLICATE peer turns JOINING again (R110). -/
theorem answersPeered_duplicateMarkExpiry (p : Station) (s : State) : AnswersPeered s (execDuplicateMarkExpiry p s) := by
  refine answersPeered_guard fun hlimit hs => (keepsPeers_pumpProfile _).law ?_
  have hduplicate : (peerOf s p).state = .duplicate := beq_iff_eq.1 (Bool.and_eq_true_iff.1 hlimit).2
  refine peerLaw_changePeer hs ?_ ?_ ?_ (.inl rfl)
  all_goals
    rw [hduplicate]
    nofun

/-! ## The arbiter and the completions -/

theorem answersPeered_readGrant (s : State) : AnswersPeered s (execReadGrant s) := by
  refine answersPeered_guard_of_concern fun _ => ?_
  split <;> rfl

theorem answersPeered_appendGrant (s : State) : AnswersPeered s (execAppendGrant s) := by
  refine answersPeered_guard_of_keeps fun _ => ?_
  split
  · exact keepsPeers_of_beyondStore ((beyondStore_settleStore ..).trans (beyondStore_grantSlot ..))
  · exact keepsPeers_of_beyondStore ((beyondStore_settleStore ..).trans (beyondStore_grantCopy _))
  · exact .refl s

theorem answersPeered_markGrant (s : State) : AnswersPeered s (execMarkGrant s) := by
  refine answersPeered_guard_of_concern fun _ => ?_
  split <;> rfl

theorem answersPeered_hostReadDone (s : State) : AnswersPeered s (execHostReadDone s) := by
  refine answersPeered_of_concern ?_
  split
  · unfold answerRead
    split
    · split <;> rfl
    all_goals rfl
  all_goals rfl

theorem keepsPeers_buildSupply (found : ImageRead) (s : State) : KeepsPeers s (buildSupply found s) := by
  unfold buildSupply
  split
  · rename_i e _
    refine keepsPeers_ite (fun _ => ?_) fun _ => keepsPeers_of_concern rfl
    exact ((keepsPeers_placeFor .reply _).trans (keepsPeers_pumpResponder _)).after rfl
  all_goals exact .refl s

theorem answersPeered_responderReadDone (s : State) : AnswersPeered s (execResponderReadDone s) := by
  refine answersPeered_of_keeps ?_
  split
  · exact (keepsPeers_buildSupply _ (clearOp s)).after rfl
  · exact keepsPeers_of_concern rfl
  all_goals exact .refl s

theorem answersPeered_compactionReadDone (s : State) : AnswersPeered s (execCompactionReadDone s) := by
  refine answersPeered_of_beyondStore ?_
  split
  · exact (beyondStore_settleStore ..).trans (beyondStore_walkOn ..)
  all_goals rfl

theorem keepsPeers_commitSlot (i : Fin 4) (x : Slot) (loc : Loc) (s : State) : KeepsPeers s (commitSlot i x loc s) :=
  (keepsPeers_of_beyondStore (beyondStore_commitEntry ..)).trans ((keepsPeers_pruneWant ..).trans
    (keepsPeers_of_beyondStore ((beyondStore_releaseSlot ..).trans (beyondStore_reportCommit ..))))

theorem keepsPeers_passUpdate (i : Fin 4) (x : Slot) (loc : Loc) (o s : State) : KeepsPeers s (passUpdate i x loc o s) := by
  have news (t : State) : KeepsPeers t (offerCommitNews x t) := by
    unfold offerCommitNews
    split
    · exact keepsPeers_ite (fun _ => .refl t) fun _ => keepsPeers_offerNews ..
    · exact .refl t
  have committed : KeepsPeers s (commitSlot i x loc (closeIfFull loc.sector s)) :=
    (keepsPeers_commitSlot i x loc (closeIfFull loc.sector s)).after rfl
  have settled := committed.trans (keepsPeers_of_beyondStore (beyondStore_settleStore o _))
  exact (settled.trans (keepsPeers_pumpFetch _)).trans (news _)

theorem beyondStore_failUpdate (i : Fin 4) (x : Slot) (loc : Loc) (o s : State) :
    beyondStore (failUpdate i x loc o s) = beyondStore s :=
  (beyondStore_settleStore ..).trans (beyondStore_ite (fun _ => beyondStore_failSlots ..) fun _ => rfl)

theorem answersPeered_updateProgramDone (failed : List Byte) (s : State) :
    AnswersPeered s (execUpdateProgramDone failed s) := by
  refine answersPeered_of_keeps ?_
  split
  · rename_i i loc opening image _
    have ended : KeepsPeers s (clearOp (programAppend loc opening image failed 0 s)) :=
      keepsPeers_of_beyondStore (beyondStore_programAppend loc opening image failed 0 s)
    refine keepsPeers_ite (fun _ => ended) fun _ => ?_
    split
    · exact keepsPeers_ite (fun _ => ended.trans (keepsPeers_passUpdate ..)) fun _ =>
        ended.trans (keepsPeers_of_beyondStore (beyondStore_failUpdate ..))
    · exact ended
  all_goals exact .refl s

theorem answersPeered_copyProgramDone (failed : List Byte) (s : State) :
    AnswersPeered s (execCopyProgramDone failed s) := by
  refine answersPeered_of_beyondStore ?_
  split
  · rename_i loc opening image _
    have programmed := beyondStore_programAppend loc opening image failed 0 s
    refine beyondStore_ite (fun _ => programmed) fun _ => ?_
    split
    · exact (beyondStore_settleStore ..).trans
        (beyondStore_ite (fun _ => (beyondStore_passCopy ..).trans programmed) fun _ => programmed)
    · exact programmed
  all_goals rfl

theorem answersPeered_reclaimMarkDone (s : State) : AnswersPeered s (execReclaimMarkDone s) := by
  refine answersPeered_of_beyondStore ?_
  split
  · exact beyondStore_ite (fun _ => rfl) fun _ => beyondStore_settleStore ..
  all_goals rfl

theorem answersPeered_eraseMarkDone (s : State) : AnswersPeered s (execEraseMarkDone s) := by
  refine answersPeered_of_beyondStore ?_
  split
  · exact beyondStore_ite (fun _ => rfl) fun _ => beyondStore_settleStore ..
  all_goals rfl

theorem answersPeered_eraseDone (failed : List (Nat × Byte)) (b : Byte) (s : State) :
    AnswersPeered s (execEraseDone failed b s) := by
  refine answersPeered_of_beyondStore ?_
  split
  · exact beyondStore_guard fun _ => beyondStore_ite (fun _ => rfl) fun _ =>
      (beyondStore_settleStore ..).trans (beyondStore_retire ..)
  · rfl

theorem answersPeered_eraseCountProgrammed (s : State) : AnswersPeered s (execEraseCountProgrammed s) := by
  refine answersPeered_of_beyondStore ?_
  split
  · exact beyondStore_guard fun _ => beyondStore_ite (fun _ => rfl) fun _ =>
      (beyondStore_settleStore ..).trans (beyondStore_nextRun _)
  · rfl

/-! ## Every command -/

theorem answersPeered_exec (c : Instr) (s : State) : AnswersPeered s (exec c s) := by
  cases c with
  | status => exact answersPeered_immediate (keepsPeers_of_concern rfl)
  | getReply => exact answersPeered_immediate (keepsPeers_of_concern rfl)
  | readEvent => exact answersPeered_readEvent s
  | readProfile offset => exact answersPeered_immediate (keepsPeers_of_concern rfl)
  | softReset erased => exact answersPeered_immediate (keepsPeers_of_concern (concern_softResetStart erased _))
  | ackDiverged => exact answersPeered_guard_of_concern fun _ => rfl
  | writeRecord key value => exact answersPeered_admission key false value s
  | deleteRecord key => exact answersPeered_admission key true [] s
  | readRecord key => exact answersPeered_report (concern_serveRead key)
  | listKeys start => exact answersPeered_report (concern_serveList start)
  | readPeers => exact answersPeered_report concern_servePeers
  | syncNow => exact answersPeered_requestCommand keepsPeers_serveSync
  | programConfig offset bytes => exact answersPeered_report (concern_serveProgram offset bytes)
  | lockConfig => exact answersPeered_report concern_serveLock
  | unknownCommand code => exact answersPeered_immediate (keepsPeers_of_concern rfl)
  | transactionEnd clocked => exact answersPeered_transactionEnd clocked s
  | configProgramDone failed => exact answersPeered_configProgramDone failed s
  | lockCheckProgrammed failed => exact answersPeered_lockCheckProgrammed failed s
  | lockMarkerProgrammed failed => exact answersPeered_lockMarkerProgrammed failed s
  | powerOnReset cut => exact answersPeered_of_concern (concern_stopAll cut s)
  | powerOnResetEnd p => exact answersPeered_powerOnResetEnd p s
  | pinReset cut => exact answersPeered_of_concern (concern_stopAll cut s)
  | pinResetEnd p => exact answersPeered_pinResetEnd p s
  | softResetWaitEnd p => exact answersPeered_guard fun _ _ => peerLaw_resetEnd p s
  | startUpScanEnd => exact answersPeered_startUpScanEnd s
  | listeningPeriodEnd => exact answersPeered_listeningPeriodEnd s
  | settlingEnd => exact answersPeered_guard_of_concern fun _ => rfl
  | frameStart => exact answersPeered_frameStart s
  | frameEndGood bytes => exact answersPeered_frameEndGood bytes s
  | frameEndGarbled => exact answersPeered_guard_of_concern fun _ => rfl
  | guardEnd => exact answersPeered_guard_of_concern fun _ => rfl
  | slotStart => exact answersPeered_slotStart s
  | cycleEnd => exact answersPeered_guard_of_concern fun _ => rfl
  | collisionDetected => exact answersPeered_collisionDetected s
  | transmitEnd => exact answersPeered_transmitEnd s
  | waitingFramePlaced => exact answersPeered_waitingFramePlaced s
  | newsTaken => exact answersPeered_taking keepsPeers_useNews
  | supplyTaken => exact answersPeered_taking keepsPeers_useSupply
  | summaryTaken => exact answersPeered_taking keepsPeers_useSummary
  | profileTaken => exact answersPeered_takeFrame fun _ _ => peerLaw_useProfile
  | bucketReplyTaken => exact answersPeered_taking keepsPeers_useBucketReply
  | fetchTaken => exact answersPeered_taking fun f t => keepsPeers_guard fun _ => keepsPeers_acceptRequest f _ t
  | bucketQueryTaken => exact answersPeered_taking fun f t => keepsPeers_guard fun _ => keepsPeers_acceptRequest f _ t
  | profileQueryTaken => exact answersPeered_taking fun f t => keepsPeers_guard fun _ => keepsPeers_acceptRequest f _ t
  | summaryTimerExpiry => exact answersPeered_guard_of_keeps fun _ => keepsPeers_expireSummary s
  | profileReplyTimeout => exact answersPeered_profileReplyTimeout s
  | bucketReplyTimeout => exact answersPeered_bucketReplyTimeout s
  | fetchReplyTimeout slot => exact answersPeered_fetchReplyTimeout slot s
  | silenceLimit peer => exact answersPeered_silenceLimit peer s
  | absenceLimit peer => exact answersPeered_absenceLimit peer s
  | duplicateMarkExpiry peer => exact answersPeered_duplicateMarkExpiry peer s
  | readGrant => exact answersPeered_readGrant s
  | appendGrant => exact answersPeered_appendGrant s
  | markGrant => exact answersPeered_markGrant s
  | eraseGrant => exact answersPeered_guard_of_concern fun _ => rfl
  | eraseSuspended => exact answersPeered_guard_of_concern fun _ => rfl
  | eraseResume => exact answersPeered_guard_of_concern fun _ => rfl
  | hostReadDone => exact answersPeered_hostReadDone s
  | responderReadDone => exact answersPeered_responderReadDone s
  | compactionReadDone => exact answersPeered_compactionReadDone s
  | updateProgramDone failed => exact answersPeered_updateProgramDone failed s
  | copyProgramDone failed => exact answersPeered_copyProgramDone failed s
  | reclaimMarkDone => exact answersPeered_reclaimMarkDone s
  | eraseMarkDone => exact answersPeered_eraseMarkDone s
  | eraseDone failed markerFailed => exact answersPeered_eraseDone failed markerFailed s
  | settlingCarrier => exact answersPeered_guard_of_concern fun _ => rfl
  | eraseCountProgrammed => exact answersPeered_eraseCountProgrammed s

theorem peerLaw_exec {c : Instr} {s t : State} (hs : PeerLaw s) (h : exec c s = .next t) : PeerLaw t := by
  obtain ⟨u, hu, keeps⟩ := answersPeered_exec c s
  rw [hu, Host.Outcome.next.injEq] at h
  exact h ▸ keeps hs

/-- Settles O58: `KeepsPeers` for every command that leaves the peers' states, and `peerLaw_peerTaken` for those by which a peer
changes its state, after the withdrawal of its work or the end of its query. -/
theorem stepsKeepPeerLaw : Obligations.StepsKeepPeerLaw := by
  intro s t hs h
  exact step_keeps (fun _ _ _ => peerLaw_exec) (fun _ _ hs => peerLaw_of_concern hs rfl)
    (fun _ hs => peerLaw_of_concern hs rfl) hs h

end Sys2Proof.Proofs
end

