-- ==== Sys2Proof/Proofs/Pumps.lean ====
section
/-! PROOFS. What the blocks offer of themselves (R105, R128, R139): the query of the lowest JOINING peer, the pair at the head of
the Reconcile Queue, a WAITING entry for each FREE fetch slot; and the end of the listening period (R163, R164). -/

namespace Sys2Proof.Proofs
open Sys2Proof Sys2Proof.Machine Sys2Proof.Stated

theorem isActive_eq_false {s : State} (h : ¬ Active s) : isActive s = false := by
  rw [← Bool.not_eq_true, isActive_iff]
  exact h

/-! ## The Membership Unit (R105) -/

theorem pumpProfile_of_inactive {s : State} (h : ¬ Active s) : pumpProfile s = s := by
  rw [pumpProfile, isActive_eq_false h, Bool.false_and, if_neg Bool.false_ne_true]

theorem pumpProfile_of_query {s : State} (h : s.memb.query ≠ none) : pumpProfile s = s := by
  rw [pumpProfile, Option.isNone_eq_false_iff.2 (Option.isSome_iff_ne_none.2 h), Bool.and_false, if_neg Bool.false_ne_true]

/-- A peer is the next to be queried: JOINING, with fewer than 3 attempts, and the lowest of such (R105). -/
def NextToQuery (s : State) (p : Station) : Prop :=
  (peerOf s p).state = .joining ∧ (peerOf s p).attempts < 3 ∧
    ∀ q, q.toNat < p.toNat → (peerOf s q).state = .joining → 3 ≤ (peerOf s q).attempts

/-- A query to a peer counts an attempt (R105). -/
def queryCounted (p : Station) (s : State) : State :=
  { s with
    memb :=
      { peers := s.memb.peers.set p.toNat { peerOf s p with attempts := (peerOf s p).attempts + 1 } p.isLt
        query := some { peer := p, placed := none } } }

theorem pumpProfile_of_next {s : State} {p : Station} (ha : Active s) (hquery : s.memb.query = none)
    (hp : NextToQuery s p) : pumpProfile s = offerRequest .profileQuery (queryCounted p s) := by
  obtain ⟨hjoining, hattempts, hlower⟩ := hp
  have guard : (isActive s && s.memb.query.isNone) = true := by rw [isActive_iff.2 ha, hquery]; rfl
  have first : stations.find? (mayQuery s) = some p := by
    refine find_stations_eq ?_ fun q hq => ?_
    · rw [mayQuery, Bool.and_eq_true, beq_iff_eq, decide_eq_true_iff]
      exact ⟨hjoining, hattempts⟩
    · rw [mayQuery, Bool.and_eq_false_imp, beq_iff_eq, decide_eq_false_iff_not, Nat.not_lt]
      exact hlower q hq
  rw [pumpProfile, if_pos guard, first]
  rfl

/-! ## The Reconciler (R128) -/

theorem pumpReconciler_of_inactive {s : State} (h : ¬ Active s) : pumpReconciler s = s := by
  rw [pumpReconciler, isActive_eq_false h, Bool.false_and, if_neg Bool.false_ne_true]

theorem pumpReconciler_of_busy {s : State} (h : s.recon.phase ≠ .idle) : pumpReconciler s = s := by
  rw [pumpReconciler, beq_eq_false_iff_ne.2 h, Bool.and_false, if_neg Bool.false_ne_true]

theorem pumpReconciler_of_all_partial {s : State} (ha : Active s) (hphase : s.recon.phase = .idle)
    (hpartial : ∀ q ∈ s.recon.queue, (peerOf s q.peer).isPartial = true) :
    pumpReconciler s = { s with recon := { queue := [], phase := .idle } } := by
  have guard : (isActive s && s.recon.phase == .idle) = true := by rw [isActive_iff.2 ha, hphase]; rfl
  rw [pumpReconciler, if_pos guard, List.dropWhile_eq_nil_iff.2 hpartial]
  simp only [hphase]

/-- A pair's BUCKET_QUERY counts an attempt, and the pair comes first (R128). -/
def pairCounted (q : Pair) (others : List Pair) (s : State) : State :=
  { s with recon := { queue := { q with attempts := q.attempts + 1 } :: others, phase := .waitingRoom } }

theorem pumpReconciler_of_head {s : State} {skipped others : List Pair} {q : Pair} (ha : Active s)
    (hphase : s.recon.phase = .idle) (hqueue : s.recon.queue = skipped ++ q :: others)
    (hskipped : ∀ x ∈ skipped, (peerOf s x.peer).isPartial = true) (hq : (peerOf s q.peer).isPartial = false) :
    pumpReconciler s = offerRequest .bucketQuery (pairCounted q others s) := by
  have guard : (isActive s && s.recon.phase == .idle) = true := by rw [isActive_iff.2 ha, hphase]; rfl
  have head : s.recon.queue.dropWhile (fun p => (peerOf s p.peer).isPartial) = q :: others := by
    rw [hqueue, List.dropWhile_append_of_pos hskipped, List.dropWhile_cons_of_neg (by simp [hq])]
  rw [pumpReconciler, if_pos guard, head]
  rfl

/-! ## The Fetch Unit (R139) -/

theorem takeWant_of_inactive {s : State} (i : Fin 4) (h : ¬ Active s) : takeWant s i = s := by
  rw [takeWant, isActive_eq_false h, Bool.false_and, if_neg Bool.false_ne_true]

theorem takeWant_of_busy {s : State} {i : Fin 4} (h : s.fetch.slots[i] ≠ .free) : takeWant s i = s := by
  rw [takeWant, beq_eq_false_iff_ne.2 h, Bool.and_false, if_neg Bool.false_ne_true]

theorem takeWants_of_still {s : State} {l : List (Fin 4)} (h : ∀ i ∈ l, takeWant s i = s) : l.foldl takeWant s = s := by
  induction l with
  | nil => rfl
  | cons i l ih =>
    rw [List.foldl_cons, h i List.mem_cons_self]
    exact ih fun j hj => h j (List.mem_cons_of_mem _ hj)

theorem pumpFetch_of_inactive {s : State} (h : ¬ Active s) : pumpFetch s = s :=
  takeWants_of_still fun i _ => takeWant_of_inactive i h

theorem pumpFetch_of_busy {s : State} (h : ∀ i : Fin 4, s.fetch.slots[i] ≠ .free) : pumpFetch s = s :=
  takeWants_of_still fun i _ => takeWant_of_busy (h i)

/-- A WAITING entry becomes REQUESTED by a fetch slot, whose FETCH waits to be placed (R139). -/
def wantTaken (i : Fin 4) (before : List Want) (w : Want) (after : List Want) (s : State) : State :=
  { s with
    fetch :=
      { wants := before ++ { w with requested := true } :: after
        slots := s.fetch.slots.set i (.waitingRoom w.key w.source w.stamp) } }

theorem markRequested_of_split {s : State} {before after : List Want} {w : Want} (hwants : s.fetch.wants = before ++ w :: after)
    (hkeys : (s.fetch.wants.map (·.key)).Nodup) :
    markRequested w.key s = setWants (before ++ { w with requested := true } :: after) s := by
  rw [hwants] at hkeys
  have only : ∀ x ∈ before ++ w :: after, x.key = w.key → x = w := fun x hx hkey =>
    List.inj_on_of_nodup_map hkeys hx (by simp) hkey
  have marked : (before ++ w :: after).map (fun x => if x.key = w.key then { x with requested := true } else x) =
      (before ++ w :: after).map fun x => if x.key = w.key then { w with requested := true } else x := by
    refine List.map_congr_left fun x hx => ?_
    split
    next hkey => rw [only x hx hkey]
    next => rfl
  rw [markRequested, hwants, marked, map_replace_eq hkeys rfl]

theorem takeWant_of_free {s : State} {i : Fin 4} {before after : List Want} {w : Want} (ha : Active s)
    (hfree : s.fetch.slots[i] = .free) (hwants : s.fetch.wants = before ++ w :: after)
    (hbefore : ∀ x ∈ before, x.requested = true) (hw : w.requested = false)
    (hkeys : (s.fetch.wants.map (·.key)).Nodup) :
    takeWant s i = offerRequest (.fetch i) (wantTaken i before w after s) := by
  have guard : (isActive s && s.fetch.slots[i] == .free) = true := by rw [isActive_iff.2 ha, hfree]; rfl
  have oldest : s.fetch.wants.find? (fun x => !x.requested) = some w := by
    have earlier : before.find? (fun x => !x.requested) = none :=
      List.find?_eq_none.2 fun x hx => by simp [hbefore x hx]
    rw [hwants, List.find?_append, earlier, Option.none_or, List.find?_cons_of_pos (by simp [hw])]
  rw [takeWant, if_pos guard, oldest]
  simp only [markRequested_of_split hwants hkeys]
  rfl

theorem peer_eq_none_iff (x : FetchSlot) : x.peer = none ↔ x = .free := by
  cases x <;> simp [FetchSlot.peer]

/-- Placing requests leaves the fetch slots that are busy. -/
theorem offerFetch_slot (i j : Fin 4) (s : State) :
    (offerRequest (.fetch i) s).fetch.slots[j] = .free ↔ s.fetch.slots[j] = .free := by
  have peer : (offerRequest (.fetch i) s).fetch.slots[j].peer = s.fetch.slots[j].peer := by
    unfold offerRequest
    split
    · exact placeFetch_slots i s j
    · rfl
  rw [← peer_eq_none_iff, peer, peer_eq_none_iff]

theorem slotNumbers_split (i : Fin 4) : ∃ l m, slotNumbers = l ++ i :: m ∧ ∀ j ∈ l, j < i := by
  match i with
  | 0 => exact ⟨[], [1, 2, 3], rfl, by decide⟩
  | 1 => exact ⟨[0], [2, 3], rfl, by decide⟩
  | 2 => exact ⟨[0, 1], [3], rfl, by decide⟩
  | 3 => exact ⟨[0, 1, 2], [], rfl, by decide⟩

/-- The lowest FREE fetch slot takes the oldest WAITING entry, and the Fetch Unit goes on (R139). -/
theorem pumpFetch_of_free {s : State} {i : Fin 4} {before after : List Want} {w : Want} (ha : Active s)
    (hfree : s.fetch.slots[i] = .free) (hlower : ∀ j : Fin 4, j < i → s.fetch.slots[j] ≠ .free)
    (hwants : s.fetch.wants = before ++ w :: after) (hbefore : ∀ x ∈ before, x.requested = true)
    (hw : w.requested = false) (hkeys : (s.fetch.wants.map (·.key)).Nodup) :
    pumpFetch s = pumpFetch (offerRequest (.fetch i) (wantTaken i before w after s)) := by
  obtain ⟨l, m, hsplit, hl⟩ := slotNumbers_split i
  let t := offerRequest (.fetch i) (wantTaken i before w after s)
  have taken : takeWant s i = t := takeWant_of_free ha hfree hwants hbefore hw hkeys
  have busy (j : Fin 4) (hj : j ∈ l ∨ j = i) : t.fetch.slots[j] ≠ .free := by
    rw [ne_eq, offerFetch_slot, wantTaken, Fin.getElem_fin, Vector.getElem_set]
    split
    · nofun
    · rename_i hne
      exact hlower j (hl j (hj.resolve_right fun hji => hne (hji ▸ rfl)))
  have here : l.foldl takeWant s = s := takeWants_of_still fun j hj => takeWant_of_busy (hlower j (hl j hj))
  have there : l.foldl takeWant t = t := takeWants_of_still fun j hj => takeWant_of_busy (busy j (.inl hj))
  calc pumpFetch s = m.foldl takeWant t := by
        rw [pumpFetch, hsplit, List.foldl_append, here, List.foldl_cons, taken]
    _ = pumpFetch t := by
        rw [pumpFetch, hsplit, List.foldl_append, there, List.foldl_cons, takeWant_of_busy (busy i (.inr rfl))]

/-- Without a JOINING peer, a pair or a Want entry nobody offers anything. -/
theorem requests_of_quiet {s : State} (hpeers : ∀ p, (peerOf s p).state ≠ .joining) (hqueue : s.recon.queue = [])
    (hwants : s.fetch.wants = []) : pumpFetch (pumpReconciler (pumpProfile s)) = s := by
  rw [pumpProfile_of_no_joining s fun p hp => absurd hp (hpeers p), pumpReconciler_of_empty s hqueue,
    pumpFetch_of_no_waiting s (by simp [hwants])]

/-! ## The end of the listening period (R163, R164) -/

theorem post_of_host (e : Event) {s t : State} (h : t.host = s.host) : post e t = { t with host := s.host.post e } := by
  rw [post, h]

/-- The listening period is over: ACTIVE, and the summary timer starts (R119, R163). -/
def listened (s : State) : State :=
  { s with ctl := { s.ctl with st := .active, listeningSince := none }, summ := { timer := some s.now } }

theorem active_listened {s : State} (hp : Powered s) : Active (listened s) := ⟨hp, rfl⟩

theorem exec_listeningPeriodEnd_of_listening {s : State} (hp : Powered s) (hst : s.ctl.st = .listening) :
    exec .listeningPeriodEnd s =
      .next
        { pumpFetch (pumpReconciler (pumpProfile (offerSummary (listened s)))) with
          host := s.host.post (.stationState .active) } := by
  have guard : (!inReset s && s.ctl.st == .listening) = true := by rw [inReset_eq_false.2 hp, hst]; rfl
  have host : (pumpFetch (pumpReconciler (pumpProfile (offerSummary (listened s))))).host = s.host := by
    rw [pumpFetch_host, pumpReconciler_host, pumpProfile_host, offerSummary_host]
    rfl
  rw [exec_listeningPeriodEnd, execListeningPeriodEnd, if_pos guard]
  exact congrArg _ (post_of_host _ host)

/-- Settles O22: each block's offer by its own lemma, and the SUMMARY by whether there is a place for it. -/
theorem listeningEndsInActive : Obligations.ListeningEndsInActive := by
  refine ⟨fun s hp hst => ?_, fun s hinactive => ?_, fun s ha => ?_⟩
  · intro active entered
    have ends : exec .listeningPeriodEnd s = entered (pumpFetch (pumpReconciler (pumpProfile (offerSummary active)))) :=
      exec_listeningPeriodEnd_of_listening hp hst
    have queued (hnone : ∀ t ∈ s.line.txq, t.kind ≠ .summary) (hwaiting : s.line.waiting = [])
        (hroom : s.line.txq.length < 16) :
        offerSummary active = { active with line := placed .summary 0 0x3F [] none s.line } :=
      offerSummary_of_room (active_listened hp) hnone hwaiting hroom
    refine ⟨ends, fun hnone hwaiting hroom => ?_, fun hfull => ?_, fun hpeers hqueue _ hwants hnone hwaiting hroom => ?_⟩
    · rw [ends, queued hnone hwaiting hroom]
    · rw [ends, offerSummary_of_no_place (s := active) hfull]
    · rw [ends, queued hnone hwaiting hroom]
      exact congrArg entered (requests_of_quiet hpeers hqueue hwants)
  · exact ⟨pumpProfile_of_inactive hinactive, pumpReconciler_of_inactive hinactive, pumpFetch_of_inactive hinactive⟩
  · refine ⟨fun h => ?_, fun p hquery hjoining hattempts hlower => ?_, pumpReconciler_of_busy,
      pumpReconciler_of_all_partial ha, fun skipped q others => pumpReconciler_of_head ha, fun h => ?_,
      fun i before w after hfree hlower hwants hbefore hw hkeys => ?_⟩
    · exact h.elim pumpProfile_of_query (pumpProfile_of_no_joining s)
    · exact pumpProfile_of_next ha hquery ⟨hjoining, hattempts, hlower⟩
    · exact h.elim pumpFetch_of_busy (pumpFetch_of_no_waiting s)
    · exact pumpFetch_of_free ha hfree hlower hwants hbefore hw hkeys

end Sys2Proof.Proofs
end

