-- ==== Sys2Proof/Proofs/Profiles.lean ====
section
/-! PROOFS. A PROFILE decides a JOINING peer's compatibility (R105 to R107, R113). -/

namespace Sys2Proof.Proofs
open Sys2Proof Sys2Proof.Machine Sys2Proof.Stated

/-- The query to a peer is over, and its frame reports to nobody (R105, R106; log 22). -/
theorem endQueryOf_of_outstanding {s : State} {p : Station} (h : ∃ q, s.memb.query = some q ∧ q.peer = p) :
    endQueryOf p s = { s with memb := { s.memb with query := none }, line := givenUp .profileQuery s.line } := by
  obtain ⟨q, hq, hpeer⟩ := h
  unfold endQueryOf
  simp only [hq, if_pos hpeer]
  rfl

theorem endQueryOf_of_none {s : State} {p : Station} (h : ¬ ∃ q, s.memb.query = some q ∧ q.peer = p) :
    endQueryOf p s = s := by
  unfold endQueryOf
  split
  · rename_i q hq
    exact if_neg fun hpeer => h ⟨q, hq, hpeer⟩
  · rfl

/-- The low half of the unique ID, as a PEER entry records it (R101). -/
theorem setWidth_uniqueId (id : BitVec 64) : id.setWidth 32 = id.extractLsb' 0 32 :=
  BitVec.setWidth_eq_extractLsb' (by decide)

theorem useProfile_of_joining {f : Frame} {s : State} (h : (peerOf s f.source).state = .joining) :
    useProfile f s =
      workOffered (changePeer f.source (profiled (peerOf s f.source) f.payload s.ctl.groupHash) (endQueryOf f.source s)) :=
  if_pos h

/-- Settles O37: the query to the sender ends, where there is one, and the entry is what `profiled` makes of it. -/
theorem profilesDecideCompatibility : Obligations.ProfilesDecideCompatibility := by
  intro s pre f post hwaits hjoining id same state new ended decided
  have exec_eq : exec .profileTaken s = .next (useProfile f (taken pre post s)) := takeFrame_of_waits hwaits useProfile
  have entry : profiled (peerOf (taken pre post s) f.source) f.payload (taken pre post s).ctl.groupHash = new := by
    simp only [profiled, setWidth_uniqueId]
    rfl
  rw [exec_eq, useProfile_of_joining (s := taken pre post s) hjoining, entry]
  refine ⟨fun hended => ?_, fun hnone => ?_⟩
  · rw [endQueryOf_of_outstanding (s := taken pre post s) hended]
    rfl
  · rw [endQueryOf_of_none (s := taken pre post s) hnone]
    rfl

end Sys2Proof.Proofs
end

