-- ==== Sys2Proof/Proofs/Expiries.lean ====
section
/-! PROOFS. The expiries of the summary timer and of the three reply timers (R105, R119, R128, R132, R139, R144). -/

namespace Sys2Proof.Proofs
open Sys2Proof Sys2Proof.Machine Sys2Proof.Stated

/-! ## The summary timer (R119) -/

theorem exec_summaryTimerExpiry_of_running {s : State} (ha : Active s) (htimer : s.summ.timer ≠ none) :
    exec .summaryTimerExpiry s = .next (offerSummary { s with summ := { timer := some s.now } }) := by
  have guard : (isActive s && s.summ.timer.isSome) = true := by
    rw [isActive_iff.2 ha, Option.isSome_iff_ne_none.2 htimer]
    rfl
  rw [exec_summaryTimerExpiry, execSummaryTimerExpiry, if_pos guard]

/-! ## The profile query's timer (R105) -/

/-- The query has timed out (R105). -/
def queryExpired (s : State) : State :=
  { s with line := givenUp .profileQuery s.line, memb := { s.memb with query := none } }

theorem exec_profileReplyTimeout_of_placed {s : State} {q : ProfileQuery} (hup : Up s) (hquery : s.memb.query = some q)
    (hplaced : q.placed ≠ none) : exec .profileReplyTimeout s = .next (pumpProfile (queryExpired s)) := by
  have guard : (isUp s && queryTimerRuns s) = true := by
    rw [isUp_iff.2 hup, queryTimerRuns, hquery]
    exact Option.isSome_iff_ne_none.2 hplaced
  rw [exec_profileReplyTimeout, execProfileReplyTimeout, if_pos guard]
  rfl

/-- With room, the next query is placed at once (R98, R105). -/
theorem pumpProfile_of_room {s : State} {p : Station} (ha : Active s) (hquery : s.memb.query = none)
    (hp : NextToQuery s p) (hroom : Room s s.line) :
    pumpProfile s = queryPlaced { peer := p, placed := none } s.line (queryCounted p s) := by
  rw [pumpProfile_of_next ha hquery hp]
  exact (offerRequest_of_room (s := queryCounted p s) _ hroom).trans
    (placeFor_profileQuery (s := queryCounted p s) s.line rfl)

/-! ## The bucket query's timer (R132) -/

/-- The bucket query has failed, and these pairs are left (R132). -/
def pairsLeft (left : List Pair) (s : State) : State :=
  { s with line := givenUp .bucketQuery s.line, recon := { queue := left, phase := .idle } }

theorem failBucketQuery_of_head {s : State} {p : Pair} {rest : List Pair} (h : s.recon.queue = p :: rest) :
    failBucketQuery s = pairsLeft (if p.attempts < 2 then p :: rest else rest) s := by
  have ended : (endBucketQuery s).recon.queue = p :: rest := h
  unfold failBucketQuery
  simp only [ended]
  rw [show Config.maxPairAttempts = 2 from rfl]
  split
  · rw [pairsLeft, ← h]
    rfl
  · rfl

theorem exec_bucketReplyTimeout_of_awaiting {s : State} {query : Placed} {expected : Nat} {p : Pair} {rest : List Pair}
    (hup : Up s) (hphase : s.recon.phase = .awaitingPart query expected) (hqueue : s.recon.queue = p :: rest) :
    exec .bucketReplyTimeout s =
      .next (pumpReconciler (pairsLeft (if p.attempts < 2 then p :: rest else rest) s)) := by
  rw [exec_bucketReplyTimeout, execBucketReplyTimeout, if_pos (isUp_iff.2 hup), ← failBucketQuery_of_head hqueue]
  simp only [hphase]

/-- With room, the BUCKET_QUERY of the next pair is placed at once (R98, R128). -/
theorem pumpReconciler_of_room {s : State} {skipped others : List Pair} {q : Pair} (ha : Active s)
    (hphase : s.recon.phase = .idle) (hqueue : s.recon.queue = skipped ++ q :: others)
    (hskipped : ∀ x ∈ skipped, (peerOf s x.peer).isPartial = true) (hq : (peerOf s q.peer).isPartial = false)
    (hroom : Room s s.line) :
    pumpReconciler s = pairPlaced { q with attempts := q.attempts + 1 } s.line (pairCounted q others s) := by
  rw [pumpReconciler_of_head ha hphase hqueue hskipped hq]
  exact (offerRequest_of_room (s := pairCounted q others s) _ hroom).trans
    (placeFor_bucketQuery (s := pairCounted q others s) s.line rfl)

/-! ## A fetch slot's timer (R144) -/

/-- A fetch slot has timed out, and these Want entries are left (R144). -/
def wantsLeft (i : Fin 4) (left : List Want) (s : State) : State :=
  { s with line := givenUp (.fetch i) s.line, fetch := { wants := left, slots := s.fetch.slots.set i .free } }

/-- What a failed fetch leaves of the Want List: its entry at the tail, or removed at the third attempt (R144). -/
def afterAttempt (before : List Want) (w : Want) (after : List Want) : List Want :=
  if w.attempts + 1 < 3 then before ++ after ++ [{ w with attempts := w.attempts + 1, requested := false }]
  else before ++ after

theorem countAttempt_of_split {s : State} {key : Key} {before after : List Want} {w : Want}
    (hwants : s.fetch.wants = before ++ w :: after) (hkeys : (s.fetch.wants.map (·.key)).Nodup) (hkey : w.key = key) :
    countAttempt key s = setWants (afterAttempt before w after) s := by
  have others : withoutKey s.fetch.wants key = before ++ after := by
    rw [hwants] at hkeys ⊢
    exact withoutKey_eq hkeys hkey
  unfold countAttempt afterAttempt
  simp only [wantOf_eq hwants hkeys hkey, removeWant, others]
  rw [show Config.maxAttempts = 3 from rfl]
  split <;> rfl

theorem afterAttempt_nodup {before after : List Want} {w : Want} (h : ((before ++ w :: after).map (·.key)).Nodup) :
    ((afterAttempt before w after).map (·.key)).Nodup := by
  have moved : ((before ++ w :: after).map (·.key)).Perm ((before ++ after ++ [w]).map (·.key)) :=
    ((List.perm_middle).trans (List.perm_append_singleton w _).symm).map _
  have left := moved.nodup_iff.1 h
  unfold afterAttempt
  split
  · simpa using left
  · rw [List.map_append] at left
    exact left.of_append_left

theorem exec_fetchReplyTimeout_of_awaiting {s : State} {i : Fin 4} {key : Key} {peer : Station} {query : Placed}
    {before after : List Want} {w : Want} (hup : Up s) (hkeys : (s.fetch.wants.map (·.key)).Nodup)
    (hslot : s.fetch.slots[i] = .awaiting key peer query) (hwants : s.fetch.wants = before ++ w :: after)
    (hkey : w.key = key) :
    exec (.fetchReplyTimeout i) s = .next (pumpFetch (wantsLeft i (afterAttempt before w after) s)) := by
  have counted : countAttempt key (freeFetchSlot i s) = setWants (afterAttempt before w after) (freeFetchSlot i s) :=
    countAttempt_of_split (s := freeFetchSlot i s) hwants hkeys hkey
  rw [exec_fetchReplyTimeout, execFetchReplyTimeout, if_pos (isUp_iff.2 hup)]
  simp only [hslot, counted]
  rfl

/-- The only FREE fetch slot takes the oldest WAITING entry, and its FETCH is placed at once (R98, R139). -/
theorem pumpFetch_of_room {s : State} {i : Fin 4} {before after : List Want} {w : Want} (ha : Active s)
    (hfree : s.fetch.slots[i] = .free) (hothers : ∀ j : Fin 4, j ≠ i → s.fetch.slots[j] ≠ .free)
    (hwants : s.fetch.wants = before ++ w :: after) (hbefore : ∀ x ∈ before, x.requested = true)
    (hw : w.requested = false) (hkeys : (s.fetch.wants.map (·.key)).Nodup) (hroom : Room s s.line) :
    pumpFetch s = fetchPlaced i w.key w.source w.stamp s.line (wantTaken i before w after s) := by
  have slot : (wantTaken i before w after s).fetch.slots[i] = .waitingRoom w.key w.source w.stamp :=
    Vector.getElem_set_self ..
  have offered : offerRequest (.fetch i) (wantTaken i before w after s) =
      fetchPlaced i w.key w.source w.stamp s.line (wantTaken i before w after s) :=
    (offerRequest_of_room (s := wantTaken i before w after s) _ hroom).trans
      (placeFor_fetch (s := wantTaken i before w after s) s.line slot)
  rw [pumpFetch_of_free ha hfree (fun j hj => hothers j hj.ne) hwants hbefore hw hkeys]
  have busy (j : Fin 4) : (offerRequest (.fetch i) (wantTaken i before w after s)).fetch.slots[j] ≠ .free := by
    rw [ne_eq, offerFetch_slot]
    by_cases hj : j = i
    · rw [hj, slot]
      nofun
    · have other : (wantTaken i before w after s).fetch.slots[j] = s.fetch.slots[j] :=
        Vector.getElem_set_ne i.isLt j.isLt fun hij => hj (Fin.ext hij.symm)
      rw [other]
      exact hothers j hj
  rw [pumpFetch_of_busy busy, offered]

/-- Settles O40: what each expiry leaves, and then the block's own offer, placed where there is room. -/
theorem timersRunOut : Obligations.TimersRunOut := by
  refine ⟨fun s ha htimer => ?_, fun s q hup hquery hplaced => ?_, fun s query expected p rest hup hphase hqueue => ?_,
    fun s i key peer query before w after hup hlaw hslot hwants hkey => ?_⟩
  · have expires := exec_summaryTimerExpiry_of_running ha htimer
    refine ⟨expires, fun hfull => ?_, fun hnone hroom => ?_⟩
    · rw [expires, offerSummary_of_no_place (s := { s with summ := { timer := some s.now } }) hfull]
    · rw [expires, offerSummary_of_room (s := { s with summ := { timer := some s.now } }) ha hnone hroom.2.1 hroom.2.2]
      rfl
  · intro line
    have expires := exec_profileReplyTimeout_of_placed hup hquery hplaced
    refine ⟨expires, fun hquiet => ?_, fun p hst hjoining hattempts hlower hroom => ?_⟩
    · rw [expires]
      refine congrArg _ (hquiet.elim (fun hst => ?_) fun hnobody => ?_)
      · exact pumpProfile_of_inactive fun ha => hst ha.2
      · exact pumpProfile_of_no_joining (queryExpired s) hnobody
    · rw [expires, pumpProfile_of_room (s := queryExpired s) ⟨hup.1, hst⟩ rfl ⟨hjoining, hattempts, hlower⟩ hroom]
      rfl
  · intro line left
    have expires := exec_bucketReplyTimeout_of_awaiting hup hphase hqueue
    refine ⟨expires, fun hst => ?_, fun hst hpartial => ?_, fun skipped q others hst hleft hskipped hq hroom => ?_⟩
    · rw [expires]
      exact congrArg _ (pumpReconciler_of_inactive fun ha => hst ha.2)
    · rw [expires]
      exact congrArg _ (pumpReconciler_of_all_partial (s := pairsLeft left s) ⟨hup.1, hst⟩ rfl hpartial)
    · rw [expires]
      exact congrArg _ (pumpReconciler_of_room (s := pairsLeft left s) ⟨hup.1, hst⟩ rfl hleft hskipped hq hroom)
  · intro line left
    have expires := exec_fetchReplyTimeout_of_awaiting hup hlaw.wanted hslot hwants hkey
    refine ⟨expires, fun hquiet => ?_, fun ahead x behind hst hothers hleft hahead hx hroom => ?_⟩
    · rw [expires]
      refine congrArg _ (hquiet.elim (fun hst => ?_) fun hall => ?_)
      · exact pumpFetch_of_inactive fun ha => hst ha.2
      · exact pumpFetch_of_no_waiting (wantsLeft i left s) hall
    · have free : (wantsLeft i left s).fetch.slots[i] = .free := Vector.getElem_set_self ..
      have others (j : Fin 4) (hj : j ≠ i) : (wantsLeft i left s).fetch.slots[j] ≠ .free := by
        have other : (wantsLeft i left s).fetch.slots[j] = s.fetch.slots[j] :=
          Vector.getElem_set_ne i.isLt j.isLt fun hij => hj (Fin.ext hij.symm)
        rw [other]
        exact hothers j hj
      have keys : (left.map (·.key)).Nodup := afterAttempt_nodup (hwants ▸ hlaw.wanted)
      have next := pumpFetch_of_room (s := wantsLeft i left s) ⟨hup.1, hst⟩ free others hleft hahead hx keys hroom
      rw [expires]
      refine congrArg _ (next.trans ?_)
      simp only [fetchPlaced, wantTaken, wantsLeft, Vector.set_set]
      rfl

end Sys2Proof.Proofs
end

