-- ==== Sys2Proof/Proofs/ReadsEnd.lean ====
section
/-! PROOFS. The end of a READ (R111, R148, R149, R173): READ_RECORD is answered, a SUPPLY is built, an unwanted READ is over. -/

namespace Sys2Proof.Proofs
open Sys2Proof Sys2Proof.Machine Sys2Proof.Stated

/-! ## The image read (R149, R173) -/

theorem readAs_of_same {r : Record} {e : Entry} (hkey : r.key = e.key) (hstamp : r.stamp = e.stamp) :
    readAs (.image r) e = some r := if_pos ⟨hkey, hstamp⟩

theorem readAs_of_other {found : ImageRead} {e : Entry}
    (h : ∀ r, found = .image r → r.key ≠ e.key ∨ r.stamp ≠ e.stamp) : readAs found e = none := by
  cases found with
  | image r => exact if_neg fun ⟨hkey, hstamp⟩ => (h r rfl).elim (fun hne => hne hkey) fun hne => hne hstamp
  | blank => rfl
  | bad => rfl

/-! ## READ_RECORD (R173) -/

theorem exec_hostReadDone_of_found {s : State} {found : ImageRead} {e : Entry} {r : Record}
    (hop : s.store.op = some (.read .host found)) (hrequest : s.host.request = some (.readRecord e))
    (hread : readAs found e = some r) : exec .hostReadDone s = .next (completed (.found r) (endOp s.flash s)) := by
  have request : (clearOp s).host.request = some (.readRecord e) := hrequest
  rw [exec_hostReadDone, execHostReadDone]
  simp only [hop, answerRead, request, hread]
  rfl

theorem exec_hostReadDone_of_fault {s : State} {found : ImageRead} {e : Entry}
    (hop : s.store.op = some (.read .host found)) (hrequest : s.host.request = some (.readRecord e))
    (hread : readAs found e = none) :
    exec .hostReadDone s = .next (completed (.storeFault e.stamp) (endOp s.flash s)) := by
  have request : (clearOp s).host.request = some (.readRecord e) := hrequest
  rw [exec_hostReadDone, execHostReadDone]
  simp only [hop, answerRead, request, hread]
  rfl

/-! ## The Responder's READ (R111, R148, R149) -/

theorem exec_responderReadDone_of_unwanted {s : State} {found : ImageRead} (hop : s.store.op = some (.read .discarded found)) :
    exec .responderReadDone s = .next (endOp s.flash s) := by
  rw [exec_responderReadDone, execResponderReadDone]
  simp only [hop]
  rfl

/-- The READ is over, and the SUPPLY is built with what it found (R149). -/
def supplyBuilt (answer : Option Record) (s : State) : State :=
  { endOp s.flash s with resp := { s.resp with service := some (.built answer) } }

theorem exec_responderReadDone_of_reading {s : State} {found : ImageRead} {e : Entry} {answer : Option Record}
    (hop : s.store.op = some (.read .responder found)) (hservice : s.resp.service = some (.reading e))
    (hanswer : readAs found e = answer) :
    exec .responderReadDone s =
      .next
        (if hasRoom s then pumpResponder (placeReply (supplyBuilt answer s))
          else waitForRoom .reply (supplyBuilt answer s)) := by
  have service : (clearOp s).resp.service = some (.reading e) := hservice
  rw [exec_responderReadDone, execResponderReadDone]
  simp only [hop, buildSupply, service, hanswer]
  rfl

/-- Settles O46: the image decides what is answered, and room whether the SUPPLY is placed. -/
theorem readsAreAnswered : Obligations.ReadsAreAnswered := by
  refine ⟨fun s found e hop hrequest => ⟨fun r hfound hkey hstamp => ?_, fun hother => ?_⟩,
    fun s found hop => exec_responderReadDone_of_unwanted hop,
    fun s found e job key answer hop hservice hkind hfound => ?_⟩
  · exact exec_hostReadDone_of_found hop hrequest (hfound ▸ readAs_of_same hkey hstamp)
  · exact exec_hostReadDone_of_fault hop hrequest (readAs_of_other hother)
  · have hanswer : readAs found e = answer := by
      obtain ⟨r, rfl, hkey, hstamp, rfl⟩ | ⟨hother, rfl⟩ := hfound
      · exact readAs_of_same hkey hstamp
      · exact readAs_of_other hother
    have ends := exec_responderReadDone_of_reading hop hservice hanswer
    refine ⟨fun others hjobs hroom => ?_, fun hno => ?_⟩
    · intro t
      have placed : placeReply (supplyBuilt answer s) = t :=
        placeReply_supply (s := supplyBuilt answer s) s.line hjobs hkind rfl
      have served : exec .responderReadDone s = .next (pumpResponder t) := by
        rw [ends, if_pos (hasRoom_iff_room.2 hroom), placed]
      exact ⟨served, fun hothers => by rw [served, pumpResponder_of_idle t (.inr hothers)]⟩
    · rw [ends, if_neg (mt hasRoom_iff_room.1 hno)]
      rfl

end Sys2Proof.Proofs
end

