-- ==== Sys2Proof/Proofs/PeerLimits.lean ====
section
/-! PROOFS. The silence limit, the absence limit and the duplicate mark's expiry (R108 to R111, R113). -/

namespace Sys2Proof.Proofs
open Sys2Proof Sys2Proof.Machine Sys2Proof.Stated

/-! ## What a peer's leaving spares -/

/-- From s to t queued frames stay, whoever they report to, frames may have joined them, and the blocks that have no work with
peers are as they were. -/
structure SparesRest (s t : State) : Prop where
  queued : s.line.txq.map unplaced <+: t.line.txq.map unplaced
  received : t.line.rxq = s.line.rxq
  ctl : t.ctl = s.ctl
  cfg : t.cfg = s.cfg
  dir : t.dir = s.dir
  upd : t.upd = s.upd
  flash : t.flash = s.flash
  summ : t.summ = s.summ

theorem SparesRest.trans {s t u : State} (h : SparesRest s t) (k : SparesRest t u) : SparesRest s u where
  queued := h.queued.trans k.queued
  received := k.received.trans h.received
  ctl := k.ctl.trans h.ctl
  cfg := k.cfg.trans h.cfg
  dir := k.dir.trans h.dir
  upd := k.upd.trans h.upd
  flash := k.flash.trans h.flash
  summ := k.summ.trans h.summ

theorem sparesRest_of_offers {s t : State} (h : Offers s t) : SparesRest s t :=
  ⟨h.queued, by rw [h.line], h.ctl, h.cfg, h.dir, h.upd, h.flash, h.summ⟩

theorem sparesRest_of_withdraws {s t : State} (h : Withdraws s t) : SparesRest s t :=
  ⟨h.queued ▸ List.prefix_rfl, by rw [h.line], h.ctl, h.cfg, h.dir, h.upd, h.flash, h.summ⟩

theorem sparesRest_changePeer (p : Station) (e : Peer) (s : State) : SparesRest s (changePeer p e s) :=
  ⟨List.prefix_rfl, rfl, rfl, rfl, rfl, rfl, rfl, rfl⟩

/-! ## The peers' entries -/

theorem apart_of_offers {s t : State} (h : Offers s t) (p : Station) : apart (peerOf t p) = apart (peerOf s p) := h.peers p

theorem peerOf_of_withdraws {s t : State} (h : Withdraws s t) (p : Station) : peerOf t p = peerOf s p :=
  peerOf_congr h.peers p

/-- An offer counts one attempt at most of any peer (R105). -/
theorem attempts_pumpProfile_le (s : State) (p : Station) :
    (peerOf (pumpProfile s) p).attempts ≤ (peerOf s p).attempts + 1 := by
  unfold pumpProfile
  split
  · split
    · rename_i q _
      have kept : peerOf (offerRequest .profileQuery (queryCounted q s)) p = peerOf (queryCounted q s) p :=
        peerOf_congr (offer_profileQuery_peers _) p
      have counted : peerOf (queryCounted q s) p =
          if q = p then { peerOf s q with attempts := (peerOf s q).attempts + 1 } else peerOf s p := peerOf_setPeer s q p _
      change (peerOf (offerRequest .profileQuery (queryCounted q s)) p).attempts ≤ _
      rw [kept, counted]
      split
      next hq => rw [hq]
      next => exact Nat.le_succ _
    · exact Nat.le_succ _
  · exact Nat.le_succ _

/-! ## A peer that nobody works with any more (R111) -/

/-- Offers aim no fetch slot at a peer that no Want entry names. -/
theorem pump_slots_ne {s : State} {p : Station} (hwants : ∀ w ∈ s.fetch.wants, w.source ≠ p)
    (hslots : ∀ i : Fin 4, s.fetch.slots[i].peer ≠ some p) : ∀ i : Fin 4, (pump s).fetch.slots[i].peer ≠ some p := by
  have fetch : (pumpReconciler (pumpProfile (pumpResponder s))).fetch = s.fetch := by
    rw [pumpReconciler_fetch, pumpProfile_fetch, pumpResponder_fetch]
  exact pumpFetch_slots p _ (fetch ▸ hwants) fun i => by rw [fetch]; exact hslots i

theorem pump_pairs_ne {s : State} {p : Station} (h : ∀ x ∈ s.recon.queue, x.peer ≠ p) :
    ∀ x ∈ (pump s).recon.queue, x.peer ≠ p := by
  rw [pump, pumpFetch_recon]
  refine pumpReconciler_queue_ne p _ ?_
  rw [pumpProfile_recon, pumpResponder_recon]
  exact h

theorem pump_jobs_ne {s : State} {p : Station} (h : ∀ j ∈ s.resp.jobs, j.peer ≠ p) :
    ∀ j ∈ (pump s).resp.jobs, j.peer ≠ p := by
  rw [pump, pumpFetch_resp, pumpReconciler_resp, pumpProfile_resp]
  exact serveJobs_jobs _ s p h

theorem endQueryOf_rest (p : Station) (s : State) :
    (endQueryOf p s).fetch = s.fetch ∧ (endQueryOf p s).resp = s.resp := by
  unfold endQueryOf
  split
  · split <;> exact ⟨rfl, rfl⟩
  · exact ⟨rfl, rfl⟩

/-! ## The limits (R108 to R110) -/

/-- A PRESENT peer's entry once it is SILENT (R108). -/
def silentPeer (e : Peer) : Peer := { e with state := .silent, isPartial := false }

theorem exec_silenceLimit_of_present {s : State} {p : Station} (hup : Up s) (hp : (peerOf s p).state = .present) :
    exec (.silenceLimit p) s = .next (pump (purgePeer p (changePeer p (silentPeer (peerOf s p)) s))) := by
  have guard : (isUp s && isPresent s p) = true := by rw [isUp_iff.2 hup, isPresent, hp]; rfl
  rw [exec_silenceLimit, execSilenceLimit, if_pos guard]
  rfl

/-- What the absence limit of a peer leaves, before the blocks' offers (R109). -/
def vanished (p : Station) (s : State) : State := changePeer p Peer.cleared (endQueryOf p (discardJobs p s))

theorem exec_absenceLimit_of_known {s : State} {p : Station} (hup : Up s) (habsent : (peerOf s p).state ≠ .absent)
    (hpresent : (peerOf s p).state ≠ .present) : exec (.absenceLimit p) s = .next (pump (vanished p s)) := by
  have guard : (isUp s && mayVanish s p) = true := by rw [isUp_iff.2 hup, mayVanish_iff.2 ⟨habsent, hpresent⟩]; rfl
  rw [exec_absenceLimit, execAbsenceLimit, if_pos guard]
  rfl

/-- A DUPLICATE peer's entry once it is JOINING again (R110). -/
def unmarkedPeer (e : Peer) : Peer := { e with state := .joining, uniqueId := none, dupMark := none, attempts := 0 }

theorem exec_duplicateMarkExpiry_of_duplicate {s : State} {p : Station} (hup : Up s)
    (hp : (peerOf s p).state = .duplicate) :
    exec (.duplicateMarkExpiry p) s = .next (pumpProfile (changePeer p (unmarkedPeer (peerOf s p)) s)) := by
  have guard : (isUp s && (peerOf s p).state == .duplicate) = true := by rw [isUp_iff.2 hup, hp]; rfl
  rw [exec_duplicateMarkExpiry, execDuplicateMarkExpiry, if_pos guard]
  rfl

theorem peerOf_changePeer_self (p : Station) (e : Peer) (s : State) : peerOf (changePeer p e s) p = e := by
  rw [peerOf_changePeer, if_pos rfl]

theorem peerOf_changePeer_of_ne {p q : Station} (e : Peer) (s : State) (h : q ≠ p) :
    peerOf (changePeer p e s) q = peerOf s q := by
  rw [peerOf_changePeer, if_neg h.symm]

/-- Settles O41: the entry changes, the work with the peer is withdrawn, and the blocks offer, which spares the rest. -/
theorem peerLimitsExpire : Obligations.PeerLimitsExpire := by
  refine ⟨fun s p hup hp => ?_, fun s p hup habsent hpresent => ?_, fun s p hup hp => ?_⟩
  · let changed := changePeer p (silentPeer (peerOf s p)) s
    have purges : Withdraws changed (purgePeer p changed) := withdraws_purgePeer p changed
    have offers : Offers (purgePeer p changed) (pump (purgePeer p changed)) := offers_pump _
    obtain ⟨hwants, hslots, hpairs, hjobs⟩ := purgePeer_facts p changed
    have sources : ∀ w ∈ (purgePeer p changed).fetch.wants, w.source ≠ p := by
      rw [hwants]
      exact fun w hw => bne_iff_ne.1 (List.mem_filter.1 hw).2
    have peers (q : Station) : apart (peerOf (pump (purgePeer p changed)) q) = apart (peerOf changed q) := by
      rw [apart_of_offers offers, peerOf_of_withdraws purges]
    have spares := (sparesRest_changePeer p (silentPeer (peerOf s p)) s).trans
      ((sparesRest_of_withdraws purges).trans (sparesRest_of_offers offers))
    refine ⟨_, exec_silenceLimit_of_present hup hp, ?_, ?_, fun q hq => ?_, offers.host.trans purges.host, ?_,
      pump_slots_ne sources hslots, pump_pairs_ne hpairs, pump_jobs_ne hjobs, spares.queued, spares.received, spares.ctl,
      spares.cfg, spares.dir, spares.upd, spares.flash, spares.summ⟩
    · rw [purgePeer_eq]
      rfl
    · rw [peers, peerOf_changePeer_self]
      rfl
    · rw [peers, peerOf_changePeer_of_ne _ _ hq]
    · exact offers.wants.trans (congrArg _ hwants)
  · let ended := endQueryOf p (discardJobs p s)
    have ends : Withdraws s ended := (withdraws_discardJobs p s).trans (withdraws_endQueryOf p _)
    have offers : Offers (vanished p s) (pump (vanished p s)) := offers_pump _
    obtain ⟨hfetch, -, -, hjobs⟩ := discardJobs_rest p s
    obtain ⟨hfetchKept, hrespKept⟩ := endQueryOf_rest p (discardJobs p s)
    have self : peerOf (vanished p s) p = Peer.cleared := peerOf_changePeer_self ..
    have notJoining : (peerOf (vanished p s) p).state ≠ .joining := by rw [self]; nofun
    have spares := (sparesRest_of_withdraws ends).trans
      ((sparesRest_changePeer p Peer.cleared ended).trans (sparesRest_of_offers offers))
    refine ⟨_, exec_absenceLimit_of_known hup habsent hpresent, ?_, fun q hq => ?_, ?_,
      pump_query_ne p _ notJoining (endQueryOf_query_ne p (discardJobs p s)), pump_jobs_ne ?_, ?_, spares.received,
      spares.queued, spares.ctl, spares.cfg, spares.dir, spares.upd, spares.flash, spares.summ⟩
    · rw [peerOf_pump _ _ notJoining, self]
    · rw [apart_of_offers offers, vanished, peerOf_changePeer_of_ne _ _ hq, peerOf_of_withdraws ends]
    · exact offers.host.trans (congrArg (fun h => HostPort.post h (.peerState p .absent)) ends.host)
    · exact hrespKept ▸ hjobs
    · exact offers.wants.trans (congrArg (fun f => f.wants.map asked) (hfetchKept.trans hfetch))
  · let changed := changePeer p (unmarkedPeer (peerOf s p)) s
    have offers : Offers changed (pumpProfile changed) := offers_pumpProfile _
    have self : peerOf changed p = unmarkedPeer (peerOf s p) := peerOf_changePeer_self ..
    have spares := (sparesRest_changePeer p (unmarkedPeer (peerOf s p)) s).trans (sparesRest_of_offers offers)
    refine ⟨_, exec_duplicateMarkExpiry_of_duplicate hup hp, ?_, ?_, fun q hq => ?_, offers.host, spares.ctl, spares.cfg,
      spares.dir, spares.upd, pumpProfile_store changed, spares.flash, spares.summ, pumpProfile_recon changed,
      pumpProfile_fetch changed, pumpProfile_resp changed, spares.received⟩
    · rw [apart_of_offers offers, self]
      rfl
    · refine (attempts_pumpProfile_le changed p).trans ?_
      rw [self]
      exact Nat.le_refl 1
    · rw [apart_of_offers offers, peerOf_changePeer_of_ne _ _ hq]

end Sys2Proof.Proofs
end

