-- ==== Sys2Proof/Proofs/Summaries.lean ====
section
/-! PROOFS. A SUMMARY compared (R123 to R125): what it records of its sender, and the pairs it queues. -/

namespace Sys2Proof.Proofs
open Sys2Proof Sys2Proof.Machine Sys2Proof.Stated

/-! ## The sender's entry (R123, R124) -/

theorem useSummary_of_unused {f : Frame} {s : State}
    (h : (peerOf s f.source).state ≠ .present ∨ 1024 < (wordAt f.payload 10).toNat) : useSummary f s = s := by
  refine if_neg fun ⟨hpresent, hcount⟩ => ?_
  exact h.elim (fun hne => hne (present_of_isPresent hpresent)) fun hgt => Nat.not_lt.2 hcount hgt

/-- What a SUMMARY records: the clock raised, and its clock and PARTIAL flag in the sender's entry (R123, R124). -/
def summaryRecorded (f : Frame) (s : State) : State :=
  setPeer f.source
    { peerOf s f.source with lastClock := some (longAt f.payload 0), isPartial := (byteAt f.payload 8).getLsbD 0 }
    (raised (longAt f.payload 0) s)

theorem useSummary_of_used {f : Frame} {s : State} (hpresent : (peerOf s f.source).state = .present)
    (hcount : (wordAt f.payload 10).toNat ≤ 1024) :
    useSummary f s =
      if isActive s ∧ (byteAt f.payload 8).getLsbD 0 = false ∧ (wordAt f.payload 10).toNat ≠ 0 then
        pumpReconciler (queuePairs f.source f.payload (summaryRecorded f s))
      else summaryRecorded f s := by
  have used : isPresent s f.source = true ∧ (wordAt f.payload 10).toNat ≤ Config.directoryCapacity :=
    ⟨beq_iff_eq.2 hpresent, hcount⟩
  rw [useSummary, if_pos used, raiseClock_eq_raised]
  rfl

/-! ## The pairs queued (R125) -/

/-- A bucket is to be queued: its check differs from the one heard, and no pair of the Reconcile Queue names it (R125). -/
def bucketDiffers (s : State) (payload : List Byte) (n : Nat) : Bool :=
  s.dir.checks.toList.getD n 0 != wordAt payload (12 + 2 * n) && s.recon.queue.all fun p => p.bucket.toNat != n

theorem differingBuckets_eq (s : State) (payload : List Byte) :
    differingBuckets s payload = ((List.range 64).filter (bucketDiffers s payload)).map (BitVec.ofNat 6) := by
  have same (n : Nat) (hn : n ∈ List.range 64) :
      (s.dir.checks[(BitVec.ofNat 6 n).toNat]'(BitVec.ofNat 6 n).isLt != heardCheck payload (BitVec.ofNat 6 n).toNat &&
        !s.recon.queue.any fun p => p.bucket == BitVec.ofNat 6 n) = bucketDiffers s payload n := by
    have hlt : n < 64 := List.mem_range.1 hn
    have number : (BitVec.ofNat 6 n).toNat = n := BitVec.toNat_ofNat .. |>.trans (Nat.mod_eq_of_lt hlt)
    have check : s.dir.checks.toList.getD n 0 = s.dir.checks[n] := by simp [List.getD, hlt]
    have named (p : Pair) : (p.bucket == BitVec.ofNat 6 n) = (p.bucket.toNat == n) := by
      rw [Bool.eq_iff_iff, beq_iff_eq, beq_iff_eq, ← BitVec.toNat_inj, number]
    simp only [bucketDiffers, heardCheck, number, check, named, List.all_eq_not_any_not, bne, Bool.not_not]
  rw [differingBuckets, List.filter_map]
  exact congrArg _ (List.filter_congr same)

/-- The pairs a SUMMARY queues for its sender, in rising order of their buckets (R125). -/
def summaryPairs (s : State) (source : Station) (payload : List Byte) : List Pair :=
  ((List.range 64).filter (bucketDiffers s payload)).map
    fun n => { peer := source, bucket := BitVec.ofNat 6 n, attempts := 0 }

theorem queuePairs_eq (source : Station) (payload : List Byte) (s : State) :
    queuePairs source payload s =
      { s with recon := { s.recon with queue := s.recon.queue ++ summaryPairs s source payload } } := by
  rw [queuePairs, differingBuckets_eq, List.map_map]
  rfl

/-- Settles O36: a SUMMARY of use is recorded, and its pairs are queued, which a busy Reconciler leaves as they are. -/
theorem summariesAreCompared : Obligations.SummariesAreCompared := by
  intro s pre f post hwaits clock isPartial count e recorded pairs
  have taking : exec .summaryTaken s = .next (useSummary f (taken pre post s)) := takeFrame_of_waits hwaits useSummary
  refine ⟨fun hunused => ?_, fun hpresent hcount hquiet => ?_, fun hpresent hcount hst hpartial hzero => ?_⟩
  · rw [taking, useSummary_of_unused (s := taken pre post s) hunused]
  · rw [taking, useSummary_of_used (s := taken pre post s) hpresent hcount, if_neg]
    · rfl
    · rintro ⟨hactive, hclear, hsome⟩
      have active : s.ctl.st = .active := (isActive_iff.1 hactive).2
      obtain hst | hset | hnone := hquiet
      · exact hst active
      · exact Bool.false_ne_true (hclear.symm.trans hset)
      · exact hsome hnone
  · have active : isActive (taken pre post s) = true := isActive_iff.2 ⟨hwaits.1.1, hst⟩
    have queues : exec .summaryTaken s =
        .next (pumpReconciler { recorded with recon := { s.recon with queue := s.recon.queue ++ pairs } }) := by
      rw [taking, useSummary_of_used (s := taken pre post s) hpresent hcount, if_pos ⟨active, hpartial, hzero⟩,
        queuePairs_eq]
      rfl
    exact ⟨queues, fun hbusy => queues.trans (congrArg _ (pumpReconciler_of_busy hbusy))⟩

end Sys2Proof.Proofs
end

