-- ==== Sys2Proof/Proofs/Parts.lean ====
section
/-! PROOFS. The parts of a BUCKET_REPLY (R129 to R132): a listed entry compared, a part matched to the outstanding query, and
the query's end. -/

namespace Sys2Proof.Proofs
open Sys2Proof Sys2Proof.Machine Sys2Proof.Stated

/-! ## A listed entry (R130) -/

/-- A listed entry that is passed over: its key, its bucket, its class or its origin keeps it from being wanted (R130). -/
def PassedOver (s : State) (b : Bucket) (h : HeardEntry) : Prop :=
  h.key = 0x0000 ∨ h.key = 0xFFFF ∨ h.key.extractLsb' 0 6 ≠ b ∨ policyOf s h.key = .localOnly ∨
    (policyOf s h.key = .owned ∧ h.origin ≠ (h.key.extractLsb' 0 5).setWidth 8) ∨ 31 < h.origin.toNat

/-- The stamp a listed entry carries. -/
def heardStamp (h : HeardEntry) : Stamp := { counter := h.counter, origin := h.origin.setWidth 5 }

/-- The model's tests of a listed entry whose origin is a station, before the directory is asked (R130). -/
def failsTests (s : State) (b : Bucket) (k : Key) (origin : Station) : Bool :=
  !validKey k || bucketOf k != b || isLocal s k || (policyOf s k == .owned && origin != ownerOf k)

theorem stationByte_inj {p q : Station} : stationByte p = stationByte q ↔ p = q := by
  refine ⟨fun h => ?_, congrArg _⟩
  have same := congrArg stationOfByte h
  rwa [stationOfByte_stationByte, stationOfByte_stationByte, Option.some.injEq] at same

theorem stationByte_of_station {o : Byte} (h : o.toNat ≤ 31) : stationByte (o.setWidth 5) = o := by
  refine BitVec.eq_of_toNat_eq ?_
  rw [stationByte, BitVec.toNat_setWidth, BitVec.toNat_setWidth]
  omega

theorem stationOfByte_of_station {o : Byte} (h : o.toNat ≤ 31) : stationOfByte o = some (o.setWidth 5) :=
  if_pos (Nat.lt_succ_of_le h)

theorem stationOfByte_of_other {o : Byte} (h : 31 < o.toNat) : stationOfByte o = none :=
  if_neg (Nat.not_lt.2 h)

theorem failsTests_iff {s : State} {b : Bucket} {h : HeardEntry} (hstation : h.origin.toNat ≤ 31) :
    failsTests s b h.key (h.origin.setWidth 5) = true ↔ PassedOver s b h := by
  have owner : h.origin.setWidth 5 ≠ ownerOf h.key ↔ h.origin ≠ (h.key.extractLsb' 0 5).setWidth 8 := by
    rw [ne_eq, ← stationByte_inj, stationByte_of_station hstation]
    rfl
  simp only [failsTests, PassedOver, Bool.or_eq_true, Bool.and_eq_true, Bool.not_eq_true', bne_iff_ne, beq_iff_eq,
    validKey_eq_false_iff, isLocal_iff, owner, bucketOf, Nat.not_lt.2 hstation, or_false, or_assoc]

theorem compareEntry_of_passedOver {source : Station} {s : State} {b : Bucket} {h : HeardEntry}
    (hpassed : PassedOver s b h) : compareEntry source b s h = s := by
  have unwanted : wantedStamp s b h = none := by
    obtain hstation | hother := le_or_gt h.origin.toNat 31
    · rw [wantedStamp, stationOfByte_of_station hstation]
      exact if_pos ((failsTests_iff hstation).2 hpassed)
    · rw [wantedStamp, stationOfByte_of_other hother]
  rw [compareEntry, unwanted]

/-- An entry not passed over is wanted by the directory's answer (R130). -/
theorem wantedStamp_of_listed {s : State} {b : Bucket} {h : HeardEntry} (hlisted : ¬ PassedOver s b h) :
    wantedStamp s b h =
      match lookup s h.key with
      | some e => if beats s h.key (heardStamp h) e.stamp then some (heardStamp h) else none
      | none => if dirFull s then none else some (heardStamp h) := by
  have hstation : h.origin.toNat ≤ 31 := Nat.not_lt.1 fun hother => hlisted (by simp only [PassedOver, hother, or_true])
  rw [wantedStamp, stationOfByte_of_station hstation]
  exact if_neg (mt (failsTests_iff hstation).1 hlisted)

theorem compareEntry_of_known {source : Station} {s : State} {b : Bucket} {h : HeardEntry} {e : Entry}
    (hlisted : ¬ PassedOver s b h) (he : lookup s h.key = some e) :
    compareEntry source b s h =
      if beats s h.key (heardStamp h) e.stamp then wantAdd h.key (heardStamp h) source s else s := by
  rw [compareEntry, wantedStamp_of_listed hlisted]
  simp only [he]
  cases beats s h.key (heardStamp h) e.stamp <;> rfl

theorem compareEntry_of_new {source : Station} {s : State} {b : Bucket} {h : HeardEntry} (hlisted : ¬ PassedOver s b h)
    (hnew : lookup s h.key = none) :
    compareEntry source b s h =
      if s.dir.entryCount + s.dir.reservations < 1024 then wantAdd h.key (heardStamp h) source s else s := by
  rw [compareEntry, wantedStamp_of_listed hlisted]
  simp only [hnew, ← Nat.not_le, ← dirFull_iff]
  cases dirFull s <;> rfl

/-! ## The entries of a part (R130) -/

theorem freeSlotsOfKey_recon (k : Key) (s : State) : (freeSlotsOfKey k s).recon = s.recon :=
  List.foldlRecOn (motive := fun t : State => t.recon = s.recon) slotNumbers _ rfl fun t ht i _ => by
    split <;> exact ht

theorem wantAdd_recon (k : Key) (stamp : Stamp) (source : Station) (s : State) :
    (wantAdd k stamp source s).recon = s.recon := by
  unfold wantAdd
  split
  · rfl
  · split
    · split <;> rfl
    · split
      · split
        · exact (setWants_recon ..).trans (freeSlotsOfKey_recon k s)
        · rfl
      · rfl

theorem compareEntry_recon (source : Station) (b : Bucket) (s : State) (h : HeardEntry) :
    (compareEntry source b s h).recon = s.recon := by
  unfold compareEntry
  split
  · exact wantAdd_recon ..
  · rfl

/-- A part's entries have been compared, one by one (R130). -/
def partCompared (f : Frame) (p : Pair) (s : State) : State :=
  (heardEntries (f.payload.drop 4)).foldl (compareEntry f.source p.bucket) s

theorem partCompared_recon (f : Frame) (p : Pair) (s : State) : (partCompared f p s).recon = s.recon :=
  List.foldlRecOn (motive := fun t : State => t.recon = s.recon) _ _ rfl fun t ht h _ =>
    (compareEntry_recon _ _ t h).trans ht

/-! ## An expected part (R131) -/

theorem takePart_of_more {f : Frame} {p : Pair} {query : Placed} {expected : Nat} {s : State} (h : f.isLast = false) :
    takePart f p query expected s =
      pumpFetch
        { partCompared f p s with
          recon := { s.recon with phase := .awaitingPart { query with since := s.now } (expected + 1) } } := by
  rw [← partCompared_recon f p s, takePart, if_neg (Bool.not_eq_true _ ▸ h)]
  rfl

theorem takePart_of_last {f : Frame} {p : Pair} {query : Placed} {expected : Nat} {rest : List Pair} {s : State}
    (hqueue : s.recon.queue = p :: rest) (h : f.isLast = true) :
    takePart f p query expected s = pumpFetch (pumpReconciler (pairsLeft rest (partCompared f p s))) := by
  have left : finishQuery (partCompared f p s) = pairsLeft rest (partCompared f p s) := by
    have tail : (partCompared f p s).recon.queue.tail = rest := by rw [partCompared_recon, hqueue, List.tail_cons]
    rw [← tail]
    rfl
  rw [takePart, if_pos h, ← left]
  rfl

/-! ## A part and the outstanding query (R129) -/

theorem useBucketReply_of_not_awaiting {f : Frame} {s : State}
    (h : s.recon.phase = .idle ∨ s.recon.phase = .waitingRoom) : useBucketReply f s = s := by
  unfold useBucketReply
  obtain h | h := h <;> simp only [h]

/-- A part answers the outstanding query, whatever its index (R129). -/
def AnswersQuery (s : State) (f : Frame) (p : Pair) (query : Placed) : Prop :=
  (peerOf s f.source).state = .present ∧ f.source = p.peer ∧ byteAt f.payload 0 = query.seq ∧
    byteAt f.payload 1 = p.bucket.setWidth 8 ∧ f.payload.length = 4 + 7 * (byteAt f.payload 3).toNat

theorem answersQuery_iff {s : State} {f : Frame} {p : Pair} {query : Placed} :
    isPresent s f.source = true ∧ matchesQuery f p query = true ↔ AnswersQuery s f p query := by
  simp only [isPresent, matchesQuery, AnswersQuery, Bool.and_eq_true, beq_iff_eq, and_assoc, eq_comm (a := p.peer),
    eq_comm (a := query.seq)]

section Awaiting
variable {f : Frame} {s : State} {query : Placed} {expected : Nat} {p : Pair} {rest : List Pair}
  (hphase : s.recon.phase = .awaitingPart query expected) (hqueue : s.recon.queue = p :: rest)
include hphase hqueue

theorem useBucketReply_of_awaiting :
    useBucketReply f s =
      if isPresent s f.source = false ∨ matchesQuery f p query = false ∨ (byteAt f.payload 2).toNat < expected then s
      else if expected < (byteAt f.payload 2).toNat then pumpReconciler (failBucketQuery s)
      else takePart f p query expected s := by
  simp only [useBucketReply, hphase, hqueue]

theorem useBucketReply_of_unmatched (h : ¬ AnswersQuery s f p query ∨ (byteAt f.payload 2).toNat < expected) :
    useBucketReply f s = s := by
  rw [useBucketReply_of_awaiting hphase hqueue, if_pos]
  rw [← answersQuery_iff, not_and_or, Bool.not_eq_true, Bool.not_eq_true, or_assoc] at h
  exact h

theorem useBucketReply_of_answering (h : AnswersQuery s f p query) (hpart : expected ≤ (byteAt f.payload 2).toNat) :
    useBucketReply f s =
      if expected < (byteAt f.payload 2).toNat then
        pumpReconciler (pairsLeft (if p.attempts < 2 then p :: rest else rest) s)
      else takePart f p query expected s := by
  obtain ⟨hpresent, hmatches⟩ := answersQuery_iff.2 h
  rw [useBucketReply_of_awaiting hphase hqueue, if_neg, failBucketQuery_of_head hqueue]
  simp only [hpresent, hmatches, Bool.true_eq_false, false_or, Nat.not_lt, hpart]

end Awaiting

/-- Settles O38: an entry by what passes it over and by the directory's answer, a part by its match and its index. -/
theorem bucketPartsAreCompared : Obligations.BucketPartsAreCompared := by
  refine ⟨fun s source b h => ?_, fun s pre f post hwaits => ⟨fun hphase => ?_, ?_⟩⟩
  · exact ⟨compareEntry_of_passedOver, fun hlisted =>
      ⟨fun e => compareEntry_of_known hlisted, compareEntry_of_new hlisted⟩⟩
  · exact (takeFrame_of_waits hwaits useBucketReply).trans
      (congrArg _ (useBucketReply_of_not_awaiting (s := taken pre post s) hphase))
  · intro query expected p rest hphase hqueue part matching u
    have taking : exec .bucketReplyTaken s = .next (useBucketReply f (taken pre post s)) :=
      takeFrame_of_waits hwaits useBucketReply
    have answering := useBucketReply_of_answering (f := f) (s := taken pre post s) hphase hqueue
    refine ⟨fun hunmatched => ?_, fun hmatching habove => ?_, fun hmatching hpart hmore => ?_,
      fun hmatching hpart hlast => ?_⟩
    · rw [taking, useBucketReply_of_unmatched (s := taken pre post s) hphase hqueue hunmatched]
    · rw [taking, answering hmatching habove.le, if_pos habove]
      rfl
    · rw [taking, answering hmatching hpart.ge, if_neg hpart.not_gt, takePart_of_more hmore]
      rfl
    · rw [taking, answering hmatching hpart.ge, if_neg hpart.not_gt, takePart_of_last (s := taken pre post s) hqueue hlast]
      rfl

end Sys2Proof.Proofs
end

