-- ==== Sys2Proof/Proofs/Wants.lean ====
section
/-! PROOFS. An add to the Want List (R137, R144, R145), case by case. -/

namespace Sys2Proof.Proofs
open Sys2Proof Sys2Proof.Machine Sys2Proof.Stated

/-- The WAITING entry that an add makes (R137). -/
def freshWant (k : Key) (stamp : Stamp) (source : Station) : Want :=
  { key := k, stamp := stamp, source := source, attempts := 0, requested := false }

theorem wantAdd_of_mute {s : State} (k : Key) (stamp : Stamp) (source : Station) (h : s.ctl.st = .mute) :
    wantAdd k stamp source s = s := if_pos h

theorem wantOf_eq_none {s : State} {k : Key} (h : ∀ w ∈ s.fetch.wants, w.key ≠ k) : wantOf s k = none :=
  List.find?_eq_none.2 fun w hw => by simpa using h w hw

section Unmuted
variable {s : State} {k : Key} {stamp : Stamp} {source : Station} (hmute : s.ctl.st ≠ .mute)
include hmute

theorem wantAdd_of_new (hnew : ∀ w ∈ s.fetch.wants, w.key ≠ k) :
    wantAdd k stamp source s =
      if s.fetch.wants.length < 128 then setWants (s.fetch.wants ++ [freshWant k stamp source]) s else s := by
  rw [wantAdd, if_neg hmute]
  simp only [wantOf_eq_none hnew]
  rfl

variable {before after : List Want} {w : Want} (hwants : s.fetch.wants = before ++ w :: after)
  (hkeys : (s.fetch.wants.map (·.key)).Nodup) (hkey : w.key = k)
include hwants hkeys hkey

theorem wantAdd_of_unbeaten (hbeats : beats s k stamp w.stamp = false) : wantAdd k stamp source s = s := by
  rw [wantAdd, if_neg hmute]
  simp only [wantOf_eq hwants hkeys hkey, hbeats, Bool.false_eq_true, if_false]

theorem wantAdd_of_waiting (hbeats : beats s k stamp w.stamp = true) (hw : w.requested = false) :
    wantAdd k stamp source s = setWants (before ++ freshWant k stamp source :: after) s := by
  have replaced : s.fetch.wants.map (fun x => if x.key = k then freshWant k stamp source else x) =
      before ++ freshWant k stamp source :: after := by
    rw [hwants] at hkeys ⊢
    exact map_replace_eq hkeys hkey
  rw [← replaced, wantAdd, if_neg hmute]
  simp only [wantOf_eq hwants hkeys hkey, hbeats, hw, if_true, Bool.false_eq_true, if_false]
  rfl

theorem wantAdd_of_requested (hbeats : beats s k stamp w.stamp = true) (hw : w.requested = true) :
    wantAdd k stamp source s =
      setWants (before ++ after ++ [freshWant k stamp source]) (freeSlotsOfKey k s) := by
  have others : withoutKey (freeSlotsOfKey k s).fetch.wants k = before ++ after := by
    rw [freeSlotsOfKey_wants]
    rw [hwants] at hkeys ⊢
    exact withoutKey_eq hkeys hkey
  rw [← others, wantAdd, if_neg hmute]
  simp only [wantOf_eq hwants hkeys hkey, hbeats, hw, if_true]
  rfl

end Unmuted

/-- Settles O34: one lemma for each case of the add, and the one fetch slot that holds the key of a REQUESTED entry. -/
theorem wantListAdds : Obligations.WantListAdds := by
  intro s k stamp source fresh
  refine ⟨wantAdd_of_mute k stamp source, fun hmute hnew => ⟨fun hroom => ?_, fun hfull => ?_⟩,
    fun before w after hmute hlaw hwants hkey => ⟨?_, ?_, fun i hbeats hw hslot => ?_⟩⟩
  · exact (wantAdd_of_new hmute hnew).trans (if_pos hroom)
  · exact (wantAdd_of_new hmute hnew).trans (if_neg (Nat.not_lt.2 hfull))
  · exact wantAdd_of_unbeaten hmute hwants hlaw.wanted hkey
  · exact wantAdd_of_waiting hmute hwants hlaw.wanted hkey
  · rw [wantAdd_of_requested hmute hwants hlaw.wanted hkey hbeats hw,
      freeSlotsOfKey_eq hslot fun j hj => hlaw.distinct j i k hj hslot]
    rfl

end Sys2Proof.Proofs
end

