-- ==== Sys2Proof/Proofs/InStep.lean ====
section
/-! PROOFS. The Want List and the fetch slots in step (R136, R138): what a fetch slot is aimed at, and the law of entries and
aims, kept by every operation on them; the Fetch Unit's own offers settle it (R139). -/

namespace Sys2Proof.Proofs
open Sys2Proof Sys2Proof.Machine Sys2Proof.Stated

/-! ## What fetch slots are aimed at (R138) -/

/-- The key a busy fetch slot holds, and the peer its FETCH is addressed to. -/
def aimOf : FetchSlot → Option (Key × Station)
  | .free => none
  | .waitingRoom k p _ => some (k, p)
  | .awaiting k p _ => some (k, p)

/-- The aim of each fetch slot. -/
def aims (f : FetchUnit) (i : Fin 4) : Option (Key × Station) := aimOf f.slots[i]

theorem key_eq (x : FetchSlot) : x.key = (aimOf x).map (·.1) := by cases x <;> rfl

theorem peer_eq (x : FetchSlot) : x.peer = (aimOf x).map (·.2) := by cases x <;> rfl

theorem holdsKey_iff {f : FetchUnit} {i : Fin 4} {k : Key} : f.slots[i].key = some k ↔ ∃ p, aims f i = some (k, p) := by
  rw [key_eq]
  simp [aims]

theorem aimOf_eq_none {x : FetchSlot} : aimOf x = none ↔ x = .free := by cases x <;> simp [aimOf]

theorem aims_eq_none {f : FetchUnit} {i : Fin 4} : aims f i = none ↔ f.slots[i] = .free := aimOf_eq_none

theorem aims_set (l : List Want) (v : Vector FetchSlot 4) (i : Fin 4) (x : FetchSlot) :
    aims { wants := l, slots := v.set i x } = Function.update (aims { wants := l, slots := v }) i (aimOf x) := by
  funext j
  by_cases h : j = i
  · simp [h, aims]
  · rw [Function.update_of_ne h]
    exact congrArg aimOf (Vector.getElem_set_ne i.isLt j.isLt fun hij => h (Fin.ext hij.symm))

/-! ## The law of entries and aims (R136, R138) -/

/-- One entry for a key; the REQUESTED entries are those that fetch slots are aimed at, one slot each. -/
structure Aimed (l : List Want) (a : Fin 4 → Option (Key × Station)) : Prop where
  wanted : (l.map (·.key)).Nodup
  held : ∀ i k p, a i = some (k, p) → ∃ w ∈ l, w.key = k ∧ w.source = p ∧ w.requested = true
  requested : ∀ w ∈ l, w.requested = true → ∃ i, a i = some (w.key, w.source)
  distinct : ∀ i j k p q, a i = some (k, p) → a j = some (k, q) → i = j

/-- The Want List and the fetch slots are in step. -/
def InStep (f : FetchUnit) : Prop := Aimed f.wants (aims f)

/-- A fetch slot leaves nothing to take: it is busy, or no entry is WAITING (R139). -/
def SettledAt (f : FetchUnit) (i : Fin 4) : Prop := aims f i = none → ∀ w ∈ f.wants, w.requested = true

theorem Aimed.inj {l : List Want} {a : Fin 4 → Option (Key × Station)} (h : Aimed l a) {v w : Want} (hv : v ∈ l)
    (hw : w ∈ l) (hkey : v.key = w.key) : v = w := List.inj_on_of_nodup_map h.wanted hv hw hkey

theorem fetchLaw_iff {s : State} : FetchLaw s ↔ InStep s.fetch ∧ (Active s → ∀ i, SettledAt s.fetch i) := by
  refine ⟨fun ⟨wanted, held, requested, distinct, settled⟩ => ⟨⟨wanted, fun i k p hi => ?_, fun w hw hreq => ?_,
    fun i j k p q hi hj => distinct i j k (holdsKey_iff.2 ⟨p, hi⟩) (holdsKey_iff.2 ⟨q, hj⟩)⟩,
    fun ha i hi => settled ha ⟨i, aims_eq_none.1 hi⟩⟩, fun ⟨⟨wanted, held, requested, distinct⟩, settled⟩ =>
    ⟨wanted, fun i k hi => ?_, fun w hw hreq => ?_, fun i j k hi hj => ?_, fun ha ⟨i, hi⟩ =>
      settled ha i (aims_eq_none.2 hi)⟩⟩
  · obtain ⟨w, hw, hkey, hreq, hpeer⟩ := held i k (holdsKey_iff.2 ⟨p, hi⟩)
    rw [peer_eq, ← aims, hi] at hpeer
    exact ⟨w, hw, hkey, (Option.some.inj hpeer).symm, hreq⟩
  · obtain ⟨i, hi⟩ := requested w hw hreq
    obtain ⟨p, hp⟩ := holdsKey_iff.1 hi
    obtain ⟨v, hv, hkey, -, hpeer⟩ := held i w.key hi
    rw [peer_eq, ← aims, hp, List.inj_on_of_nodup_map wanted hv hw hkey] at hpeer
    exact ⟨i, hp.trans (congrArg (fun q => some (w.key, q)) (Option.some.inj hpeer))⟩
  · obtain ⟨p, hp⟩ := holdsKey_iff.1 hi
    obtain ⟨w, hw, hkey, hsource, hreq⟩ := held i k p hp
    refine ⟨w, hw, hkey, hreq, ?_⟩
    rw [peer_eq, ← aims, hp, hsource]
    rfl
  · obtain ⟨i, hi⟩ := requested w hw hreq
    exact ⟨i, holdsKey_iff.2 ⟨_, hi⟩⟩
  · obtain ⟨p, hp⟩ := holdsKey_iff.1 hi
    obtain ⟨q, hq⟩ := holdsKey_iff.1 hj
    exact distinct i j k p q hp hq

theorem aimed_of_perm {l m : List Want} {a : Fin 4 → Option (Key × Station)} (hperm : l.Perm m) (h : Aimed l a) :
    Aimed m a where
  wanted := (hperm.map _).nodup_iff.1 h.wanted
  held i k p hi := by
    obtain ⟨w, hw, hrest⟩ := h.held i k p hi
    exact ⟨w, hperm.mem_iff.1 hw, hrest⟩
  requested w hw := h.requested w (hperm.mem_iff.2 hw)
  distinct := h.distinct

/-- A WAITING entry of a new key joins. -/
theorem aimed_append {l : List Want} {a : Fin 4 → Option (Key × Station)} {v : Want} (h : Aimed l a)
    (hnew : ∀ w ∈ l, w.key ≠ v.key) (hv : v.requested = false) : Aimed (l ++ [v]) a where
  wanted := by
    rw [List.map_append, List.map_singleton]
    refine List.nodup_append'.2 ⟨h.wanted, List.nodup_singleton _, ?_⟩
    simpa [List.Disjoint] using hnew
  held i k p hi := by
    obtain ⟨w, hw, hrest⟩ := h.held i k p hi
    exact ⟨w, List.mem_append_left _ hw, hrest⟩
  requested w hw hreq := by
    obtain hw | hw := List.mem_append.1 hw
    · exact h.requested w hw hreq
    · rw [List.mem_singleton.1 hw, hv] at hreq
      cases hreq
  distinct := h.distinct

/-- Entries leave together with the aims at them. -/
theorem aimed_filter {l : List Want} {a : Fin 4 → Option (Key × Station)} (stays : Key × Station → Bool) (h : Aimed l a) :
    Aimed (l.filter fun w => stays (w.key, w.source)) fun i => (a i).filter stays where
  wanted := h.wanted.sublist (List.filter_sublist.map _)
  held i k p hi := by
    obtain ⟨hi, hstays⟩ := Option.filter_eq_some_iff.1 hi
    obtain ⟨w, hw, rfl, rfl, hreq⟩ := h.held i k p hi
    exact ⟨w, List.mem_filter.2 ⟨hw, hstays⟩, rfl, rfl, hreq⟩
  requested w hw hreq := by
    obtain ⟨hw, hstays⟩ := List.mem_filter.1 hw
    obtain ⟨i, hi⟩ := h.requested w hw hreq
    exact ⟨i, Option.filter_eq_some_iff.2 ⟨hi, hstays⟩⟩
  distinct i j k p q hi hj := h.distinct i j k p q (Option.filter_eq_some_iff.1 hi).1 (Option.filter_eq_some_iff.1 hj).1

/-- A key's entry leaves, and the aim at it. -/
theorem aimed_withoutKey {l : List Want} {a : Fin 4 → Option (Key × Station)} (k : Key) (h : Aimed l a) :
    Aimed (withoutKey l k) fun i => (a i).filter fun x => x.1 != k := aimed_filter (fun x => x.1 != k) h

/-- A FREE slot is aimed at a WAITING entry, which becomes REQUESTED (R139). -/
theorem aimed_take {before after : List Want} {w : Want} {a : Fin 4 → Option (Key × Station)} {i : Fin 4}
    (h : Aimed (before ++ w :: after) a) (hw : w.requested = false) (hfree : a i = none) :
    Aimed (before ++ { w with requested := true } :: after) (Function.update a i (some (w.key, w.source))) := by
  have others {j : Fin 4} {k : Key} {p : Station} (hj : a j = some (k, p)) :
      ∃ v ∈ before ++ after, v.key = k ∧ v.source = p ∧ v.requested = true := by
    obtain ⟨v, hv, hrest⟩ := h.held j k p hj
    have hne : v ≠ w := by
      rintro rfl
      simp [hw] at hrest
    refine ⟨v, ?_, hrest⟩
    simpa [hne] using hv
  have unaimed (j : Fin 4) (p : Station) : a j ≠ some (w.key, p) := fun hj => by
    obtain ⟨v, hv, hkey, -, hreq⟩ := h.held j _ _ hj
    rw [h.inj hv (by simp) hkey, hw] at hreq
    cases hreq
  have busy {j : Fin 4} {x : Key × Station} (hj : a j = some x) : j ≠ i := by
    rintro rfl
    simp [hfree] at hj
  refine ⟨by simpa using h.wanted, fun j k p hj => ?_, fun v hv hreq => ?_, fun j m k p q hj hm => ?_⟩
  · by_cases hji : j = i
    · rw [hji, Function.update_self, Option.some.injEq, Prod.mk.injEq] at hj
      exact ⟨_, List.mem_append_right _ List.mem_cons_self, hj.1, hj.2, rfl⟩
    · rw [Function.update_of_ne hji] at hj
      obtain ⟨v, hv, hrest⟩ := others hj
      refine ⟨v, ?_, hrest⟩
      simp only [List.mem_append, List.mem_cons] at hv ⊢
      tauto
  · simp only [List.mem_append, List.mem_cons] at hv
    obtain hv | rfl | hv := hv
    · obtain ⟨j, hj⟩ := h.requested v (by simp [hv]) hreq
      exact ⟨j, (Function.update_of_ne (busy hj) ..).trans hj⟩
    · exact ⟨i, Function.update_self ..⟩
    · obtain ⟨j, hj⟩ := h.requested v (by simp [hv]) hreq
      exact ⟨j, (Function.update_of_ne (busy hj) ..).trans hj⟩
  · by_cases hji : j = i <;> by_cases hmi : m = i
    · exact hji.trans hmi.symm
    · rw [hji, Function.update_self, Option.some.injEq, Prod.mk.injEq] at hj
      rw [Function.update_of_ne hmi, ← hj.1] at hm
      exact absurd hm (unaimed m q)
    · rw [hmi, Function.update_self, Option.some.injEq, Prod.mk.injEq] at hm
      rw [Function.update_of_ne hji, ← hm.1] at hj
      exact absurd hj (unaimed j p)
    · rw [Function.update_of_ne hji] at hj
      rw [Function.update_of_ne hmi] at hm
      exact h.distinct j m k p q hj hm

/-! ## Freeing fetch slots (R141, R144) -/

/-- An aim at another key stays. -/
theorem filter_of_other {x : Option (Key × Station)} {k : Key} (h : ∀ p, x ≠ some (k, p)) :
    (x.filter fun y => y.1 != k) = x := by
  obtain - | ⟨k', p⟩ := x
  · rfl
  · exact if_pos (bne_iff_ne.2 fun hkey => h p (congrArg (fun k => some (k, p)) hkey))

/-- Only one slot is aimed at a key: freeing it takes all the aims at the key away. -/
theorem update_none_of_held {l : List Want} {a : Fin 4 → Option (Key × Station)} {i : Fin 4} {k : Key} {p : Station}
    (h : Aimed l a) (hi : a i = some (k, p)) : Function.update a i none = fun j => (a j).filter fun x => x.1 != k := by
  funext j
  by_cases hj : j = i
  · rw [hj, Function.update_self, hi]
    simp [Option.filter]
  · rw [Function.update_of_ne hj, filter_of_other fun q hq => hj (h.distinct j i k q p hq hi)]

theorem aims_freeFetchSlot (i : Fin 4) (s : State) :
    aims (freeFetchSlot i s).fetch = Function.update (aims s.fetch) i none := aims_set ..

theorem aims_freeSlotsOfKey (k : Key) {s : State} (h : InStep s.fetch) :
    aims (freeSlotsOfKey k s).fetch = fun i => (aims s.fetch i).filter fun x => x.1 != k := by
  by_cases hheld : ∃ i : Fin 4, s.fetch.slots[i].key = some k
  · obtain ⟨i, hi⟩ := hheld
    obtain ⟨p, hp⟩ := holdsKey_iff.1 hi
    have only (j : Fin 4) (hj : s.fetch.slots[j].key = some k) : j = i := by
      obtain ⟨q, hq⟩ := holdsKey_iff.1 hj
      exact h.distinct j i k q p hq hp
    rw [freeSlotsOfKey_eq hi only, aims_freeFetchSlot, update_none_of_held h hp]
  · rw [freeSlotsOfKey_of_none fun j hj => hheld ⟨j, hj⟩]
    exact funext fun i => (filter_of_other fun p hp => hheld ⟨i, holdsKey_iff.2 ⟨p, hp⟩⟩).symm

/-- A key's entry is removed, and the fetch slot that holds it is freed. -/
theorem inStep_removeWant {k : Key} {s t : State} (h : InStep s.fetch) (hwants : t.fetch.wants = s.fetch.wants)
    (haims : aims t.fetch = fun i => (aims s.fetch i).filter fun x => x.1 != k) : InStep (removeWant k t).fetch := by
  have left : aims (removeWant k t).fetch = fun i => (aims s.fetch i).filter fun x => x.1 != k := haims
  rw [InStep, left, removeWant, hwants]
  exact aimed_withoutKey k h

/-- A key's entry is replaced by a WAITING one at the tail, and the fetch slot that holds it is freed. -/
theorem inStep_requeue {k : Key} {v : Want} {s t : State} (h : InStep s.fetch) (hv : v.requested = false) (hkey : v.key = k)
    (haims : aims t.fetch = fun i => (aims s.fetch i).filter fun x => x.1 != k) :
    InStep (setWants (withoutKey s.fetch.wants k ++ [v]) t).fetch := by
  have left : aims (setWants (withoutKey s.fetch.wants k ++ [v]) t).fetch =
      fun i => (aims s.fetch i).filter fun x => x.1 != k := haims
  rw [InStep, left]
  refine aimed_append (aimed_withoutKey k h) (fun w hw => ?_) hv
  rw [hkey]
  exact bne_iff_ne.1 (List.mem_filter.1 hw).2

end Sys2Proof.Proofs
end

