-- ==== Sys2Proof/Proofs/InStepOps.lean ====
section
/-! PROOFS. The Want List and the fetch slots in step, continued: the add, the pruning, the failed fetch, a peer's withdrawal
(R48, R111, R137, R141, R144); what the law does not look at; and the Fetch Unit's offers, which settle it (R139). -/

namespace Sys2Proof.Proofs
open Sys2Proof Sys2Proof.Machine Sys2Proof.Stated

/-! ## Entries added and removed -/

theorem wantOf_split {s : State} {k : Key} {w : Want} (h : wantOf s k = some w) :
    w.key = k ∧ ∃ before after, s.fetch.wants = before ++ w :: after := by
  obtain ⟨hmem, hkey⟩ := mem_of_wantOf h
  exact ⟨hkey, List.append_of_mem hmem⟩

/-- A WAITING entry is replaced in its place: no fetch slot is aimed at its key. -/
theorem inStep_replace {k : Key} {stamp : Stamp} {source : Station} {s : State} {before after : List Want} {w : Want}
    (h : InStep s.fetch) (hwants : s.fetch.wants = before ++ w :: after) (hkey : w.key = k) (hw : w.requested = false) :
    InStep (setWants (before ++ freshWant k stamp source :: after) s).fetch := by
  have unaimed (i : Fin 4) (p : Station) : aims s.fetch i ≠ some (k, p) := fun hi => by
    obtain ⟨v, hv, hvkey, -, hreq⟩ := h.held i k p hi
    rw [h.inj hv (by simp [hwants]) (hvkey.trans hkey.symm), hw] at hreq
    cases hreq
  have others : withoutKey s.fetch.wants k = before ++ after := by
    have keys := h.wanted
    rw [hwants] at keys ⊢
    exact withoutKey_eq keys hkey
  have tail : Aimed (before ++ after ++ [freshWant k stamp source]) (aims s.fetch) := by
    rw [← others]
    exact inStep_requeue (t := s) h rfl rfl (funext fun i => (filter_of_other (unaimed i)).symm)
  refine aimed_of_perm (List.Perm.symm ?_) tail
  exact List.perm_middle.trans (List.perm_append_singleton _ _).symm

theorem inStep_wantAdd (k : Key) (stamp : Stamp) (source : Station) {s : State} (h : InStep s.fetch) :
    InStep (wantAdd k stamp source s).fetch := by
  by_cases hmute : s.ctl.st = .mute
  · rwa [wantAdd_of_mute k stamp source hmute]
  cases hfound : wantOf s k with
  | none =>
    have hnew : ∀ w ∈ s.fetch.wants, w.key ≠ k := fun w hw => by simpa using List.find?_eq_none.1 hfound w hw
    rw [wantAdd_of_new hmute hnew]
    split
    · exact aimed_append h hnew rfl
    · exact h
  | some w =>
    obtain ⟨hkey, before, after, hwants⟩ := wantOf_split hfound
    cases hbeats : beats s k stamp w.stamp with
    | false => rwa [wantAdd_of_unbeaten hmute hwants h.wanted hkey hbeats]
    | true =>
      cases hw : w.requested with
      | false =>
        rw [wantAdd_of_waiting hmute hwants h.wanted hkey hbeats hw]
        exact inStep_replace h hwants hkey hw
      | true =>
        have others : withoutKey s.fetch.wants k = before ++ after := by
          have keys := h.wanted
          rw [hwants] at keys ⊢
          exact withoutKey_eq keys hkey
        rw [wantAdd_of_requested hmute hwants h.wanted hkey hbeats hw, ← others]
        exact inStep_requeue h rfl rfl (aims_freeSlotsOfKey k h)

theorem inStep_pruneWant (k : Key) (stamp : Stamp) {s : State} (h : InStep s.fetch) :
    InStep (pruneWant k stamp s).fetch := by
  unfold pruneWant
  split
  · split
    · exact h
    · exact inStep_removeWant h (freeSlotsOfKey_wants k s) (aims_freeSlotsOfKey k h)
  · exact h

/-- The fetch of a slot is over, and the Want entry it was of is removed (R141). -/
theorem inStep_fetched {i : Fin 4} {k : Key} {p : Station} {s : State} (h : InStep s.fetch)
    (hi : aims s.fetch i = some (k, p)) : InStep (removeWant k (freeFetchSlot i s)).fetch :=
  inStep_removeWant h rfl ((aims_freeFetchSlot i s).trans (update_none_of_held h hi))

/-- The fetch of a slot has failed, and the Want entry it was of goes to the tail or is removed (R144). -/
theorem inStep_failed {i : Fin 4} {k : Key} {p : Station} {s : State} (h : InStep s.fetch)
    (hi : aims s.fetch i = some (k, p)) : InStep (countAttempt k (freeFetchSlot i s)).fetch := by
  unfold countAttempt
  split
  · rename_i w hfound
    split
    · exact inStep_requeue (s := s) h rfl (mem_of_wantOf hfound).2 ((aims_freeFetchSlot i s).trans (update_none_of_held h hi))
    · exact inStep_fetched h hi
  · rename_i hnone
    obtain ⟨w, hw, hkey, -⟩ := h.held i k p hi
    exact absurd hkey (by simpa using List.find?_eq_none.1 hnone w hw)

/-- A peer's entries leave the Want List, and the fetch slots aimed at it are freed (R111). -/
theorem inStep_withdrawn (p : Station) {s : State} (h : InStep s.fetch) : InStep (withdrawn p s).fetch := by
  have freed (x : FetchSlot) : aimOf (if x.peer = some p then .free else x) = (aimOf x).filter fun y => y.2 != p := by
    obtain - | ⟨k, q, _⟩ | ⟨k, q, _⟩ := x
    · rfl
    all_goals by_cases hqp : q = p <;> simp [FetchSlot.peer, aimOf, Option.filter, hqp]
  have left : aims (withdrawn p s).fetch = fun i => (aims s.fetch i).filter fun x => x.2 != p :=
    funext fun i => (congrArg aimOf (Vector.getElem_map ..)).trans (freed _)
  rw [InStep, left]
  exact aimed_filter (fun x => x.2 != p) h

/-! ## What the law does not look at -/

/-- From s to t Want List and aims stay, and the station has not become ACTIVE. -/
structure SameFetches (s t : State) : Prop where
  active : Active t → Active s
  wants : t.fetch.wants = s.fetch.wants
  aims : aims t.fetch = aims s.fetch

namespace SameFetches

theorem refl (s : State) : SameFetches s s := ⟨id, rfl, rfl⟩

theorem trans {s t u : State} (h : SameFetches s t) (k : SameFetches t u) : SameFetches s u :=
  ⟨h.active ∘ k.active, k.wants.trans h.wants, k.aims.trans h.aims⟩

theorem inStep {s t : State} (h : SameFetches s t) (hs : InStep s.fetch) : InStep t.fetch := by
  rw [InStep, h.wants, h.aims]
  exact hs

theorem law {s t : State} (h : SameFetches s t) (hs : FetchLaw s) : FetchLaw t := by
  rw [fetchLaw_iff] at hs ⊢
  refine ⟨h.inStep hs.1, fun ha => ?_⟩
  simp only [SettledAt, h.wants, h.aims]
  exact hs.2 (h.active ha)

end SameFetches

/-- What the law reads of a state, but for the progress of a fetch: whether the station is ACTIVE, and the Fetch Unit. -/
def fetchSide (s : State) : Bool × Bool × StationState × FetchUnit := (s.ctl.power, s.ctl.pin, s.ctl.st, s.fetch)

theorem sameFetches_of_side {s t : State} (h : fetchSide t = fetchSide s) : SameFetches s t := by
  simp only [fetchSide, Prod.mk.injEq] at h
  obtain ⟨hpower, hpin, hst, hfetch⟩ := h
  refine ⟨fun ha => ?_, by rw [hfetch], by rw [hfetch]⟩
  rwa [Active, Powered, hpower, hpin, hst] at ha

/-- What the law reads was already as it is where a further change begins. -/
theorem SameFetches.after {s t u : State} (k : SameFetches t u) (h : fetchSide t = fetchSide s) : SameFetches s u :=
  (sameFetches_of_side h).trans k

theorem fetchLaw_of_side {s t : State} (hs : FetchLaw s) (h : fetchSide t = fetchSide s) : FetchLaw t :=
  (sameFetches_of_side h).law hs

theorem sameFetches_of_inactive {s t : State} (h : ¬ Active t) (hfetch : t.fetch = s.fetch) : SameFetches s t :=
  ⟨fun ha => absurd ha h, by rw [hfetch], by rw [hfetch]⟩

theorem fetchSide_of_fields {s t : State} (hctl : t.ctl = s.ctl) (hfetch : t.fetch = s.fetch) :
    fetchSide t = fetchSide s := by
  rw [fetchSide, hctl, hfetch, fetchSide]

theorem fetchSide_of_beyondStore {s t : State} (h : beyondStore t = beyondStore s) : fetchSide t = fetchSide s := by
  simp only [beyondStore, Prod.mk.injEq] at h
  obtain ⟨hctl, -, -, -, -, -, hfetch, -⟩ := h
  exact fetchSide_of_fields hctl hfetch

theorem fetchSide_ite {p : Prop} [Decidable p] {s t u : State} (ht : p → fetchSide t = fetchSide s)
    (hu : ¬ p → fetchSide u = fetchSide s) : fetchSide (if p then t else u) = fetchSide s := by
  split
  · exact ht ‹_›
  · exact hu ‹_›

theorem fetchSide_guard {p : Prop} [Decidable p] {s t : State} (h : p → fetchSide t = fetchSide s) :
    fetchSide (if p then t else s) = fetchSide s := fetchSide_ite h fun _ => rfl

theorem sameFetches_ite {p : Prop} [Decidable p] {s t u : State} (ht : p → SameFetches s t) (hu : ¬ p → SameFetches s u) :
    SameFetches s (if p then t else u) := by
  split
  · exact ht ‹_›
  · exact hu ‹_›

theorem sameFetches_guard {p : Prop} [Decidable p] {s t : State} (h : p → SameFetches s t) :
    SameFetches s (if p then t else s) := sameFetches_ite h fun _ => .refl s

/-! ## Frames placed (R95, R98) -/

theorem fetchSide_pumpResponder (s : State) : fetchSide (pumpResponder s) = fetchSide s :=
  fetchSide_of_fields (pumpResponder_ctl s) (pumpResponder_fetch s)

theorem fetchSide_pumpProfile (s : State) : fetchSide (pumpProfile s) = fetchSide s :=
  fetchSide_of_fields (pumpProfile_ctl s) (pumpProfile_fetch s)

theorem fetchSide_pumpReconciler (s : State) : fetchSide (pumpReconciler s) = fetchSide s :=
  fetchSide_of_fields (pumpReconciler_ctl s) (pumpReconciler_fetch s)

/-- A fetch slot goes on with its fetch: its aim stays. -/
theorem sameFetches_setFetchSlot {i : Fin 4} {x : FetchSlot} {s : State} (h : aimOf x = aimOf s.fetch.slots[i]) :
    SameFetches s (setFetchSlot i x s) := by
  refine ⟨id, rfl, (aims_set ..).trans ?_⟩
  rw [h]
  exact Function.update_eq_self ..

theorem sameFetches_placeFor (r : Requester) (s : State) : SameFetches s (placeFor r s) := by
  cases r with
  | reply => exact sameFetches_of_side (fetchSide_of_fields (placeReply_ctl s) (placeReply_fetch s))
  | profileQuery =>
    refine sameFetches_of_side ?_
    simp only [placeFor, placeProfileQuery]
    split <;> rfl
  | bucketQuery =>
    refine sameFetches_of_side ?_
    simp only [placeFor, placeBucketQuery]
    split <;> rfl
  | fetch i =>
    simp only [placeFor, placeFetch]
    split
    · rename_i k p stamp hslot
      have placed (t : State) :
          SameFetches t (placeFrame .fetch 0 (stationByte p) (fetchPayload k stamp) (some (.fetch i)) t) :=
        sameFetches_of_side rfl
      exact (sameFetches_setFetchSlot (by rw [hslot]; rfl)).trans (placed _)
    · exact .refl s
    · exact .refl s

theorem sameFetches_offerRequest (r : Requester) (s : State) : SameFetches s (offerRequest r s) :=
  sameFetches_ite (fun _ => sameFetches_placeFor r s) fun _ => sameFetches_of_side rfl

theorem sameFetches_serveWaiting (s : State) : SameFetches s (serveWaiting s) := by
  have turns (l : List Requester) (t : State) : SameFetches t (l.foldl (fun t r => placeFor r t) t) := by
    induction l generalizing t with
    | nil => exact .refl t
    | cons r l ih => exact (sameFetches_placeFor r t).trans (ih _)
  have placed : SameFetches s (placeWaiting s) :=
    (turns s.line.waiting { s with line := { s.line with waiting := [] } }).after rfl
  exact sameFetches_ite (fun _ => .refl s) fun _ => placed.trans (sameFetches_of_side (fetchSide_pumpResponder _))

/-- A frame that cannot wait is nobody's fetch. -/
theorem sameFetches_placeBehind (k : FrameKind) (fl : BitVec 4) (d : Byte) (p : List Byte) (r : Option Requester)
    (s : State) : SameFetches s (placeBehind (placeFrame k fl d p r) s) := by
  have placed (t : State) : SameFetches t (placeFrame k fl d p r t) := sameFetches_of_side rfl
  exact sameFetches_guard fun _ => sameFetches_ite (fun _ => (sameFetches_serveWaiting s).trans (placed _)) fun _ =>
    sameFetches_serveWaiting s

theorem sameFetches_offerSummary (s : State) : SameFetches s (offerSummary s) :=
  sameFetches_ite (fun _ => .refl s) fun _ => sameFetches_placeBehind ..

theorem sameFetches_offerNews (r : Record) (s : State) : SameFetches s (offerNews r s) := sameFetches_placeBehind ..

/-! ## The Fetch Unit's offers (R139) -/

/-- One slot's turn: it leaves nothing to take, and what other slots have left so stays so. -/
theorem inStep_takeWant {s : State} (i : Fin 4) (h : InStep s.fetch) :
    InStep (takeWant s i).fetch ∧ (Active s → ∀ j, j = i ∨ SettledAt s.fetch j → SettledAt (takeWant s i).fetch j) := by
  by_cases ha : Active s
  swap
  · rw [takeWant_of_inactive i ha]
    exact ⟨h, fun hactive => absurd hactive ha⟩
  by_cases hfree : s.fetch.slots[i] = .free
  swap
  · rw [takeWant_of_busy hfree]
    refine ⟨h, fun _ j hj => ?_⟩
    obtain rfl | hj := hj
    · exact fun hnone => absurd (aims_eq_none.1 hnone) hfree
    · exact hj
  cases hfound : s.fetch.wants.find? fun w => !w.requested with
  | none =>
    have hall : ∀ w ∈ s.fetch.wants, w.requested = true := fun w hw => by simpa using List.find?_eq_none.1 hfound w hw
    rw [takeWant_of_no_waiting s i hall]
    exact ⟨h, fun _ _ _ _ => hall⟩
  | some w =>
    obtain ⟨hw, before, after, hwants, hbefore⟩ := List.find?_eq_some_iff_append.1 hfound
    have waiting : w.requested = false := by simpa using hw
    have offered := sameFetches_offerRequest (.fetch i) (wantTaken i before w after s)
    have aimed : aims (wantTaken i before w after s).fetch = Function.update (aims s.fetch) i (some (w.key, w.source)) :=
      aims_set ..
    rw [takeWant_of_free ha hfree hwants (by simpa using hbefore) waiting h.wanted]
    refine ⟨offered.inStep ?_, fun _ j hj hnone => ?_⟩
    · rw [InStep, aimed]
      rw [InStep, hwants] at h
      exact aimed_take h waiting (aims_eq_none.2 hfree)
    · rw [offered.aims, aimed] at hnone
      by_cases hji : j = i
      · rw [hji, Function.update_self] at hnone
        cases hnone
      · rw [Function.update_of_ne hji] at hnone
        have := hj.resolve_left hji hnone w (by simp [hwants])
        rw [waiting] at this
        cases this

theorem fetchLaw_pumpFetch {s : State} (h : InStep s.fetch) : FetchLaw (pumpFetch s) := by
  have turns (l : List (Fin 4)) (t : State) (ht : InStep t.fetch) :
      InStep (l.foldl takeWant t).fetch ∧
        (Active t → ∀ j, j ∈ l ∨ SettledAt t.fetch j → SettledAt (l.foldl takeWant t).fetch j) := by
    induction l generalizing t with
    | nil => exact ⟨ht, fun _ j hj => hj.resolve_left List.not_mem_nil⟩
    | cons i l ih =>
      obtain ⟨hfirst, hsettles⟩ := inStep_takeWant i ht
      obtain ⟨hrest, hlast⟩ := ih (takeWant t i) hfirst
      refine ⟨hrest, fun ha j hj => ?_⟩
      have still : Active (takeWant t i) := by
        rw [Active, Powered, (offers_takeWant t i).ctl]
        exact ha
      rw [List.mem_cons, or_assoc, or_left_comm] at hj
      exact hlast still j (hj.imp_right (hsettles ha j))
  obtain ⟨hinStep, hsettled⟩ := turns slotNumbers s h
  refine fetchLaw_iff.2 ⟨hinStep, fun ha i => hsettled ?_ i (.inl (mem_slotNumbers i))⟩
  rwa [Active, Powered, pumpFetch_ctl] at ha

/-- The Fetch Unit's turn comes last (R95). -/
theorem fetchLaw_pump {s : State} (h : InStep s.fetch) : FetchLaw (pump s) := by
  refine fetchLaw_pumpFetch ?_
  rwa [pumpReconciler_fetch, pumpProfile_fetch, pumpResponder_fetch]

end Sys2Proof.Proofs
end

