-- ==== Sys2Proof/Proofs/InStepSteps.lean ====
section
/-! PROOFS. The Want List and the fetch slots in step (R136, R138, R139), concluded: the meanings of the commands, and every
step. -/

namespace Sys2Proof.Proofs
open Sys2Proof Sys2Proof.Machine Sys2Proof.Stated

/-- A command's meaning answers with a next state, and keeps the fetch law. -/
def AnswersInStep (s : State) (o : Host.Outcome State Fault Refusal) : Prop := ∃ t, o = .next t ∧ (FetchLaw s → FetchLaw t)

theorem answersInStep_next {s t : State} (h : FetchLaw s → FetchLaw t) : AnswersInStep s (.next t) := ⟨t, rfl, h⟩

theorem answersInStep_of_same {s t : State} (h : SameFetches s t) : AnswersInStep s (.next t) := answersInStep_next h.law

/-- A command that leaves all that the law reads. -/
theorem answersInStep_of_side {s t : State} (h : fetchSide t = fetchSide s) : AnswersInStep s (.next t) :=
  answersInStep_of_same (sameFetches_of_side h)

theorem answersInStep_of_beyondStore {s t : State} (h : beyondStore t = beyondStore s) : AnswersInStep s (.next t) :=
  answersInStep_of_side (fetchSide_of_beyondStore h)

theorem fetchLaw_ite {p : Prop} [Decidable p] {s t : State} (hs : p → FetchLaw s) (ht : ¬ p → FetchLaw t) :
    FetchLaw (if p then s else t) := by
  split
  · exact hs ‹_›
  · exact ht ‹_›

/-- A command that has an effect only where its guard holds. -/
theorem answersInStep_guard {p : Prop} [Decidable p] {s t : State} (h : p → FetchLaw s → FetchLaw t) :
    AnswersInStep s (.next (if p then t else s)) :=
  answersInStep_next fun hs => fetchLaw_ite (fun hp => h hp hs) fun _ => hs

theorem answersInStep_guard_of_same {p : Prop} [Decidable p] {s t : State} (h : p → SameFetches s t) :
    AnswersInStep s (.next (if p then t else s)) := answersInStep_guard fun hp => (h hp).law

theorem answersInStep_guard_of_side {p : Prop} [Decidable p] {s t : State} (h : p → fetchSide t = fetchSide s) :
    AnswersInStep s (.next (if p then t else s)) := answersInStep_guard_of_same fun hp => sameFetches_of_side (h hp)

theorem inStep_of_beyondStore {s t : State} (h : beyondStore t = beyondStore s) (hs : InStep s.fetch) : InStep t.fetch :=
  (sameFetches_of_side (fetchSide_of_beyondStore h)).inStep hs

theorem inStep_of_law {s : State} (hs : FetchLaw s) : InStep s.fetch := (fetchLaw_iff.1 hs).1

/-- With no Want entry and every fetch slot FREE there is nothing to keep in step (R145, R146). -/
theorem fetchLaw_of_cleared {s : State} (h : s.fetch = FetchUnit.cleared) : FetchLaw s := by
  have free (i : Fin 4) : aims s.fetch i = none := by
    rw [h, aims_eq_none]
    exact Vector.getElem_replicate ..
  have wants : s.fetch.wants = [] := by rw [h]; rfl
  refine fetchLaw_iff.2 ⟨⟨?_, fun i k p hi => ?_, fun w hw => ?_, fun i j k p q hi => ?_⟩, fun _ i _ w hw => ?_⟩
  · rw [wants]
    exact List.nodup_nil
  · rw [free] at hi
    cases hi
  · rw [wants] at hw
    cases hw
  · rw [free] at hi
    cases hi
  · rw [wants] at hw
    cases hw

/-! ## Host commands -/

theorem answersInStep_immediate {f : State → State} {s : State} (h : SameFetches s (f s)) :
    AnswersInStep s (immediate f s) := answersInStep_guard_of_same fun _ => h

theorem answersInStep_requestCommand {serve : State → State} {s : State} (h : ∀ t, SameFetches t (serve t)) :
    AnswersInStep s (requestCommand serve s) :=
  answersInStep_immediate (sameFetches_ite (fun _ => sameFetches_of_side rfl) fun _ => (h (accept s)).after rfl)

theorem answersInStep_report {serve : State → State} {s : State} (h : ∀ t, fetchSide (serve t) = fetchSide t) :
    AnswersInStep s (requestCommand serve s) := answersInStep_requestCommand fun t => sameFetches_of_side (h t)

/-- A write or delete, with its space test. -/
theorem answersInStep_admission (k : Key) (tomb : Bool) (value : List Byte) (s : State) :
    AnswersInStep s (requestCommand (fun t => spaceEvent t (localAdmission k tomb value t)) s) :=
  answersInStep_report fun _ => fetchSide_of_beyondStore
    ((beyondStore_spaceEvent ..).trans (beyondStore_localAdmission ..))

theorem fetchSide_takeEvent (s : State) : fetchSide (takeEvent s) = fetchSide s := by
  unfold takeEvent
  split <;> rfl

theorem fetchSide_serveRead (key : Key) (s : State) : fetchSide (serveRead key s) = fetchSide s := by
  unfold serveRead
  split
  · rfl
  · refine fetchSide_ite (fun _ => ?_) fun _ => rfl
    split <;> rfl

theorem fetchSide_serveList (start : Key) (s : State) : fetchSide (serveList start s) = fetchSide s := by
  unfold serveList
  split <;> rfl

theorem fetchSide_servePeers (s : State) : fetchSide (servePeers s) = fetchSide s := by
  unfold servePeers
  split <;> rfl

theorem sameFetches_expireSummary (s : State) : SameFetches s (expireSummary s) :=
  (sameFetches_offerSummary { s with summ := { timer := some s.now } }).after rfl

theorem sameFetches_serveSync (s : State) : SameFetches s (serveSync s) := by
  unfold serveSync
  split
  case h_5 => exact (sameFetches_expireSummary (complete (.code .done) s)).after rfl
  all_goals exact sameFetches_of_side rfl

theorem fetchSide_serveProgram (offset : Byte) (given : List Byte) (s : State) :
    fetchSide (serveProgram offset given s) = fetchSide s := by
  unfold serveProgram
  split
  · rfl
  · exact fetchSide_ite (fun _ => rfl) fun _ => rfl

theorem fetchSide_serveLock (s : State) : fetchSide (serveLock s) = fetchSide s := by
  unfold serveLock
  split
  · rfl
  · split <;> rfl

theorem answersInStep_transactionEnd (clocked : Nat) (s : State) : AnswersInStep s (execTransactionEnd clocked s) := by
  refine answersInStep_of_side ?_
  split <;> rfl

/-! ## The configuration area and the resets -/

/-- STARTING is not ACTIVE (R157). -/
theorem sameFetches_softResetStart (erased : List (Nat × Byte)) (s : State) :
    SameFetches s (softResetStart erased s) := by
  refine sameFetches_ite (fun _ => .refl s) fun _ => sameFetches_of_inactive (fun ha => nomatch ha.2) ?_
  have abandoned := fetchSide_of_beyondStore ((beyondStore_abandonRead _).trans (beyondStore_abandonErase erased s))
  exact congrArg (·.2.2.2) abandoned

theorem answersInStep_configProgramDone (failed : List Byte) (s : State) :
    AnswersInStep s (execConfigProgramDone failed s) := by
  refine answersInStep_of_side ?_
  split
  · exact fetchSide_ite (fun _ => rfl) fun _ => rfl
  all_goals rfl

theorem answersInStep_lockCheckProgrammed (failed : List Byte) (s : State) :
    AnswersInStep s (execLockCheckProgrammed failed s) := by
  refine answersInStep_of_side ?_
  split
  · exact fetchSide_ite (fun _ => rfl) fun _ => fetchSide_ite (fun _ => rfl) fun _ => rfl
  all_goals rfl

theorem answersInStep_lockMarkerProgrammed (failed : Byte) (s : State) :
    AnswersInStep s (execLockMarkerProgrammed failed s) := by
  refine answersInStep_of_same ?_
  split
  · have programmed : SameFetches s (programConfig .marker [failed] 0 s) := sameFetches_of_side rfl
    exact sameFetches_ite (fun _ => programmed) fun _ =>
      sameFetches_ite (fun _ => programmed.trans (sameFetches_softResetStart [] _)) fun _ => sameFetches_of_side rfl
  all_goals exact .refl s

theorem stopAll_fetch (cut : Cut) (s : State) : (stopAll cut s).fetch = s.fetch := by
  have stopped := fetchSide_of_beyondStore ((beyondStore_cutErase cut _).trans (beyondStore_cutOp cut s))
  have area (t : State) : (cutConfig cut t).fetch = t.fetch := by
    unfold cutConfig
    split <;> rfl
  exact (area _).trans (congrArg (·.2.2.2) stopped)

/-- The part held in reset is not ACTIVE (R156). -/
theorem answersInStep_stopped {c : Control} (cut : Cut) {s : State} (h : c.power = true ∨ c.pin = true) :
    AnswersInStep s (.next { stopAll cut s with ctl := c }) := by
  refine answersInStep_of_same (sameFetches_of_inactive (fun ⟨⟨hpower, hpin⟩, _⟩ => ?_) (stopAll_fetch cut s))
  obtain h | h := h
  · exact Bool.false_ne_true (hpower.symm.trans h)
  · exact Bool.false_ne_true (hpin.symm.trans h)

theorem fetchLaw_resetEnd (straps : Station) (s : State) : FetchLaw (resetEnd straps s) := by
  refine fetchLaw_of_cleared ?_
  unfold resetEnd readArea
  dsimp only
  split <;> rfl

/-- One cause of a reset is over: the part is held by the other, or RAM is cleared (R156). -/
theorem fetchLaw_causeOver {s t : State} {held : Bool} (straps : Station) (hs : FetchLaw s)
    (hheld : held = true → ¬ Active t) (h : t.fetch = s.fetch) : FetchLaw (if held then t else resetEnd straps t) :=
  fetchLaw_ite (fun hp => (sameFetches_of_inactive (hheld hp) h).law hs) fun _ => fetchLaw_resetEnd straps t

theorem answersInStep_powerOnResetEnd (p : Station) (s : State) : AnswersInStep s (execPowerOnResetEnd p s) :=
  answersInStep_guard fun _ hs =>
    fetchLaw_causeOver p hs (fun hpin ha => Bool.false_ne_true (ha.1.2.symm.trans hpin)) rfl

theorem answersInStep_pinResetEnd (p : Station) (s : State) : AnswersInStep s (execPinResetEnd p s) :=
  answersInStep_guard fun _ hs =>
    fetchLaw_causeOver p hs (fun hpower ha => Bool.false_ne_true (ha.1.1.symm.trans hpower)) rfl

/-- LISTENING is not ACTIVE (R163). -/
theorem answersInStep_startUpScanEnd (s : State) : AnswersInStep s (execStartUpScanEnd s) := by
  refine answersInStep_guard_of_same fun _ => ?_
  have listening : SameFetches s (enterStation .listening (startListening (scan s))) :=
    sameFetches_of_inactive (fun ha => nomatch ha.2) rfl
  exact listening.trans (sameFetches_of_side
    (fetchSide_of_beyondStore ((beyondStore_advanceWalk _).trans (beyondStore_nextRun _))))

/-- The station becomes ACTIVE, and the Fetch Unit takes its turn (R163, R164). -/
theorem answersInStep_listeningPeriodEnd (s : State) : AnswersInStep s (execListeningPeriodEnd s) := by
  refine answersInStep_guard fun _ hs => ?_
  have posted (t : State) : SameFetches t (post (.stationState .active) t) := sameFetches_of_side rfl
  refine (posted _).law (fetchLaw_pumpFetch ?_)
  rw [pumpReconciler_fetch, pumpProfile_fetch]
  exact (sameFetches_expireSummary (listened s)).inStep (inStep_of_law (s := s) hs)

/-! ## The line -/

theorem answersInStep_frameStart (s : State) : AnswersInStep s (execFrameStart s) := by
  refine answersInStep_guard_of_side fun _ => ?_
  split <;> rfl

theorem inStep_hearPeer (p : Station) (id : Option (BitVec 32)) {s : State} (h : InStep s.fetch) :
    InStep (hearPeer p id s).fetch := by
  obtain ⟨new, -, heffect⟩ := hearPeer_heard p id s
  rw [heffect, peerTaken]
  split
  · exact inStep_withdrawn (s := peerHeard p new s) p h
  · exact h

theorem receive_fetch (f : Frame) (s : State) : (receive f s).fetch = s.fetch := by rw [receive_eq]

theorem fetchLaw_endGood {f : Frame} {s : State} (hs : FetchLaw s) : FetchLaw (endGood f s) := by
  have heard : SameFetches s (setBase (f.source + 1) (setPhase .guardTime s)) := sameFetches_of_side rfl
  refine fetchLaw_ite (fun _ => fetchLaw_ite (fun _ => heard.law hs) fun _ => fetchLaw_of_cleared rfl) fun _ =>
    fetchLaw_pump ?_
  rw [receive_fetch]
  exact inStep_hearPeer _ _ (heard.inStep (inStep_of_law hs))

theorem answersInStep_frameEndGood (bytes : List Byte) (s : State) : AnswersInStep s (execFrameEndGood bytes s) := by
  refine answersInStep_guard fun _ hs => ?_
  split
  · exact fetchLaw_endGood hs
  · exact fetchLaw_of_side hs rfl

theorem answersInStep_slotStart (s : State) : AnswersInStep s (execSlotStart s) := by
  have sending : fetchSide (beginSending s) = fetchSide s := by
    unfold beginSending
    split
    · split <;> rfl
    · rfl
  have counted (t : State) : fetchSide (countSlot t) = fetchSide t := rfl
  exact answersInStep_guard_of_side fun _ => (counted _).trans (fetchSide_guard fun _ => sending)

theorem answersInStep_collisionDetected (s : State) : AnswersInStep s (execCollisionDetected s) := by
  refine answersInStep_of_side ?_
  split
  · rfl
  · refine fetchSide_ite (fun _ => rfl) fun _ => ?_
    split <;> rfl

/-- A FETCH sent starts its timer again: its slot's aim stays (R98). -/
theorem sameFetches_reportSent (r : Option Requester) (s : State) : SameFetches s (reportSent r s) := by
  unfold reportSent
  split
  · split <;> exact sameFetches_of_side rfl
  · split <;> exact sameFetches_of_side rfl
  · split
    · rename_i hslot
      exact sameFetches_setFetchSlot (by rw [hslot]; rfl)
    · exact .refl s
    · exact .refl s
  · exact .refl s
  · exact .refl s

theorem answersInStep_transmitEnd (s : State) : AnswersInStep s (execTransmitEnd s) := by
  refine answersInStep_of_same ?_
  split
  · exact .refl s
  · refine sameFetches_ite (fun _ => sameFetches_of_side rfl) fun _ => ?_
    split
    · exact sameFetches_of_side rfl
    · exact (sameFetches_reportSent ..).after rfl

theorem answersInStep_waitingFramePlaced (s : State) : AnswersInStep s (execWaitingFramePlaced s) := by
  refine answersInStep_of_same ?_
  split
  · exact sameFetches_guard fun _ =>
      ((sameFetches_placeFor ..).trans (sameFetches_of_side (fetchSide_pumpResponder _))).after rfl
  · exact .refl s

/-! ## Takings -/

theorem answersInStep_takeFrame {k : FrameKind} {use : Frame → State → State} {s : State}
    (h : ∀ f t, FetchLaw t → FetchLaw (use f t)) : AnswersInStep s (takeFrame k use s) := by
  refine answersInStep_guard fun _ hs => ?_
  split
  · exact fetchLaw_ite (fun _ => h _ _ (fetchLaw_of_side hs rfl)) fun _ => hs
  · exact hs

theorem answersInStep_taking {k : FrameKind} {use : Frame → State → State} {s : State}
    (h : ∀ f t, fetchSide (use f t) = fetchSide t) : AnswersInStep s (takeFrame k use s) :=
  answersInStep_takeFrame fun f t ht => fetchLaw_of_side ht (h f t)

/-- An arrival may be wanted from its source (R44). -/
theorem inStep_arrive (r : Record) (source : Station) {s : State} (h : InStep s.fetch) :
    InStep (arrive r source s).fetch := by
  have place (t : State) (ht : InStep t.fetch) : InStep (placeArrival r source t).fetch := by
    unfold placeArrival
    split
    · exact ht
    · split
      · split
        · exact inStep_of_beyondStore (beyondStore_meetSlot ..) ht
        · exact ht
      · unfold seekSlot
        split
        · exact inStep_of_beyondStore (beyondStore_setDiverged ..) ht
        · split
          · exact inStep_of_beyondStore (beyondStore_claimSlot ..) ht
          · exact inStep_wantAdd _ _ _ ht
  unfold arrive
  split
  · exact h
  · exact place _ (inStep_of_beyondStore (beyondStore_raiseClock ..) h)

/-- The Fetch Unit's turn follows the arrival (R139). -/
theorem fetchLaw_offerArrival (r : Record) (source : Station) {s : State} (h : InStep s.fetch) :
    FetchLaw (offerArrival r source s) := fetchLaw_pumpFetch (inStep_arrive r source h)

theorem fetchLaw_spaceEvent {s : State} (o : State) (h : FetchLaw s) : FetchLaw (spaceEvent o s) :=
  fetchLaw_of_side h (fetchSide_of_beyondStore (beyondStore_spaceEvent o s))

theorem fetchLaw_useNews {f : Frame} {s : State} (hs : FetchLaw s) : FetchLaw (useNews f s) := by
  refine fetchLaw_ite (fun _ => ?_) fun _ => hs
  split
  · exact fetchLaw_spaceEvent _ (fetchLaw_offerArrival _ _ (inStep_of_law hs))
  · exact hs

theorem answersSlot_iff {s : State} {source : Station} {echo : Byte} {key : Key} {i : Fin 4} :
    answersSlot s source echo key i = true ↔ ∃ p, s.fetch.slots[i] = .awaiting key source p ∧ p.seq = echo := by
  unfold answersSlot
  cases s.fetch.slots[i] <;> simp [and_assoc]

/-- The slot that a SUPPLY answers is aimed at the key it echoes (R140). -/
theorem aims_of_answersSlot {s : State} {source : Station} {echo : Byte} {key : Key} {i : Fin 4}
    (h : answersSlot s source echo key i = true) : aims s.fetch i = some (key, source) := by
  obtain ⟨p, hslot, -⟩ := answersSlot_iff.1 h
  exact congrArg aimOf hslot

theorem fetchLaw_settleSupply (source : Station) (echo : Byte) (key : Key) (r : Option Record) {s : State}
    (hs : FetchLaw s) : FetchLaw (settleSupply source echo key r s) := by
  unfold settleSupply
  split
  · rename_i i hfound
    have settled : InStep (removeWant key (freeFetchSlot i s)).fetch :=
      inStep_fetched (inStep_of_law hs) (aims_of_answersSlot (List.find?_some hfound))
    split
    · exact fetchLaw_offerArrival _ _ settled
    · exact fetchLaw_pumpFetch settled
  · split
    · exact fetchLaw_offerArrival _ _ (inStep_of_law hs)
    · exact hs

theorem fetchLaw_useSupply {f : Frame} {s : State} (hs : FetchLaw s) : FetchLaw (useSupply f s) := by
  refine fetchLaw_ite (fun _ => ?_) fun _ => hs
  split
  · exact fetchLaw_spaceEvent _ (fetchLaw_settleSupply _ _ _ _ hs)
  · exact hs

theorem fetchSide_useSummary (f : Frame) (s : State) : fetchSide (useSummary f s) = fetchSide s := by
  have clocked : fetchSide (raiseClock (longAt f.payload 0) s) = fetchSide s :=
    fetchSide_of_beyondStore (beyondStore_raiseClock ..)
  exact fetchSide_guard fun _ => fetchSide_ite (fun _ => (fetchSide_pumpReconciler _).trans clocked) fun _ => clocked

theorem endQueryOf_fetch (p : Station) (s : State) : (endQueryOf p s).fetch = s.fetch := by
  unfold endQueryOf
  split
  · split <;> rfl
  · rfl

theorem fetchLaw_useProfile {f : Frame} {s : State} (hs : FetchLaw s) : FetchLaw (useProfile f s) := by
  refine fetchLaw_ite (fun _ => fetchLaw_pump ?_) fun _ => hs
  rw [changePeer_fetch, endQueryOf_fetch]
  exact inStep_of_law hs

/-- The entries of a part may be wanted, one by one (R130). -/
theorem inStep_partCompared (f : Frame) (p : Pair) {s : State} (h : InStep s.fetch) :
    InStep (partCompared f p s).fetch :=
  List.foldlRecOn (motive := fun t : State => InStep t.fetch) _ _ h fun t ht e _ => by
    unfold compareEntry
    split
    · exact inStep_wantAdd _ _ _ ht
    · exact ht

theorem fetchLaw_takePart (f : Frame) (p : Pair) (query : Placed) (expected : Nat) {s : State} (hs : FetchLaw s) :
    FetchLaw (takePart f p query expected s) := by
  have compared := inStep_partCompared f p (inStep_of_law hs)
  refine fetchLaw_ite (fun _ => fetchLaw_pumpFetch ?_) fun _ => fetchLaw_pumpFetch compared
  rw [pumpReconciler_fetch]
  exact compared

theorem fetchSide_failBucketQuery (s : State) : fetchSide (failBucketQuery s) = fetchSide s := by
  unfold failBucketQuery
  dsimp only
  split
  · exact fetchSide_ite (fun _ => rfl) fun _ => rfl
  · rfl

theorem fetchSide_queryFailed (s : State) : fetchSide (pumpReconciler (failBucketQuery s)) = fetchSide s :=
  (fetchSide_pumpReconciler _).trans (fetchSide_failBucketQuery s)

theorem fetchLaw_useBucketReply {f : Frame} {s : State} (hs : FetchLaw s) : FetchLaw (useBucketReply f s) := by
  unfold useBucketReply
  split
  · exact fetchLaw_ite (fun _ => hs) fun _ => fetchLaw_ite
      (fun _ => fetchLaw_of_side hs (fetchSide_queryFailed s)) fun _ => fetchLaw_takePart _ _ _ _ hs
  all_goals exact hs

theorem fetchSide_acceptRequest (f : Frame) (kind : JobKind) (s : State) :
    fetchSide (acceptRequest f kind s) = fetchSide s :=
  fetchSide_guard fun _ => (fetchSide_pumpResponder _).trans
    (fetchSide_ite (fun _ => rfl) fun _ => fetchSide_guard fun _ => rfl)

/-! ## Timers -/

theorem answersInStep_bucketReplyTimeout (s : State) : AnswersInStep s (execBucketReplyTimeout s) := by
  refine answersInStep_guard_of_side fun _ => ?_
  split
  · exact fetchSide_queryFailed s
  all_goals rfl

theorem answersInStep_fetchReplyTimeout (i : Fin 4) (s : State) : AnswersInStep s (execFetchReplyTimeout i s) := by
  refine answersInStep_guard fun _ hs => ?_
  split
  · rename_i key peer _ hslot
    have aimed : aims s.fetch i = some (key, peer) := congrArg aimOf hslot
    exact fetchLaw_pumpFetch (inStep_failed (inStep_of_law hs) aimed)
  all_goals exact hs

/-- A peer turns SILENT, and the work with it is withdrawn before the blocks' turns (R108, R111). -/
theorem answersInStep_silenceLimit (p : Station) (s : State) : AnswersInStep s (execSilenceLimit p s) := by
  refine answersInStep_guard fun _ hs => fetchLaw_pump ?_
  rw [purgePeer_eq]
  exact inStep_withdrawn (s := changePeer p _ s) p (inStep_of_law (s := s) hs)

theorem answersInStep_absenceLimit (p : Station) (s : State) : AnswersInStep s (execAbsenceLimit p s) := by
  refine answersInStep_guard fun _ hs => fetchLaw_pump ?_
  rw [changePeer_fetch, endQueryOf_fetch, discardJobs_eq]
  exact inStep_of_law (s := s) hs

/-! ## The arbiter and the completions -/

theorem answersInStep_readGrant (s : State) : AnswersInStep s (execReadGrant s) := by
  refine answersInStep_guard_of_side fun _ => ?_
  split <;> rfl

theorem answersInStep_appendGrant (s : State) : AnswersInStep s (execAppendGrant s) := by
  refine answersInStep_guard_of_side fun _ => ?_
  split
  · exact fetchSide_of_beyondStore ((beyondStore_settleStore ..).trans (beyondStore_grantSlot ..))
  · exact fetchSide_of_beyondStore ((beyondStore_settleStore ..).trans (beyondStore_grantCopy _))
  · rfl

theorem answersInStep_markGrant (s : State) : AnswersInStep s (execMarkGrant s) := by
  refine answersInStep_guard_of_side fun _ => ?_
  split <;> rfl

theorem answersInStep_hostReadDone (s : State) : AnswersInStep s (execHostReadDone s) := by
  refine answersInStep_of_side ?_
  split
  · unfold answerRead
    split
    · split <;> rfl
    all_goals rfl
  all_goals rfl

theorem fetchSide_buildSupply (found : ImageRead) (s : State) : fetchSide (buildSupply found s) = fetchSide s := by
  have placed (t : State) : fetchSide (placeReply t) = fetchSide t :=
    fetchSide_of_fields (placeReply_ctl t) (placeReply_fetch t)
  unfold buildSupply
  split
  · exact fetchSide_ite (fun _ => (fetchSide_pumpResponder _).trans (placed _)) fun _ => rfl
  all_goals rfl

theorem answersInStep_responderReadDone (s : State) : AnswersInStep s (execResponderReadDone s) := by
  refine answersInStep_of_side ?_
  split
  · exact fetchSide_buildSupply _ (clearOp s)
  all_goals rfl

theorem answersInStep_compactionReadDone (s : State) : AnswersInStep s (execCompactionReadDone s) := by
  refine answersInStep_of_beyondStore ?_
  split
  · exact (beyondStore_settleStore ..).trans (beyondStore_walkOn ..)
  all_goals rfl

/-- A commit may prune the Want List, and the Fetch Unit's turn follows (R48, R139). -/
theorem fetchLaw_passUpdate (i : Fin 4) (x : Slot) (loc : Loc) (o : State) {s : State} (h : InStep s.fetch) :
    FetchLaw (passUpdate i x loc o s) := by
  have pruned (t : State) (ht : InStep t.fetch) : InStep (commitSlot i x loc t).fetch :=
    inStep_of_beyondStore ((beyondStore_releaseSlot ..).trans (beyondStore_reportCommit ..))
      (inStep_pruneWant _ _ (inStep_of_beyondStore (beyondStore_commitEntry ..) ht))
  have settled : InStep (settleStore o (commitSlot i x loc (closeIfFull loc.sector s))).fetch :=
    inStep_of_beyondStore (beyondStore_settleStore ..) (pruned (closeIfFull loc.sector s) h)
  have news (t : State) : SameFetches t (offerCommitNews x t) := by
    unfold offerCommitNews
    split
    · exact sameFetches_ite (fun _ => .refl t) fun _ => sameFetches_offerNews ..
    · exact .refl t
  exact (news _).law (fetchLaw_pumpFetch settled)

theorem answersInStep_updateProgramDone (failed : List Byte) (s : State) :
    AnswersInStep s (execUpdateProgramDone failed s) := by
  refine answersInStep_next fun hs => ?_
  split
  · rename_i i loc opening image _
    have ended : SameFetches s (clearOp (programAppend loc opening image failed 0 s)) :=
      sameFetches_of_side (fetchSide_of_beyondStore (beyondStore_programAppend loc opening image failed 0 s))
    refine fetchLaw_ite (fun _ => ended.law hs) fun _ => ?_
    split
    · refine fetchLaw_ite (fun _ => fetchLaw_passUpdate _ _ _ _ (ended.inStep (inStep_of_law hs))) fun _ => ?_
      exact fetchLaw_of_side (ended.law hs) (fetchSide_of_beyondStore (beyondStore_failUpdate ..))
    · exact ended.law hs
  all_goals exact hs

theorem answersInStep_copyProgramDone (failed : List Byte) (s : State) :
    AnswersInStep s (execCopyProgramDone failed s) := by
  refine answersInStep_of_beyondStore ?_
  split
  · rename_i loc opening image _
    have programmed := beyondStore_programAppend loc opening image failed 0 s
    refine beyondStore_ite (fun _ => programmed) fun _ => ?_
    split
    · exact (beyondStore_settleStore ..).trans
        (beyondStore_ite (fun _ => (beyondStore_passCopy ..).trans programmed) fun _ => programmed)
    · exact programmed
  all_goals rfl

theorem answersInStep_reclaimMarkDone (s : State) : AnswersInStep s (execReclaimMarkDone s) := by
  refine answersInStep_of_beyondStore ?_
  split
  · exact beyondStore_ite (fun _ => rfl) fun _ => beyondStore_settleStore ..
  all_goals rfl

theorem answersInStep_eraseMarkDone (s : State) : AnswersInStep s (execEraseMarkDone s) := by
  refine answersInStep_of_beyondStore ?_
  split
  · exact beyondStore_ite (fun _ => rfl) fun _ => beyondStore_settleStore ..
  all_goals rfl

theorem answersInStep_eraseDone (failed : List (Nat × Byte)) (b : Byte) (s : State) :
    AnswersInStep s (execEraseDone failed b s) := by
  refine answersInStep_of_beyondStore ?_
  split
  · exact beyondStore_guard fun _ => beyondStore_ite (fun _ => rfl) fun _ =>
      (beyondStore_settleStore ..).trans (beyondStore_retire ..)
  · rfl

theorem answersInStep_eraseCountProgrammed (s : State) : AnswersInStep s (execEraseCountProgrammed s) := by
  refine answersInStep_of_beyondStore ?_
  split
  · exact beyondStore_guard fun _ => beyondStore_ite (fun _ => rfl) fun _ =>
      (beyondStore_settleStore ..).trans (beyondStore_nextRun _)
  · rfl

/-! ## Every command -/

theorem answersInStep_exec (c : Instr) (s : State) : AnswersInStep s (exec c s) := by
  cases c with
  | status => exact answersInStep_immediate (sameFetches_of_side rfl)
  | getReply => exact answersInStep_immediate (sameFetches_of_side rfl)
  | readEvent => exact answersInStep_immediate (sameFetches_of_side (fetchSide_takeEvent s))
  | readProfile offset => exact answersInStep_immediate (sameFetches_of_side rfl)
  | softReset erased => exact answersInStep_immediate (sameFetches_softResetStart erased s)
  | ackDiverged => exact answersInStep_guard_of_side fun _ => rfl
  | writeRecord key value => exact answersInStep_admission key false value s
  | deleteRecord key => exact answersInStep_admission key true [] s
  | readRecord key => exact answersInStep_report (fetchSide_serveRead key)
  | listKeys start => exact answersInStep_report (fetchSide_serveList start)
  | readPeers => exact answersInStep_report fetchSide_servePeers
  | syncNow => exact answersInStep_requestCommand sameFetches_serveSync
  | programConfig offset bytes => exact answersInStep_report (fetchSide_serveProgram offset bytes)
  | lockConfig => exact answersInStep_report fetchSide_serveLock
  | unknownCommand code => exact answersInStep_immediate (sameFetches_of_side rfl)
  | transactionEnd clocked => exact answersInStep_transactionEnd clocked s
  | configProgramDone failed => exact answersInStep_configProgramDone failed s
  | lockCheckProgrammed failed => exact answersInStep_lockCheckProgrammed failed s
  | lockMarkerProgrammed failed => exact answersInStep_lockMarkerProgrammed failed s
  | powerOnReset cut => exact answersInStep_stopped cut (.inl rfl)
  | powerOnResetEnd p => exact answersInStep_powerOnResetEnd p s
  | pinReset cut => exact answersInStep_stopped cut (.inr rfl)
  | pinResetEnd p => exact answersInStep_pinResetEnd p s
  | softResetWaitEnd p => exact answersInStep_guard fun _ _ => fetchLaw_resetEnd p s
  | startUpScanEnd => exact answersInStep_startUpScanEnd s
  | listeningPeriodEnd => exact answersInStep_listeningPeriodEnd s
  | settlingEnd => exact answersInStep_guard_of_side fun _ => rfl
  | frameStart => exact answersInStep_frameStart s
  | frameEndGood bytes => exact answersInStep_frameEndGood bytes s
  | frameEndGarbled => exact answersInStep_guard_of_side fun _ => rfl
  | guardEnd => exact answersInStep_guard_of_side fun _ => rfl
  | slotStart => exact answersInStep_slotStart s
  | cycleEnd => exact answersInStep_guard_of_side fun _ => rfl
  | collisionDetected => exact answersInStep_collisionDetected s
  | transmitEnd => exact answersInStep_transmitEnd s
  | waitingFramePlaced => exact answersInStep_waitingFramePlaced s
  | newsTaken => exact answersInStep_takeFrame fun _ _ => fetchLaw_useNews
  | supplyTaken => exact answersInStep_takeFrame fun _ _ => fetchLaw_useSupply
  | summaryTaken => exact answersInStep_taking fetchSide_useSummary
  | profileTaken => exact answersInStep_takeFrame fun _ _ => fetchLaw_useProfile
  | bucketReplyTaken => exact answersInStep_takeFrame fun _ _ => fetchLaw_useBucketReply
  | fetchTaken => exact answersInStep_taking fun f t => fetchSide_guard fun _ => fetchSide_acceptRequest f _ t
  | bucketQueryTaken => exact answersInStep_taking fun f t => fetchSide_guard fun _ => fetchSide_acceptRequest f _ t
  | profileQueryTaken => exact answersInStep_taking fun f t => fetchSide_guard fun _ => fetchSide_acceptRequest f _ t
  | summaryTimerExpiry => exact answersInStep_guard_of_same fun _ => sameFetches_expireSummary s
  | profileReplyTimeout => exact answersInStep_guard_of_side fun _ => fetchSide_pumpProfile _
  | bucketReplyTimeout => exact answersInStep_bucketReplyTimeout s
  | fetchReplyTimeout slot => exact answersInStep_fetchReplyTimeout slot s
  | silenceLimit peer => exact answersInStep_silenceLimit peer s
  | absenceLimit peer => exact answersInStep_absenceLimit peer s
  | duplicateMarkExpiry peer => exact answersInStep_guard_of_side fun _ => fetchSide_pumpProfile _
  | readGrant => exact answersInStep_readGrant s
  | appendGrant => exact answersInStep_appendGrant s
  | markGrant => exact answersInStep_markGrant s
  | eraseGrant => exact answersInStep_guard_of_side fun _ => rfl
  | eraseSuspended => exact answersInStep_guard_of_side fun _ => rfl
  | eraseResume => exact answersInStep_guard_of_side fun _ => rfl
  | hostReadDone => exact answersInStep_hostReadDone s
  | responderReadDone => exact answersInStep_responderReadDone s
  | compactionReadDone => exact answersInStep_compactionReadDone s
  | updateProgramDone failed => exact answersInStep_updateProgramDone failed s
  | copyProgramDone failed => exact answersInStep_copyProgramDone failed s
  | reclaimMarkDone => exact answersInStep_reclaimMarkDone s
  | eraseMarkDone => exact answersInStep_eraseMarkDone s
  | eraseDone failed markerFailed => exact answersInStep_eraseDone failed markerFailed s
  | settlingCarrier => exact answersInStep_guard_of_side fun _ => rfl
  | eraseCountProgrammed => exact answersInStep_eraseCountProgrammed s

theorem fetchLaw_exec {c : Instr} {s t : State} (hs : FetchLaw s) (h : exec c s = .next t) : FetchLaw t := by
  obtain ⟨u, hu, keeps⟩ := answersInStep_exec c s
  rw [hu, Host.Outcome.next.injEq] at h
  exact h ▸ keeps hs

/-- Settles O57: whatever touches the Want List or a fetch slot keeps the two in step, and the Fetch Unit's turn comes after
it, which leaves no WAITING entry beside a FREE slot. -/
theorem stepsKeepFetchLaw : Obligations.StepsKeepFetchLaw := by
  intro s t hs h
  exact step_keeps (fun _ _ _ => fetchLaw_exec) (fun _ _ hs => fetchLaw_of_side hs rfl) (fun _ hs => fetchLaw_of_side hs rfl)
    hs h

end Sys2Proof.Proofs
end

