-- ==== Sys2Proof/Proofs/Supplies.lean ====
section
/-! PROOFS. A SUPPLY taken (R140 to R143, R183): what it carries, the fetch slot it answers, and the record in it. -/

namespace Sys2Proof.Proofs
open Sys2Proof Sys2Proof.Machine Sys2Proof.Stated

/-! ## What a SUPPLY carries (R140, R183) -/

/-- Of the record header's flags only bit 0 is read (R183). -/
theorem parseRecord_of_flags {r : Record} {flags : Byte} (hlen : r.value.length ≤ 240) (hflags : flags.getLsbD 0 = r.tomb) :
    parseRecord (be16 r.key ++ stampBytes r.stamp ++ [flags, BitVec.ofNat 8 r.value.length] ++ r.value) = some r := by
  generalize hl : be16 r.key ++ stampBytes r.stamp ++ [flags, BitVec.ofNat 8 r.value.length] ++ r.value = l
  have length : l.length = 9 + r.value.length := by
    rw [← hl]
    simp [be16, stampBytes, be32]
    omega
  have key : wordAt l 0 = r.key := hl ▸ word16_of_bytes _
  have counter : longAt l 2 = r.stamp.counter := hl ▸ word32_of_bytes _
  have origin : byteAt l 6 = stationByte r.stamp.origin := hl ▸ rfl
  have flag : byteAt l 7 = flags := hl ▸ rfl
  have count : byteAt l 8 = BitVec.ofNat 8 r.value.length := hl ▸ rfl
  have value : l.drop 9 = r.value := hl ▸ rfl
  have agrees : ¬ ((byteAt l 8).toNat != l.length - 9) = true := by
    rw [count, length, BitVec.toNat_ofNat]
    simp
    omega
  rw [parseRecord, if_neg (by omega), if_neg agrees, key, counter, origin, flag, value, stationOfByte_stationByte, hflags]

theorem readSupply_of_disagreeing {f : Frame}
    (h : f.isAbsent = true ∧ f.payload.length ≠ 3 ∨ f.isAbsent = false ∧ parseRecord (f.payload.drop 1) = none) :
    readSupply f = none := by
  unfold readSupply
  obtain ⟨habsent, hlen⟩ | ⟨hpresent, hparse⟩ := h
  · rw [if_pos habsent, if_neg hlen]
  · rw [hpresent, hparse]
    rfl

/-- A SUPPLY that agrees with itself: its echo, its key, and the record, none when absent (R140). -/
def Supplies (f : Frame) (echo : Byte) (key : Key) (answer : Option Record) : Prop :=
  f.isAbsent = true ∧ f.payload = echo :: be16 key ∧ answer = none ∨
    f.isAbsent = false ∧
      ∃ r flags, answer = some r ∧ r.key = key ∧ r.value.length ≤ 240 ∧ flags.getLsbD 0 = r.tomb ∧
        f.payload = echo :: (be16 r.key ++ stampBytes r.stamp ++ [flags, BitVec.ofNat 8 r.value.length] ++ r.value)

theorem readSupply_of_supplies {f : Frame} {echo : Byte} {key : Key} {answer : Option Record}
    (h : Supplies f echo key answer) : readSupply f = some (key, answer) ∧ byteAt f.payload 0 = echo := by
  unfold readSupply
  obtain ⟨habsent, hpayload, rfl⟩ | ⟨hpresent, r, flags, rfl, rfl, hlen, hflags, hpayload⟩ := h
  · have word : wordAt (echo :: be16 key) 1 = key := word16_of_bytes key
    rw [if_pos habsent, hpayload, if_pos (show (echo :: be16 key).length = 3 from rfl), word]
    exact ⟨rfl, rfl⟩
  · rw [hpresent, hpayload, List.drop_one, List.tail_cons, parseRecord_of_flags hlen hflags]
    exact ⟨rfl, rfl⟩

/-! ## The fetch it answers (R140 to R143) -/

theorem settleSupply_of_matched {s : State} {source : Station} {echo : Byte} {key : Key} {answer : Option Record} {i : Fin 4}
    (hi : answersSlot s source echo key i = true) (hfirst : ∀ j, j < i → answersSlot s source echo key j = false) :
    settleSupply source echo key answer s =
      match answer with
      | some r => offerArrival r source (removeWant key (freeFetchSlot i s))
      | none => pumpFetch (removeWant key (freeFetchSlot i s)) := by
  unfold settleSupply
  rw [find_slotNumbers_eq _ i hi hfirst] <;> rfl

theorem settleSupply_of_late {s : State} {source : Station} {echo : Byte} {key : Key} {answer : Option Record}
    (h : ∀ i, answersSlot s source echo key i = false) :
    settleSupply source echo key answer s =
      match answer with
      | some r => offerArrival r source s
      | none => s := by
  have unmatched : slotNumbers.find? (answersSlot s source echo key) = none :=
    List.find?_eq_none.2 fun i _ => Bool.not_eq_true _ ▸ h i
  unfold settleSupply
  rw [unmatched] <;> rfl

theorem exec_supplyTaken_of_disagreeing {s : State} {pre post : List Frame} {f : Frame} (h : Waits s .supply pre f post)
    (hread : readSupply f = none) : exec .supplyTaken s = .next (taken pre post s) := by
  rw [exec_supplyTaken, execSupplyTaken, takeFrame_of_waits h]
  simp only [useSupply, hread, ite_self]

theorem exec_supplyTaken_of_supplies {s : State} {pre post : List Frame} {f : Frame} {echo : Byte} {key : Key}
    {answer : Option Record} (h : Waits s .supply pre f post) (hpresent : (peerOf s f.source).state = .present)
    (hsupplies : Supplies f echo key answer) :
    exec .supplyTaken s =
      .next (spaceEvent (taken pre post s) (settleSupply f.source echo key answer (taken pre post s))) := by
  have present : isPresent (taken pre post s) f.source = true := beq_iff_eq.2 hpresent
  obtain ⟨hread, hecho⟩ := readSupply_of_supplies hsupplies
  rw [exec_supplyTaken, execSupplyTaken, takeFrame_of_waits h]
  simp only [useSupply, present, if_true, hread, hecho]

/-- Settles O35: the echo and the key say which fetch slot the SUPPLY answers, if any; without a record nothing that the space
test watches changes. -/
theorem suppliesSettleFetches : Obligations.SuppliesSettleFetches := by
  intro s pre f post hwaits hpresent t
  refine ⟨fun h => exec_supplyTaken_of_disagreeing hwaits (readSupply_of_disagreeing h), fun echo key answer hsupplies => ?_⟩
  have taking := exec_supplyTaken_of_supplies hwaits hpresent hsupplies
  refine ⟨fun i p hslot hecho hfirst => ?_, fun hlate => ?_⟩
  · intro u
    have answers : answersSlot t f.source echo key i = true := answersSlot_iff.2 ⟨p, hslot, hecho⟩
    have first (j : Fin 4) (hj : j < i) : answersSlot t f.source echo key j = false := by
      rw [← Bool.not_eq_true, answersSlot_iff]
      exact fun ⟨q, hq, hseq⟩ => hfirst j q hj hq hseq
    have settled := settleSupply_of_matched (answer := answer) answers first
    refine ⟨?_, ?_⟩
    · rintro rfl
      have unseen : spaceView t = spaceView (pumpFetch u) := (spaceView_pumpFetch u).symm
      rw [taking, settled]
      exact congrArg _ (spaceEvent_same unseen)
    · rintro r rfl
      rw [taking, settled]
      rfl
  · have unmatched (i : Fin 4) : answersSlot t f.source echo key i = false := by
      rw [← Bool.not_eq_true, answersSlot_iff]
      exact fun ⟨p, hp, hseq⟩ => hlate i p hp hseq
    have settled := settleSupply_of_late (answer := answer) unmatched
    refine ⟨?_, ?_⟩
    · rintro rfl
      rw [taking, settled]
      exact congrArg _ (spaceEvent_same rfl)
    · rintro r rfl
      rw [taking, settled]
      rfl

end Sys2Proof.Proofs
end

