-- ==== Sys2Proof/Proofs/Jobs.lean ====
section
/-! PROOFS. Requests become jobs (R147, R153), and the idle Responder serves its head job (R148 to R151). -/

namespace Sys2Proof.Proofs
open Sys2Proof Sys2Proof.Machine Sys2Proof.Stated

/-! ## Requests used for nothing (R147, R153) -/

theorem useFetch_of_unpermitted {f : Frame} {s : State} (h : f.payload.length ≠ 7) : useFetch f s = s :=
  if_neg fun hused => h hused.2

theorem useBucketQuery_of_unpermitted {f : Frame} {s : State}
    (h : f.payload.length ≠ 1 ∨ 64 ≤ (byteAt f.payload 0).toNat) : useBucketQuery f s = s :=
  if_neg fun ⟨_, hlen, hbucket⟩ => h.elim (fun hne => hne hlen) (Nat.not_le.2 hbucket)

theorem exec_taking_of_unpermitted {s : State} {k : FrameKind} {pre post : List Frame} {f : Frame}
    (hwaits : Waits s k pre f post)
    (h : k = .fetch ∧ f.payload.length ≠ 7 ∨
      k = .bucketQuery ∧ (f.payload.length ≠ 1 ∨ 64 ≤ (byteAt f.payload 0).toNat)) :
    exec (takingOf k) s = .next (taken pre post s) := by
  obtain ⟨rfl, h⟩ | ⟨rfl, h⟩ := h
  · exact (takeFrame_of_waits hwaits useFetch).trans (congrArg _ (useFetch_of_unpermitted h))
  · exact (takeFrame_of_waits hwaits useBucketQuery).trans (congrArg _ (useBucketQuery_of_unpermitted h))

/-! ## A request becomes a job (R147) -/

/-- The job that an accepted request asks for, by its kind and payload (R147). -/
def AsksFor (k : FrameKind) (f : Frame) (kind : JobKind) : Prop :=
  k = .fetch ∧ f.payload.length = 7 ∧ kind = .supply (wordAt f.payload 0) ∨
    k = .bucketQuery ∧ f.payload.length = 1 ∧ (byteAt f.payload 0).toNat < 64 ∧
      kind = .bucketReply ((byteAt f.payload 0).setWidth 6) 0 none ∨
    k = .profileQuery ∧ kind = .profile

theorem answersProfile_of_used {q : PeerState} (h : ¬ Unused .profileQuery q) : answersProfile q = true := by
  cases q <;> simp_all [Unused, answersProfile]

theorem exec_taking_of_asking {s : State} {k : FrameKind} {pre post : List Frame} {f : Frame} {kind : JobKind}
    (hwaits : Waits s k pre f post) (hused : ¬ Unused k (peerOf s f.source).state) (h : AsksFor k f kind) :
    exec (takingOf k) s = .next (acceptRequest f kind (taken pre post s)) := by
  obtain ⟨rfl, hlen, rfl⟩ | ⟨rfl, hlen, hbucket, rfl⟩ | ⟨rfl, rfl⟩ := h
  · have present : isPresent (taken pre post s) f.source = true := beq_iff_eq.2 (not_not.1 hused)
    exact (takeFrame_of_waits hwaits useFetch).trans (congrArg _ (if_pos ⟨present, hlen⟩))
  · have present : isPresent (taken pre post s) f.source = true := beq_iff_eq.2 (not_not.1 hused)
    exact (takeFrame_of_waits hwaits useBucketQuery).trans (congrArg _ (if_pos ⟨present, hlen, hbucket⟩))
  · exact (takeFrame_of_waits hwaits useProfileQuery).trans (congrArg _ (if_pos (answersProfile_of_used hused)))

theorem acceptRequest_of_mute {f : Frame} {kind : JobKind} {s : State} (h : s.ctl.st = .mute) :
    acceptRequest f kind s = s := by
  refine if_neg fun hplace => ?_
  obtain ⟨-, hst | hst⟩ := mayPlace_iff.1 hplace
  all_goals
    rw [h] at hst
    cases hst

theorem placing_of_unmuted {s : State} (hup : Up s) (hmute : s.ctl.st ≠ .mute) : Placing s := by
  obtain ⟨hpowered, hst | hst | hst⟩ := hup
  · exact ⟨hpowered, .inl hst⟩
  · exact ⟨hpowered, .inr hst⟩
  · exact absurd hst hmute

theorem acceptRequest_of_placing {f : Frame} {kind : JobKind} {s : State} (h : Placing s) :
    acceptRequest f kind s = pumpResponder (addJob { peer := f.source, echo := f.seq, kind := kind } s) :=
  if_pos (mayPlace_iff.2 h)

/-- A job answers the request that asks for a kind of job: its key or its bucket, whatever part it has come to (R147). -/
def SameRequest (kind old : JobKind) : Prop :=
  match kind with
  | .supply key => old = .supply key
  | .bucketReply b _ _ => ∃ part resume, old = .bucketReply b part resume
  | .profile => old = .profile

theorem sameRequest_iff (kind old : JobKind) : sameRequest kind old = true ↔ SameRequest kind old := by
  cases kind with
  | supply key => cases old <;> simp [sameRequest, SameRequest, eq_comm (a := key)]
  | bucketReply b part resume => cases old <;> simp [sameRequest, SameRequest, eq_comm (a := b)]
  | profile => cases old <;> simp [sameRequest, SameRequest]

theorem repeats_iff {new old : Job} : repeats new old = true ↔ old.peer = new.peer ∧ SameRequest new.kind old.kind := by
  rw [repeats, Bool.and_eq_true, beq_iff_eq, sameRequest_iff, eq_comm]

/-- The job list is what an accepted request leaves of it. -/
def jobsSet (jobs : List Job) (s : State) : State := { s with resp := { s.resp with jobs := jobs } }

theorem addJob_of_repeat {new old : Job} {before after : List Job} {s : State} (hjobs : s.resp.jobs = before ++ old :: after)
    (hold : repeats new old = true) (hothers : ∀ x ∈ before ++ after, ¬ repeats new x = true) :
    addJob new s = jobsSet (before ++ new :: after) s := by
  have known : s.resp.jobs.any (repeats new) = true := List.any_eq_true.2 ⟨old, by simp [hjobs], hold⟩
  have kept {l : List Job} (hl : l ⊆ before ++ after) : l.map (fun x => if repeats new x then new else x) = l :=
    (List.map_congr_left (g := id) fun x hx => if_neg (hothers x (hl hx))).trans (List.map_id l)
  have replaced : s.resp.jobs.map (fun x => if repeats new x then new else x) = before ++ new :: after := by
    rw [hjobs, List.map_append, List.map_cons, kept (List.subset_append_left ..), kept (List.subset_append_right ..),
      if_pos hold]
  rw [addJob, if_pos known, replaced]
  rfl

theorem addJob_of_new {new : Job} {s : State} (hnew : ∀ x ∈ s.resp.jobs, ¬ repeats new x = true) :
    (s.resp.jobs.length < 8 → addJob new s = jobsSet (s.resp.jobs ++ [new]) s) ∧
      (8 ≤ s.resp.jobs.length → addJob new s = s) := by
  have unknown : ¬ s.resp.jobs.any (repeats new) = true := fun hknown => by
    obtain ⟨x, hx, hrep⟩ := List.any_eq_true.1 hknown
    exact hnew x hx hrep
  rw [addJob, if_neg unknown]
  exact ⟨fun hroom => if_pos hroom, fun hfull => if_neg (Nat.not_lt.2 hfull)⟩

/-! ## The head job (R148 to R151) -/

theorem supplyEntry_of_found {s : State} {key : Key} {e : Entry} (hpolicy : policyOf s key ≠ .localOnly)
    (he : lookup s key = some e) : supplyEntry s key = some e := by
  unfold supplyEntry
  simp only [he]
  exact if_neg (mt isLocal_iff.1 hpolicy)

theorem supplyEntry_of_absent {s : State} {key : Key} (h : policyOf s key = .localOnly ∨ lookup s key = none) :
    supplyEntry s key = none := by
  unfold supplyEntry
  split
  · rename_i e he
    exact if_pos (isLocal_iff.2 (h.resolve_right (by simp [he])))
  · rfl

/-- The head job's reply is kept until there is room (R148). -/
def replyKept (service : Service) (s : State) : State :=
  { s with
    resp := { s.resp with service := some service }
    line := { s.line with waiting := s.line.waiting ++ [.reply] } }

section Head
variable {s : State} {job : Job} {others : List Job} (hplacing : Placing s) (hservice : s.resp.service = none)
  (hjobs : s.resp.jobs = job :: others)
include hplacing hservice hjobs

theorem pumpResponder_of_reading {key : Key} {e : Entry} (hkind : job.kind = .supply key)
    (he : supplyEntry s key = some e) :
    pumpResponder s = placeRead .responder e.loc (setService (some (.reading e)) s) :=
  serveJobs_reads (mayPlace_iff.2 hplacing) hservice hjobs hkind he

/-- A reply that needs no READ is placed where there is room, and the Responder goes on; elsewhere it is kept. -/
theorem pumpResponder_of_ready {v : Service} {t : State} (hv : ReadyWith s job v)
    (ht : placeReply (setService (some v) s) = t) :
    (Room s s.line → pumpResponder s = pumpResponder t) ∧ (¬ Room s s.line → pumpResponder s = replyKept v s) := by
  have round := pumpResponder_ready (mayPlace_iff.2 hplacing) hservice hjobs hv
  refine ⟨fun hroom => ?_, fun hno => ?_⟩
  · rw [round, if_pos (hasRoom_iff_room.2 hroom), ht]
  · rw [round, if_neg (mt hasRoom_iff_room.1 hno)]
    rfl

end Head

/-- Settles O39: the job asked for by the kind of request, and the head job served by its own. -/
theorem requestsBecomeJobs : Obligations.RequestsBecomeJobs := by
  refine ⟨fun s k pre f post => exec_taking_of_unpermitted, fun s k pre f post kind hwaits hused hasks => ?_, fun s h => ?_,
    fun s job others hplacing hservice hjobs => ?_⟩
  · intro t job same queued
    have taking : exec (takingOf k) s = .next (acceptRequest f kind t) := exec_taking_of_asking hwaits hused hasks
    have sameJob (old : Job) : repeats job old = true ↔ same old := repeats_iff
    refine ⟨fun hmute => taking.trans (congrArg _ (acceptRequest_of_mute hmute)), fun hmute => ?_⟩
    have placing : Placing t := placing_of_unmuted hwaits.1 hmute
    rw [taking, acceptRequest_of_placing placing]
    refine ⟨fun before old after hold hsame hothers => ?_, fun hnew hroom => ?_, fun hnew hfull => ?_⟩
    · rw [addJob_of_repeat (s := t) hold ((sameJob old).2 hsame) fun x hx => mt (sameJob x).1 (hothers x hx)]
      rfl
    · rw [(addJob_of_new (s := t) fun x hx => mt (sameJob x).1 (hnew x hx)).1 hroom]
      rfl
    · rw [(addJob_of_new (s := t) fun x hx => mt (sameJob x).1 (hnew x hx)).2 hfull]
      rfl
  · refine pumpResponder_idle (h.elim (fun hno => .inr (.inr ?_)) fun hidle => hidle.imp_right .inl)
    rw [← Bool.not_eq_true]
    exact mt mayPlace_iff.1 hno
  · intro kept
    refine ⟨fun key e hkind hpolicy he => ?_, fun key hkind habsent => ?_, fun hkind => ?_, fun b part resume hkind => ?_⟩
    · exact pumpResponder_of_reading hplacing hservice hjobs hkind (supplyEntry_of_found hpolicy he)
    · exact pumpResponder_of_ready hplacing hservice hjobs (.inl ⟨key, hkind, supplyEntry_of_absent habsent, rfl⟩)
        (placeReply_supply (s := setService (some (.built none)) s) s.line hjobs hkind rfl)
    · exact pumpResponder_of_ready hplacing hservice hjobs (.inr (.inl ⟨hkind, rfl⟩))
        (placeReply_profile (s := setService (some .ready) s) s.line hjobs hkind rfl)
    · exact pumpResponder_of_ready hplacing hservice hjobs (.inr (.inr ⟨⟨b, part, resume, hkind⟩, rfl⟩))
        (placeReply_bucketReply (s := setService (some .ready) s) s.line hjobs hkind rfl)

end Sys2Proof.Proofs
end

