-- ==== Sys2Proof/Proofs/ProfileTable.lean ====
section
/-! PROOFS. READ_PROFILE (R166, R168, R186): the Profile Table's length, and the table from an offset as the table rotated. -/

namespace Sys2Proof.Proofs
open Sys2Proof Sys2Proof.Machine Sys2Proof.Stated

theorem length_profileTable {c : Control} (h : c.groupBytes.length = 36) : (profileTable c).length = 92 := by
  simp [profileTable, profileHeader, profileGeometry, be64, be32, be16, h]

/-- Where READ_PROFILE starts: 92 or above counts as 0 (R168). -/
def profileStart (offset : Byte) : Nat := if offset.toNat < 92 then offset.toNat else 0

theorem profileStart_lt (offset : Byte) : profileStart offset < 92 := by
  unfold profileStart
  split
  · assumption
  · decide

/-- From an offset the table is clocked out rotated, so that it wraps after its last byte (R168). -/
theorem profileFrom_eq_rotate {c : Control} (offset : Byte) (h : (profileTable c).length = 92) :
    profileFrom c offset = (profileTable c).rotate (profileStart offset) :=
  (List.rotate_eq_drop_append_take (h ▸ (profileStart_lt offset).le)).symm

theorem sdo_profileFrom {c : Control} (offset : Byte) (h : (profileTable c).length = 92) (i : Nat) :
    Transaction.sdo { kind := .profile, out := profileFrom c offset } i =
      (profileTable c).getD ((profileStart offset + i) % 92) 0 := by
  have wrapped : i % 92 < (profileTable c).length := by omega
  show (profileFrom c offset).getD (i % 92) 0 = _
  rw [profileFrom_eq_rotate offset h, List.getD_eq_getElem?_getD, List.getD_eq_getElem?_getD,
    List.getElem?_rotate wrapped, h, Nat.mod_add_mod, Nat.add_comm]

/-- Settles O10: the answer is the table rotated by the offset, and a transaction of the Profile Table ends without trace. -/
theorem readProfileWraps : Obligations.ReadProfileWraps := by
  intro s offset hp hs
  refine ⟨{ kind := .profile, out := profileFrom s.ctl offset }, ?_, ?_, fun clocked => rfl⟩
  · rw [exec_readProfile, execReadProfile, immediate_of_portOpen hp]
    rfl
  · exact sdo_profileFrom offset (length_profileTable hs.group)

end Sys2Proof.Proofs
end

