-- ==== Sys2Proof/Proofs/ConfigRequests.lean ====
section
/-! PROOFS. PROGRAM_CONFIG and LOCK_CONFIG (R154, R161, R162): refused, or their programming begins; and how the configuration
area's programming ends (R157, R161, R162). -/

namespace Sys2Proof.Proofs
open Sys2Proof Sys2Proof.Machine Sys2Proof.Stated

/-! ## Refused (R154, R161, R162) -/

theorem configRefusal_of_starting {s : State} (h : s.ctl.st = .starting) : configRefusal s = some .starting := if_pos h

theorem configRefusal_of_unlocked {s : State} (h : s.ctl.st = .unconfigured) (hunlocked : isLocked s = false) :
    configRefusal s = none := by
  unfold configRefusal
  rw [if_neg (by simp [h]), if_pos ⟨h, hunlocked⟩]

theorem configRefusal_of_closed {s : State} (h : Serving s ∨ (s.ctl.st = .unconfigured ∧ isLocked s = true)) :
    configRefusal s = some .configLocked := by
  unfold configRefusal
  obtain (hst | hst | hst) | ⟨hst, hlocked⟩ := h
  · simp [hst]
  · simp [hst]
  · simp [hst]
  · simp [hst, hlocked]

theorem configRequest_of_refused {s : State} {code : ResultCode} {c : Instr} (hp : FreePort s)
    (hc : c = .lockConfig ∨ ∃ o l, c = .programConfig o l) (h : configRefusal s = some code) :
    exec c s = .next (answered (.code code) s) := by
  have refused : configRefusal (accept s) = some code := h
  obtain rfl | ⟨offset, bytes, rfl⟩ := hc
  · rw [exec_lockConfig, execLockConfig, requestCommand_free hp, serveLock, refused]
    rfl
  · rw [exec_programConfig, execProgramConfig, requestCommand_free hp, serveProgram, refused]
    rfl

/-! ## Taken up (R161, R162) -/

theorem exec_programConfig_of_unlocked {s : State} (hp : FreePort s) (h : configRefusal s = none) (offset : Byte)
    (bytes : List Byte) :
    exec (.programConfig offset bytes) s =
      .next
        (if bytes = [] ∨ 61 < offset.toNat + bytes.length then answered (.code .badRange) s
         else { accepted .programConfig s with cfg := { s.cfg with prog := some (.bytes offset.toNat bytes) } }) := by
  have free : configRefusal (accept s) = none := h
  rw [exec_programConfig, execProgramConfig, requestCommand_free hp, serveProgram, free]
  rfl

theorem exec_lockConfig_of_unlocked {s : State} (hp : FreePort s) (h : configRefusal s = none) :
    exec .lockConfig s =
      .next
        (if areaValues s.cfg.bytes.toList = none then answered (.code .configInvalid) s
         else
           { accepted .lockConfig s with
             cfg := { s.cfg with prog := some (.check (crc16 (s.cfg.bytes.toList.take 61))) } }) := by
  have free : configRefusal (accept s) = none := h
  rw [exec_lockConfig, execLockConfig, requestCommand_free hp, serveLock, free]
  dsimp only [accept_cfg]
  cases areaValues s.cfg.bytes.toList with
  | none => rfl
  | some values => rfl

/-- Settles O17: `configRefusal` by the station's state and the area's lock, and each request that it lets pass. -/
theorem configurationRequestsBegin : Obligations.ConfigurationRequestsBegin := by
  intro s hp
  refine ⟨fun c hc => ⟨fun hst => ?_, fun hclosed => ?_⟩, fun hst hunlocked => ?_⟩
  · exact configRequest_of_refused hp hc (configRefusal_of_starting hst)
  · exact configRequest_of_refused hp hc (configRefusal_of_closed hclosed)
  · have free := configRefusal_of_unlocked hst hunlocked
    refine ⟨fun offset bytes hbad => ?_, fun offset bytes hsome hfits => ?_, fun hinvalid => ?_, fun hvalid => ?_⟩
    · rw [exec_programConfig_of_unlocked hp free, if_pos hbad]
    · rw [exec_programConfig_of_unlocked hp free, if_neg (not_or.2 ⟨hsome, Nat.not_lt.2 hfits⟩)]
    · rw [exec_lockConfig_of_unlocked hp free, if_pos hinvalid]
    · rw [exec_lockConfig_of_unlocked hp free, if_neg hvalid]

/-! ## How a programming ends (R157, R161, R162) -/

theorem programArea_eq_programmed (area : Vector Byte 64) (offset : Nat) (given failed : List Byte) :
    programArea area offset given failed 0 = programmed area offset given failed := by
  refine Vector.ext fun i hi => ?_
  rw [getElem_programArea, programmed, Vector.getElem_ofFn]
  rfl

/-- The area once a programming in flight has taken effect, but for the bits listed. -/
theorem programConfig_eq (p : ConfigProgram) (failed : List Byte) (s : State) :
    programConfig p failed 0 s =
      { s with cfg := { bytes := programmed s.cfg.bytes p.given.1 p.given.2 failed, prog := none } } := by
  rw [programConfig, programArea_eq_programmed]

theorem byteAt_area (area : Vector Byte 64) (i : Nat) (h : i < 64) : byteAt area.toList i = area[i] := by
  simp [byteAt, h]

theorem wordAt_check (area : Vector Byte 64) : wordAt area.toList 62 = area[62] ++ area[63] := by
  rw [wordAt, byteAt_area area 62 (by decide), byteAt_area area 63 (by decide)]
  rfl

theorem exec_configProgramDone_of_bytes {s : State} {offset : Nat} {given : List Byte} (failed : List Byte)
    (h : s.cfg.prog = some (.bytes offset given)) :
    exec (.configProgramDone failed) s = .next (completeProgram offset given failed s) := by
  rw [exec_configProgramDone, execConfigProgramDone, h]

theorem exec_lockCheckProgrammed_of_check {s : State} {crc : BitVec 16} (failed : List Byte)
    (h : s.cfg.prog = some (.check crc)) :
    exec (.lockCheckProgrammed failed) s = .next (completeCheck crc failed s) := by
  rw [exec_lockCheckProgrammed, execLockCheckProgrammed, h]

theorem exec_lockMarkerProgrammed_of_marker {s : State} (failed : Byte) (h : s.cfg.prog = some .marker) :
    exec (.lockMarkerProgrammed failed) s = .next (completeMarker failed s) := by
  rw [exec_lockMarkerProgrammed, execLockMarkerProgrammed, h]

/-- The bytes given have been programmed: what the reply says, and the group section (R161). -/
theorem completeProgram_eq (offset : Nat) (given failed : List Byte) (s : State) :
    completeProgram offset given failed s =
      let area := programmed s.cfg.bytes offset given failed
      if s.ctl.softWait = true then { s with cfg := { bytes := area, prog := none } }
      else
        grouped
          (completed
            (.code (if area = programmed s.cfg.bytes offset given [] then .done else .configFault))
            { s with cfg := { bytes := area, prog := none } }) := by
  simp only [completeProgram, programConfig_eq, programTook, programArea_eq_programmed, beq_iff_eq]
  rfl

/-- The check has been programmed: it reads back as given, or it does not (R162). -/
theorem completeCheck_eq (crc : BitVec 16) (failed : List Byte) (s : State) :
    completeCheck crc failed s =
      let area := programmed s.cfg.bytes 62 (be16 crc) failed
      if s.ctl.softWait = true then { s with cfg := { bytes := area, prog := none } }
      else if area[62] ++ area[63] = crc then { s with cfg := { bytes := area, prog := some .marker } }
      else completed (.code .configFault) { s with cfg := { bytes := area, prog := none } } := by
  simp only [completeCheck, programConfig_eq, wordAt_check]
  rfl

/-- The lock marker has been programmed: the station restarts, or the marker reads back blank (R162). -/
theorem completeMarker_eq (failed : Byte) (s : State) :
    completeMarker failed s =
      let area := programmed s.cfg.bytes 61 [0x00] [failed]
      if s.ctl.softWait = true then { s with cfg := { bytes := area, prog := none } }
      else if area[61] ≠ 0xFF then waiting [] { s with cfg := { bytes := area, prog := none } }
      else completed (.code .configFault) { s with cfg := { bytes := area, prog := none } } := by
  rw [completeMarker, programConfig_eq]
  dsimp only [ConfigProgram.given]
  by_cases hwait : s.ctl.softWait = true
  · rw [if_pos hwait, if_pos hwait]
  · rw [if_neg hwait, if_neg hwait, softResetStart_of_running [] (Bool.not_eq_true _ ▸ hwait)]
    simp only [isLocked_iff]
    rfl

/-- Settles O18: each program's end is its completion, by the soft reset's wait and by what the area reads back. -/
theorem configurationProgramsEnd : Obligations.ConfigurationProgramsEnd := by
  refine ⟨fun s offset given failed hprog => ?_, fun s crc failed hprog => ?_, fun s failed hprog => ?_⟩
  · rw [exec_configProgramDone_of_bytes failed hprog, completeProgram_eq]
    refine ⟨fun hwait => ?_, fun hwait => ?_⟩
    · rw [if_pos hwait]
    · rw [if_neg (by simp [hwait])]
  · rw [exec_lockCheckProgrammed_of_check failed hprog, completeCheck_eq]
    refine ⟨fun hwait => ?_, fun hwait htook => ?_, fun hwait hfault => ?_⟩
    · rw [if_pos hwait]
    · rw [if_neg (by simp [hwait]), if_pos htook]
    · rw [if_neg (by simp [hwait]), if_neg hfault]
  · rw [exec_lockMarkerProgrammed_of_marker failed hprog, completeMarker_eq]
    refine ⟨fun hwait => ?_, fun hwait htook => ?_, fun hwait hblank => ?_⟩
    · rw [if_pos hwait]
    · rw [if_neg (by simp [hwait]), if_pos htook]
    · rw [if_neg (by simp [hwait]), if_neg (not_not.2 hblank)]

end Sys2Proof.Proofs
end

