-- ==== Sys2Proof/Proofs/Restarts.lean ====
section
/-! PROOFS. The end of a reset (R155, R156, R158, R178, R182), and the laws of the state right after reset. -/

namespace Sys2Proof.Proofs
open Sys2Proof Sys2Proof.Machine Sys2Proof.Stated

/-! ## The area is read (R158) -/

theorem readArea_of_force {s : State} {f : Force} (h : inForce s = some f) :
    readArea s = { s with ctl := { s.ctl with force := some f } } := by
  unfold inForce at h
  rw [readArea, h]

theorem readArea_of_no_force {s : State} (h : inForce s = none) : readArea s = enterStation .unconfigured s := by
  unfold inForce at h
  rw [readArea, h]

/-! ## The end of each reset (R155 to R157) -/

/-- Neither the supply nor RESET holds the part any more. -/
def released (s : State) : State := { s with ctl := { s.ctl with power := false, pin := false } }

theorem released_of_powered {s : State} (h : Powered s) : released s = s :=
  calc
    released s = { s with ctl := { s.ctl with power := s.ctl.power, pin := s.ctl.pin } } := by rw [released, h.1, h.2]
    _ = s := rfl

/-- By whether the area gives values in force. -/
theorem resetEnd_released (straps : Station) (s : State) : resetEnd straps (released s) = restarted straps s := by
  unfold resetEnd
  dsimp only
  cases hforce : inForce s with
  | some f =>
    rw [readArea_of_force (f := f)]
    · simp only [restarted, hforce, reduceCtorEq, if_false]
      rfl
    · exact hforce
  | none =>
    rw [readArea_of_no_force]
    · simp only [restarted, hforce, if_true]
      rfl
    · exact hforce

theorem resetEnd_of_powered (straps : Station) {s : State} (h : Powered s) : resetEnd straps s = restarted straps s := by
  rw [← resetEnd_released, released_of_powered h]

theorem workInFlight_eq_false {s : State} (hop : s.store.op = none) (herase : s.store.erase = none)
    (hsending : s.line.sending = none) (hprog : s.cfg.prog = none) : workInFlight s = false := by
  simp [workInFlight, hop, herase, hsending, hprog]

/-- Settles O20: with its last cause each reset ends as `restarted` says; the cause that is left alone keeps the part in
reset. -/
theorem resetsEndInStarting : Obligations.ResetsEndInStarting := by
  intro s straps
  refine ⟨fun hpower hpin => ?_, fun hpin hpower => ?_, fun hpower hpin => ⟨?_, ?_⟩,
    fun hpowered hwait hop herase hsending hprog => ?_⟩
  · have ended : Powered { s with ctl := { s.ctl with power := false } } := ⟨rfl, hpin⟩
    rw [exec_powerOnResetEnd, execPowerOnResetEnd, if_pos hpower, if_neg (by simp [hpin]), resetEnd_of_powered straps ended]
    rfl
  · have ended : Powered { s with ctl := { s.ctl with pin := false } } := ⟨hpower, rfl⟩
    rw [exec_pinResetEnd, execPinResetEnd, if_pos hpin, if_neg (by simp [hpower]), resetEnd_of_powered straps ended]
    rfl
  · rw [exec_powerOnResetEnd, execPowerOnResetEnd, if_pos hpower, if_pos hpin]
  · rw [exec_pinResetEnd, execPinResetEnd, if_pos hpin, if_pos hpower]
  · have waited : (!inReset s && s.ctl.softWait && !workInFlight s) = true := by
      rw [inReset_eq_false.2 hpowered, hwait, workInFlight_eq_false hop herase hsending hprog]
      rfl
    rw [exec_softResetWaitEnd, execSoftResetWaitEnd, if_pos waited, resetEnd_of_powered straps hpowered]

/-! ## The laws right after reset (R29, R156, R158) -/

theorem slots_reset (i : Fin 4) : State.reset.upd.slots[i] = none := Vector.getElem_replicate ..

theorem peerOf_reset (p : Station) : peerOf State.reset p = Peer.cleared := Vector.getElem_replicate ..

theorem storeLaw_reset : StoreLaw State.reset := ⟨⟨.nil, nofun⟩, Nat.zero_le 1⟩

/-- Only the Event Queue holds anything: STATION_STATE(UNCONFIGURED). -/
theorem queueLaw_reset : QueueLaw State.reset where
  events := by decide
  changed := List.nodup_nil
  received := Nat.zero_le 4
  queued := Nat.zero_le 16
  summaries := Nat.zero_le 1
  jobs := Nat.zero_le 8
  wants := Nat.zero_le 128
  wanted := List.nodup_nil
  pairs := List.nodup_nil
  suspensions := nofun

theorem directoryLaw_reset : DirectoryLaw State.reset where
  ascending := .nil
  valid := nofun
  count := rfl
  shared := rfl
  checks b := Vector.getElem_replicate ..
  slots i x hx := by rw [slots_reset i] at hx; cases hx

theorem clockLaw_reset : ClockLaw State.reset := clockLaw_of_free nofun slots_reset

theorem slotLaw_reset : SlotLaw State.reset := slotLaw_iff.2 ⟨slotsSound_of_free slots_reset rfl, clockLaw_reset.scan⟩

theorem peerLaw_reset : PeerLaw State.reset := peerLaw_of_idle (fun p => congrArg _ (peerOf_reset p)) rfl rfl rfl

theorem controlLaw_reset : ControlLaw State.reset := controlLaw_of_silent rfl (fun _ => rfl) rfl

/-- Settles O60: each law by its own lemma; what a reset clears is empty, and no slot, peer or transmission is at work. -/
theorem lawsHoldAtReset : Obligations.LawsHoldAtReset :=
  ⟨storeLaw_reset, queueLaw_reset, directoryLaw_reset, clockLaw_reset, slotLaw_reset, Nat.zero_le 1024,
   fetchLaw_of_cleared rfl, peerLaw_reset, controlLaw_reset⟩

end Sys2Proof.Proofs
end

