-- ==== Sys2Proof/Proofs/Untouched.lean ====
section
/-! PROOFS. What no command touches (R155, R156; logs 1 and 2): `untouched` is the queue, the time, the unique ID, the silicon
revision and the own station number, and the shared operations leave it as it is. -/

namespace Sys2Proof.Proofs
open Sys2Proof Sys2Proof.Machine

/-- What not even the end of a reset touches: the queue, the time, the unique ID, the silicon revision. -/
def lasting (s : State) : List Instr × Nat × BitVec 64 × Byte := (s.pending, s.now, s.ctl.uniqueId, s.ctl.revision)

/-- What lasts, and the own station number. -/
def untouched (s : State) : (List Instr × Nat × BitVec 64 × Byte) × Station := (lasting s, s.ctl.own)

theorem untouched_of_fields {s t : State} (hctl : t.ctl = s.ctl) (hnow : t.now = s.now) (hpending : t.pending = s.pending) :
    untouched t = untouched s := by
  simp only [untouched, lasting, hctl, hnow, hpending]

theorem untouched_of_offers {s t : State} (h : Offers s t) : untouched t = untouched s :=
  untouched_of_fields h.ctl h.now h.pending

theorem untouched_of_withdraws {s t : State} (h : Withdraws s t) : untouched t = untouched s :=
  untouched_of_fields h.ctl h.now h.pending

theorem untouched_of_beyondStore {s t : State} (h : beyondStore t = beyondStore s) : untouched t = untouched s := by
  simp only [beyondStore, Prod.mk.injEq] at h
  obtain ⟨hctl, -, -, -, -, -, -, -, hnow, hpending⟩ := h
  exact untouched_of_fields hctl hnow hpending

/-- An effect that is guarded. -/
theorem untouched_ite {p : Prop} [Decidable p] {s t u : State} (ht : p → untouched t = untouched s)
    (hu : ¬ p → untouched u = untouched s) : untouched (if p then t else u) = untouched s := by
  split
  · exact ht ‹_›
  · exact hu ‹_›

theorem untouched_guard {p : Prop} [Decidable p] {s t : State} (h : p → untouched t = untouched s) :
    untouched (if p then t else s) = untouched s := untouched_ite h fun _ => rfl

/-! ## Offers and work given up (R95, R111) -/

theorem untouched_pumpFetch (s : State) : untouched (pumpFetch s) = untouched s := untouched_of_offers (offers_pumpFetch s)

theorem untouched_pumpReconciler (s : State) : untouched (pumpReconciler s) = untouched s :=
  untouched_of_offers (offers_pumpReconciler s)

theorem untouched_pumpProfile (s : State) : untouched (pumpProfile s) = untouched s :=
  untouched_of_offers (offers_pumpProfile s)

theorem untouched_pumpResponder (s : State) : untouched (pumpResponder s) = untouched s :=
  untouched_of_offers (offers_pumpResponder s)

theorem untouched_pump (s : State) : untouched (pump s) = untouched s := untouched_of_offers (offers_pump s)

theorem untouched_offerSummary (s : State) : untouched (offerSummary s) = untouched s :=
  untouched_of_offers (offers_offerSummary s)

theorem untouched_expireSummary (s : State) : untouched (expireSummary s) = untouched s := untouched_offerSummary _

theorem untouched_endQueryOf (p : Station) (s : State) : untouched (endQueryOf p s) = untouched s :=
  untouched_of_withdraws (withdraws_endQueryOf p s)

theorem untouched_discardJobs (p : Station) (s : State) : untouched (discardJobs p s) = untouched s :=
  untouched_of_withdraws (withdraws_discardJobs p s)

theorem untouched_purgePeer (p : Station) (s : State) : untouched (purgePeer p s) = untouched s :=
  untouched_of_withdraws (withdraws_purgePeer p s)

theorem untouched_failBucketQuery (s : State) : untouched (failBucketQuery s) = untouched s :=
  untouched_of_withdraws (withdraws_failBucketQuery s)

theorem untouched_wantAdd (k : Key) (st : Stamp) (p : Station) (s : State) : untouched (wantAdd k st p s) = untouched s :=
  untouched_of_withdraws (withdraws_wantAdd k st p s)

theorem untouched_countAttempt (k : Key) (s : State) : untouched (countAttempt k s) = untouched s := by
  unfold countAttempt
  split
  · exact untouched_ite (fun _ => rfl) fun _ => rfl
  · rfl

/-! ## The Update Unit and the flash store (R31 to R75) -/

theorem untouched_spaceEvent (o s : State) : untouched (spaceEvent o s) = untouched s :=
  untouched_of_beyondStore (beyondStore_spaceEvent o s)

theorem untouched_settleStore (o s : State) : untouched (settleStore o s) = untouched s :=
  untouched_of_beyondStore (beyondStore_settleStore o s)

theorem untouched_placeArrival (r : Record) (source : Station) (s : State) :
    untouched (placeArrival r source s) = untouched s := by
  refine untouched_ite (fun _ => rfl) fun _ => ?_
  split
  · split
    · exact untouched_of_beyondStore (beyondStore_meetSlot ..)
    · rfl
  · refine untouched_ite (fun _ => untouched_of_beyondStore (beyondStore_setDiverged ..)) fun _ => ?_
    split
    · exact untouched_of_beyondStore (beyondStore_claimSlot ..)
    · exact untouched_wantAdd ..

theorem untouched_offerArrival (r : Record) (source : Station) (s : State) :
    untouched (offerArrival r source s) = untouched s :=
  (untouched_pumpFetch _).trans (untouched_ite (fun _ => rfl) fun _ =>
    (untouched_placeArrival ..).trans (untouched_of_beyondStore (beyondStore_raiseClock ..)))

theorem untouched_commitSlot (i : Fin 4) (x : Slot) (loc : Loc) (s : State) :
    untouched (commitSlot i x loc s) = untouched s :=
  (untouched_of_beyondStore ((beyondStore_releaseSlot ..).trans (beyondStore_reportCommit ..))).trans
    ((untouched_of_withdraws (withdraws_pruneWant ..)).trans (untouched_of_beyondStore (beyondStore_commitEntry ..)))

theorem untouched_passUpdate (i : Fin 4) (x : Slot) (loc : Loc) (o s : State) :
    untouched (passUpdate i x loc o s) = untouched s := by
  have news (t : State) : untouched (offerCommitNews x t) = untouched t := by
    unfold offerCommitNews
    split
    · exact untouched_ite (fun _ => rfl) fun _ => untouched_of_offers (offers_offerNews ..)
    · rfl
  exact (news _).trans ((untouched_pumpFetch _).trans ((untouched_settleStore ..).trans (untouched_commitSlot ..)))

/-! ## Resets (R79, R155 to R157) -/

theorem untouched_softResetStart (erased : List (Nat × Byte)) (s : State) :
    untouched (softResetStart erased s) = untouched s := by
  have abandoned : untouched (abandonRead (abandonErase erased s)) = untouched s :=
    untouched_of_beyondStore ((beyondStore_abandonRead _).trans (beyondStore_abandonErase erased s))
  exact untouched_ite (fun _ => rfl) fun _ => abandoned

theorem untouched_stopAll (cut : Cut) (s : State) : untouched (stopAll cut s) = untouched s := by
  rw [stopAll_eq]
  rfl

/-- The straps are sampled, so the own station number may change, but nothing else of the five (R155, R156). -/
theorem lasting_resetEnd (straps : Station) (s : State) : lasting (resetEnd straps s) = lasting s := by
  unfold resetEnd readArea
  dsimp only
  split <;> rfl

end Sys2Proof.Proofs
end

