-- ==== Sys2Proof/Proofs/Answers.lean ====
section
/-! PROOFS. Every command answers (R155, R156; logs 1 and 2): the meanings of the commands, none of which touches what
`untouched` names, and the ends of the resets, which sample the straps. -/

namespace Sys2Proof.Proofs
open Sys2Proof Sys2Proof.Machine Sys2Proof.Stated

/-- A command's meaning answers with a next state, and leaves untouched what no command touches. -/
def AnswersUntouched (s : State) (o : Host.Outcome State Fault Refusal) : Prop :=
  ∃ t, o = .next t ∧ untouched t = untouched s

theorem answersUntouched_next {s t : State} (h : untouched t = untouched s) : AnswersUntouched s (.next t) := ⟨t, rfl, h⟩

/-- A command that has an effect only where its guard holds. -/
theorem answersUntouched_guard {p : Prop} [Decidable p] {s t : State} (h : untouched t = untouched s) :
    AnswersUntouched s (.next (if p then t else s)) := answersUntouched_next (untouched_guard fun _ => h)

/-! ## Host commands -/

theorem answersUntouched_immediate {f : State → State} {s : State} (h : untouched (f s) = untouched s) :
    AnswersUntouched s (immediate f s) := answersUntouched_guard h

theorem answersUntouched_requestCommand {serve : State → State} {s : State} (h : ∀ t, untouched (serve t) = untouched t) :
    AnswersUntouched s (requestCommand serve s) :=
  answersUntouched_immediate (untouched_ite (fun _ => rfl) fun _ => h (accept s))

theorem untouched_takeEvent (s : State) : untouched (takeEvent s) = untouched s := by
  unfold takeEvent
  split <;> rfl

theorem answersUntouched_admission (k : Key) (tomb : Bool) (value : List Byte) (s : State) :
    AnswersUntouched s (requestCommand (fun t => spaceEvent t (localAdmission k tomb value t)) s) :=
  answersUntouched_requestCommand fun _ =>
    untouched_of_beyondStore ((beyondStore_spaceEvent ..).trans (beyondStore_localAdmission ..))

theorem untouched_serveRead (key : Key) (s : State) : untouched (serveRead key s) = untouched s := by
  unfold serveRead
  split
  · rfl
  · refine untouched_ite (fun _ => ?_) fun _ => rfl
    split <;> rfl

theorem untouched_serveList (start : Key) (s : State) : untouched (serveList start s) = untouched s := by
  unfold serveList
  split <;> rfl

theorem untouched_servePeers (s : State) : untouched (servePeers s) = untouched s := by
  unfold servePeers
  split <;> rfl

theorem untouched_serveSync (s : State) : untouched (serveSync s) = untouched s := by
  unfold serveSync
  split
  case h_5 => exact untouched_expireSummary _
  all_goals rfl

theorem untouched_serveProgram (offset : Byte) (given : List Byte) (s : State) :
    untouched (serveProgram offset given s) = untouched s := by
  unfold serveProgram
  split
  · rfl
  · exact untouched_ite (fun _ => rfl) fun _ => rfl

theorem untouched_serveLock (s : State) : untouched (serveLock s) = untouched s := by
  unfold serveLock
  split
  · rfl
  · split <;> rfl

theorem answersUntouched_transactionEnd (clocked : Nat) (s : State) :
    AnswersUntouched s (execTransactionEnd clocked s) := by
  refine answersUntouched_next ?_
  split <;> rfl

/-! ## The configuration area and the station's states -/

theorem answersUntouched_configProgramDone (failed : List Byte) (s : State) :
    AnswersUntouched s (execConfigProgramDone failed s) := by
  refine answersUntouched_next ?_
  split
  · exact untouched_ite (fun _ => rfl) fun _ => rfl
  all_goals rfl

theorem answersUntouched_lockCheckProgrammed (failed : List Byte) (s : State) :
    AnswersUntouched s (execLockCheckProgrammed failed s) := by
  refine answersUntouched_next ?_
  split
  · exact untouched_ite (fun _ => rfl) fun _ => untouched_ite (fun _ => rfl) fun _ => rfl
  all_goals rfl

theorem answersUntouched_lockMarkerProgrammed (failed : Byte) (s : State) :
    AnswersUntouched s (execLockMarkerProgrammed failed s) := by
  refine answersUntouched_next ?_
  split
  · exact untouched_ite (fun _ => rfl) fun _ => untouched_ite (fun _ => untouched_softResetStart [] _) fun _ => rfl
  all_goals rfl

theorem answersUntouched_startUpScanEnd (s : State) : AnswersUntouched s (execStartUpScanEnd s) :=
  answersUntouched_guard
    ((untouched_of_beyondStore ((beyondStore_advanceWalk _).trans (beyondStore_nextRun _))).trans rfl)

theorem answersUntouched_listeningPeriodEnd (s : State) : AnswersUntouched s (execListeningPeriodEnd s) := by
  have offered (t : State) :
      untouched (post (.stationState .active) (pumpFetch (pumpReconciler (pumpProfile (expireSummary t))))) = untouched t :=
    (untouched_pumpFetch _).trans ((untouched_pumpReconciler _).trans ((untouched_pumpProfile _).trans
      (untouched_expireSummary t)))
  exact answersUntouched_guard (offered _)

/-! ## The line -/

theorem answersUntouched_frameStart (s : State) : AnswersUntouched s (execFrameStart s) := by
  refine answersUntouched_guard ?_
  split <;> rfl

theorem untouched_hearPeer (p : Station) (id : Option (BitVec 32)) (s : State) :
    untouched (hearPeer p id s) = untouched s := by
  obtain ⟨new, -, heffect⟩ := hearPeer_heard p id s
  rw [heffect, peerTaken]
  split <;> rfl

theorem untouched_endGood (f : Frame) (s : State) : untouched (endGood f s) = untouched s := by
  refine untouched_ite (fun _ => untouched_ite (fun _ => rfl) fun _ => rfl) fun _ => ?_
  have received (t : State) : untouched (receive f t) = untouched t := untouched_guard fun _ => rfl
  exact (untouched_pump _).trans ((received _).trans (untouched_hearPeer ..))

theorem answersUntouched_frameEndGood (bytes : List Byte) (s : State) : AnswersUntouched s (execFrameEndGood bytes s) := by
  refine answersUntouched_guard ?_
  split
  · exact untouched_endGood ..
  · rfl

theorem untouched_beginSending (s : State) : untouched (beginSending s) = untouched s := by
  unfold beginSending
  split
  · split <;> rfl
  · rfl

theorem answersUntouched_slotStart (s : State) : AnswersUntouched s (execSlotStart s) := by
  have counted (t : State) : untouched (countSlot t) = untouched t := rfl
  exact answersUntouched_guard ((counted _).trans (untouched_guard fun _ => untouched_beginSending s))

theorem answersUntouched_collisionDetected (s : State) : AnswersUntouched s (execCollisionDetected s) := by
  refine answersUntouched_next ?_
  split
  · rfl
  · refine untouched_ite (fun _ => rfl) fun _ => ?_
    split <;> rfl

theorem untouched_reportSent (r : Option Requester) (s : State) : untouched (reportSent r s) = untouched s := by
  unfold reportSent
  split
  · split <;> rfl
  · split <;> rfl
  · split <;> rfl
  · rfl
  · rfl

theorem answersUntouched_transmitEnd (s : State) : AnswersUntouched s (execTransmitEnd s) := by
  refine answersUntouched_next ?_
  split
  · rfl
  · refine untouched_ite (fun _ => rfl) fun _ => ?_
    split
    · rfl
    · exact untouched_reportSent ..

theorem answersUntouched_waitingFramePlaced (s : State) : AnswersUntouched s (execWaitingFramePlaced s) := by
  have placed (r : Requester) (t : State) : untouched (pumpResponder (placeFor r t)) = untouched t :=
    (untouched_pumpResponder _).trans (untouched_of_offers (offers_placeFor r t))
  refine answersUntouched_next ?_
  split
  · exact untouched_guard fun _ => placed ..
  · rfl

/-! ## Takings -/

theorem answersUntouched_takeFrame {k : FrameKind} {use : Frame → State → State} {s : State}
    (h : ∀ f t, untouched (use f t) = untouched t) : AnswersUntouched s (takeFrame k use s) := by
  refine answersUntouched_guard ?_
  split
  · exact untouched_guard fun _ => h ..
  · rfl

theorem untouched_useNews (f : Frame) (s : State) : untouched (useNews f s) = untouched s := by
  refine untouched_guard fun _ => ?_
  split
  · exact (untouched_spaceEvent ..).trans (untouched_offerArrival ..)
  · rfl

theorem untouched_settleSupply (source : Station) (echo : Byte) (key : Key) (r : Option Record) (s : State) :
    untouched (settleSupply source echo key r s) = untouched s := by
  unfold settleSupply
  split
  · split
    · exact untouched_offerArrival ..
    · exact untouched_pumpFetch _
  · split
    · exact untouched_offerArrival ..
    · rfl

theorem untouched_useSupply (f : Frame) (s : State) : untouched (useSupply f s) = untouched s := by
  refine untouched_guard fun _ => ?_
  split
  · exact (untouched_spaceEvent ..).trans (untouched_settleSupply ..)
  · rfl

theorem untouched_useSummary (f : Frame) (s : State) : untouched (useSummary f s) = untouched s := by
  have raised : untouched (raiseClock (longAt f.payload 0) s) = untouched s :=
    untouched_of_beyondStore (beyondStore_raiseClock ..)
  exact untouched_guard fun _ =>
    untouched_ite (fun _ => (untouched_pumpReconciler _).trans raised) fun _ => raised

theorem untouched_useProfile (f : Frame) (s : State) : untouched (useProfile f s) = untouched s :=
  untouched_guard fun _ => (untouched_pump _).trans (untouched_endQueryOf ..)

theorem untouched_takePart (f : Frame) (p : Pair) (placed : Placed) (expected : Nat) (s : State) :
    untouched (takePart f p placed expected s) = untouched s := by
  have entry (t : State) (h : HeardEntry) : untouched (compareEntry f.source p.bucket t h) = untouched t := by
    unfold compareEntry
    split
    · exact untouched_wantAdd ..
    · rfl
  have compared (l : List HeardEntry) (t : State) :
      untouched (l.foldl (compareEntry f.source p.bucket) t) = untouched t := by
    induction l generalizing t with
    | nil => rfl
    | cons h l ih => exact (ih _).trans (entry t h)
  refine untouched_ite (fun _ => ?_) fun _ => (untouched_pumpFetch _).trans (compared _ s)
  exact (untouched_pumpFetch _).trans ((untouched_pumpReconciler _).trans
    ((untouched_of_withdraws (withdraws_finishQuery _)).trans (compared _ s)))

theorem untouched_useBucketReply (f : Frame) (s : State) : untouched (useBucketReply f s) = untouched s := by
  unfold useBucketReply
  split
  · refine untouched_ite (fun _ => rfl) fun _ => untouched_ite (fun _ => ?_) fun _ => untouched_takePart ..
    exact (untouched_pumpReconciler _).trans (untouched_failBucketQuery s)
  all_goals rfl

theorem untouched_acceptRequest (f : Frame) (kind : JobKind) (s : State) :
    untouched (acceptRequest f kind s) = untouched s := by
  have added (job : Job) : untouched (addJob job s) = untouched s :=
    untouched_ite (fun _ => rfl) fun _ => untouched_guard fun _ => rfl
  exact untouched_guard fun _ => (untouched_pumpResponder _).trans (added _)

/-! ## Timers -/

theorem answersUntouched_bucketReplyTimeout (s : State) : AnswersUntouched s (execBucketReplyTimeout s) := by
  refine answersUntouched_guard ?_
  split
  · exact (untouched_pumpReconciler _).trans (untouched_failBucketQuery s)
  all_goals rfl

theorem answersUntouched_fetchReplyTimeout (i : Fin 4) (s : State) : AnswersUntouched s (execFetchReplyTimeout i s) := by
  refine answersUntouched_guard ?_
  split
  · exact (untouched_pumpFetch _).trans (untouched_countAttempt ..)
  all_goals rfl

theorem answersUntouched_silenceLimit (p : Station) (s : State) : AnswersUntouched s (execSilenceLimit p s) :=
  answersUntouched_guard ((untouched_pump _).trans (untouched_purgePeer ..))

theorem answersUntouched_absenceLimit (p : Station) (s : State) : AnswersUntouched s (execAbsenceLimit p s) :=
  answersUntouched_guard ((untouched_pump _).trans ((untouched_endQueryOf ..).trans (untouched_discardJobs ..)))

/-! ## The arbiter and the completions -/

theorem answersUntouched_readGrant (s : State) : AnswersUntouched s (execReadGrant s) := by
  refine answersUntouched_guard ?_
  split <;> rfl

theorem answersUntouched_appendGrant (s : State) : AnswersUntouched s (execAppendGrant s) := by
  refine answersUntouched_guard ?_
  split
  · exact untouched_of_beyondStore ((beyondStore_settleStore ..).trans (beyondStore_grantSlot ..))
  · exact untouched_of_beyondStore ((beyondStore_settleStore ..).trans (beyondStore_grantCopy _))
  · rfl

theorem answersUntouched_markGrant (s : State) : AnswersUntouched s (execMarkGrant s) := by
  refine answersUntouched_guard ?_
  split <;> rfl

theorem answersUntouched_hostReadDone (s : State) : AnswersUntouched s (execHostReadDone s) := by
  refine answersUntouched_next ?_
  split
  · unfold answerRead
    split
    · split <;> rfl
    all_goals rfl
  all_goals rfl

theorem untouched_buildSupply (found : ImageRead) (s : State) : untouched (buildSupply found s) = untouched s := by
  have placed (t : State) : untouched (pumpResponder (placeReply t)) = untouched t :=
    (untouched_pumpResponder _).trans (untouched_of_offers (offers_placeReply t))
  unfold buildSupply
  split
  · exact untouched_ite (fun _ => placed _) fun _ => rfl
  all_goals rfl

theorem answersUntouched_responderReadDone (s : State) : AnswersUntouched s (execResponderReadDone s) := by
  refine answersUntouched_next ?_
  split
  · exact untouched_buildSupply _ (clearOp s)
  all_goals rfl

theorem answersUntouched_compactionReadDone (s : State) : AnswersUntouched s (execCompactionReadDone s) := by
  refine answersUntouched_next ?_
  split
  · exact untouched_of_beyondStore ((beyondStore_settleStore ..).trans (beyondStore_walkOn ..))
  all_goals rfl

theorem answersUntouched_updateProgramDone (failed : List Byte) (s : State) :
    AnswersUntouched s (execUpdateProgramDone failed s) := by
  refine answersUntouched_next ?_
  split
  · rename_i loc opening image _
    have programmed := untouched_of_beyondStore (beyondStore_programAppend loc opening image failed 0 s)
    refine untouched_ite (fun _ => programmed) fun _ => ?_
    split
    · exact untouched_ite (fun _ => (untouched_passUpdate ..).trans programmed) fun _ =>
        (untouched_of_beyondStore (beyondStore_failUpdate ..)).trans programmed
    · exact programmed
  all_goals rfl

theorem answersUntouched_copyProgramDone (failed : List Byte) (s : State) :
    AnswersUntouched s (execCopyProgramDone failed s) := by
  refine answersUntouched_next ?_
  split
  · rename_i loc opening image _
    have programmed := untouched_of_beyondStore (beyondStore_programAppend loc opening image failed 0 s)
    refine untouched_ite (fun _ => programmed) fun _ => ?_
    split
    · refine (untouched_settleStore ..).trans (untouched_ite (fun _ => ?_) fun _ => programmed)
      exact (untouched_of_beyondStore (beyondStore_passCopy ..)).trans programmed
    · exact programmed
  all_goals rfl

theorem answersUntouched_reclaimMarkDone (s : State) : AnswersUntouched s (execReclaimMarkDone s) := by
  refine answersUntouched_next ?_
  split
  · exact untouched_ite (fun _ => rfl) fun _ => untouched_settleStore ..
  all_goals rfl

theorem answersUntouched_eraseMarkDone (s : State) : AnswersUntouched s (execEraseMarkDone s) := by
  refine answersUntouched_next ?_
  split
  · exact untouched_ite (fun _ => rfl) fun _ => untouched_settleStore ..
  all_goals rfl

theorem answersUntouched_eraseDone (failed : List (Nat × Byte)) (b : Byte) (s : State) :
    AnswersUntouched s (execEraseDone failed b s) := by
  refine answersUntouched_next ?_
  split
  · exact untouched_guard fun _ => untouched_ite (fun _ => rfl) fun _ =>
      untouched_of_beyondStore ((beyondStore_settleStore ..).trans (beyondStore_retire ..))
  · rfl

theorem answersUntouched_eraseCountProgrammed (s : State) : AnswersUntouched s (execEraseCountProgrammed s) := by
  refine answersUntouched_next ?_
  split
  · exact untouched_guard fun _ => untouched_ite (fun _ => rfl) fun _ =>
      untouched_of_beyondStore ((beyondStore_settleStore ..).trans (beyondStore_nextRun _))
  · rfl

/-! ## Every command -/

/-- The own station number is sampled from the straps at the end of a reset (R155). -/
def SamplesStraps (c : Instr) (p : Station) : Prop := c = .powerOnResetEnd p ∨ c = .pinResetEnd p ∨ c = .softResetWaitEnd p

theorem answersUntouched_exec {c : Instr} (hc : ∀ p, ¬ SamplesStraps c p) (s : State) : AnswersUntouched s (exec c s) := by
  cases c with
  | status => exact answersUntouched_immediate rfl
  | getReply => exact answersUntouched_immediate rfl
  | readEvent => exact answersUntouched_immediate (untouched_takeEvent s)
  | readProfile offset => exact answersUntouched_immediate rfl
  | softReset erased => exact answersUntouched_immediate (untouched_softResetStart erased s)
  | ackDiverged => exact answersUntouched_guard rfl
  | writeRecord key value => exact answersUntouched_admission key false value s
  | deleteRecord key => exact answersUntouched_admission key true [] s
  | readRecord key => exact answersUntouched_requestCommand (untouched_serveRead key)
  | listKeys start => exact answersUntouched_requestCommand (untouched_serveList start)
  | readPeers => exact answersUntouched_requestCommand untouched_servePeers
  | syncNow => exact answersUntouched_requestCommand untouched_serveSync
  | programConfig offset bytes => exact answersUntouched_requestCommand (untouched_serveProgram offset bytes)
  | lockConfig => exact answersUntouched_requestCommand untouched_serveLock
  | unknownCommand code => exact answersUntouched_immediate rfl
  | transactionEnd clocked => exact answersUntouched_transactionEnd clocked s
  | configProgramDone failed => exact answersUntouched_configProgramDone failed s
  | lockCheckProgrammed failed => exact answersUntouched_lockCheckProgrammed failed s
  | lockMarkerProgrammed failed => exact answersUntouched_lockMarkerProgrammed failed s
  | powerOnReset cut => exact answersUntouched_next (untouched_stopAll cut s)
  | powerOnResetEnd p => exact absurd (.inl rfl) (hc p)
  | pinReset cut => exact answersUntouched_next (untouched_stopAll cut s)
  | pinResetEnd p => exact absurd (.inr (.inl rfl)) (hc p)
  | softResetWaitEnd p => exact absurd (.inr (.inr rfl)) (hc p)
  | startUpScanEnd => exact answersUntouched_startUpScanEnd s
  | listeningPeriodEnd => exact answersUntouched_listeningPeriodEnd s
  | settlingEnd => exact answersUntouched_guard rfl
  | frameStart => exact answersUntouched_frameStart s
  | frameEndGood bytes => exact answersUntouched_frameEndGood bytes s
  | frameEndGarbled => exact answersUntouched_guard rfl
  | guardEnd => exact answersUntouched_guard rfl
  | slotStart => exact answersUntouched_slotStart s
  | cycleEnd => exact answersUntouched_guard rfl
  | collisionDetected => exact answersUntouched_collisionDetected s
  | transmitEnd => exact answersUntouched_transmitEnd s
  | waitingFramePlaced => exact answersUntouched_waitingFramePlaced s
  | newsTaken => exact answersUntouched_takeFrame untouched_useNews
  | supplyTaken => exact answersUntouched_takeFrame untouched_useSupply
  | summaryTaken => exact answersUntouched_takeFrame untouched_useSummary
  | profileTaken => exact answersUntouched_takeFrame untouched_useProfile
  | bucketReplyTaken => exact answersUntouched_takeFrame untouched_useBucketReply
  | fetchTaken =>
    exact answersUntouched_takeFrame fun f t => untouched_guard fun _ => untouched_acceptRequest f _ t
  | bucketQueryTaken =>
    exact answersUntouched_takeFrame fun f t => untouched_guard fun _ => untouched_acceptRequest f _ t
  | profileQueryTaken =>
    exact answersUntouched_takeFrame fun f t => untouched_guard fun _ => untouched_acceptRequest f _ t
  | summaryTimerExpiry => exact answersUntouched_guard (untouched_expireSummary s)
  | profileReplyTimeout => exact answersUntouched_guard (untouched_pumpProfile _)
  | bucketReplyTimeout => exact answersUntouched_bucketReplyTimeout s
  | fetchReplyTimeout slot => exact answersUntouched_fetchReplyTimeout slot s
  | silenceLimit peer => exact answersUntouched_silenceLimit peer s
  | absenceLimit peer => exact answersUntouched_absenceLimit peer s
  | duplicateMarkExpiry peer => exact answersUntouched_guard (untouched_pumpProfile _)
  | readGrant => exact answersUntouched_readGrant s
  | appendGrant => exact answersUntouched_appendGrant s
  | markGrant => exact answersUntouched_markGrant s
  | eraseGrant => exact answersUntouched_guard rfl
  | eraseSuspended => exact answersUntouched_guard rfl
  | eraseResume => exact answersUntouched_guard rfl
  | hostReadDone => exact answersUntouched_hostReadDone s
  | responderReadDone => exact answersUntouched_responderReadDone s
  | compactionReadDone => exact answersUntouched_compactionReadDone s
  | updateProgramDone failed => exact answersUntouched_updateProgramDone failed s
  | copyProgramDone failed => exact answersUntouched_copyProgramDone failed s
  | reclaimMarkDone => exact answersUntouched_reclaimMarkDone s
  | eraseMarkDone => exact answersUntouched_eraseMarkDone s
  | eraseDone failed markerFailed => exact answersUntouched_eraseDone failed markerFailed s
  | settlingCarrier => exact answersUntouched_guard rfl
  | eraseCountProgrammed => exact answersUntouched_eraseCountProgrammed s

theorem lasting_guard {p : Prop} [Decidable p] {s t : State} (h : lasting t = lasting s) :
    lasting (if p then t else s) = lasting s := by
  split
  · exact h
  · rfl

/-- One cause of a reset is over: the part is held by the other, or the reset ends (R156; log 14). -/
theorem lasting_causeOver {held : Bool} (straps : Station) (s : State) :
    lasting (if held then s else resetEnd straps s) = lasting s := by
  split
  · rfl
  · exact lasting_resetEnd straps s

theorem lasting_exec_of_samplesStraps {c : Instr} {p : Station} (hc : SamplesStraps c p) (s : State) :
    ∃ t, exec c s = .next t ∧ lasting t = lasting s := by
  obtain rfl | rfl | rfl := hc
  · exact ⟨_, rfl, lasting_guard (lasting_causeOver p { s with ctl := { s.ctl with power := false } })⟩
  · exact ⟨_, rfl, lasting_guard (lasting_causeOver p { s with ctl := { s.ctl with pin := false } })⟩
  · exact ⟨_, rfl, lasting_guard (lasting_resetEnd p s)⟩

/-- Settles O2: but for the ends of resets every command leaves all five untouched; those sample the own station number. -/
theorem everyCommandAnswers : Obligations.EveryCommandAnswers := by
  intro c s
  by_cases hc : ∃ p, SamplesStraps c p
  · obtain ⟨p, hp⟩ := hc
    obtain ⟨t, ht, hlasting⟩ := lasting_exec_of_samplesStraps hp s
    simp only [lasting, Prod.mk.injEq] at hlasting
    obtain ⟨hpending, hnow, hid, hrevision⟩ := hlasting
    refine ⟨t, ht, hpending, hnow, hid, hrevision, fun hnot => ?_⟩
    obtain ⟨hpower, hpin, hsoft⟩ := hnot p
    exact absurd hp (not_or.2 ⟨hpower, not_or.2 ⟨hpin, hsoft⟩⟩)
  · obtain ⟨t, ht, huntouched⟩ := answersUntouched_exec (not_exists.1 hc) s
    simp only [untouched, lasting, Prod.mk.injEq] at huntouched
    obtain ⟨⟨hpending, hnow, hid, hrevision⟩, hown⟩ := huntouched
    exact ⟨t, ht, hpending, hnow, hid, hrevision, fun _ => hown⟩

end Sys2Proof.Proofs
end

