-- ==== Sys2Proof/Proofs/HostBytes.lean ====
section
/-! PROOFS. The bytes of a host command are taken as the command at the last of them, and no sooner (R169, R187). -/

namespace Sys2Proof.Proofs
open Sys2Proof Sys2Proof.Machine

/-! ## The last argument byte (R169) -/

/-- A reading finds the command at the last of these bytes: whatever follows them, and no sooner. -/
def TakenAtLast (read : List Byte → Option Instr) (bytes : List Byte) (c : Instr) : Prop :=
  (∀ extra, read (bytes ++ extra) = some c) ∧ ∀ n, n < bytes.length → read (bytes.take n) = none

theorem takenAtLast_nil {read : List Byte → Option Instr} {c : Instr} (h : ∀ extra, read extra = some c) :
    TakenAtLast read [] c :=
  ⟨h, nofun⟩

/-- One byte more: before it nothing is taken, and after it the other bytes are read on. -/
theorem takenAtLast_cons {read : List Byte → Option Instr} {b : Byte} {bytes : List Byte} {c : Instr}
    (hnone : read [] = none) (h : TakenAtLast (fun l => read (b :: l)) bytes c) : TakenAtLast read (b :: bytes) c := by
  obtain ⟨htaken, hshort⟩ := h
  refine ⟨htaken, fun n hn => ?_⟩
  cases n with
  | zero => exact hnone
  | succ n => exact hshort n (Nat.lt_of_succ_lt_succ hn)

/-! ## Counted bytes (R161, R172) -/

/-- The command of as many bytes as a count byte says; none while one of them is missing. -/
def countedCommand (f : List Byte → Instr) (count : Byte) (rest : List Byte) : Option Instr :=
  if count.toNat ≤ rest.length then some (f (rest.take count.toNat)) else none

theorem takenAtLast_counted (f : List Byte → Instr) {bytes : List Byte} (h : bytes.length ≤ 255) :
    TakenAtLast (countedCommand f (BitVec.ofNat 8 bytes.length)) bytes (f bytes) := by
  have hcount : (BitVec.ofNat 8 bytes.length).toNat = bytes.length := by
    rw [BitVec.toNat_ofNat, Nat.mod_eq_of_lt (Nat.lt_succ_of_le h)]
  refine ⟨fun extra => ?_, fun n hn => ?_⟩
  · rw [countedCommand, hcount, if_pos (by simp), List.take_left]
  · rw [countedCommand, hcount, if_neg (by simpa using hn)]

/-! ## The codes (R187) -/

theorem takenCommand_writeRecord (key : Key) (len : Byte) (rest : List Byte) :
    takenCommand (0x10 :: be16 key ++ len :: rest) = countedCommand (.writeRecord key) len rest := by
  show countedCommand (.writeRecord (ofBe16 (key.extractLsb' 8 8) (key.extractLsb' 0 8))) len rest = _
  rw [ofBe16, word16_of_bytes]

theorem takenCommand_programConfig (offset count : Byte) (rest : List Byte) :
    takenCommand (0x16 :: offset :: count :: rest) = countedCommand (.programConfig offset) count rest := rfl

/-- A code that names no command is taken by itself (R169). -/
theorem takenCommand_unknown {code : Byte} (h : commandCodes.contains code = false) (args : List Byte) :
    takenCommand (code :: args) = some (.unknownCommand code) := by
  simp only [commandCodes, List.contains_eq_mem, decide_eq_false_iff_not, List.mem_cons, List.not_mem_nil, or_false,
    not_or] at h
  obtain ⟨h01, h02, h03, h04, h05, h06, h10, h11, h12, h13, h14, h15, h16, h17⟩ := h
  unfold takenCommand
  dsimp only
  rw [if_neg h01, if_neg h02, if_neg h03, if_neg h04, if_neg h05, if_neg h06, if_neg h10, if_neg h11, if_neg h12,
    if_neg h13, if_neg h14, if_neg h15, if_neg h16, if_neg h17]

theorem takenAtLast_code {code : Byte} {c : Instr} (h : ∀ extra, takenCommand (code :: extra) = some c) :
    TakenAtLast takenCommand [code] c :=
  takenAtLast_cons rfl (takenAtLast_nil h)

/-- A code whose one argument is a key. -/
theorem takenAtLast_key {code : Byte} {f : Key → Instr} (hcode : takenCommand [code] = none)
    (hhigh : ∀ hi, takenCommand [code, hi] = none)
    (h : ∀ hi lo extra, takenCommand (code :: hi :: lo :: extra) = some (f (ofBe16 hi lo))) (k : Key) :
    TakenAtLast takenCommand (code :: be16 k) (f k) := by
  refine takenAtLast_cons rfl <| takenAtLast_cons hcode <| takenAtLast_cons (hhigh _) <| takenAtLast_nil fun extra => ?_
  rw [h, ofBe16, word16_of_bytes]

theorem takenAtLast_writeRecord (key : Key) {value : List Byte} (h : value.length ≤ 255) :
    TakenAtLast takenCommand (0x10 :: be16 key ++ BitVec.ofNat 8 value.length :: value) (.writeRecord key value) := by
  refine takenAtLast_cons rfl <| takenAtLast_cons rfl <| takenAtLast_cons rfl <| takenAtLast_cons rfl ?_
  rw [show (fun l => takenCommand (_ :: _ :: _ :: _ :: l)) = countedCommand (.writeRecord key) _ from
    funext (takenCommand_writeRecord key _)]
  exact takenAtLast_counted _ h

theorem takenAtLast_programConfig (offset : Byte) {bytes : List Byte} (h : bytes.length ≤ 255) :
    TakenAtLast takenCommand (0x16 :: offset :: BitVec.ofNat 8 bytes.length :: bytes) (.programConfig offset bytes) :=
  takenAtLast_cons rfl <| takenAtLast_cons rfl <| takenAtLast_cons rfl (takenAtLast_counted _ h)

/-! ## The obligation -/

/-- Settles O5, by the arguments of each host command; the other commands have no bytes on SPI. -/
theorem hostCommandsAreTaken : Obligations.HostCommandsAreTaken := by
  intro c bytes hwf hbytes hsoft
  show TakenAtLast takenCommand bytes c
  cases c with
  | status | getReply | readEvent | ackDiverged | readPeers | syncNow | lockConfig =>
    obtain rfl := Option.some.inj hbytes
    exact takenAtLast_code fun _ => rfl
  | softReset erased =>
    obtain rfl := Option.some.inj hbytes
    rw [hsoft erased rfl]
    exact takenAtLast_code fun _ => rfl
  | unknownCommand code =>
    obtain rfl := Option.some.inj hbytes
    exact takenAtLast_code (takenCommand_unknown (by simpa [Instr.wellFormed] using hwf))
  | readProfile offset =>
    obtain rfl := Option.some.inj hbytes
    exact takenAtLast_cons rfl <| takenAtLast_cons rfl <| takenAtLast_nil fun _ => rfl
  | deleteRecord key | readRecord key | listKeys key =>
    obtain rfl := Option.some.inj hbytes
    exact takenAtLast_key rfl (fun _ => rfl) (fun _ _ _ => rfl) key
  | writeRecord key value =>
    obtain rfl := Option.some.inj hbytes
    exact takenAtLast_writeRecord key (of_decide_eq_true hwf)
  | programConfig offset given =>
    obtain rfl := Option.some.inj hbytes
    exact takenAtLast_programConfig offset (of_decide_eq_true hwf)
  | _ => exact nomatch hbytes

end Sys2Proof.Proofs
end

