-- ==== Sys2Proof/Proofs/HostPort.lean ====
section
/-! PROOFS. The host port's answers (R170, R171, R173, R177): HOST_BUSY, READ_RECORD, STATUS and GET_REPLY; and what the
end of a transaction leaves (R169, R171, R180). -/

namespace Sys2Proof.Proofs
open Sys2Proof Sys2Proof.Machine Sys2Proof.Stated

/-! ## Requests refused while one is in progress (R170) -/

/-- The eight request commands all go through `requestCommand`. -/
theorem exec_of_isRequest {c : Instr} (h : isRequest c) : ∃ serve, ∀ s, exec c s = requestCommand serve s := by
  obtain ⟨key, value, rfl⟩ | ⟨key, rfl⟩ | ⟨key, rfl⟩ | ⟨start, rfl⟩ | rfl | rfl | ⟨offset, bytes, rfl⟩ | rfl := h
  · exact ⟨_, exec_writeRecord key value⟩
  · exact ⟨_, exec_deleteRecord key⟩
  · exact ⟨_, exec_readRecord key⟩
  · exact ⟨_, exec_listKeys start⟩
  · exact ⟨_, exec_readPeers⟩
  · exact ⟨_, exec_syncNow⟩
  · exact ⟨_, exec_programConfig offset bytes⟩
  · exact ⟨_, exec_lockConfig⟩

theorem requestCommand_busy {s : State} (hp : PortOpen s) (h : s.host.request ≠ none) (serve : State → State) :
    requestCommand serve s = .next (openTxn .plain [hostBusyCode] s) := by
  rw [requestCommand, immediate_of_portOpen hp, if_pos (Option.isSome_iff_ne_none.2 h)]

/-- Settles O12. -/
theorem hostBusyChangesNothing : Obligations.HostBusyChangesNothing := by
  intro s c hp hbusy hc
  obtain ⟨serve, hexec⟩ := exec_of_isRequest hc
  rw [hexec, requestCommand_busy hp hbusy]
  rfl

/-! ## READ_RECORD (R173) -/

theorem serveRead_of_refused {s : State} {code : ResultCode} (k : Key) (h : notServing s = some code) :
    serveRead k s = complete (.code code) s := by
  unfold serveRead
  rw [h]

theorem serveRead_of_invalid {s : State} {k : Key} (hs : Serving s) (h : validKey k = false) :
    serveRead k s = complete (.code .badKey) s := by
  unfold serveRead
  rw [notServing_of_serving hs]
  exact if_neg (Bool.not_eq_true _ ▸ h)

theorem serveRead_of_valid {s : State} {k : Key} (hs : Serving s) (h : validKey k = true) :
    serveRead k s =
      (lookup s k).elim (complete (.code .notFound) s) fun e =>
        placeRead .host e.loc { s with host := { s.host with request := some (.readRecord e) } } := by
  unfold serveRead
  rw [notServing_of_serving hs]
  dsimp only
  rw [if_pos h]
  cases lookup s k <;> rfl

/-- Settles O15: refused by the station's state, else by the key and what the directory has of it. -/
theorem readRecordLooksUp : Obligations.ReadRecordLooksUp := by
  intro s k hp
  rw [exec_readRecord, execReadRecord, requestCommand_free hp]
  refine ⟨fun hst => ?_, fun hst => ?_, fun hs hbad => ?_, fun hs hzero hones hnone => ?_, fun e hs hfound => ?_⟩
  · rw [serveRead_of_refused k (notServing_of_starting (s := accept s) hst), complete_accept]
  · rw [serveRead_of_refused k (notServing_of_unconfigured (s := accept s) hst), complete_accept]
  · rw [serveRead_of_invalid (s := accept s) hs (validKey_eq_false_iff.2 hbad), complete_accept]
  · have absent : lookup (accept s) k = none := hnone
    rw [serveRead_of_valid (s := accept s) hs (validKey_iff.2 ⟨hzero, hones⟩), absent, Option.elim_none, complete_accept]
  · have found : lookup (accept s) k = some e := hfound
    rw [serveRead_of_valid (s := accept s) hs (validKey_of_lookup hfound), found]
    rfl

/-! ## STATUS (R177) -/

theorem be16_ofNat (n : Nat) : be16 (BitVec.ofNat 16 n) = [BitVec.ofNat 8 (n / 256), BitVec.ofNat 8 n] := by
  have high : (BitVec.ofNat 16 n).extractLsb' 8 8 = BitVec.ofNat 8 (n / 256) := by
    apply BitVec.eq_of_toNat_eq
    simp [Nat.shiftRight_eq_div_pow]
    omega
  have low : (BitVec.ofNat 16 n).extractLsb' 0 8 = BitVec.ofNat 8 n := by
    apply BitVec.eq_of_toNat_eq
    simp
  rw [be16, high, low]

/-- Settles O7: the ten bytes, of which the entry count takes two. -/
theorem statusReadsTheStation : Obligations.StatusReadsTheStation := by
  intro s hp
  rw [exec_status, execStatus, immediate_of_portOpen hp, statusBytes, be16_ofNat]
  rfl

/-! ## The end of a transaction (R169, R171, R180) -/

theorem exec_transactionEnd_of_txn {s : State} {t : Transaction} (h : s.host.txn = some t) (clocked : Nat) :
    exec (.transactionEnd clocked) s = .next { s with host := endTxn t clocked s.host } := by
  rw [exec_transactionEnd, execTransactionEnd, h]

theorem endTxn_plain (out : List Byte) (clocked : Nat) (h : HostPort) :
    endTxn { kind := .plain, out := out } clocked h = { h with txn := none } := rfl

theorem endTxn_reply {h : HostPort} {r : HeldReply} (hr : h.reply = some r) (out : List Byte) (clocked : Nat) :
    endTxn { kind := .reply, out := out } clocked h =
      { h with txn := none, reply := some { r with read := if out.length ≤ clocked then true else r.read } } := by
  unfold endTxn
  dsimp only
  split
  · rw [markRead, hr]
    rfl
  · rw [← hr]

/-- Short of its six bytes an event is lost, and the lost count saturates at 255 (R179, R180). -/
theorem endTxn_event (out : List Byte) (clocked : Nat) (h : HostPort) :
    endTxn { kind := .event, out := out } clocked h =
      { h with txn := none, lost := if clocked < 6 ∧ h.lost ≠ 255 then h.lost + 1 else h.lost } := by
  unfold endTxn bumpLost
  dsimp only
  by_cases hcut : clocked < 6
  · by_cases hfull : h.lost = 255
    · rw [if_pos hcut, if_pos hfull, if_neg (by simp [hfull])]
    · rw [if_pos hcut, if_neg hfull, if_pos ⟨hcut, hfull⟩]
  · rw [if_neg hcut, if_neg (by simp [hcut])]

/-! ## GET_REPLY (R171) -/

theorem replyAnswer_of_request {s : State} (h : s.host.request ≠ none) : replyAnswer s = (.plain, [0x04]) :=
  if_pos (Option.isSome_iff_ne_none.2 h)

theorem replyAnswer_of_no_request {s : State} (h : s.host.request = none) :
    replyAnswer s = s.host.reply.elim (.plain, [0x05]) fun r => (.reply, r.reply.bytes) := by
  unfold replyAnswer
  rw [h]
  cases s.host.reply <;> rfl

theorem exec_getReply_of_portOpen {s : State} (hp : PortOpen s) :
    exec .getReply s = .next (openTxn (replyAnswer s).1 (replyAnswer s).2 s) := by
  rw [exec_getReply, execGetReply, immediate_of_portOpen hp]

/-- Settles O8: `replyAnswer` by the request and the Reply Buffer, and `endTxn` of a reply. -/
theorem getReplyReturnsTheBuffer : Obligations.GetReplyReturnsTheBuffer := by
  refine ⟨fun s hp => ⟨fun hbusy => ?_, fun hfree hempty => ?_, fun r hfree hr => ?_⟩, fun s out r clocked ht hr => ?_⟩
  · rw [exec_getReply_of_portOpen hp, replyAnswer_of_request hbusy]
    rfl
  · rw [exec_getReply_of_portOpen hp, replyAnswer_of_no_request hfree, hempty]
    rfl
  · rw [exec_getReply_of_portOpen hp, replyAnswer_of_no_request hfree, hr]
    rfl
  · rw [exec_transactionEnd_of_txn ht, endTxn_reply hr]

end Sys2Proof.Proofs
end

