-- ==== Sys2Proof/Proofs/EventQueue.lean ====
section
/-! PROOFS. The Event Queue: READ_EVENT (R180), the treatments of a posting (R179), and when HIRQ is asserted (R171, R181). -/

namespace Sys2Proof.Proofs
open Sys2Proof Sys2Proof.Machine Sys2Proof.Stated

/-! ## READ_EVENT (R180) -/

theorem length_eventBytes (e : Event) : e.bytes.length = 6 := by
  cases e with
  | diverged reason => cases reason <;> rfl
  | storeAlert kind => cases kind <;> rfl
  | _ => rfl

theorem takeEvent_nil {s : State} (h : s.host.events = []) :
    takeEvent s =
      openTxn .plain [0, 0, 0, 0, 0, 0, 0, s.host.lost] { s with host := { s.host with lost := 0 } } := by
  unfold takeEvent
  rw [h]
  rfl

theorem takeEvent_cons {s : State} {e : Event} {rest : List Event} (h : s.host.events = e :: rest) :
    takeEvent s =
      openTxn .event (e.bytes ++ [BitVec.ofNat 8 rest.length, s.host.lost])
        { s with host := { s.host with events := rest, lost := if rest = [] then 0 else s.host.lost } } := by
  unfold takeEvent
  rw [h]
  simp only [List.isEmpty_iff]

theorem exec_readEvent_of_portOpen {s : State} (hp : PortOpen s) : exec .readEvent s = .next (takeEvent s) := by
  rw [exec_readEvent, execReadEvent, immediate_of_portOpen hp]

/-! ## Postings (R179) -/

/-- A list without a KEY_CHANGED of a key. -/
def LacksKey (k : Key) (l : List Event) : Prop := ∀ x ∈ l, ∀ q, x ≠ .keyChanged k q

theorem hasKeyChanged_iff {l : List Event} {k : Key} : hasKeyChanged l k = true ↔ ∃ o, .keyChanged k o ∈ l := by
  rw [hasKeyChanged, List.any_eq_true]
  refine ⟨fun ⟨e, he, hk⟩ => ?_, fun ⟨o, ho⟩ => ⟨_, ho, beq_self_eq_true k⟩⟩
  cases e with
  | keyChanged k' o =>
    obtain rfl := beq_iff_eq.1 hk
    exact ⟨o, he⟩
  | _ => exact nomatch hk

theorem hasKeyChanged_of_lacksKey {l : List Event} {k : Key} (h : LacksKey k l) : hasKeyChanged l k = false := by
  rw [← Bool.not_eq_true, hasKeyChanged_iff]
  exact fun ⟨o, ho⟩ => h _ ho o rfl

theorem coalesce_same (k : Key) (o o' : Station) : coalesce k o (.keyChanged k o') = .keyChanged k o := if_pos rfl

theorem coalesce_other {k : Key} {e : Event} (h : ∀ q, e ≠ .keyChanged k q) (o : Station) : coalesce k o e = e := by
  cases e with
  | keyChanged k' o' => exact if_neg fun hk => h o' (congrArg (Event.keyChanged · o') hk)
  | _ => rfl

theorem map_coalesce_of_lacksKey {k : Key} {l : List Event} (h : LacksKey k l) (o : Station) :
    l.map (coalesce k o) = l :=
  (List.map_congr_left fun x hx => coalesce_other (h x hx) o).trans (List.map_id l)

/-- The one KEY_CHANGED of the key takes the new origin where it stands. -/
theorem post_of_queued {h : HostPort} {k : Key} {o' : Station} {before after : List Event}
    (hq : h.events = before ++ .keyChanged k o' :: after) (hone : LacksKey k (before ++ after)) (o : Station) :
    h.post (.keyChanged k o) = { h with events := before ++ .keyChanged k o :: after } := by
  have queued : hasKeyChanged h.events k = true := hasKeyChanged_iff.2 ⟨o', by simp [hq]⟩
  obtain ⟨hbefore, hafter⟩ := List.forall_mem_append.1 hone
  unfold HostPort.post
  dsimp only
  rw [if_pos queued, hq, List.map_append, List.map_cons, coalesce_same, map_coalesce_of_lacksKey hbefore,
    map_coalesce_of_lacksKey hafter]

theorem post_of_new {h : HostPort} {e : Event} (hnew : ∀ k o, e = .keyChanged k o → LacksKey k h.events) :
    h.post e = addEvent h e := by
  cases e with
  | keyChanged k o => exact if_neg (by simp [hasKeyChanged_of_lacksKey (hnew k o rfl)])
  | _ => rfl

theorem addEvent_of_room {h : HostPort} (hroom : h.events.length < 32) (e : Event) :
    addEvent h e = { h with events := h.events ++ [e] } := if_pos hroom

theorem addEvent_of_full {h : HostPort} (hfull : 32 ≤ h.events.length) (e : Event) :
    addEvent h e = { h with lost := if h.lost = 255 then 255 else h.lost + 1 } := by
  rw [addEvent, if_neg (Nat.not_lt.2 hfull), bumpLost]
  by_cases hlost : h.lost = 255
  · rw [if_pos hlost, if_pos hlost, hlost]
  · rw [if_neg hlost, if_neg hlost]

/-! ## HIRQ (R171, R181) -/

theorem replyReady_iff {s : State} : replyReady s = true ↔ ∃ r, s.host.reply = some r ∧ r.read = false := by
  unfold replyReady
  cases s.host.reply <;> simp

theorem hirq_iff {s : State} :
    hirq s = true ↔ Powered s ∧ (s.host.events ≠ [] ∨ ∃ r, s.host.reply = some r ∧ r.read = false) := by
  rw [hirq, Bool.and_eq_true, Bool.not_eq_true', inReset_eq_false, Bool.or_eq_true, Bool.not_eq_true', replyReady_iff,
    List.isEmpty_eq_false_iff]

/-! ## The obligation -/

/-- Settles O9: `takeEvent` by the queue, `endTxn` of an event and of any other answer, the treatments of a posting, HIRQ. -/
theorem readEventTakesTheOldest : Obligations.ReadEventTakesTheOldest := by
  refine ⟨fun s hp hnil => ?_, fun s e rest hp hcons => ⟨length_eventBytes e, ?_⟩, fun s out clocked ht => ?_,
    fun s out clocked ht => ?_, fun h k o o' before after hq hone => post_of_queued hq hone o,
    fun h e hnew => ⟨fun hroom => ?_, fun hfull => ?_⟩, fun s => hirq_iff⟩
  · rw [exec_readEvent_of_portOpen hp, takeEvent_nil hnil]
    rfl
  · rw [exec_readEvent_of_portOpen hp, takeEvent_cons hcons]
    rfl
  · rw [exec_transactionEnd_of_txn ht, endTxn_event]
  · rw [exec_transactionEnd_of_txn ht, endTxn_plain]
  · rw [post_of_new hnew, addEvent_of_room hroom]
  · rw [post_of_new hnew, addEvent_of_full hfull]

end Sys2Proof.Proofs
end

section
/-! PROOFS. The two cases of a step: the queue has a front command, or it is empty and time passes (logs 1 and 2). -/

namespace Sys2Proof.Proofs
open Sys2Proof Sys2Proof.Machine

theorem step_of_pending_cons {s : State} {c : Instr} {rest : List Instr} (h : s.pending = c :: rest) :
    step s = exec c { s with pending := rest } := by
  unfold step
  rw [h]

theorem step_of_pending_nil {s : State} (h : s.pending = []) : step s = .next (tick s) := by
  unfold step
  rw [h]

/-- Settles O1: the queue is a command before its rest, or empty. -/
theorem stepRunsTheFrontCommand : Obligations.StepRunsTheFrontCommand := by
  refine ⟨fun c rest s => ?_, fun s hempty => ?_⟩
  · exact step_of_pending_cons (s := { s with pending := c :: rest }) rfl
  · rw [step_of_pending_nil hempty, tick]

end Sys2Proof.Proofs
end
